-- ==== Sys2Proof/Word.lean ====
section
/-! DEFINITION. The word types of the block and the one update of a fixed-length table. -/

namespace Sys2Proof

/-- One byte of the register space, of a request or of a control register. -/
abbrev Byte := BitVec 8

/-- A table with entry `i` replaced (per-DPLL, per-domain and bank tables). -/
def upd {α : Type} {n : Nat} (v : Vector α n) (i : Fin n) (x : α) : Vector α n :=
  v.set i.1 x i.2

end Sys2Proof
end

