-- ==== Sys2Proof/Config.lean ====
section
/-! DEFINITION. What is fixed for the machine: the counts and constants of 00_scope.md R6 and R7, the parameters
of R8 (`Params`, held in the state as plain data and never written by a step), and the values the spec leaves
open (`Config.…`, opaque constants without a body). -/

namespace Sys2Proof

/-! ### Entity counts and constants (R6, R7) -/

def nDpll : Nat := 2
def nRef : Nat := 10
def nOut : Nat := 20
def nPair : Nat := 10
def nSynth : Nat := 5

/-- `K_1PPM`, the "1 ppm format" constant (R7). -/
def k1ppm : Int := 281474976
/-- `NS_PER_S` (R7). -/
def nsPerS : Nat := 1000000000
/-- `TIE_PER_NS`, the 0.01 ps units in a nanosecond (R7). -/
def tiePerNs : Int := 100000
/-- `PS_PER_S`, the numerator of the half cycle (R7). -/
def psPerS : Nat := 1000000000000

/-! ### Parameters (R8) -/

/-- Signal-type classification of an output pin (R8, R198). -/
inductive SignalType where
  | seInPhase
  | seNDivided
  | differential
  deriving DecidableEq, Repr, Inhabited

/-- The two DPLL roles (R8 `DPLL_ROLE`). No rule reads it. -/
inductive DpllRole where
  | eec
  | pps
  deriving DecidableEq, Repr, Inhabited

/-- A line of the firmware bootstrap script (30_encoding.md R121). -/
inductive ScriptLine where
  /-- `X,a,b`: a single-byte register write. -/
  | write (addr : BitVec 16) (b : Byte)
  /-- `W,t`: the responder and the clock step for `t` microseconds. -/
  | wait (us : Nat)
  /-- A line that begins with `;`. -/
  | comment
  deriving DecidableEq, Repr, Inhabited

/-- The parameters of R8, as plain data. A statement for every state holds for every value of them.
The pin facts are kept per PAIR, because R8 says they are "equal for the two pins of a pair". -/
structure Params where
  /-- `MB_POLL_LIMIT` (D11). -/
  mbPollLimit : Nat
  /-- `ROLLOVER_LIMIT` (D12). -/
  rolloverLimit : Nat
  /-- `PinSignalType`, of each output pair (D26, R39). -/
  signalType : Vector SignalType 10
  /-- `PinFixedRatio`, of each output pair (D26, R39). -/
  fixedRatio : Vector Bool 10
  /-- `DPLL_ROLE` (D31). -/
  dpllRole : Vector DpllRole 2
  /-- `CHIP_ID` (D2). -/
  chipId : BitVec 16
  /-- `DPLL_WIN_LEN` (D2). The window stands at 0x0310 and the next register of the map at 0x0400, so it
  is at most 240 bytes long. -/
  dpllWinLen : Fin 241
  /-- `BOOT_SCRIPT` (D30). -/
  bootScript : List ScriptLine
  deriving DecidableEq, Repr, Inhabited

/-- R8: both sample budgets are at least 1. -/
def Params.wf (p : Params) : Bool := 1 ≤ p.mbPollLimit && 1 ≤ p.rolloverLimit

/-- `PinSignalType(pin)`: a pin's signal type is its pair's. -/
def Params.pinSignalType (p : Params) (pin : Fin 20) : SignalType :=
  p.signalType.get ⟨pin.1 / 2, by omega⟩

/-- `PinFixedRatio(pin)`. -/
def Params.pinFixedRatio (p : Params) (pin : Fin 20) : Bool :=
  p.fixedRatio.get ⟨pin.1 / 2, by omega⟩

/-! ### Open values: constants without a body -/

/-- A read of an address that is unmapped (U1) or write-only (U9) gives any byte: a function of the draw
number and the address. -/
opaque Config.freeByte : Nat → Nat → Byte

/-- The TOD seconds after 2^48 − 1, and wherever a step leaves the 48-bit range, are any u48 (U11, R170,
R172, R240): a function of the draw number. -/
opaque Config.freeSec : Nat → BitVec 48

/-- The frequency a phase step is credited with when the stepped outputs have not one synthesizer frequency
(R241 does not say): a function of the draw number. -/
opaque Config.freeFreq : Nat → Nat

/-- The DPLL whose counter a phase step moves when its DPLL nibble names no DPLL (2 to 15), if it moves one (R241
latches every nibble, R98 gives a meaning to 0 and 1 alone): a function of the draw number. -/
opaque Config.freeDpll : Nat → Option (Fin 2)

/-- `PsTodStep` (R8, D36): nanoseconds by which a phase step of `u` units at frequency `f` moves the TOD. -/
opaque Config.psTodStep : Int → Nat → Int

/-- `TieTodStep` (R8, D36): nanoseconds by which a TIE step of `v` units of 0.01 ps moves the TOD. -/
opaque Config.tieTodStep : Int → Int

end Sys2Proof
end

