-- ==== Sys2Proof/Syntax.lean ====
section
/-! DEFINITION. The two instruction sets of the block as syntax: the 18 operations of the operation port
(30_encoding.md R110, R111) and the 7 register-level commands of the register port (R100), one constructor per
row of spec/opcode_table.json; and the names of the registers the controller accesses (R90). -/

namespace Sys2Proof

/-- The four mailbox domains (R6). -/
inductive Domain where
  | ref
  | dpll
  | synth
  | out
  deriving DecidableEq, Repr, Inhabited

/-- An instruction. For an operation the arguments are the operand registers the operation names: `a` is the
index byte `op.a`, `x` and `y` the 64-bit operands `op.x`, `op.y` as bit patterns; an operand its row marks "-"
is ignored (R111) and is no argument. For a register-level command the arguments say which register of
the command's row the byte is written to, and the free bits of the byte. -/
inductive Instr where
  | todGet (a : Byte)
  | todSet (a : Byte) (x y : BitVec 64)
  | steptime (a : Byte) (x : BitVec 64)
  | adjfine (a : Byte) (x : BitVec 64)
  | adjphase (a : Byte) (x : BitVec 64)
  | synthFreqGet (a : Byte)
  | refFreqGet (a : Byte)
  | refFreqSet (a : Byte) (x : BitVec 64)
  | outFreqGet (a : Byte)
  | outFreqSet (a : Byte) (x : BitVec 64)
  | refPhaseCompGet (a : Byte)
  | refPhaseCompSet (a : Byte) (x : BitVec 64)
  | outPhaseCompGet (a : Byte)
  | outPhaseCompSet (a : Byte) (x : BitVec 64)
  | pinEnable (a : Byte)
  | pinDisable (a : Byte)
  | peroutEnable (a : Byte) (x y : BitVec 64)
  | peroutDisable (a : Byte)
  | mbReqWrite (d : Domain)
  | mbReqRead (d : Domain)
  | todCmdRead (i : Fin 2)
  | todCmdReadNext1Hz (i : Fin 2)
  | todCmdWriteNext1Hz (i : Fin 2)
  | tieCmdWrite
  | psCmdWrite (dpll : BitVec 4) (todStep : Bool)
  deriving DecidableEq, Repr, Inhabited

/-- The registers of the map (R90) that the controller reads or writes, each by one access of its own width
(R70). The Dpll data window `DPLL_WIN` is a byte range (`dpllWinBase`), which no operation accesses (R136). -/
inductive Reg where
  | chipId
  | todCtrl (i : Fin 2)
  | todSec (i : Fin 2)
  | todNs (i : Fin 2)
  | dfOffset (i : Fin 2)
  | tieData (i : Fin 2)
  | tieCtrl
  | tieMask
  | psCtrl
  | psCount
  | psMask
  | psData
  | mbMask (d : Domain)
  | mbSem (d : Domain)
  | refFreqBase
  | refFreqMult
  | refRatioM
  | refRatioN
  | refPhaseComp
  | synthFreqBase
  | synthFreqMult
  | synthRatioM
  | synthRatioN
  | outSynthSel
  | outSignalFmt
  | outDiv
  | outNdiv
  | outPhaseComp
  deriving DecidableEq, Repr, Inhabited

/-- Access of a mapped register (R90): `rw`, read only (a write is ignored), write only (a read returns any
value). -/
inductive Access where
  | rw
  | ro
  | wo
  deriving DecidableEq, Repr, Inhabited

/-- What stands on one of the two ports: an 18-byte operation request on the operation port (R110), or one
byte written to one register address on the register port (R100, R121). -/
inductive Packet where
  | request (bytes : List Byte)
  | regWrite (addr : BitVec 16) (b : Byte)
  deriving DecidableEq, Repr

end Sys2Proof
end

