-- ==== Sys2Proof/WellFormed.lean ====
section
/-! DEFINITION. Which instruction terms name what they act on: the one field wider than the values the spec gives a
meaning is the DPLL nibble of the phase-step command. -/

namespace Sys2Proof

/-- Well-formedness. Every value of an operation's operands has an encoding, and an operation with an operand
out of range is a request the controller accepts and answers with `InvalidArgument` (R113), so it is well
formed. The phase-step command's DPLL nibble holds a DPLL index, 0 or 1 (R98, R100); a command with another nibble
is decoded and runs (log entry 25), but names no DPLL. -/
def Instr.wf : Instr → Bool
  | .todGet _ => true
  | .todSet _ _ _ => true
  | .steptime _ _ => true
  | .adjfine _ _ => true
  | .adjphase _ _ => true
  | .synthFreqGet _ => true
  | .refFreqGet _ => true
  | .refFreqSet _ _ => true
  | .outFreqGet _ => true
  | .outFreqSet _ _ => true
  | .refPhaseCompGet _ => true
  | .refPhaseCompSet _ _ => true
  | .outPhaseCompGet _ => true
  | .outPhaseCompSet _ _ => true
  | .pinEnable _ => true
  | .pinDisable _ => true
  | .peroutEnable _ _ _ => true
  | .peroutDisable _ => true
  | .mbReqWrite _ => true
  | .mbReqRead _ => true
  | .todCmdRead _ => true
  | .todCmdReadNext1Hz _ => true
  | .todCmdWriteNext1Hz _ => true
  | .tieCmdWrite => true
  | .psCmdWrite dpll _ => decide (dpll.toNat < 2)

end Sys2Proof
end

