-- ==== Sys2Proof/Decode.lean ====
section
/-! DEFINITION. Encodings: byte order (20_memory.md R62 to R65), the register map (30_encoding.md R90), the
request format (R110, R111) and the command bytes (R100); the decoder of both ports, total on any bytes and
rejecting by name; and the encoder, written from the same tables. -/

namespace Sys2Proof

/-! ### Byte order -/

/-- The little-endian bytes of `v`, `n` of them: the controller's own buffer order (R62, R64). -/
def leBytes : Nat → Nat → List Byte
  | 0, _ => []
  | n + 1, v => BitVec.ofNat 8 v :: leBytes n (v / 256)

/-- The big-endian bytes of `v`, `n` of them: the device image and the request's operand order (R68, R110). -/
def beBytes : Nat → Nat → List Byte
  | 0, _ => []
  | n + 1, v => BitVec.ofNat 8 (v / 256 ^ n) :: beBytes n v

/-- The value of a byte sequence whose first byte is the most significant (R65). -/
def beVal : List Byte → Nat
  | [] => 0
  | b :: bs => b.toNat * 256 ^ bs.length + beVal bs

/-- The 64-bit operand or result field held big-endian in the first 8 bytes of `bs` (R110). -/
def field64 (bs : List Byte) : BitVec 64 := BitVec.ofNat 64 (beVal (bs.take 8))

/-! ### The register map (R90) -/

/-- Number of sub-resources of a mailbox domain (R6, R33, R92). -/
abbrev Domain.count : Domain → Nat
  | .ref => 10
  | .dpll => 2
  | .synth => 5
  | .out => 10

/-- Position of a domain in a per-domain table. -/
def Domain.idx : Domain → Fin 4
  | .ref => 0
  | .dpll => 1
  | .synth => 2
  | .out => 3

/-- First address of the Dpll data window `DPLL_WIN` (R90). -/
def dpllWinBase : Nat := 0x0310

/-- First address of a domain's data window (R90). -/
def Domain.winBase : Domain → Nat
  | .ref => 0x0210
  | .dpll => dpllWinBase
  | .synth => 0x0410
  | .out => 0x0510

/-- Address of a register (R90). -/
def Reg.addr : Reg → Nat
  | .chipId => 0x0000
  | .todCtrl i => 0x0100 + i.1
  | .todSec i => 0x0110 + 0x10 * i.1
  | .todNs i => 0x0116 + 0x10 * i.1
  | .dfOffset i => 0x0140 + 0x08 * i.1
  | .tieData i => 0x0150 + 0x08 * i.1
  | .tieCtrl => 0x0160
  | .tieMask => 0x0161
  | .psCtrl => 0x0170
  | .psCount => 0x0171
  | .psMask => 0x0172
  | .psData => 0x0174
  | .mbMask .ref => 0x0200
  | .mbSem .ref => 0x0202
  | .refFreqBase => 0x0210
  | .refFreqMult => 0x0212
  | .refRatioM => 0x0216
  | .refRatioN => 0x0218
  | .refPhaseComp => 0x021A
  | .mbMask .dpll => 0x0300
  | .mbSem .dpll => 0x0302
  | .mbMask .synth => 0x0400
  | .mbSem .synth => 0x0402
  | .synthFreqBase => 0x0410
  | .synthFreqMult => 0x0412
  | .synthRatioM => 0x0416
  | .synthRatioN => 0x0418
  | .mbMask .out => 0x0500
  | .mbSem .out => 0x0502
  | .outSynthSel => 0x0510
  | .outSignalFmt => 0x0511
  | .outDiv => 0x0512
  | .outNdiv => 0x0516
  | .outPhaseComp => 0x051A

/-- Width of a register in bytes (R90, R70). -/
def Reg.width : Reg → Nat
  | .chipId => 2
  | .todCtrl _ => 1
  | .todSec _ => 6
  | .todNs _ => 6
  | .dfOffset _ => 6
  | .tieData _ => 6
  | .tieCtrl => 1
  | .tieMask => 1
  | .psCtrl => 1
  | .psCount => 1
  | .psMask => 2
  | .psData => 4
  | .mbMask .ref => 2
  | .mbMask .dpll => 1
  | .mbMask .synth => 1
  | .mbMask .out => 2
  | .mbSem _ => 1
  | .refFreqBase => 2
  | .refFreqMult => 4
  | .refRatioM => 2
  | .refRatioN => 2
  | .refPhaseComp => 6
  | .synthFreqBase => 2
  | .synthFreqMult => 4
  | .synthRatioM => 2
  | .synthRatioN => 2
  | .outSynthSel => 1
  | .outSignalFmt => 1
  | .outDiv => 4
  | .outNdiv => 4
  | .outPhaseComp => 4

/-- Access of a register (R90). -/
def Reg.access : Reg → Access
  | .chipId => .ro
  | .dfOffset _ => .wo
  | _ => .rw

/-- The rows of the register map. -/
def Reg.all : List Reg :=
  [.chipId, .todCtrl 0, .todCtrl 1, .todSec 0, .todNs 0, .todSec 1, .todNs 1, .dfOffset 0, .dfOffset 1,
    .tieData 0, .tieData 1, .tieCtrl, .tieMask, .psCtrl, .psCount, .psMask, .psData] ++
  [.mbMask .ref, .mbSem .ref, .refFreqBase, .refFreqMult, .refRatioM, .refRatioN, .refPhaseComp,
    .mbMask .dpll, .mbSem .dpll] ++
  [.mbMask .synth, .mbSem .synth, .synthFreqBase, .synthFreqMult, .synthRatioM, .synthRatioN,
    .mbMask .out, .mbSem .out, .outSynthSel, .outSignalFmt, .outDiv, .outNdiv, .outPhaseComp]

/-- Does the register `r` occupy the byte address `addr`? -/
def Reg.covers (r : Reg) (addr : Nat) : Bool := r.addr ≤ addr && addr < r.addr + r.width

/-- The register that occupies a byte address, if one does. -/
def regAt (addr : Nat) : Option Reg := Reg.all.find? (fun r => r.covers addr)

/-- Does a byte address lie in the Dpll data window, which is `DPLL_WIN_LEN` bytes long? -/
def inDpllWin (p : Params) (addr : Nat) : Bool :=
  dpllWinBase ≤ addr && addr < dpllWinBase + p.dpllWinLen.1

/-- Access of a byte address; none where it is unmapped (R61, R90). -/
def accessAt (p : Params) (addr : Nat) : Option Access :=
  match regAt addr with
  | some r => some r.access
  | none => if inDpllWin p addr then some .rw else none

/-! ### Operation codes (R111) -/

namespace Opcode
def todGet : Byte := 0x10
def todSet : Byte := 0x11
def steptime : Byte := 0x12
def adjfine : Byte := 0x13
def adjphase : Byte := 0x14
def synthFreqGet : Byte := 0x20
def refFreqGet : Byte := 0x21
def refFreqSet : Byte := 0x22
def outFreqGet : Byte := 0x23
def outFreqSet : Byte := 0x24
def refPhaseCompGet : Byte := 0x30
def refPhaseCompSet : Byte := 0x31
def outPhaseCompGet : Byte := 0x32
def outPhaseCompSet : Byte := 0x33
def pinEnable : Byte := 0x40
def pinDisable : Byte := 0x41
def peroutEnable : Byte := 0x42
def peroutDisable : Byte := 0x43
end Opcode

/-! ### Decoding -/

/-- Why bytes are not an instruction. -/
inductive DecodeError where
  /-- An operation request is 18 bytes (R110). -/
  | wrongLength (n : Nat)
  /-- An opcode with no row in R111; the request is accepted and ends with `InvalidArgument` (R112). -/
  | reservedOpcode (op : Byte)
  /-- A register write to an address that holds no control byte: plain data, no command (R100). -/
  | notControlRegister (addr : BitVec 16)
  /-- A control byte with no row in R100 for that register: reserved, or no request bit set (R101). -/
  | noCommand (addr : BitVec 16) (b : Byte)
  deriving DecidableEq, Repr

/-- An operation from its opcode and operand fields (R111). -/
def decodeOp (op a : Byte) (x y : BitVec 64) : Except DecodeError Instr :=
  if op = Opcode.todGet then .ok (.todGet a)
  else if op = Opcode.todSet then .ok (.todSet a x y)
  else if op = Opcode.steptime then .ok (.steptime a x)
  else if op = Opcode.adjfine then .ok (.adjfine a x)
  else if op = Opcode.adjphase then .ok (.adjphase a x)
  else if op = Opcode.synthFreqGet then .ok (.synthFreqGet a)
  else if op = Opcode.refFreqGet then .ok (.refFreqGet a)
  else if op = Opcode.refFreqSet then .ok (.refFreqSet a x)
  else if op = Opcode.outFreqGet then .ok (.outFreqGet a)
  else if op = Opcode.outFreqSet then .ok (.outFreqSet a x)
  else if op = Opcode.refPhaseCompGet then .ok (.refPhaseCompGet a)
  else if op = Opcode.refPhaseCompSet then .ok (.refPhaseCompSet a x)
  else if op = Opcode.outPhaseCompGet then .ok (.outPhaseCompGet a)
  else if op = Opcode.outPhaseCompSet then .ok (.outPhaseCompSet a x)
  else if op = Opcode.pinEnable then .ok (.pinEnable a)
  else if op = Opcode.pinDisable then .ok (.pinDisable a)
  else if op = Opcode.peroutEnable then .ok (.peroutEnable a x y)
  else if op = Opcode.peroutDisable then .ok (.peroutDisable a)
  else .error (.reservedOpcode op)

/-- Operand fields of a request (R110): byte 0 the opcode, byte 1 `a`, bytes 2..9 `x`, bytes 10..17 `y`. -/
def reqOpcode (bs : List Byte) : Byte := bs.headD 0
def reqA (bs : List Byte) : Byte := (bs.drop 1).headD 0
def reqX (bs : List Byte) : BitVec 64 := field64 (bs.drop 2)
def reqY (bs : List Byte) : BitVec 64 := field64 (bs.drop 10)

/-- Decode an operation request (R110 to R112). -/
def decodeRequest (bs : List Byte) : Except DecodeError Instr :=
  if bs.length = 18 then decodeOp (reqOpcode bs) (reqA bs) (reqX bs) (reqY bs)
  else .error (.wrongLength bs.length)

/-- The DPLL nibble (bits 7..4) of a phase-step control byte (R98). -/
def psDpllField (b : Byte) : BitVec 4 := b.extractLsb' 4 4

/-- Decode a control byte written to a register address (R100). -/
def decodeCtrl (addr : BitVec 16) (b : Byte) : Except DecodeError Instr :=
  match regAt addr.toNat with
  | some (.mbSem d) =>
    if b = 0x01 then .ok (.mbReqWrite d)
    else if b = 0x02 then .ok (.mbReqRead d)
    else .error (.noCommand addr b)
  | some (.todCtrl i) =>
    if b = 0x11 then .ok (.todCmdRead i)
    else if b = 0x12 then .ok (.todCmdReadNext1Hz i)
    else if b = 0x13 then .ok (.todCmdWriteNext1Hz i)
    else .error (.noCommand addr b)
  | some .tieCtrl => if b = 0x01 then .ok .tieCmdWrite else .error (.noCommand addr b)
  | some .psCtrl =>
    if b &&& 0x07 = 0x01 then .ok (.psCmdWrite (psDpllField b) (b.getLsbD 3)) else .error (.noCommand addr b)
  | _ => .error (.notControlRegister addr)

/-- Decode what stands on a port. -/
def decode : Packet → Except DecodeError Instr
  | .request bs => decodeRequest bs
  | .regWrite addr b => decodeCtrl addr b

/-! ### Encoding -/

/-- The 18 bytes of a request (R110). -/
def requestBytes (op a : Byte) (x y : BitVec 64) : List Byte :=
  op :: a :: (beBytes 8 x.toNat ++ beBytes 8 y.toNat)

/-- A register write of one byte. -/
def ctrlWrite (r : Reg) (b : Byte) : Packet := .regWrite (BitVec.ofNat 16 r.addr) b

/-- The phase-step control byte `ddddt001` (R98, R100). -/
def psCtrlByte (dpll : BitVec 4) (todStep : Bool) : Byte := dpll ++ BitVec.ofBool todStep ++ 1#3

/-- The words of an instruction (R100, R110, R111); an operand a row marks "-" is written 0. -/
def encode : Instr → Packet
  | .todGet a => .request (requestBytes Opcode.todGet a 0 0)
  | .todSet a x y => .request (requestBytes Opcode.todSet a x y)
  | .steptime a x => .request (requestBytes Opcode.steptime a x 0)
  | .adjfine a x => .request (requestBytes Opcode.adjfine a x 0)
  | .adjphase a x => .request (requestBytes Opcode.adjphase a x 0)
  | .synthFreqGet a => .request (requestBytes Opcode.synthFreqGet a 0 0)
  | .refFreqGet a => .request (requestBytes Opcode.refFreqGet a 0 0)
  | .refFreqSet a x => .request (requestBytes Opcode.refFreqSet a x 0)
  | .outFreqGet a => .request (requestBytes Opcode.outFreqGet a 0 0)
  | .outFreqSet a x => .request (requestBytes Opcode.outFreqSet a x 0)
  | .refPhaseCompGet a => .request (requestBytes Opcode.refPhaseCompGet a 0 0)
  | .refPhaseCompSet a x => .request (requestBytes Opcode.refPhaseCompSet a x 0)
  | .outPhaseCompGet a => .request (requestBytes Opcode.outPhaseCompGet a 0 0)
  | .outPhaseCompSet a x => .request (requestBytes Opcode.outPhaseCompSet a x 0)
  | .pinEnable a => .request (requestBytes Opcode.pinEnable a 0 0)
  | .pinDisable a => .request (requestBytes Opcode.pinDisable a 0 0)
  | .peroutEnable a x y => .request (requestBytes Opcode.peroutEnable a x y)
  | .peroutDisable a => .request (requestBytes Opcode.peroutDisable a 0 0)
  | .mbReqWrite d => ctrlWrite (.mbSem d) 0x01
  | .mbReqRead d => ctrlWrite (.mbSem d) 0x02
  | .todCmdRead i => ctrlWrite (.todCtrl i) 0x11
  | .todCmdReadNext1Hz i => ctrlWrite (.todCtrl i) 0x12
  | .todCmdWriteNext1Hz i => ctrlWrite (.todCtrl i) 0x13
  | .tieCmdWrite => ctrlWrite .tieCtrl 0x01
  | .psCmdWrite dpll t => ctrlWrite .psCtrl (psCtrlByte dpll t)

/-! ### The opcode table's words

The table numbers the bits of byte 0 of a row. A CTRL8 row and an OPREQ18 row can have the same byte: the table
does not say which port it stands on. The convention here (log entry 13): the byte is read as the first byte of
an operation request whose other 17 bytes are as the word gives them; where that byte is no opcode and the word
is one byte long, it is read as a control byte, of the first register below that has a command with it. -/

/-- The 18 bytes of a table word, first byte least significant. -/
def tableBytes (w : Nat) : List Byte := leBytes 18 w

/-- Registers a bare control byte is tried on, in this order. -/
def ctrlPorts : List Reg := [.mbSem .ref, .todCtrl 0, .tieCtrl, .psCtrl]

/-- Where a table word stands. -/
def placeWord (nbits w : Nat) : Packet :=
  let bs := tableBytes (w % 2 ^ nbits)
  match decodeRequest bs with
  | .ok _ => .request bs
  | .error _ =>
    if nbits ≤ 8 then
      match ctrlPorts.find? (fun r => (decode (ctrlWrite r (bs.headD 0))).toBool) with
      | some r => ctrlWrite r (bs.headD 0)
      | none => .request bs
    else .request bs

/-- The instruction the decoder reads from a table word. -/
def decodeTableWord (nbits w : Nat) : Option Instr := (decode (placeWord nbits w)).toOption

end Sys2Proof
end

