-- ==== Sys2Proof/Machine/State.lean ====
section
/-! DEFINITION. The state of the machine as plain data: the controller (10_state.md R22 to R29), the operation
port with what its callers have submitted, the ASIC register side (R31 to R37), and the schedule of the
responder and the clock (R24); the reasons a step can stop; and the state after reset (R40). -/

namespace Sys2Proof.Machine

/-! ### Controller -/

/-- `ctl.lock` (R22): free, or held by a caller. -/
inductive Lock where
  | free
  | held (c : Nat)
  deriving DecidableEq, Repr, Inhabited

/-- `ctl.phase` (R25): idle, or busy with an opcode. -/
inductive Phase where
  | idle
  | busy (opcode : Byte)
  deriving DecidableEq, Repr, Inhabited

/-- The procedures and operations whose pseudocode has lines of its own in the sequence position. The formulas with a
block of their own (R163, R190, R220, R224, R229, R251, R254, R256), which reach neither a register nor `ctl`, are not
among them: each is evaluated within the line that calls it, the model's choice (log entry 6). -/
inductive Proc where
  | pollClear
  | mbRead
  | mbWrite
  | todRead
  | todWrite
  | todWaitApplied
  | rolloverWait
  | synthFreq
  | outSynthFreq
  | outFreq
  | phaseStep
  | todGet
  | todSet
  | steptime
  | adjfine
  | adjphase
  | synthFreqGet
  | refFreqGet
  | refFreqSet
  | outFreqGet
  | outFreqSet
  | refPhaseCompGet
  | refPhaseCompSet
  | outPhaseCompGet
  | outPhaseCompSet
  | pinEnable
  | pinDisable
  | peroutEnable
  | peroutDisable
  deriving DecidableEq, Repr, Inhabited

/-- A line of a procedure's pseudocode: the `n`-th line of its rule's block, counted from 1. -/
structure Line where
  proc : Proc
  n : Nat
  deriving DecidableEq, Repr, Inhabited

/-- The state of a DPLL's TOD state machine within an operation (R25, R160). -/
inductive TodPhase where
  | idle
  | commandIssued
  deriving DecidableEq, Repr, Inhabited

/-- The controller's registers (R22, R25, R27 to R29). -/
structure Ctl where
  lock : Lock
  phase : Phase
  /-- `ctl.seq` (R28): the pseudocode step performed next, as the line of the operation and, within a sub-procedure
  it calls, the line of that sub-procedure, and so on. No agent reads it. -/
  seq : List Line
  /-- The scratch values of the running operation (R27), oldest first: what each step it has performed answered
  (the value of a read; 0 for any other step). -/
  scratch : List Nat
  /-- The TOD sub-state of each DPLL within `Busy` (R25, R160). -/
  tod : Vector TodPhase 2
  /-- `ctl.perout[i]` (R29). -/
  perout : Vector (BitVec 16) 2
  deriving DecidableEq, Repr, Inhabited

/-- The operand registers of the operation port (R26). -/
structure OpRegs where
  opcode : Byte
  a : Byte
  x : BitVec 64
  y : BitVec 64
  deriving DecidableEq, Repr, Inhabited

/-- The result registers of the operation port (R26). -/
structure ResRegs where
  status : Byte
  x : BitVec 64
  y : BitVec 64
  deriving DecidableEq, Repr, Inhabited

/-- The life of the device (R21, R332, R334): the bootstrap script runs after attach and before the first
operation; a transport failure in it leaves the device unattached; detach ends it. -/
inductive Dev where
  | booting
  | attached
  | bootFailed
  | detached
  deriving DecidableEq, Repr, Inhabited

/-! ### ASIC register side -/

/-- Register storage: (address, byte) pairs in the canonical form of `Memory.wf` (Machine/Memory.lean). -/
abbrev Memory := List Host.Cell

/-- `mb_req[Dom]` (R34). -/
inductive MbReq where
  | none
  | read (m : BitVec 16)
  | write (m : BitVec 16)
  deriving DecidableEq, Repr, Inhabited

/-- `bank.Ref[r]` (R33). -/
structure RefBank where
  base : BitVec 16
  mult : BitVec 32
  m : BitVec 16
  n : BitVec 16
  phaseComp : BitVec 48
  deriving DecidableEq, Repr, Inhabited

/-- `bank.Synth[s]` (R33). -/
structure SynthBank where
  base : BitVec 16
  mult : BitVec 32
  m : BitVec 16
  n : BitVec 16
  deriving DecidableEq, Repr, Inhabited

/-- `bank.Out[p]` (R33). -/
structure OutBank where
  synthSel : Byte
  signalFmt : Byte
  div : BitVec 32
  ndiv : BitVec 32
  phaseComp : BitVec 32
  deriving DecidableEq, Repr, Inhabited

/-- A time of day (R35). -/
structure Tod where
  sec : BitVec 48
  ns : BitVec 32
  deriving DecidableEq, Repr, Inhabited

/-- `tie_pend` (R36, R240): the DPLL mask and, for each selected DPLL, its latched 48-bit value. -/
structure TieLatch where
  m : Byte
  v : Vector (Option (BitVec 48)) 2
  deriving DecidableEq, Repr, Inhabited

/-- `ps_pend` (R36, R241): DPLL nibble, TOD flag, pair mask, step value and step count. -/
structure PsLatch where
  d : BitVec 4
  t : Bool
  m : BitVec 16
  u : BitVec 32
  c : Byte
  deriving DecidableEq, Repr, Inhabited

/-- The responder's and the clocks' state (R31 to R37). The controller reaches it only through the register
port, and it reaches nothing of the controller (R24). -/
structure Asic where
  /-- `reg[a]` (R31). -/
  regs : Memory
  /-- `mb_req` of each domain, at `Domain.idx`. -/
  mbReq : Vector MbReq 4
  bankRef : Vector RefBank 10
  /-- `bank.Dpll[d]`: an uninterpreted byte image (R33). -/
  bankDpll : Vector (List Byte) 2
  bankSynth : Vector SynthBank 5
  bankOut : Vector OutBank 10
  /-- `tod[i]` (R35). -/
  tod : Vector Tod 2
  /-- `tod_pend[i]` (R35). -/
  todPend : Vector (Option Tod) 2
  tiePend : Option TieLatch
  psPend : Option PsLatch
  /-- The model's own counter of drawn open values (Config.lean). -/
  draws : Nat
  deriving DecidableEq, Repr, Inhabited

/-! ### Schedule of the responder and the clock -/

/-- One step of the responder or of a clock (R20). A move whose step is not enabled changes nothing. -/
inductive Move where
  /-- Acknowledge a domain's mailbox request (R140). -/
  | mbAck (d : Domain)
  /-- Acknowledge a READ or READ_NEXT_1HZ command (R171, R172). -/
  | todAck (i : Fin 2)
  /-- Perform a TIE write (R240). -/
  | tieAck
  /-- Perform a phase step (R241). -/
  | psAck
  /-- Advance a TOD counter within its second (R170). -/
  | advance (i : Fin 2) (ns : BitVec 32)
  /-- A 1PPS edge (R170). -/
  | edge (i : Fin 2)
  /-- The ASIC's firmware reprograms a synthesizer (R141). -/
  | reprogram (k : Fin 5) (b : SynthBank)
  deriving DecidableEq, Repr, Inhabited

/-- How an access fails (R66, D33): which bytes of a write took their new value all the same (a byte `landed` does
not name kept its old), and whether a WRITE_NEXT_1HZ command it carried was triggered, which does not follow from
whether its byte landed. -/
structure Failure where
  landed : List Bool
  raised : Bool
  deriving DecidableEq, Repr, Inhabited

/-- What happens at one register-port access: the moves taken just before it, and whether and how it fails (R66). -/
structure Slot where
  moves : List Move
  fail : Option Failure
  deriving DecidableEq, Repr, Inhabited

/-- The schedule: one slot for each coming access, then `rest` for every access after those. It is an input of
the machine; a statement for every state holds for every schedule. -/
structure Env where
  slots : List Slot
  rest : Slot
  deriving DecidableEq, Repr, Inhabited

/-! ### Operation port -/

/-- What arrives at the device from outside, in the order in which the device takes it: a caller's 18-byte
request (R110), a detach, or a new attach, which finds the ASIC register side in some state (R330). -/
inductive PortEvent where
  | request (caller : Nat) (bytes : Vector Byte 18)
  | detach
  | attach (asic : Asic)
  deriving DecidableEq, Repr, Inhabited

/-! ### State -/

/-- The whole machine. -/
structure State where
  /-- Parameters (00_scope.md R8); no step writes them. -/
  par : Params
  dev : Dev
  /-- Script lines still to run (70_reset_and_hazards.md R332). -/
  boot : List ScriptLine
  ctl : Ctl
  op : OpRegs
  res : ResRegs
  /-- The caller the last result was delivered to (60_exceptions.md R301). -/
  resTo : Option Nat
  /-- Arrivals at the operation port not yet taken. -/
  port : List PortEvent
  asic : Asic
  env : Env
  deriving DecidableEq, Repr, Inhabited

/-! ### Reasons to stop -/

/-- Faults (60_exceptions.md R309, 93_implementation_defined.md U27): the responder would latch a control value
the spec gives no meaning. No operation raises one: the controller never writes such a value. They are raised
by a bootstrap script line, or by a register-level command issued by itself with a mask that has no meaning. Each
is safe: the machine stops where the ASIC would go on. -/
inductive Fault where
  /-- A reserved value written to a mailbox semaphore, or 0 while its request is pending (U4, U5, R101). -/
  | reservedMailboxSem
  /-- A mailbox request latched with a mask the spec gives no meaning: a read with a zero or multi-hot mask, a
  write with a zero mask, a bit at or above the domain's count (U6, R140). -/
  | mailboxMask
  /-- A reserved value written to a TOD control byte (U4, U7, R174). -/
  | reservedTodCommand
  /-- A reserved value written to the TIE control byte (U4, U8, R101). -/
  | reservedTieCommand
  /-- A reserved op-code, or the reserved bit, written to the phase-step control byte (U4, U8, R101). -/
  | reservedPhaseStepCommand
  deriving DecidableEq, Repr, Inhabited

/-- Refusals: steps the model does not admit. Each is safe. -/
inductive Refusal where
  /-- Raised by an arm of `exec` whose instruction has no meaning yet. -/
  | notModelled (mnemonic : String)
  /-- Raised by a detach while an operation holds the lock (U23, R334). -/
  | detachWhileHeld
  deriving DecidableEq, Repr, Inhabited

/-! ### Reset -/

/-- Every responder request is performed as soon as it is pending, and no access fails: the "prompt" responder
of 95_test_vectors.md section 3. The clocks do not move. -/
def Slot.prompt : Slot where
  moves := [.mbAck .ref, .mbAck .dpll, .mbAck .synth, .mbAck .out, .todAck 0, .todAck 1, .tieAck, .psAck]
  fail := none

/-- The schedule in which the responder is prompt for ever. -/
def Env.prompt : Env := ⟨[], Slot.prompt⟩

/-- Parameters at reset: the defaults of R8, and log entry 2's choice where R8 says OPEN. -/
def Params.reset : Params where
  mbPollLimit := 10000000
  rolloverLimit := 200
  signalType := .replicate 10 .seInPhase
  fixedRatio := .replicate 10 false
  dpllRole := #v[.eec, .pps]
  chipId := 0
  dpllWinLen := 16
  bootScript := []

/-- The ASIC register side at reset: unspecified by R40; log entry 3 names the values. -/
def Asic.reset : Asic where
  regs := []
  mbReq := .replicate 4 .none
  bankRef := .replicate 10 ⟨0, 0, 0, 0, 0⟩
  bankDpll := .replicate 2 (List.replicate 16 0)
  bankSynth := .replicate 5 ⟨0, 0, 0, 0⟩
  bankOut := .replicate 10 ⟨0, 0, 0, 0, 0⟩
  tod := .replicate 2 ⟨0, 0⟩
  todPend := .replicate 2 none
  tiePend := none
  psPend := none
  draws := 0

/-- The controller at attach (R40, D30). -/
def Ctl.reset : Ctl where
  lock := .free
  phase := .idle
  seq := []
  scratch := []
  tod := .replicate 2 .idle
  perout := .replicate 2 0

/-- The machine right after device attach (R330, R40), its bootstrap script still to run. -/
def State.reset : State where
  par := Params.reset
  dev := .booting
  boot := Params.reset.bootScript
  ctl := Ctl.reset
  op := ⟨0, 0, 0, 0⟩
  res := ⟨0, 0, 0⟩
  resTo := none
  port := []
  asic := Asic.reset
  env := Env.prompt

end Sys2Proof.Machine
end

