-- ==== Sys2Proof/Machine/Memory.lean ====
section
/-! DEFINITION. Register storage `reg[a]` (10_state.md R31): reading and writing bytes and big-endian values. -/

namespace Sys2Proof.Machine

/-- What a byte nothing has written reads as (log entry 4): 0, but for the low byte of the four selection masks,
which reads 1, so that each mask is one-hot, as a mask must be for a request to mean anything (R92, R140). -/
def Memory.unlisted (addr : Nat) : Byte :=
  if addr = 0x0201 ∨ addr = 0x0300 ∨ addr = 0x0400 ∨ addr = 0x0501 then 1 else 0

/-- The byte at an address. -/
def Memory.get : Memory → Nat → Byte
  | [], addr => Memory.unlisted addr
  | c :: cs, addr => if c.1 = addr then c.2 else Memory.get cs addr

/-- Insert a cell before the first cell of a higher address. -/
def Memory.insert (c : Host.Cell) : Memory → Memory
  | [] => [c]
  | d :: ds => if c.1 < d.1 then c :: d :: ds else d :: Memory.insert c ds

/-- Write the byte at an address, keeping the canonical form: the address is listed once, or not at all where the
byte is what an unlisted address reads as. -/
def Memory.set (m : Memory) (addr : Nat) (b : Byte) : Memory :=
  if b = Memory.unlisted addr then m.filter (fun c => c.1 ≠ addr)
  else Memory.insert (addr, b) (m.filter (fun c => c.1 ≠ addr))

/-- The canonical form: addresses strictly rising, and no cell equal to what its address reads as unlisted. -/
def Memory.wf : Memory → Bool
  | [] => true
  | c :: cs => decide (c.2 ≠ Memory.unlisted c.1) && cs.all (fun d => decide (c.1 < d.1)) && Memory.wf cs

/-- The bytes at `addr .. addr + n − 1`, lowest address first. -/
def Memory.bytes (m : Memory) (addr : Nat) : Nat → List Byte
  | 0 => []
  | n + 1 => m.get addr :: Memory.bytes m (addr + 1) n

/-- Write bytes from `addr` up, lowest address first. -/
def Memory.setBytes (m : Memory) (addr : Nat) : List Byte → Memory
  | [] => m
  | b :: bs => Memory.setBytes (m.set addr b) (addr + 1) bs

/-- The unsigned big-endian value of a register's bytes (R68). -/
def Memory.value (m : Memory) (r : Reg) : Nat := beVal (m.bytes r.addr r.width)

/-- `MemImage(r) <- v` (41_tod.md R171): a register's bytes set to `v`, big-endian. -/
def Memory.setValue (m : Memory) (r : Reg) (v : Nat) : Memory := m.setBytes r.addr (beBytes r.width v)

end Sys2Proof.Machine
end

