-- ==== Sys2Proof/Machine/Operands.lean ====
section
/-! DEFINITION. Operands and number formats: the notation of 00_scope.md R10 and R11, the shared sign-extension
and negation utility of R16, and the clock-math formulas of files 41 to 45 as exact functions of integers (R15).
A formula that can raise an error is in the file of its operation family. -/

namespace Sys2Proof.Machine

/-! ### Notation (R10, R11) -/

/-- `twos_N(v) = v mod 2^N`: the N-bit two's complement pattern of `v`. -/
def twos (n : Nat) (v : Int) : Nat := (v % 2 ^ n).toNat

/-- `sval_N(b)`: the two's complement value of an N-bit pattern. -/
def sval (n : Nat) (b : Nat) : Int := if b.testBit (n - 1) then (b : Int) - 2 ^ n else b

/-- `tdiv(a, b)`, rounded toward zero. -/
def tdiv (a b : Int) : Int := a.tdiv b

/-- `trem(a, b)`, with the sign of `a`. -/
def trem (a b : Int) : Int := a.tmod b

/-- `fdiv(a, b)`, rounded toward negative infinity. -/
def fdiv (a b : Int) : Int := a.fdiv b

/-- `asr(v, k)`, the arithmetic right shift. -/
def asr (v : Int) (k : Nat) : Int := fdiv v (2 ^ k)

/-- Does an integer fit s32? -/
def fitsS32 (v : Int) : Bool := decide (-2 ^ 31 ≤ v) && decide (v < 2 ^ 31)

/-- Is an integer a u48? -/
def fitsU48 (v : Int) : Bool := decide (0 ≤ v) && decide (v < 2 ^ 48)

/-! ### Index operands (R110, R113) -/

/-- The high nibble of `op.a`, a DPLL index in `{dpll, pair}`. -/
def dpllNibble (a : Byte) : Nat := (a.extractLsb' 4 4).toNat

/-- The low nibble of `op.a`, a pair index in `{dpll, pair}`. -/
def pairNibble (a : Byte) : Nat := (a.extractLsb' 0 4).toNat

/-- `pair(pin) = floor(pin / 2)` (R6). -/
def pairOf (pin : Fin 20) : Fin 10 := ⟨pin.1 / 2, by omega⟩

/-- The even pin of a pair is its P half, the odd pin its N half (R198, R271). -/
def isNHalf (pin : Fin 20) : Bool := pin.1 % 2 == 1

/-! ### Time of day (41_tod.md) -/

/-- `Normalize(sec, ns)` (R163). -/
def normalize (sec ns : Nat) : Nat × Nat := (sec + ns / nsPerS, ns % nsPerS)

/-- Nanoseconds of a 6-byte `TOD_NS` value `b`: `b[47:16]` (R95, R162). -/
def nsOfImage (b : Nat) : Nat := b / 2 ^ 16 % 2 ^ 32

/-- The 6-byte `TOD_NS` value of `ns`, its reserved bytes 0 (R95, R164). -/
def imageOfNs (ns : Nat) : Nat := ns * 2 ^ 16

/-! ### Frequency trim, TIE and phase step (43_adjust.md) -/

/-- `DcoOffset(ppm)` (R220). -/
def dcoOffset (ppm : Int) : Int :=
  k1ppm * asr ppm 16 + k1ppm * ((twos 32 ppm % 2 ^ 16 : Nat) : Int) / 2 ^ 16

/-- The pattern written to `DF_OFFSET` (R221): hardware expects the negated value. -/
def dcoImage (ppm : Int) : Nat := twos 48 (-dcoOffset ppm)

/-- `TieUnits(delta)` (R224). -/
def tieUnits (delta : Int) : Int := trem delta nsPerS * tiePerNs

/-- The pattern written to `TIE_DATA` (R225): not negated. -/
def tieImage (delta : Int) : Nat := twos 48 (tieUnits delta)

/-- `Split(delta)` (R227): whole seconds and sub-second remainder. -/
def split (delta : Int) : Int × Int := (tdiv delta nsPerS, trem delta nsPerS)

/-- The lowest set bit of a pair mask among the 10 pairs; `ActivePair` (R228) of a non-zero perout mask. -/
def lowestPair (m : BitVec 16) : Option (Fin 10) := (List.finRange 10).find? (fun p => m.getLsbD p.1)

/-- The quotient of `StepUnits(rem, f)` before its range check (R229). -/
def stepQuotient (rem : Int) (f : Nat) : Int := tdiv (rem * f) nsPerS

/-! ### Multiplier (42_freq_synth.md) -/

/-- `Product(base, mult, M, N)` where `N ≠ 0`; none where `N = 0`, which raises `Malformed` (R190). -/
def product (base mult m n : Nat) : Option Nat := if n = 0 then none else some (base * mult * m / n)

/-- The synthesizer an `OUT_SYNTH_SEL` value selects; 5 to 255 select none (R199, U20). -/
def synthIndex (sel : Nat) : Option (Fin 5) := if h : sel < 5 then some ⟨sel, h⟩ else none

/-! ### Phase compensation (44_phase_comp.md) -/

/-- A reference's phase compensation as its register holds it (R250). -/
def refCompImage (v : Int) : Nat := twos 48 (-v)

/-- `PS_PER_S / (2 f)`, the half cycle before its checks (R254). -/
def halfCycleQuotient (f : Nat) : Nat := psPerS / (2 * f)

/-- An output pair's phase compensation of `q` half cycles as its register holds it (R255). -/
def outCompImage (q : Int) : Nat := twos 32 (-q)

/-! ### Pin enable lattice (45_pin_enable.md R270 to R272) -/

/-- The four enable states of an output pair (R270). -/
inductive EnableState where
  | bothDisabled
  | pEnable
  | nEnable
  | bothEnabled
  deriving DecidableEq, Repr, Inhabited

/-- The half of a pair a pin is (R271). -/
inductive Half where
  | p
  | n
  deriving DecidableEq, Repr, Inhabited

/-- `Half(pin)` (R271). -/
def halfOf (pin : Fin 20) : Half := if isNHalf pin then .n else .p

/-- Code of an enable state in `OUT_SIGNAL_FMT` (R270). -/
def EnableState.code : EnableState → Nat
  | .bothDisabled => 0
  | .pEnable => 1
  | .nEnable => 2
  | .bothEnabled => 3

/-- The enable state a code stands for; codes 4 to 255 are reserved (R270). -/
def enableStateOf (c : Nat) : Option EnableState :=
  if c = 0 then some .bothDisabled
  else if c = 1 then some .pEnable
  else if c = 2 then some .nEnable
  else if c = 3 then some .bothEnabled
  else none

/-- `EnableNext(s, h)` (R272). -/
def enableNext (s : EnableState) (h : Half) : EnableState :=
  match s, h with
  | .bothDisabled, .p => .pEnable
  | .bothDisabled, .n => .nEnable
  | .pEnable, .p => .bothEnabled
  | .pEnable, .n => .bothEnabled
  | .nEnable, .p => .bothEnabled
  | .nEnable, .n => .bothEnabled
  | .bothEnabled, .p => .bothEnabled
  | .bothEnabled, .n => .bothEnabled

/-- `DisableNext(s, h)` (R272). -/
def disableNext (s : EnableState) (h : Half) : EnableState :=
  match s, h with
  | .bothDisabled, .p => .bothDisabled
  | .bothDisabled, .n => .bothDisabled
  | .pEnable, .p => .bothDisabled
  | .pEnable, .n => .bothDisabled
  | .nEnable, .p => .bothDisabled
  | .nEnable, .n => .bothDisabled
  | .bothEnabled, .p => .nEnable
  | .bothEnabled, .n => .pEnable

end Sys2Proof.Machine
end

