-- ==== Sys2Proof/Machine/Flags.lean ====
section
/-! DEFINITION. The flag bits of the control registers (10_state.md R32; 30_encoding.md R93, R94, R97, R98) and what
the responder latches when a control byte is written (40_mailbox.md R137, 41_tod.md R173, 43_adjust.md R240 and
R241, 20_memory.md R72). -/

namespace Sys2Proof.Machine

/-! ### Flag masks and command bytes -/

/-- Both request bits of a mailbox semaphore (R93, R132 step 0). -/
def semBoth : Byte := 0x03
/-- Write request, bit 0 (R93). -/
def semWrite : Byte := 0x01
/-- Read request, bit 1 (R93). -/
def semRead : Byte := 0x02
/-- `TOD_CTRL.SEM`, bit 4 (R94). -/
def todSem : Byte := 0x10
/-- `TIE_CTRL.OP`, bits 2..0 (R97). -/
def tieOp : Byte := 0x07
/-- `PS_CTRL.OP`, bits 1..0 (R98). -/
def psOp : Byte := 0x03

/-- The TOD commands (R94). -/
inductive TodCmd where
  | read
  | readNext1Hz
  | writeNext1Hz
  deriving DecidableEq, Repr, Inhabited

/-- The control byte of a TOD command: the semaphore bit with the command code (R94, R100). -/
def TodCmd.byte : TodCmd → Byte
  | .read => 0x11
  | .readNext1Hz => 0x12
  | .writeNext1Hz => 0x13

/-- The TOD command a control byte holds with its semaphore bit set; none where `SEM = 0` or `CMD` is reserved. Of a byte
the controller wrote this is R94's reading. Of a byte an attach finds (R40), which may have bits 7 to 5 set or a reserved
`CMD`, it is the model's choice: bits 7 to 5 are ignored, and a reserved `CMD` is never performed (log entry 31). -/
def todCmdOf (b : Byte) : Option TodCmd :=
  if b.getLsbD 4 then
    match b.toNat % 16 with
    | 1 => some .read
    | 2 => some .readNext1Hz
    | 3 => some .writeNext1Hz
    | _ => none
  else none

/-- The byte that clears the flag bits `mask` of `b`. -/
def clearBits (b mask : Byte) : Byte := b &&& ~~~mask

/-! ### Selection masks (R92, R131, R140) -/

/-- The index of a one-hot mask below `n` (R140's `m = 1 << k, k < count`). -/
def oneHot (n : Nat) (m : BitVec 16) : Option (Fin n) :=
  (List.finRange n).find? (fun k => m.toNat == 2 ^ k.1)

/-- May a mailbox read be requested with this mask (R140)? -/
def readMaskOk (d : Domain) (m : BitVec 16) : Bool := (oneHot d.count m).isSome

/-- May a mailbox write be requested with this mask (R140)? -/
def writeMaskOk (d : Domain) (m : BitVec 16) : Bool := m.toNat != 0 && decide (m.toNat < 2 ^ d.count)

/-! ### Register access inside the ASIC -/

/-- The value a register holds. -/
def Asic.regVal (a : Asic) (r : Reg) : Nat := a.regs.value r

/-- The control byte a 1-byte register holds. -/
def Asic.ctrlByte (a : Asic) (r : Reg) : Byte := a.regs.get r.addr

/-- Store one byte of register storage. -/
def Asic.poke (a : Asic) (addr : Nat) (b : Byte) : Asic := { a with regs := a.regs.set addr b }

/-- `reg[r] <- reg[r] & ~mask` for a control register: how the responder acknowledges. -/
def Asic.clearFlag (a : Asic) (r : Reg) (mask : Byte) : Asic := a.poke r.addr (clearBits (a.ctrlByte r) mask)

/-! ### Latches -/

/-- A domain's outstanding request replaced. -/
def Asic.setReq (a : Asic) (d : Domain) (q : MbReq) : Asic := { a with mbReq := upd a.mbReq d.idx q }

/-- A domain's outstanding request. -/
def Asic.req (a : Asic) (d : Domain) : MbReq := a.mbReq.get d.idx

/-- The selection mask a domain's mask register holds. -/
def Asic.mask (a : Asic) (d : Domain) : BitVec 16 := BitVec.ofNat 16 (a.regVal (.mbMask d))

/-- A byte written to a mailbox semaphore (R137, R140, R101). -/
def latchSem (a : Asic) (d : Domain) (b : Byte) : Except Fault Asic :=
  if b = semRead then
    if readMaskOk d (a.mask d) then .ok ((a.poke (Reg.mbSem d).addr b).setReq d (.read (a.mask d)))
    else .error .mailboxMask
  else if b = semWrite then
    if writeMaskOk d (a.mask d) then .ok ((a.poke (Reg.mbSem d).addr b).setReq d (.write (a.mask d)))
    else .error .mailboxMask
  else if b = 0 ∧ a.req d = .none then .ok (a.poke (Reg.mbSem d).addr b)
  else .error .reservedMailboxSem

/-- The time the TOD data registers of a DPLL hold, as a WRITE_NEXT_1HZ command latches it (R173). -/
def Asic.todImage (a : Asic) (i : Fin 2) : Tod :=
  ⟨BitVec.ofNat 48 (a.regVal (.todSec i)), BitVec.ofNat 32 (nsOfImage (a.regVal (.todNs i)))⟩

/-- A byte written to a TOD control register (R171 to R174). -/
def latchTod (a : Asic) (i : Fin 2) (b : Byte) : Except Fault Asic :=
  if b = TodCmd.read.byte then .ok (a.poke (Reg.todCtrl i).addr b)
  else if b = TodCmd.readNext1Hz.byte then .ok (a.poke (Reg.todCtrl i).addr b)
  else if b = TodCmd.writeNext1Hz.byte then
    .ok { a.poke (Reg.todCtrl i).addr b with todPend := upd a.todPend i (some (a.todImage i)) }
  else .error .reservedTodCommand

/-- The TIE request latched by a write command: the mask, and the data of each selected DPLL (R240). -/
def Asic.tieImage (a : Asic) : TieLatch where
  m := BitVec.ofNat 8 (a.regVal .tieMask)
  v := Vector.ofFn fun d : Fin 2 =>
    if (a.regVal .tieMask).testBit d.1 then some (BitVec.ofNat 48 (a.regVal (.tieData d))) else none

/-- A byte written to the TIE control register (R240, R101). A write of the idle op-code over a pending request stores
the byte (R72) and leaves no request: the latch is `None` exactly when the op-code is 0 (R36; log entry 26). -/
def latchTie (a : Asic) (b : Byte) : Except Fault Asic :=
  if b = 0x01 then .ok { a.poke Reg.tieCtrl.addr b with tiePend := some a.tieImage }
  else if b = 0 then .ok { a.poke Reg.tieCtrl.addr b with tiePend := none }
  else .error .reservedTieCommand

/-- The phase-step request latched by a write command with DPLL nibble `d` (R241). The mask's bits 15 to 10, which the
controller writes 0 (R98), are latched as they stand and select no pair (log entry 27). -/
def Asic.psImage (a : Asic) (d : BitVec 4) (t : Bool) : PsLatch where
  d := d
  t := t
  m := BitVec.ofNat 16 (a.regVal .psMask)
  u := BitVec.ofNat 32 (a.regVal .psData)
  c := BitVec.ofNat 8 (a.regVal .psCount)

/-- A byte written to the phase-step control register (R241, R98, R101). The idle op-code over a pending request leaves
no request, as in `latchTie`. -/
def latchPs (a : Asic) (b : Byte) : Except Fault Asic :=
  if b &&& 0x07 = 0x01 then
    .ok { a.poke Reg.psCtrl.addr b with psPend := some (a.psImage (psDpllField b) (b.getLsbD 3)) }
  else if b &&& 0x07 = 0 then .ok { a.poke Reg.psCtrl.addr b with psPend := none }
  else .error .reservedPhaseStepCommand

/-- One byte landing at a register address (R61, R72, R90): a control byte raises its responder request, a
read-only register ignores it, an unmapped address has no register to hold it, any other byte is stored. -/
def storeByte (p : Params) (a : Asic) (addr : Nat) (b : Byte) : Except Fault Asic :=
  match regAt addr with
  | some .chipId => .ok a
  | some (.mbSem d) => latchSem a d b
  | some (.todCtrl i) => latchTod a i b
  | some .tieCtrl => latchTie a b
  | some .psCtrl => latchPs a b
  | some _ => .ok (a.poke addr b)
  | none => if inDpllWin p addr then .ok (a.poke addr b) else .ok a

/-- Bytes landing one after the other (R62: lowest address first). -/
def storeCells (p : Params) (a : Asic) : List Host.Cell → Except Fault Asic
  | [] => .ok a
  | c :: cs =>
    match storeByte p a c.1 c.2 with
    | .ok a' => storeCells p a' cs
    | .error f => .error f

end Sys2Proof.Machine
end

