-- ==== Sys2Proof/Machine/Responder.lean ====
section
/-! DEFINITION. The steps of the responder and the clocks (10_state.md R20): mailbox acknowledge (40_mailbox.md R140),
TOD acknowledges and clock (41_tod.md R170 to R172), TIE and phase-step performance (43_adjust.md R240, R241),
firmware reprogramming of a synthesizer (R141). A step reads and writes the ASIC side alone (R24). -/

namespace Sys2Proof.Machine

/-! ### Banks and their window images (R33, R90, R140) -/

/-- The first `n` bytes of a list, zero-filled. -/
def padTo (n : Nat) (bs : List Byte) : List Byte := (bs ++ List.replicate n 0).take n

/-- A big-endian field of `n` bytes at offset `off` of a window image. -/
def fieldAt (bs : List Byte) (off n : Nat) : Nat := beVal ((bs.drop off).take n)

/-- `image(bank.Ref[r])` (R140). -/
def RefBank.image (b : RefBank) : List Byte :=
  beBytes 2 b.base.toNat ++ beBytes 4 b.mult.toNat ++ beBytes 2 b.m.toNat ++ beBytes 2 b.n.toNat ++
    beBytes 6 b.phaseComp.toNat

/-- `fields(window(Ref))`, the inverse of `image`. -/
def RefBank.ofImage (bs : List Byte) : RefBank where
  base := BitVec.ofNat 16 (fieldAt bs 0 2)
  mult := BitVec.ofNat 32 (fieldAt bs 2 4)
  m := BitVec.ofNat 16 (fieldAt bs 6 2)
  n := BitVec.ofNat 16 (fieldAt bs 8 2)
  phaseComp := BitVec.ofNat 48 (fieldAt bs 10 6)

/-- `image(bank.Synth[s])`. -/
def SynthBank.image (b : SynthBank) : List Byte :=
  beBytes 2 b.base.toNat ++ beBytes 4 b.mult.toNat ++ beBytes 2 b.m.toNat ++ beBytes 2 b.n.toNat

/-- `fields(window(Synth))`. -/
def SynthBank.ofImage (bs : List Byte) : SynthBank where
  base := BitVec.ofNat 16 (fieldAt bs 0 2)
  mult := BitVec.ofNat 32 (fieldAt bs 2 4)
  m := BitVec.ofNat 16 (fieldAt bs 6 2)
  n := BitVec.ofNat 16 (fieldAt bs 8 2)

/-- `image(bank.Out[p])`. -/
def OutBank.image (b : OutBank) : List Byte :=
  beBytes 1 b.synthSel.toNat ++ beBytes 1 b.signalFmt.toNat ++ beBytes 4 b.div.toNat ++ beBytes 4 b.ndiv.toNat ++
    beBytes 4 b.phaseComp.toNat

/-- `fields(window(Output))`. -/
def OutBank.ofImage (bs : List Byte) : OutBank where
  synthSel := BitVec.ofNat 8 (fieldAt bs 0 1)
  signalFmt := BitVec.ofNat 8 (fieldAt bs 1 1)
  div := BitVec.ofNat 32 (fieldAt bs 2 4)
  ndiv := BitVec.ofNat 32 (fieldAt bs 6 4)
  phaseComp := BitVec.ofNat 32 (fieldAt bs 10 4)

/-- Length in bytes of a domain's data window (R90). -/
def winLen (p : Params) : Domain → Nat
  | .ref => 16
  | .dpll => p.dpllWinLen.1
  | .synth => 10
  | .out => 14

/-- The window image of a bank entry. -/
def Asic.image (p : Params) (a : Asic) : (d : Domain) → Fin d.count → List Byte
  | .ref, k => (a.bankRef.get k).image
  | .dpll, k => padTo p.dpllWinLen.1 (a.bankDpll.get k)
  | .synth, k => (a.bankSynth.get k).image
  | .out, k => (a.bankOut.get k).image

/-- A bank entry set to the fields of a window image. -/
def Asic.commit (a : Asic) : (d : Domain) → Fin d.count → List Byte → Asic
  | .ref, k, bs => { a with bankRef := upd a.bankRef k (RefBank.ofImage bs) }
  | .dpll, k, bs => { a with bankDpll := upd a.bankDpll k bs }
  | .synth, k, bs => { a with bankSynth := upd a.bankSynth k (SynthBank.ofImage bs) }
  | .out, k, bs => { a with bankOut := upd a.bankOut k (OutBank.ofImage bs) }

/-- `window(Dom)`: the bytes of a domain's data window. -/
def Asic.window (p : Params) (a : Asic) (d : Domain) : List Byte := a.regs.bytes d.winBase (winLen p d)

/-- `window(Dom) <- image`: every window byte, at once. -/
def Asic.setWindow (a : Asic) (d : Domain) (bs : List Byte) : Asic := { a with regs := a.regs.setBytes d.winBase bs }

/-- Every bank entry the mask selects set to the window's fields. -/
def Asic.commitMask (a : Asic) (d : Domain) (m : BitVec 16) (bs : List Byte) : Asic :=
  (List.finRange d.count).foldl (fun a k => if m.getLsbD k.1 then a.commit d k bs else a) a

/-- A read request performed (R140). A request whose mask is not one-hot or is beyond the domain's count can be pending
only from an attach (R40); the source is silent about it, and it stays pending for ever (log entry 28). -/
def ackRead (p : Params) (d : Domain) (m : BitVec 16) (a : Asic) : Asic :=
  match oneHot d.count m with
  | some k => ((a.setWindow d (a.image p d k)).clearFlag (.mbSem d) semRead).setReq d .none
  | none => a

/-- A write request performed (R140). A request whose mask is zero or beyond the domain's count stays pending for ever,
as in `ackRead` (log entry 28). -/
def ackWrite (p : Params) (d : Domain) (m : BitVec 16) (a : Asic) : Asic :=
  if writeMaskOk d m then
    ((a.commitMask d m (a.window p d)).clearFlag (.mbSem d) semWrite).setReq d .none
  else a

/-- The mailbox acknowledge of a domain (R140): of the request latched, whichever of its bits an attach found set (log
entry 31). -/
def mbAck (p : Params) (d : Domain) (a : Asic) : Asic :=
  match a.req d with
  | .none => a
  | .read m => ackRead p d m a
  | .write m => ackWrite p d m a

/-! ### Time of day -/

/-- Has a 48-bit seconds count a next value the spec gives? 2^48 − 1 has none (U11). -/
def hasNextSec (sec : BitVec 48) : Bool := decide (sec.toNat < 2 ^ 48 - 1)

/-- The seconds after `sec`: the next, or any u48 after 2^48 − 1 (R170, R172). -/
def nextSec (sec : BitVec 48) (draws : Nat) : BitVec 48 := if hasNextSec sec then sec + 1 else Config.freeSec draws

/-- The draw counter moved on where the value of a step was open. -/
def Asic.drawIf (a : Asic) (isOpen : Bool) : Asic := { a with draws := a.draws + isOpen.toNat }

/-- A time latched into the TOD data registers, reserved bytes 0, and the semaphore cleared (R171, R172). -/
def Asic.latchTime (a : Asic) (i : Fin 2) (sec ns : Nat) : Asic :=
  Asic.clearFlag { a with regs := (a.regs.setValue (.todSec i) sec).setValue (.todNs i) (imageOfNs ns) }
    (.todCtrl i) todSem

/-- The acknowledge of a READ (R171) or a READ_NEXT_1HZ (R172); a WRITE_NEXT_1HZ waits for the edge (R173). A command whose
semaphore an edge has cleared, because a time was pending beside it, is no longer served: the model's choice (log entry
32). A byte an attach finds is served as one the controller wrote (log entry 31). -/
def todAck (i : Fin 2) (a : Asic) : Asic :=
  match todCmdOf (a.ctrlByte (.todCtrl i)) with
  | some .read => a.latchTime i (a.tod.get i).sec.toNat (a.tod.get i).ns.toNat
  | some .readNext1Hz =>
    (a.latchTime i (nextSec (a.tod.get i).sec a.draws).toNat 0).drawIf (!hasNextSec (a.tod.get i).sec)
  | some .writeNext1Hz => a
  | none => a

/-- A DPLL's TOD counter set. -/
def Asic.setTod (a : Asic) (i : Fin 2) (t : Tod) : Asic := { a with tod := upd a.tod i t }

/-- The clock's advance step (R170): enabled only for a later nanosecond of the same second. -/
def clockAdvance (i : Fin 2) (ns : BitVec 32) (a : Asic) : Asic :=
  if (a.tod.get i).ns.toNat < ns.toNat ∧ ns.toNat < nsPerS then a.setTod i ⟨(a.tod.get i).sec, ns⟩ else a

/-- The clock's edge step (R170). A pending time is loaded as it was latched, also one with nanoseconds of 10^9 or more,
which no operation writes: R170's words over R35's, the model's choice (log entry 33). -/
def clockEdge (i : Fin 2) (a : Asic) : Asic :=
  match a.todPend.get i with
  | some t => Asic.clearFlag { a.setTod i t with todPend := upd a.todPend i none } (.todCtrl i) todSem
  | none => (a.setTod i ⟨nextSec (a.tod.get i).sec a.draws, 0⟩).drawIf (!hasNextSec (a.tod.get i).sec)

/-- `T = s·10^9 + n + k` of `AddNs((s, n), k)` (R240). -/
def addNsTotal (t : Tod) (k : Int) : Int := (t.sec.toNat : Int) * nsPerS + t.ns.toNat + k

/-- Are the seconds of `AddNs` a u48? -/
def addNsFits (t : Tod) (k : Int) : Bool := fitsU48 (fdiv (addNsTotal t k) nsPerS)

/-- `AddNs((s, n), k)` (R240). -/
def addNs (t : Tod) (k : Int) (draws : Nat) : Tod where
  sec := if addNsFits t k then BitVec.ofInt 48 (fdiv (addNsTotal t k) nsPerS) else Config.freeSec draws
  ns := BitVec.ofInt 32 (addNsTotal t k % nsPerS)

/-- `tod[i] <- AddNs(tod[i], k)` (R240). -/
def Asic.stepTod (a : Asic) (i : Fin 2) (k : Int) : Asic :=
  (a.setTod i (addNs (a.tod.get i) k a.draws)).drawIf (!addNsFits (a.tod.get i) k)

/-! ### TIE and phase step -/

/-- The TIE step of one DPLL, where it is selected (R240). -/
def tieStep (l : TieLatch) (a : Asic) (d : Fin 2) : Asic :=
  match l.v.get d with
  | some v => a.stepTod d (Config.tieTodStep (sval 48 v.toNat))
  | none => a

/-- The pending TIE write performed (R240), whatever op-code an attach found beside it (log entry 31). -/
def tieAck (a : Asic) : Asic :=
  match a.tiePend with
  | some l => Asic.clearFlag { (List.finRange 2).foldl (tieStep l) a with tiePend := none } .tieCtrl tieOp
  | none => a

/-- A synthesizer's frequency, from its bank (R190); none where `N = 0`. -/
def SynthBank.freq (b : SynthBank) : Option Nat :=
  product b.base.toNat b.mult.toNat b.m.toNat b.n.toNat

/-- The frequency of an output pair's synthesizer; none where its select or ratio is illegal. -/
def Asic.drivenFreq (a : Asic) (q : Fin 10) : Option Nat :=
  match synthIndex (a.bankOut.get q).synthSel.toNat with
  | some k => (a.bankSynth.get k).freq
  | none => none

/-- The one value all of a list's entries are; none where they differ, where one is none, and where there is none. -/
def agreed : List (Option Nat) → Option Nat
  | [] => none
  | v :: vs => if vs.all (fun w => w == v) then v else none

/-- The frequency of the stepped outputs' synthesizer (R241), where the selected pairs have one and the same (log entry
8). Bits 15 to 10 of the mask select no pair (log entry 27). -/
def Asic.steppedFreq (a : Asic) (m : BitVec 16) : Option Nat :=
  agreed (((List.finRange 10).filter fun q => m.getLsbD q.1).map a.drivenFreq)

/-- `c × u` of a latched phase step (R241). -/
def PsLatch.units (l : PsLatch) : Int := l.c.toNat * sval 32 l.u.toNat

/-- The DPLL whose counter a phase step moves (R241): the one its nibble names; where it names none, any or no DPLL (log
entry 25). -/
def PsLatch.dpll (l : PsLatch) (draws : Nat) : Option (Fin 2) :=
  if h : l.d.toNat < 2 then some ⟨l.d.toNat, h⟩ else Config.freeDpll draws

/-- The frequency a phase step is credited with: the stepped outputs', or any where they have not one (log entry 8). -/
def Asic.creditFreq (a : Asic) (m : BitVec 16) : Nat := (a.steppedFreq m).getD (Config.freeFreq a.draws)

/-- Is the DPLL or the frequency of a phase step an open value? -/
def Asic.psOpen (a : Asic) (l : PsLatch) : Bool := decide (2 ≤ l.d.toNat) || (a.steppedFreq l.m).isNone

/-- The TOD part of a phase step (R241). -/
def psStep (l : PsLatch) (a : Asic) : Asic :=
  if l.t then
    match l.dpll a.draws with
    | some i => (a.drawIf (a.psOpen l)).stepTod i (Config.psTodStep l.units (a.creditFreq l.m))
    | none => a.drawIf true
  else a

/-- The pending phase step performed (R241), whatever op-code an attach found beside it (log entry 31). -/
def psAck (a : Asic) : Asic :=
  match a.psPend with
  | some l => Asic.clearFlag { psStep l a with psPend := none } .psCtrl psOp
  | none => a

/-- The ASIC's firmware reprograms a synthesizer: only while no Synth request is outstanding (R141). -/
def reprogram (k : Fin 5) (b : SynthBank) (a : Asic) : Asic :=
  if a.req .synth = .none then { a with bankSynth := upd a.bankSynth k b } else a

/-! ### Moves -/

/-- One step of the responder or a clock. -/
def applyMove (p : Params) (mv : Move) (a : Asic) : Asic :=
  match mv with
  | .mbAck d => mbAck p d a
  | .todAck i => todAck i a
  | .tieAck => tieAck a
  | .psAck => psAck a
  | .advance i ns => clockAdvance i ns a
  | .edge i => clockEdge i a
  | .reprogram k b => reprogram k b a

/-- Steps taken in order. -/
def runMoves (p : Params) (mvs : List Move) (a : Asic) : Asic := mvs.foldl (fun a mv => applyMove p mv a) a

end Sys2Proof.Machine
end

