-- ==== Sys2Proof/Machine/Ops.lean ====
section
/-! DEFINITION. The operations every meaning is built from: the register transport with the responder and clock steps
around each access (20_memory.md R62 to R66, R71; 10_state.md R24), and the error return, the block's only exceptional
transfer (60_exceptions.md R300 to R308). -/

namespace Sys2Proof.Machine

/-! ### Ending early -/

/-- The error kinds (R300). -/
inductive ErrKind where
  | timeout
  | transport
  | invalidArgument
  | range
  | unsupported
  | malformed
  deriving DecidableEq, Repr, Inhabited

/-- The result code of an error kind (R300); `OK` is 0. -/
def ErrKind.code : ErrKind → Byte
  | .timeout => 1
  | .transport => 2
  | .invalidArgument => 3
  | .range => 4
  | .unsupported => 5
  | .malformed => 6

/-- How a sequence ends early: `raise e` (R13, R301), or a fault of the responder (R309). -/
inductive Stop where
  | raise (e : ErrKind)
  | fault (f : Fault)
  deriving DecidableEq, Repr, Inhabited

/-- What a controller step or sequence does to the state; every effect it had is kept when it ends early (R301:
"nothing is rolled back"). -/
abbrev Seq := EStateM Stop State

/-! ### Schedule -/

/-- The slot of the coming access, and the schedule after it. -/
def Env.next (e : Env) : Slot × Env :=
  match e.slots with
  | [] => (e.rest, e)
  | sl :: sls => (sl, { e with slots := sls })

/-- The state after the responder and clock steps of the coming slot (R24). -/
def State.tick (s : State) : State :=
  { s with env := s.env.next.2, asic := runMoves s.par s.env.next.1.moves s.asic }

/-- Does the coming access fail, and how (R66)? -/
def State.failure (s : State) : Option Failure := s.env.next.1.fail

/-! ### Transport (R60 to R66) -/

/-- The byte a read of an address returns (R61, R90, U1, U9). -/
def Asic.readByte (p : Params) (a : Asic) (addr : Nat) : Byte :=
  match accessAt p addr with
  | some .rw => a.regs.get addr
  | some .ro => if addr = Reg.chipId.addr then BitVec.ofNat 8 (p.chipId.toNat / 256) else BitVec.ofNat 8 p.chipId.toNat
  | some .wo => Config.freeByte a.draws addr
  | none => Config.freeByte a.draws addr

/-- The bytes a read of `n` addresses returns, in transmission order (R63). -/
def Asic.readBytes (p : Params) (a : Asic) (addr : Nat) : Nat → List Byte
  | 0 => []
  | n + 1 => a.readByte p addr :: Asic.readBytes p a (addr + 1) n

/-- Does an access of `n` addresses read a byte the spec leaves open? -/
def readsOpen (p : Params) (addr : Nat) : Nat → Bool
  | 0 => false
  | n + 1 => (accessAt p addr != some .rw && accessAt p addr != some .ro) || readsOpen p (addr + 1) n

/-- `XferRead(addr, n)` (R63): no side effect (R72); a failure delivers no bytes (R66). The draw counter moves on
where an open byte was read. -/
def xferRead (addr n : Nat) : Seq (List Byte) := fun s =>
  match s.failure with
  | some _ => .error (.raise .transport) s.tick
  | none =>
    .ok (s.tick.asic.readBytes s.par addr n)
      (if readsOpen s.par addr n then
        { s.tick with asic := { s.tick.asic with draws := s.tick.asic.draws + 1 } }
      else s.tick)

/-- The cells a transmission writes: the k-th byte lands at address `addr + k` (R62). -/
def cellsFrom (addr : Nat) : List Byte → List Host.Cell
  | [] => []
  | b :: bs => (addr, b) :: cellsFrom (addr + 1) bs

/-- The cells of a failed write that land (R66): a cell `landed` does not name keeps its old byte. -/
def landedCells : List Host.Cell → List Bool → List Host.Cell
  | [], _ => []
  | _, [] => []
  | c :: cs, l :: ls => if l then c :: landedCells cs ls else landedCells cs ls

/-- The pending TOD write a cell carries: a WRITE_NEXT_1HZ command byte for a TOD control register latches the time of
the data registers (R173). -/
def pendCell (a : Asic) (v : Vector (Option Tod) 2) (c : Host.Cell) : Vector (Option Tod) 2 :=
  match regAt c.1 with
  | some (.todCtrl i) => if c.2 = TodCmd.writeNext1Hz.byte then upd v i (some (a.todImage i)) else v
  | _ => v

/-- The pending TOD writes after a failed write of these cells: triggered or not, whichever bytes landed (R66). -/
def Asic.pendAfter (a : Asic) (cells : List Host.Cell) (raised : Bool) : Vector (Option Tod) 2 :=
  if raised then cells.foldl (pendCell a) a.todPend else a.todPend

/-- Bytes landing in the ASIC at a successful access. -/
def land (cells : List Host.Cell) : Seq Unit := fun s =>
  match storeCells s.par s.asic cells with
  | .error f => .error (.fault f) s
  | .ok a => .ok () { s with asic := a }

/-- A failed write of these cells (R66, D33): each byte lands or not, and `Transport` is raised. A mailbox, TIE or
phase-step request is triggered exactly when its byte lands, because its latch is `None` exactly when its flag bits are 0
(R34, R36); so is a READ or READ_NEXT_1HZ command, which is the byte itself (R171, R172). A WRITE_NEXT_1HZ command is
triggered or not whether its byte lands or not (log entry 9). -/
def landFailed (cells : List Host.Cell) (f : Failure) : Seq Unit := fun s =>
  match storeCells s.par s.asic (landedCells cells f.landed) with
  | .error f => .error (.fault f) s
  | .ok a => .error (.raise .transport) { s with asic := { a with todPend := s.asic.pendAfter cells f.raised } }

/-- `XferWrite(addr, buf)` (R62): the buffer, least significant byte first, is reversed and transmitted. After a
failed write each byte is old or new (R66). -/
def xferWrite (addr : Nat) (buf : List Byte) : Seq Unit := fun s =>
  match s.failure with
  | some f => landFailed (cellsFrom addr buf.reverse) f s.tick
  | none => land (cellsFrom addr buf.reverse) s.tick

/-- `MemWrite(addr, n, v)` (R64). -/
def memWrite (addr n v : Nat) : Seq Unit := xferWrite addr (leBytes n v)

/-- `MemRead(addr, n)` (R65). -/
def memRead (addr n : Nat) : Seq Nat := do
  let t ← xferRead addr n
  return beVal t

/-- A register field read by exactly one access of its own width (R70). -/
def readReg (r : Reg) : Seq Nat := memRead r.addr r.width

/-- A register field written by exactly one access of its own width (R70). -/
def writeReg (r : Reg) (v : Nat) : Seq Unit := memWrite r.addr r.width v

/-! ### Operation return and error return (R22, R25, R301) -/

/-- The result values of an operation; a result it does not name is 0 (R26). -/
structure Reply where
  x : BitVec 64 := 0
  y : BitVec 64 := 0
  deriving DecidableEq, Repr, Inhabited

/-- The caller that holds the lock. -/
def Lock.holder : Lock → Option Nat
  | .free => none
  | .held c => some c

/-- `Idle → Busy(opcode)` (R25): no step performed, no scratch value assigned (R27), no TOD command issued (R160). -/
def beginOp (op : Byte) (s : State) : State :=
  { s with ctl := { s.ctl with phase := .busy op, seq := [], scratch := [], tod := .replicate 2 .idle } }

/-- The end of an operation, by `return` or by `raise` (R25, R301): the result registers are written, the phase is
`Idle`, the lock is free, and the result is delivered to the caller that held it. Neither the sequence position, nor a
scratch value, nor a TOD sub-state survives (R27, R28, R160). -/
def endOp (status : Byte) (r : Reply) (s : State) : State :=
  { s with
    ctl :=
      { s.ctl with lock := .free, phase := .idle, seq := [], scratch := [], tod := .replicate 2 .idle }
    res := ⟨status, r.x, r.y⟩
    resTo := s.ctl.lock.holder }

/-- The error return (R301, R306): the code of the kind, both results 0, no register write undone. -/
def raiseReturn (e : ErrKind) (s : State) : State := endOp e.code {} s

/-- What the state a sequence leaves off in answers: the return or the error return (R301, R307: no sub-procedure
catches an error), or a fault. -/
def finish : EStateM.Result Stop State Reply → Host.Outcome State Fault Refusal
  | .ok r s => .next (endOp 0 r s)
  | .error (.raise e) s => .next (raiseReturn e s)
  | .error (.fault f) _ => .fault f

/-- A register-level command issued by itself (R100): one write of its byte to its register. The write's failure ends
what issued it (R66): the bootstrap, which leaves the device unattached (R332), or else an operation, with
`Transport`. -/
def runCommand (r : Reg) (b : Byte) (s : State) : Host.Outcome State Fault Refusal :=
  match writeReg r b.toNat s with
  | .ok _ s' => .next s'
  | .error (.raise e) s' => .next (if s'.dev = .booting then { s' with dev := .bootFailed } else raiseReturn e s')
  | .error (.fault f) _ => .fault f

end Sys2Proof.Machine
end

