-- ==== Sys2Proof/Machine/Prog.lean ====
section
/-! DEFINITION. The controller's sequences as programs (10_state.md R25 to R28; 00_scope.md R13): the steps of the
pseudocode one after the other, at most one register-port access each (R20), every step marked with its pseudocode line;
what a program does when it is run to its end; polling (40_mailbox.md R130), the checks that raise an error, and the
operation as a whole. -/

namespace Sys2Proof.Machine

/-! ### Steps -/

/-- A step of the controller. -/
inductive Act where
  /-- The next line of the pseudocode is reached (R28). -/
  | line (pos : List Line)
  /-- A register read: one access (R70). -/
  | read (r : Reg)
  /-- A register write: one access (R70). -/
  | write (r : Reg) (v : Nat)
  /-- `ctl.perout[i]` read (R29). -/
  | perout (i : Fin 2)
  /-- A pair put into `ctl.perout[i]` or taken out of it (R29, R280, R281). -/
  | markPair (i : Fin 2) (p : Fin 10) (on : Bool)
  /-- The end of `TodWrite`, which leaves `CommandIssued` without an observation (R160). -/
  | todDone (i : Fin 2)
  deriving DecidableEq, Repr, Inhabited

/-- `ctl.perout[i]` replaced (R29). -/
def State.setPerout (s : State) (i : Fin 2) (m : BitVec 16) : State :=
  { s with ctl := { s.ctl with perout := upd s.ctl.perout i m } }

/-- The mask bit of an output pair (R29). -/
def pairBit (p : Fin 10) : BitVec 16 := 1#16 <<< p.1

/-- `ctl.perout[i]` with a pair's bit set or cleared (R280, R281). -/
def State.markPair (s : State) (i : Fin 2) (p : Fin 10) (on : Bool) : State :=
  s.setPerout i (if on then s.ctl.perout.get i ||| pairBit p else s.ctl.perout.get i &&& ~~~pairBit p)

/-- What a step does, and the value it answers. -/
def Act.perform (a : Act) (s : State) : EStateM.Result Stop State Nat :=
  match a with
  | .line _ => .ok 0 s
  | .read r => readReg r s
  | .write r v =>
    match writeReg r v s with
    | .ok _ s' => .ok 0 s'
    | .error e s' => .error e s'
  | .perout i => .ok (s.ctl.perout.get i).toNat s
  | .markPair i p on => .ok 0 (s.markPair i p on)
  | .todDone _ => .ok 0 s

/-! ### Programs -/

/-- A program: it has returned, it raises an error (R13), it performs a step and goes on with what the step answers, or
it goes on as the parameters say, which is no step. -/
inductive Prog (α : Type) : Type where
  | ret (a : α)
  | raise (e : ErrKind)
  | act (a : Act) (k : Nat → Prog α)
  | params (k : Params → Prog α)

/-- One program after another. -/
def Prog.bind {α β : Type} : Prog α → (α → Prog β) → Prog β
  | .ret a, f => f a
  | .raise e, _ => .raise e
  | .act a k, f => .act a fun v => (k v).bind f
  | .params k, f => .params fun p => (k p).bind f

/-- Programs in `do` notation: `letI := Prog.monad` opens it. -/
@[reducible] def Prog.monad : Monad Prog where
  pure := .ret
  bind := .bind

/-- A program run to its end (R307: an error of a sub-procedure ends the whole). -/
def Prog.run {α : Type} : Prog α → State → EStateM.Result Stop State α
  | .ret a, s => .ok a s
  | .raise e, s => .error (.raise e) s
  | .act a k, s =>
    match a.perform s with
    | .ok v s' => (k v).run s'
    | .error e s' => .error e s'
  | .params k, s => (k s.par).run s

/-- A step within a line of a calling procedure. -/
def Act.within (l : Line) : Act → Act
  | .line pos => .line (l :: pos)
  | .read r => .read r
  | .write r v => .write r v
  | .perout i => .perout i
  | .markPair i p on => .markPair i p on
  | .todDone i => .todDone i

/-- A program within a line of a calling procedure. -/
def Prog.within {α : Type} (l : Line) : Prog α → Prog α
  | .ret a => .ret a
  | .raise e => .raise e
  | .act a k => .act (a.within l) fun v => (k v).within l
  | .params k => .params fun p => (k p).within l

/-- The steps of the `n`-th line of a procedure's pseudocode (R28). -/
def Prog.on {α : Type} (q : Prog α) (proc : Proc) (n : Nat) : Prog α :=
  .act (.line [⟨proc, n⟩]) fun _ => q.within ⟨proc, n⟩

/-- A line whose evaluation takes no step of its own. -/
def mark (proc : Proc) (n : Nat) : Prog Unit := (Prog.ret ()).on proc n

/-- `raise e` (R13). -/
def raise {α : Type} (e : ErrKind) : Prog α := .raise e

/-- `if c: raise e`. -/
def raiseIf (c : Bool) (e : ErrKind) : Prog Unit := if c then raise e else .ret ()

/-- A value that must be there, else `raise e`. -/
def orRaise {α : Type} (o : Option α) (e : ErrKind) : Prog α :=
  match o with
  | some v => .ret v
  | none => raise e

/-- A register field read. -/
def load (r : Reg) : Prog Nat := .act (.read r) .ret

/-- A register field written. -/
def store (r : Reg) (v : Nat) : Prog Unit := .act (.write r v) fun _ => .ret ()

/-- `ctl.perout[i]`. -/
def perout (i : Fin 2) : Prog (BitVec 16) := .act (.perout i) fun v => .ret (BitVec.ofNat 16 v)

/-- `ctl.perout[i] <- ctl.perout[i] | (1 << p)`, or `& ~(1 << p)`. -/
def markPair (i : Fin 2) (p : Fin 10) (on : Bool) : Prog Unit := .act (.markPair i p on) fun _ => .ret ()

/-- The end of `TodWrite` (R160, R164). -/
def todDone (i : Fin 2) : Prog Unit := .act (.todDone i) fun _ => .ret ()

/-- The parameters of R8. -/
def params : Prog Params := .params .ret

/-! ### Polling (R130) -/

/-- `PollClear(r, mask, limit)` (R130): the sleep between samples has no effect (R17). -/
def pollClear (r : Reg) (mask : Byte) : Nat → Prog Unit
  | 0 => (raise .timeout).on .pollClear 5
  | limit + 1 => letI := Prog.monad; do
    mark .pollClear 1
    let v ← (load r).on .pollClear 2
    mark .pollClear 3
    if v &&& mask.toNat = 0 then return
    else do
      mark .pollClear 4
      pollClear r mask limit

/-- `PollClear` with the budget `MB_POLL_LIMIT`: every poll of the block but the rollover wait. -/
def poll (r : Reg) (mask : Byte) : Prog Unit := letI := Prog.monad; do
  let p ← params
  pollClear r mask p.mbPollLimit

/-! ### Operand checks (R113) -/

/-- An index operand below `n`, else `InvalidArgument`. -/
def checkIndex (n : Nat) (v : Nat) : Prog (Fin n) :=
  if h : v < n then .ret ⟨v, h⟩ else raise .invalidArgument

/-- An operand that must fit s32, else `InvalidArgument`. -/
def checkS32 (x : BitVec 64) : Prog Int := if fitsS32 x.toInt then .ret x.toInt else raise .invalidArgument

/-! ### Operations -/

/-- An operation run from its acceptance to its end (R25, R307). -/
def runOperation (op : Byte) (body : Prog Reply) (s : State) : Host.Outcome State Fault Refusal :=
  finish (body.run (beginOp op s))

end Sys2Proof.Machine
end

