-- ==== Sys2Proof/Machine/Mailbox.lean ====
section
/-! DEFINITION. The mailbox sequences (40_mailbox.md R131 to R133) and the mailbox commands MB_REQ_WRITE and
MB_REQ_READ (30_encoding.md R100). -/

namespace Sys2Proof.Machine

/-- `MbRead(Dom, k)` (R132): load the data window of `d` with the fields of sub-resource `k`; the mask is one-hot
(R131). -/
def mbRead (d : Domain) (k : Nat) : Prog Unit := letI := Prog.monad; do
  (poll (.mbSem d) semBoth).on .mbRead 1
  (store (.mbMask d) (2 ^ k)).on .mbRead 2
  (store (.mbSem d) semRead.toNat).on .mbRead 3
  (poll (.mbSem d) semRead).on .mbRead 4

/-- Populate window fields, in order: the second line of `MbWrite` (R133). -/
def writeFields : List (Reg × Nat) → Prog Unit
  | [] => .ret ()
  | f :: fs => letI := Prog.monad; do
    (store f.1 f.2).on .mbWrite 2
    writeFields fs

/-- `MbWrite(Dom, k, F)` (R133): a read-modify-write of the fields `F` of sub-resource `k`. -/
def mbWrite (d : Domain) (k : Nat) (fields : List (Reg × Nat)) : Prog Unit := letI := Prog.monad; do
  (mbRead d k).on .mbWrite 1
  writeFields fields
  (store (.mbSem d) semWrite.toNat).on .mbWrite 3
  (poll (.mbSem d) semWrite).on .mbWrite 4

/-- MB_REQ_WRITE (R100, R137): the write request of a domain is stored and latched with its mask. The responder
performs it at a later step (`mbAck`, R140). -/
def execMbReqWrite (d : Domain) (s : State) : Host.Outcome State Fault Refusal := runCommand (.mbSem d) semWrite s

/-- MB_REQ_READ (R100, R137): the read request of a domain is stored and latched with its mask. The responder
performs it at a later step (`mbAck`, R140). -/
def execMbReqRead (d : Domain) (s : State) : Host.Outcome State Fault Refusal := runCommand (.mbSem d) semRead s

end Sys2Proof.Machine
end

