-- ==== Sys2Proof/Machine/FreqSynth.lean ====
section
/-! DEFINITION. The frequency-synthesis multiplier and the ratio encoders (42_freq_synth.md R190 to R203), with the
operations SYNTH_FREQ_GET, REF_FREQ_GET, REF_FREQ_SET, OUT_FREQ_GET and OUT_FREQ_SET. -/

namespace Sys2Proof.Machine

/-! ### Multiplier -/

/-- `SynthFreq(s)` (R191), read afresh by every caller (R30). -/
def synthFreq (k : Fin 5) : Prog Nat := letI := Prog.monad; do
  (mbRead .synth k.1).on .synthFreq 1
  let base ← (load .synthFreqBase).on .synthFreq 2
  let mult ← (load .synthFreqMult).on .synthFreq 3
  let m ← (load .synthRatioM).on .synthFreq 4
  let n ← (load .synthRatioN).on .synthFreq 5
  (orRaise (product base mult m n) .malformed).on .synthFreq 6

/-! ### Reference frequency table (R193) -/

/-- A (base, multiplier, M, N) quadruple. -/
structure Quad where
  base : Nat
  mult : Nat
  m : Nat
  n : Nat
  deriving DecidableEq, Repr, Inhabited

/-- The nine supported reference frequencies with their quadruples (R193). -/
def refTable : List (Nat × Quad) :=
  [(1, ⟨1, 1, 1, 1⟩), (25, ⟨25, 1, 1, 1⟩), (100, ⟨100, 1, 1, 1⟩), (1000, ⟨1000, 1, 1, 1⟩),
    (10000000, ⟨10000, 1000, 1, 1⟩), (25000000, ⟨25000, 1000, 1, 1⟩), (62500000, ⟨62500, 1000, 1, 1⟩),
    (78125000, ⟨15625, 5000, 1, 1⟩), (100000000, ⟨10000, 10000, 1, 1⟩)]

/-- `RefEncode(f)` where the table has `f` (R194). -/
def refEncode (f : Nat) : Option Quad := (refTable.find? (fun r => r.1 == f)).map Prod.snd

/-- `RefDecode(p)` where `p` is one of the nine frequencies (R195). -/
def refDecode (p : Nat) : Option Nat := if refTable.any (fun r => r.1 == p) then some p else none

/-- The Ref window fields of a quadruple (R197). -/
def Quad.fields (q : Quad) : List (Reg × Nat) :=
  [(.refFreqBase, q.base), (.refFreqMult, q.mult), (.refRatioM, q.m), (.refRatioN, q.n)]

/-! ### Output frequency (R198 to R203) -/

/-- `OutSynthFreq(p)` (R199): pair `p`'s fields stay loaded in the Output window. -/
def outSynthFreq (p : Fin 10) : Prog Nat := letI := Prog.monad; do
  (mbRead .out p.1).on .outSynthFreq 1
  let sel ← (load .outSynthSel).on .outSynthFreq 2
  let k ← orRaise (synthIndex sel) .malformed
  (synthFreq k).on .outSynthFreq 3

/-- Is a pin the N side of an N-divided pair (R200, R201, R203)? -/
def isNSide (p : Params) (pin : Fin 20) : Bool := p.pinSignalType pin == .seNDivided && isNHalf pin

/-- A divider field read, which must not be 0 (R201). -/
def readDivider (r : Reg) : Prog Nat := letI := Prog.monad; do
  let div ← load r
  raiseIf (div == 0) .malformed
  return div

/-- `OutFreq(pin)` from the synthesizer frequency `sf` (R201). -/
def outFreq (p : Params) (pin : Fin 20) (sf : Nat) : Prog Nat := letI := Prog.monad; do
  let div ← (readDivider .outDiv).on .outFreq 1
  mark .outFreq 2
  mark .outFreq 3
  if isNSide p pin then do
    let nd ← (readDivider .outNdiv).on .outFreq 4
    (Prog.ret (sf / div / nd)).on .outFreq 5
  else (Prog.ret (sf / div)).on .outFreq 6

/-- OUT_FREQ_SET's N side: the P/N ratio (R203). -/
def setNSide (p : Fin 10) (f sf : Nat) : Prog Unit := letI := Prog.monad; do
  let div ← (readDivider .outDiv).on .outFreqSet 7
  mark .outFreqSet 8
  (raiseIf (!decide (sf / div > f)) .invalidArgument).on .outFreqSet 9
  (raiseIf (sf / div % f != 0) .invalidArgument).on .outFreqSet 10
  (raiseIf (decide (sf / div / f ≥ 2 ^ 32)) .range).on .outFreqSet 11
  (mbWrite .out p.1 [(.outNdiv, sf / div / f)]).on .outFreqSet 12

/-- OUT_FREQ_SET's P side, or a pair without N division: the divider (R203). -/
def setDivider (p : Fin 10) (f sf : Nat) : Prog Unit := letI := Prog.monad; do
  (raiseIf (sf % f != 0 || decide (sf < f)) .invalidArgument).on .outFreqSet 14
  (raiseIf (decide (sf / f ≥ 2 ^ 32)) .range).on .outFreqSet 15
  (mbWrite .out p.1 [(.outDiv, sf / f)]).on .outFreqSet 16

/-- OUT_FREQ_SET's write, by the pin's side (R203). -/
def setOutFreq (p : Params) (pin : Fin 20) (f sf : Nat) : Prog Unit :=
  if isNSide p pin then setNSide (pairOf pin) f sf else setDivider (pairOf pin) f sf

/-! ### Operations -/

/-- SYNTH_FREQ_GET (R192). -/
def synthFreqGet (a : Byte) : Prog Reply := letI := Prog.monad; do
  let k ← (checkIndex nSynth a.toNat).on .synthFreqGet 1
  let f ← (synthFreq k).on .synthFreqGet 2
  (Prog.ret { x := BitVec.ofNat 64 f }).on .synthFreqGet 2

/-- REF_FREQ_GET (R196). -/
def refFreqGet (a : Byte) : Prog Reply := letI := Prog.monad; do
  let r ← (checkIndex nRef a.toNat).on .refFreqGet 1
  (mbRead .ref r.1).on .refFreqGet 2
  let base ← (load .refFreqBase).on .refFreqGet 3
  let mult ← (load .refFreqMult).on .refFreqGet 3
  let m ← (load .refRatioM).on .refFreqGet 4
  let n ← (load .refRatioN).on .refFreqGet 4
  let p ← (orRaise (product base mult m n) .malformed).on .refFreqGet 5
  let f ← orRaise (refDecode p) .unsupported
  return { x := BitVec.ofNat 64 f }

/-- REF_FREQ_SET (R197). -/
def refFreqSet (a : Byte) (x : BitVec 64) : Prog Reply := letI := Prog.monad; do
  let r ← (checkIndex nRef a.toNat).on .refFreqSet 1
  let q ← (orRaise (refEncode x.toNat) .unsupported).on .refFreqSet 2
  (mbWrite .ref r.1 q.fields).on .refFreqSet 3
  (Prog.ret {}).on .refFreqSet 5

/-- OUT_FREQ_GET (R202). -/
def outFreqGet (a : Byte) : Prog Reply := letI := Prog.monad; do
  let pin ← (checkIndex nOut a.toNat).on .outFreqGet 1
  let p ← params
  (raiseIf (p.pinFixedRatio pin) .unsupported).on .outFreqGet 2
  let sf ← (outSynthFreq (pairOf pin)).on .outFreqGet 3
  let f ← (outFreq p pin sf).on .outFreqGet 4
  (Prog.ret { x := BitVec.ofNat 64 f }).on .outFreqGet 4

/-- OUT_FREQ_SET (R203). -/
def outFreqSet (a : Byte) (x : BitVec 64) : Prog Reply := letI := Prog.monad; do
  let pin ← (checkIndex nOut a.toNat).on .outFreqSet 1
  let p ← params
  (raiseIf (p.pinFixedRatio pin) .unsupported).on .outFreqSet 2
  (raiseIf (x.toNat == 0) .invalidArgument).on .outFreqSet 3
  mark .outFreqSet 4
  let sf ← (outSynthFreq (pairOf pin)).on .outFreqSet 5
  mark .outFreqSet 6
  setOutFreq p pin x.toNat sf
  (Prog.ret {}).on .outFreqSet 17

/-- SYNTH_FREQ_GET: the current frequency of a synthesizer (R192). -/
def execSynthFreqGet (a : Byte) (s : State) : Host.Outcome State Fault Refusal :=
  runOperation Opcode.synthFreqGet (synthFreqGet a) s

/-- REF_FREQ_GET: the frequency of an input reference (R196). -/
def execRefFreqGet (a : Byte) (s : State) : Host.Outcome State Fault Refusal :=
  runOperation Opcode.refFreqGet (refFreqGet a) s

/-- REF_FREQ_SET: set the frequency of an input reference (R197). -/
def execRefFreqSet (a : Byte) (x : BitVec 64) (s : State) : Host.Outcome State Fault Refusal :=
  runOperation Opcode.refFreqSet (refFreqSet a x) s

/-- OUT_FREQ_GET: the frequency of an output pin (R202). -/
def execOutFreqGet (a : Byte) (s : State) : Host.Outcome State Fault Refusal :=
  runOperation Opcode.outFreqGet (outFreqGet a) s

/-- OUT_FREQ_SET: set the frequency of an output pin (R203). -/
def execOutFreqSet (a : Byte) (x : BitVec 64) (s : State) : Host.Outcome State Fault Refusal :=
  runOperation Opcode.outFreqSet (outFreqSet a x) s

end Sys2Proof.Machine
end

