-- ==== Sys2Proof/Machine/Tod.lean ====
section
/-! DEFINITION. The TOD read/write/rollover state machine (41_tod.md R160 to R168), the operations TOD_GET and TOD_SET,
and the TOD commands (30_encoding.md R100). -/

namespace Sys2Proof.Machine

/-- `TodRead(i, cmd)` (R161): normalised seconds and nanoseconds. -/
def todRead (i : Fin 2) (cmd : TodCmd) : Prog (Nat × Nat) := letI := Prog.monad; do
  (poll (.todCtrl i) todSem).on .todRead 1
  (store (.todCtrl i) cmd.byte.toNat).on .todRead 2
  (poll (.todCtrl i) todSem).on .todRead 3
  let sec ← (load (.todSec i)).on .todRead 4
  let b ← (load (.todNs i)).on .todRead 5
  (Prog.ret (normalize sec (nsOfImage b))).on .todRead 6

/-- `TodWrite(i, sec, ns)` (R164); there is no poll after the command: the last line of the rule's block says so, and
`TodWrite` ends there. -/
def todWrite (i : Fin 2) (sec ns : Nat) : Prog Unit := letI := Prog.monad; do
  (poll (.todCtrl i) todSem).on .todWrite 1
  (store (.todSec i) sec).on .todWrite 2
  (store (.todNs i) (imageOfNs ns)).on .todWrite 3
  (store (.todCtrl i) TodCmd.writeNext1Hz.byte.toNat).on .todWrite 4
  (todDone i).on .todWrite 5

/-- `TodWaitApplied(i)` (R168). -/
def todWaitApplied (i : Fin 2) : Prog Unit := (poll (.todCtrl i) todSem).on .todWaitApplied 1

/-- The samples of `RolloverWait` after the first one (R165). -/
def rolloverSamples (i : Fin 2) (firstSec : Nat) : Nat → Prog (Nat × Nat)
  | 0 => (raise .timeout).on .rolloverWait 6
  | limit + 1 => letI := Prog.monad; do
    mark .rolloverWait 2
    mark .rolloverWait 3
    let t ← (todRead i .readNext1Hz).on .rolloverWait 4
    mark .rolloverWait 5
    if t.1 > firstSec then return t else rolloverSamples i firstSec limit

/-- `RolloverWait(i)` (R165). -/
def rolloverWait (i : Fin 2) : Prog (Nat × Nat) := letI := Prog.monad; do
  let first ← (todRead i .readNext1Hz).on .rolloverWait 1
  let p ← params
  rolloverSamples i first.1 p.rolloverLimit

/-- TOD_GET (R166). -/
def todGet (a : Byte) : Prog Reply := letI := Prog.monad; do
  let i ← (checkIndex nDpll a.toNat).on .todGet 1
  let t ← (todRead i .read).on .todGet 2
  (Prog.ret { x := BitVec.ofNat 64 t.1, y := BitVec.ofNat 64 t.2 }).on .todGet 3

/-- TOD_SET (R167). -/
def todSet (a : Byte) (x y : BitVec 64) : Prog Reply := letI := Prog.monad; do
  let i ← (checkIndex nDpll a.toNat).on .todSet 1
  mark .todSet 2
  (raiseIf (decide (y.toInt < 0) || decide (y.toInt ≥ nsPerS)) .invalidArgument).on .todSet 3
  (raiseIf (!fitsU48 x.toInt) .range).on .todSet 4
  (todWrite i x.toInt.toNat y.toInt.toNat).on .todSet 5
  (Prog.ret {}).on .todSet 5

/-- TOD_GET: get the absolute time of a DPLL (R166). -/
def execTodGet (a : Byte) (s : State) : Host.Outcome State Fault Refusal :=
  runOperation Opcode.todGet (todGet a) s

/-- TOD_SET: set the absolute time of a DPLL, applied at its next 1PPS edge (R167). -/
def execTodSet (a : Byte) (x y : BitVec 64) (s : State) : Host.Outcome State Fault Refusal :=
  runOperation Opcode.todSet (todSet a x y) s

/-- TOD_CMD_READ (R100, R171): the READ command is stored; the responder latches the time at a later step
(`todAck`). -/
def execTodCmdRead (i : Fin 2) (s : State) : Host.Outcome State Fault Refusal :=
  runCommand (.todCtrl i) TodCmd.read.byte s

/-- TOD_CMD_READ_NEXT_1HZ (R100, R172): the READ_NEXT_1HZ command is stored; the responder latches the predicted
time at a later step (`todAck`). -/
def execTodCmdReadNext1Hz (i : Fin 2) (s : State) : Host.Outcome State Fault Refusal :=
  runCommand (.todCtrl i) TodCmd.readNext1Hz.byte s

/-- TOD_CMD_WRITE_NEXT_1HZ (R100, R173): the WRITE_NEXT_1HZ command is stored and the time in the TOD data registers
latched for the next edge (`clockEdge`). -/
def execTodCmdWriteNext1Hz (i : Fin 2) (s : State) : Host.Outcome State Fault Refusal :=
  runCommand (.todCtrl i) TodCmd.writeNext1Hz.byte s

end Sys2Proof.Machine
end

