-- ==== Sys2Proof/Machine/Adjust.lean ====
section
/-! DEFINITION. Frequency trim, TIE phase step and time step (43_adjust.md R220 to R233): the operations ADJFINE,
ADJPHASE and STEPTIME, and the commands TIE_CMD_WRITE and PS_CMD_WRITE (30_encoding.md R100). -/

namespace Sys2Proof.Machine

/-- ADJFINE (R222): a direct write, no handshake; a zero input writes nothing. -/
def adjfine (a : Byte) (x : BitVec 64) : Prog Reply := letI := Prog.monad; do
  let i ← (checkIndex nDpll a.toNat).on .adjfine 1
  let ppm ← (checkS32 x).on .adjfine 2
  mark .adjfine 3
  if ppm = 0 then return {}
  else do
    (store (.dfOffset i) (dcoImage ppm)).on .adjfine 4
    (Prog.ret {}).on .adjfine 5

/-- The command byte of a TIE write (R97, R100). -/
def tieWriteByte : Byte := 0x01

/-- ADJPHASE (R226). -/
def adjphase (a : Byte) (x : BitVec 64) : Prog Reply := letI := Prog.monad; do
  let i ← (checkIndex nDpll a.toNat).on .adjphase 1
  let d ← (checkS32 x).on .adjphase 2
  mark .adjphase 3
  (poll .tieCtrl tieOp).on .adjphase 4
  (store .tieMask (2 ^ i.1)).on .adjphase 5
  (store (.tieData i) (tieImage d)).on .adjphase 6
  (store .tieCtrl tieWriteByte.toNat).on .adjphase 7
  (poll .tieCtrl tieOp).on .adjphase 8
  (Prog.ret {}).on .adjphase 9

/-- `StepUnits(rem, f)` where it fits s32; none where it raises `Range` (R229). -/
def stepUnits (rem : Int) (f : Nat) : Option Int :=
  if fitsS32 (stepQuotient rem f) then some (stepQuotient rem f) else none

/-- The command byte of a phase step of DPLL `i` with the TOD flag (R98, R231). -/
def phaseStepByte (i : Fin 2) : Byte := psCtrlByte (BitVec.ofNat 4 i.1) true

/-- `PhaseStep(i, rem)` (R231); the synthesizer is that of the lowest active pair (R228, D19), and there is no poll
after the command. A perout mask with no pair in it never reaches the choice (R233). -/
def phaseStep (i : Fin 2) (rem : Int) : Prog Unit := letI := Prog.monad; do
  (poll .psCtrl psOp).on .phaseStep 1
  (store .psCount 1).on .phaseStep 2
  let m ← (perout i).on .phaseStep 3
  let p ← orRaise (lowestPair m) .unsupported
  let f ← (outSynthFreq p).on .phaseStep 4
  let u ← (orRaise (stepUnits rem f) .range).on .phaseStep 5
  (store .psData (twos 32 u)).on .phaseStep 6
  (store .psMask m.toNat).on .phaseStep 7
  (store .psCtrl (phaseStepByte i).toNat).on .phaseStep 8
  mark .phaseStep 9

/-- STEPTIME's whole-second part (R233): the TOD is stepped at the coming edge and the step waited out. -/
def stepWhole (i : Fin 2) (whole : Int) : Prog Unit := letI := Prog.monad; do
  let t ← (rolloverWait i).on .steptime 5
  mark .steptime 6
  (raiseIf (!fitsU48 (t.1 + whole)) .range).on .steptime 7
  (todWrite i (t.1 + whole).toNat t.2).on .steptime 8
  (todWaitApplied i).on .steptime 9

/-- STEPTIME's whole-second part, where there are whole seconds to step (R233). -/
def stepSeconds (i : Fin 2) (whole : Int) : Prog Unit := if whole = 0 then .ret () else stepWhole i whole

/-- STEPTIME (R233). -/
def steptime (a : Byte) (x : BitVec 64) : Prog Reply := letI := Prog.monad; do
  let i ← (checkIndex nDpll a.toNat).on .steptime 1
  let m ← (perout i).on .steptime 2
  raiseIf (m == 0) .unsupported
  mark .steptime 3
  mark .steptime 4
  stepSeconds i (split x.toInt).1
  (phaseStep i (split x.toInt).2).on .steptime 10
  (Prog.ret {}).on .steptime 11

/-- STEPTIME: step the time of a DPLL (R233). -/
def execSteptime (a : Byte) (x : BitVec 64) (s : State) : Host.Outcome State Fault Refusal :=
  runOperation Opcode.steptime (steptime a x) s

/-- ADJFINE: trim the frequency of a DPLL (R222). -/
def execAdjfine (a : Byte) (x : BitVec 64) (s : State) : Host.Outcome State Fault Refusal :=
  runOperation Opcode.adjfine (adjfine a x) s

/-- ADJPHASE: step the phase of a DPLL by TIE injection (R226). -/
def execAdjphase (a : Byte) (x : BitVec 64) (s : State) : Host.Outcome State Fault Refusal :=
  runOperation Opcode.adjphase (adjphase a x) s

/-- TIE_CMD_WRITE (R100, R240): the TIE write is stored and latched with the mask and the data of the selected
DPLLs; the responder performs it at a later step (`tieAck`). -/
def execTieCmdWrite (s : State) : Host.Outcome State Fault Refusal := runCommand .tieCtrl tieWriteByte s

/-- PS_CMD_WRITE (R100, R241): the phase step is stored and latched with mask, value and count; the responder
performs it at a later step (`psAck`). -/
def execPsCmdWrite (dpll : BitVec 4) (todStep : Bool) (s : State) : Host.Outcome State Fault Refusal :=
  runCommand .psCtrl (psCtrlByte dpll todStep) s

end Sys2Proof.Machine
end

