-- ==== Sys2Proof/Machine/PhaseComp.lean ====
section
/-! DEFINITION. The static phase-compensation banks (44_phase_comp.md R250 to R258), with the operations
REF_PHASE_COMP_GET, REF_PHASE_COMP_SET, OUT_PHASE_COMP_GET and OUT_PHASE_COMP_SET. -/

namespace Sys2Proof.Machine

/-- `RefPhaseDecode(raw)`; none where it raises `Range` (R251). -/
def refPhaseDecode (raw : Nat) : Option Int :=
  if !fitsS32 (sval 48 raw) then none
  else if -sval 48 raw ≥ 2 ^ 31 then none
  else some (-sval 48 raw)

/-- `HalfCycle(f)`; none where it raises `Malformed` (R254). -/
def halfCycle (f : Nat) : Option Nat :=
  if f = 0 then none
  else if halfCycleQuotient f = 0 then none
  else some (halfCycleQuotient f)

/-- `OutPhaseDecode(raw, h)`; none where it raises `Range` (R256). -/
def outPhaseDecode (raw h : Nat) : Option Int :=
  if fitsS32 (-sval 32 raw * h) then some (-sval 32 raw * h) else none

/-- REF_PHASE_COMP_GET (R252). -/
def refPhaseCompGet (a : Byte) : Prog Reply := letI := Prog.monad; do
  let n ← (checkIndex nRef a.toNat).on .refPhaseCompGet 1
  (mbRead .ref n.1).on .refPhaseCompGet 2
  let raw ← (load .refPhaseComp).on .refPhaseCompGet 3
  let v ← (orRaise (refPhaseDecode raw) .range).on .refPhaseCompGet 4
  (Prog.ret { x := BitVec.ofInt 64 v }).on .refPhaseCompGet 5

/-- REF_PHASE_COMP_SET (R253). -/
def refPhaseCompSet (a : Byte) (x : BitVec 64) : Prog Reply := letI := Prog.monad; do
  let n ← (checkIndex nRef a.toNat).on .refPhaseCompSet 1
  let v ← (checkS32 x).on .refPhaseCompSet 2
  (raiseIf (v == -2 ^ 31) .range).on .refPhaseCompSet 3
  (mbWrite .ref n.1 [(.refPhaseComp, refCompImage v)]).on .refPhaseCompSet 4
  (Prog.ret {}).on .refPhaseCompSet 5

/-- OUT_PHASE_COMP_GET (R257): the Output window still holds the pair when the compensation is read (R134). -/
def outPhaseCompGet (a : Byte) : Prog Reply := letI := Prog.monad; do
  let pin ← (checkIndex nOut a.toNat).on .outPhaseCompGet 1
  mark .outPhaseCompGet 2
  let f ← (outSynthFreq (pairOf pin)).on .outPhaseCompGet 3
  let h ← (orRaise (halfCycle f) .malformed).on .outPhaseCompGet 4
  let raw ← (load .outPhaseComp).on .outPhaseCompGet 5
  let v ← (orRaise (outPhaseDecode raw h) .range).on .outPhaseCompGet 6
  (Prog.ret { x := BitVec.ofInt 64 v }).on .outPhaseCompGet 7

/-- OUT_PHASE_COMP_SET (R258). -/
def outPhaseCompSet (a : Byte) (x : BitVec 64) : Prog Reply := letI := Prog.monad; do
  let pin ← (checkIndex nOut a.toNat).on .outPhaseCompSet 1
  let v ← (checkS32 x).on .outPhaseCompSet 2
  mark .outPhaseCompSet 3
  let f ← (outSynthFreq (pairOf pin)).on .outPhaseCompSet 4
  let h ← (orRaise (halfCycle f) .malformed).on .outPhaseCompSet 5
  (raiseIf (trem v h != 0) .range).on .outPhaseCompSet 6
  mark .outPhaseCompSet 7
  (raiseIf (decide (-tdiv v h ≥ 2 ^ 31)) .range).on .outPhaseCompSet 8
  (mbWrite .out (pairOf pin).1 [(.outPhaseComp, outCompImage (tdiv v h))]).on .outPhaseCompSet 9
  (Prog.ret {}).on .outPhaseCompSet 10

/-- REF_PHASE_COMP_GET: read a reference's phase compensation (R252). -/
def execRefPhaseCompGet (a : Byte) (s : State) : Host.Outcome State Fault Refusal :=
  runOperation Opcode.refPhaseCompGet (refPhaseCompGet a) s

/-- REF_PHASE_COMP_SET: set a reference's phase compensation (R253). -/
def execRefPhaseCompSet (a : Byte) (x : BitVec 64) (s : State) : Host.Outcome State Fault Refusal :=
  runOperation Opcode.refPhaseCompSet (refPhaseCompSet a x) s

/-- OUT_PHASE_COMP_GET: read an output pair's phase compensation (R257). -/
def execOutPhaseCompGet (a : Byte) (s : State) : Host.Outcome State Fault Refusal :=
  runOperation Opcode.outPhaseCompGet (outPhaseCompGet a) s

/-- OUT_PHASE_COMP_SET: set an output pair's phase compensation (R258). -/
def execOutPhaseCompSet (a : Byte) (x : BitVec 64) (s : State) : Host.Outcome State Fault Refusal :=
  runOperation Opcode.outPhaseCompSet (outPhaseCompSet a x) s

end Sys2Proof.Machine
end

