-- ==== Sys2Proof/Machine/PinEnable.lean ====
section
/-! DEFINITION. The pin enable lattice and the periodic-output masks (45_pin_enable.md R270 to R281), with the
operations PIN_ENABLE, PIN_DISABLE, PEROUT_ENABLE and PEROUT_DISABLE. -/

namespace Sys2Proof.Machine

/-- The shared sequence of PIN_ENABLE and PIN_DISABLE (R273, R274): read the pair's state, write the next one. -/
def pinMove (proc : Proc) (next : EnableState → Half → EnableState) (a : Byte) : Prog Reply := letI := Prog.monad; do
  let pin ← (checkIndex nOut a.toNat).on proc 1
  mark proc 2
  (mbRead .out (pairOf pin).1).on proc 3
  let c ← (load .outSignalFmt).on proc 4
  let st ← orRaise (enableStateOf c) .malformed
  (mbWrite .out (pairOf pin).1 [(.outSignalFmt, (next st (halfOf pin)).code)]).on proc 5
  (Prog.ret {}).on proc 6

/-- PIN_ENABLE (R273). -/
def pinEnable (a : Byte) : Prog Reply := pinMove .pinEnable enableNext a

/-- PIN_DISABLE (R274). -/
def pinDisable (a : Byte) : Prog Reply := pinMove .pinDisable disableNext a

/-- The index checks of `{dpll, pair}` (R110, R113, R280, R281). -/
def checkDpllPair (a : Byte) : Prog (Fin 2 × Fin 10) := letI := Prog.monad; do
  let i ← checkIndex nDpll (dpllNibble a)
  let p ← checkIndex nPair (pairNibble a)
  return (i, p)

/-- PEROUT_ENABLE (R280): the synthesizer read is a check, its result unused. -/
def peroutEnable (a : Byte) (x y : BitVec 64) : Prog Reply := letI := Prog.monad; do
  mark .peroutEnable 1
  let ip ← (checkDpllPair a).on .peroutEnable 2
  (raiseIf (x.toInt != nsPerS) .invalidArgument).on .peroutEnable 3
  (raiseIf (trem y.toInt nsPerS != 0) .invalidArgument).on .peroutEnable 4
  let _ ← (outSynthFreq ip.2).on .peroutEnable 5
  (markPair ip.1 ip.2 true).on .peroutEnable 6
  (Prog.ret {}).on .peroutEnable 7

/-- PEROUT_DISABLE (R281): no register access. -/
def peroutDisable (a : Byte) : Prog Reply := letI := Prog.monad; do
  mark .peroutDisable 1
  let ip ← (checkDpllPair a).on .peroutDisable 2
  (markPair ip.1 ip.2 false).on .peroutDisable 3
  (Prog.ret {}).on .peroutDisable 4

/-- PIN_ENABLE: enable an output pin (R273). -/
def execPinEnable (a : Byte) (s : State) : Host.Outcome State Fault Refusal :=
  runOperation Opcode.pinEnable (pinEnable a) s

/-- PIN_DISABLE: disable an output pin (R274). -/
def execPinDisable (a : Byte) (s : State) : Host.Outcome State Fault Refusal :=
  runOperation Opcode.pinDisable (pinDisable a) s

/-- PEROUT_ENABLE: add a pair to a DPLL's 1PPS outputs (R280). -/
def execPeroutEnable (a : Byte) (x y : BitVec 64) (s : State) : Host.Outcome State Fault Refusal :=
  runOperation Opcode.peroutEnable (peroutEnable a x y) s

/-- PEROUT_DISABLE: remove a pair from a DPLL's 1PPS outputs (R281). -/
def execPeroutDisable (a : Byte) (s : State) : Host.Outcome State Fault Refusal :=
  runOperation Opcode.peroutDisable (peroutDisable a) s

end Sys2Proof.Machine
end

