-- ==== Sys2Proof/Machine/Access.lean ====
section
/-! DEFINITION. The controller in the middle of an operation (10_state.md R20, R25, R27, R28): where it is, one of its
steps, and the rest of the operation. -/

namespace Sys2Proof.Machine

/-- The program of an operation; a register-level command is not one. -/
def programOf : Instr → Option (Prog Reply)
  | .todGet a => some (todGet a)
  | .todSet a x y => some (todSet a x y)
  | .steptime a x => some (steptime a x)
  | .adjfine a x => some (adjfine a x)
  | .adjphase a x => some (adjphase a x)
  | .synthFreqGet a => some (synthFreqGet a)
  | .refFreqGet a => some (refFreqGet a)
  | .refFreqSet a x => some (refFreqSet a x)
  | .outFreqGet a => some (outFreqGet a)
  | .outFreqSet a x => some (outFreqSet a x)
  | .refPhaseCompGet a => some (refPhaseCompGet a)
  | .refPhaseCompSet a x => some (refPhaseCompSet a x)
  | .outPhaseCompGet a => some (outPhaseCompGet a)
  | .outPhaseCompSet a x => some (outPhaseCompSet a x)
  | .pinEnable a => some (pinEnable a)
  | .pinDisable a => some (pinDisable a)
  | .peroutEnable a x y => some (peroutEnable a x y)
  | .peroutDisable a => some (peroutDisable a)
  | .mbReqWrite _ => none
  | .mbReqRead _ => none
  | .todCmdRead _ => none
  | .todCmdReadNext1Hz _ => none
  | .todCmdWriteNext1Hz _ => none
  | .tieCmdWrite => none
  | .psCmdWrite _ _ => none

/-- The program of the operation the operand registers hold (R26, R111); a reserved opcode's is to raise
`InvalidArgument` (R112). -/
def OpRegs.program (o : OpRegs) : Prog Reply :=
  match decodeOp o.opcode o.a o.x o.y with
  | .ok i => (programOf i).getD (raise .invalidArgument)
  | .error _ => raise .invalidArgument

/-- What is left of a program once its first steps have answered these values (R27). -/
def Prog.after {α : Type} (p : Params) : Prog α → List Nat → Prog α
  | .ret a, _ => .ret a
  | .raise e, _ => .raise e
  | .act a k, vs =>
    match vs with
    | [] => .act a k
    | v :: vs => (k v).after p vs
  | .params k, vs => (k p).after p vs

/-- The sequence position (R28) before what is left of a program: the line it reaches next, else the line it is in. Every
line that is performed or returned from is reached first, so the position is always that of the step performed next. -/
def Prog.position {α : Type} (q : Prog α) (old : List Line) : List Line :=
  match q with
  | .act (.line pos) _ => pos
  | _ => old

/-- The TOD sub-states after a step that answered `v` (R25, R160): `CommandIssued` from the write of a command byte until
`SEM = 0` is observed, or until the end of `TodWrite`. -/
def Act.todNext (a : Act) (v : Nat) (t : Vector TodPhase 2) : Vector TodPhase 2 :=
  match a with
  | .write (.todCtrl i) w => if w &&& todSem.toNat = 0 then t else upd t i .commandIssued
  | .read (.todCtrl i) => if v &&& todSem.toNat = 0 then upd t i .idle else t
  | .todDone i => upd t i .idle
  | _ => t

/-- The controller's registers after a step that answered `v` and left `q` to do. -/
def State.note (s : State) (a : Act) (v : Nat) (q : Prog Reply) : State :=
  { s with
    ctl :=
      { s.ctl with
        seq := q.position s.ctl.seq
        scratch := s.ctl.scratch ++ [v]
        tod := a.todNext v s.ctl.tod } }

/-- What is left of the running operation. -/
def State.residual (s : State) : Prog Reply := s.op.program.after s.par s.ctl.scratch

/-- One step of the running operation: at most one register-port access (R20). -/
def opStep (s : State) : Host.Outcome State Fault Refusal :=
  match s.residual with
  | .act a k =>
    match a.perform s with
    | .ok v s' => .next (s'.note a v ((k v).after s.par []))
    | .error e s' => finish (.error e s')
  | q => finish (q.run s)

/-- The rest of the running operation, to its end. -/
def resume (s : State) : Host.Outcome State Fault Refusal := finish (s.residual.run s)

/-- An accepted request begun: the controller is at its first step (R25, R28). -/
def startOp (s : State) : State :=
  { beginOp s.op.opcode s with ctl := { (beginOp s.op.opcode s).ctl with
    seq := (s.op.program.after s.par []).position [] } }

end Sys2Proof.Machine
end

