-- ==== Sys2Proof/Machine/Dispatch.lean ====
section
/-! DEFINITION. The dispatch: one arm per instruction of spec/opcode_table.json. -/

namespace Sys2Proof.Machine

def exec (i : Instr) (s : State) : Host.Outcome State Fault Refusal :=
  match i with
  | .todGet a => Sys2Proof.Machine.execTodGet a s
  | .todSet a x y => Sys2Proof.Machine.execTodSet a x y s
  | .steptime a x => Sys2Proof.Machine.execSteptime a x s
  | .adjfine a x => Sys2Proof.Machine.execAdjfine a x s
  | .adjphase a x => Sys2Proof.Machine.execAdjphase a x s
  | .synthFreqGet a => Sys2Proof.Machine.execSynthFreqGet a s
  | .refFreqGet a => Sys2Proof.Machine.execRefFreqGet a s
  | .refFreqSet a x => Sys2Proof.Machine.execRefFreqSet a x s
  | .outFreqGet a => Sys2Proof.Machine.execOutFreqGet a s
  | .outFreqSet a x => Sys2Proof.Machine.execOutFreqSet a x s
  | .refPhaseCompGet a => Sys2Proof.Machine.execRefPhaseCompGet a s
  | .refPhaseCompSet a x => Sys2Proof.Machine.execRefPhaseCompSet a x s
  | .outPhaseCompGet a => Sys2Proof.Machine.execOutPhaseCompGet a s
  | .outPhaseCompSet a x => Sys2Proof.Machine.execOutPhaseCompSet a x s
  | .pinEnable a => Sys2Proof.Machine.execPinEnable a s
  | .pinDisable a => Sys2Proof.Machine.execPinDisable a s
  | .peroutEnable a x y => Sys2Proof.Machine.execPeroutEnable a x y s
  | .peroutDisable a => Sys2Proof.Machine.execPeroutDisable a s
  | .mbReqWrite d => Sys2Proof.Machine.execMbReqWrite d s
  | .mbReqRead d => Sys2Proof.Machine.execMbReqRead d s
  | .todCmdRead d => Sys2Proof.Machine.execTodCmdRead d s
  | .todCmdReadNext1Hz d => Sys2Proof.Machine.execTodCmdReadNext1Hz d s
  | .todCmdWriteNext1Hz d => Sys2Proof.Machine.execTodCmdWriteNext1Hz d s
  | .tieCmdWrite => Sys2Proof.Machine.execTieCmdWrite s
  | .psCmdWrite dpll todStep => Sys2Proof.Machine.execPsCmdWrite dpll todStep s

end Sys2Proof.Machine
end

