-- ==== Sys2Proof/Machine/Sequencer.lean ====
section
/-! DEFINITION. What runs when: the bootstrap script (70_reset_and_hazards.md R332, R334), acceptance of a request
(10_state.md R22, R25, R26; 30_encoding.md R112), detach and attach (R21, R330, R334), and idling. -/

namespace Sys2Proof.Machine

/-- Nothing is accepted: the responder and the clock take the moves of one slot (R24, R331). -/
def idle (s : State) : State := s.tick

/-- A script write that is no command: one access (R332). Its failure leaves the device unattached (U22). -/
def bootStore (addr : BitVec 16) (b : Byte) (s : State) : Host.Outcome State Fault Refusal :=
  match xferWrite addr.toNat [b] s with
  | .ok _ s' => .next s'
  | .error (.raise _) s' => .next { s' with dev := .bootFailed }
  | .error (.fault f) _ => .fault f

/-- `X,a,b` (R121): a command where the byte is one, else a plain store. -/
def bootWrite (addr : BitVec 16) (b : Byte) (s : State) : Host.Outcome State Fault Refusal :=
  match decodeCtrl addr b with
  | .ok i => exec i s
  | .error _ => bootStore addr b s

/-- One line of the bootstrap script (R121, R332). -/
def bootLine (l : ScriptLine) (s : State) : Host.Outcome State Fault Refusal :=
  match l with
  | .write addr b => bootWrite addr b s
  | .wait _ => .next (idle s)
  | .comment => .next s

/-- The bootstrap: its next line, or its end, after which operations are accepted (R334). Nothing that arrives is taken
before that: a request (R332), and a detach too, which waits until the script has ended (log entry 15). -/
def bootStep (s : State) : Host.Outcome State Fault Refusal :=
  match s.boot with
  | [] => .next { s with dev := .attached }
  | l :: ls => bootLine l { s with boot := ls }

/-- A request accepted: the caller holds the lock and the operand registers hold its fields (R22, R26). -/
def accept (c : Nat) (bytes : List Byte) (s : State) : State :=
  { s with
    ctl := { s.ctl with lock := .held c }
    op := ⟨reqOpcode bytes, reqA bytes, reqX bytes, reqY bytes⟩ }

/-- A request with a reserved opcode: accepted, no register access, `InvalidArgument` (R112). -/
def rejectOpcode (op : Byte) (s : State) : Host.Outcome State Fault Refusal :=
  runOperation op (raise .invalidArgument) s

/-- An accepted request run. -/
def runRequest (bytes : List Byte) (s : State) : Host.Outcome State Fault Refusal :=
  match decode (.request bytes) with
  | .ok i => exec i s
  | .error _ => rejectOpcode (reqOpcode bytes) s

/-- The canonical form of register storage with the same bytes. -/
def Memory.canon (m : Memory) : Memory := m.foldr (fun c r => r.set c.1 c.2) []

/-- A domain's request as an attach finds it: none where its request bits are 0 (R34, R40). -/
def Asic.foundReq (a : Asic) (d : Domain) : MbReq :=
  if a.ctrlByte (.mbSem d) &&& semBoth = 0 then .none else a.req d

/-- The ASIC side as an attach finds it (R40, R34 to R36): any register bytes, banks and counters, but no pending request
where the flag bits that stand for it are 0, and nanoseconds below 10^9. -/
def Asic.found (a : Asic) : Asic :=
  { a with
    regs := a.regs.canon
    mbReq := #v[a.foundReq .ref, a.foundReq .dpll, a.foundReq .synth, a.foundReq .out]
    tod := a.tod.map fun t => ⟨t.sec, BitVec.ofNat 32 (t.ns.toNat % nsPerS)⟩
    todPend := Vector.ofFn fun i : Fin 2 => if a.ctrlByte (.todCtrl i) &&& todSem = 0 then none else a.todPend.get i
    tiePend := if a.ctrlByte .tieCtrl &&& tieOp = 0 then none else a.tiePend
    psPend := if a.ctrlByte .psCtrl &&& psOp = 0 then none else a.psPend }

/-- A new attach (R330, R40): the controller at its reset values, the ASIC side as the attach finds it, the script to
run again. -/
def attach (a : Asic) (s : State) : State :=
  { s with
    dev := .booting
    boot := s.par.bootScript
    ctl := Ctl.reset
    op := ⟨0, 0, 0, 0⟩
    res := ⟨0, 0, 0⟩
    resTo := none
    asic := a.found }

/-- The lock is free: the next arrival is taken (R22, R334). An attach of a device that is attached already says nothing
new and changes nothing (log entry 15). -/
def takeArrival (start : List Byte → State → Host.Outcome State Fault Refusal) (s : State) :
    Host.Outcome State Fault Refusal :=
  match s.port with
  | [] => .next (idle s)
  | .request c bytes :: rest => start bytes.toList (accept c bytes.toList { s with port := rest })
  | .detach :: rest => .next { s with dev := .detached, port := rest }
  | .attach _ :: rest => .next { s with port := rest }

/-- The lock is held: the running operation goes on, arrivals wait (R22, R25), and a detach is refused (U23, R334). -/
def whileHeld (go : State → Host.Outcome State Fault Refusal) (s : State) : Host.Outcome State Fault Refusal :=
  match s.port with
  | .detach :: _ => .refused .detachWhileHeld
  | _ =>
    match s.ctl.phase with
    | .busy _ => go s
    | .idle => .next (idle s)

/-- The device while it exists. -/
def portStep (start : List Byte → State → Host.Outcome State Fault Refusal)
    (go : State → Host.Outcome State Fault Refusal) (s : State) : Host.Outcome State Fault Refusal :=
  match s.ctl.lock with
  | .free => takeArrival start s
  | .held _ => whileHeld go s

/-- No device is attached: no request is accepted (R21, U22); only an attach is. Whether the responder and the clocks go on
stepping meanwhile is not said (R314); here they take the moves of a slot, which the next attach does not see (log entry
15). -/
def unattachedStep (s : State) : Host.Outcome State Fault Refusal :=
  match s.port with
  | .attach a :: rest => .next (attach a { s with port := rest })
  | _ => .next (idle s)

/-- A step of the machine, from what starts an accepted request and what goes on with a running operation. -/
def stepWith (start : List Byte → State → Host.Outcome State Fault Refusal)
    (go : State → Host.Outcome State Fault Refusal) (s : State) : Host.Outcome State Fault Refusal :=
  match s.dev with
  | .booting => bootStep s
  | .attached => portStep start go s
  | .bootFailed => unattachedStep s
  | .detached => unattachedStep s

/-- A step that runs an operation to its end. -/
def stepMachine (s : State) : Host.Outcome State Fault Refusal := stepWith runRequest resume s

/-- A step of the agents of R20: the controller makes at most one register-port access. -/
def accessStep (s : State) : Host.Outcome State Fault Refusal := stepWith (fun _ s => .next (startOp s)) opStep s

/-- `n` such steps, ending at a fault or a refusal. -/
def accessSteps : Nat → State → Host.Outcome State Fault Refusal
  | 0, s => .next s
  | n + 1, s =>
    match accessStep s with
    | .next t => accessSteps n t
    | .fault f => .fault f
    | .refused r => .refused r

/-- A packet placed where the next step takes it: a request as the next arrival of an attached, idle device; a
register write as the next line of the bootstrap script. -/
def placePacket (pk : Packet) (s : State) : State :=
  match pk with
  | .request bs =>
    { s with
      dev := .attached
      ctl := { s.ctl with lock := .free, phase := .idle }
      port := .request 0 (Vector.ofFn fun k : Fin 18 => bs.getD k.1 0) :: s.port }
  | .regWrite addr b => { s with dev := .booting, boot := .write addr b :: s.boot }

end Sys2Proof.Machine
end

