-- ==== Sys2Proof/Machine/Step.lean ====
section
/-! DEFINITION. One step, and where the host places the next instruction. -/

namespace Sys2Proof.Machine

/-- One step of the machine: a script line, an operation from its acceptance (or from where it stands) to its result, an
attach or detach, or an idle slot. `accessStep` is the same machine one register-port access at a time. -/
def step (s : State) : Host.Outcome State Fault Refusal := stepMachine s

/-- `s` with a table word placed where the next step takes it (log entry 13). -/
def State.withFetchWord (s : State) (nbits w : Nat) : State := placePacket (placeWord nbits w) s

end Sys2Proof.Machine
end

