-- ==== Sys2Proof/Machine/Assembler.lean ====
section
/-! DEFINITION. The assembler syntax of the operations (30_encoding.md R120), on characters: one operation a line, its
mnemonic, then operands separated by commas. A line that is not of that form has no instruction. -/

namespace Sys2Proof.Machine

/-- The operations an assembler mnemonic names (R120). -/
inductive AsmOp where
  | todGet
  | todSet
  | steptime
  | adjfine
  | adjphase
  | synthFreqGet
  | refFreqGet
  | refFreqSet
  | outFreqGet
  | outFreqSet
  | refPhaseCompGet
  | refPhaseCompSet
  | outPhaseCompGet
  | outPhaseCompSet
  | pinEnable
  | pinDisable
  | peroutEnable
  | peroutDisable
  deriving DecidableEq, Repr, Inhabited

/-- The mnemonics of R120, the aliases `adjtime`, `settime` and `gettime` among them. -/
def asmTable : List (List Char × AsmOp) :=
  [(['t', 'o', 'd', '.', 'g', 'e', 't'], .todGet), (['g', 'e', 't', 't', 'i', 'm', 'e'], .todGet),
    (['t', 'o', 'd', '.', 's', 'e', 't'], .todSet), (['s', 'e', 't', 't', 'i', 'm', 'e'], .todSet),
    (['t', 'o', 'd', '.', 's', 't', 'e', 'p'], .steptime), (['a', 'd', 'j', 't', 'i', 'm', 'e'], .steptime),
    (['a', 'd', 'j', '.', 'f', 'i', 'n', 'e'], .adjfine), (['a', 'd', 'j', '.', 'p', 'h', 'a', 's', 'e'], .adjphase)] ++
  [(['s', 'y', 'n', 't', 'h', '.', 'f', 'r', 'e', 'q'], .synthFreqGet),
    (['r', 'e', 'f', '.', 'f', 'r', 'e', 'q'], .refFreqGet),
    (['r', 'e', 'f', '.', 'f', 'r', 'e', 'q', '.', 's', 'e', 't'], .refFreqSet),
    (['o', 'u', 't', '.', 'f', 'r', 'e', 'q'], .outFreqGet),
    (['o', 'u', 't', '.', 'f', 'r', 'e', 'q', '.', 's', 'e', 't'], .outFreqSet)] ++
  [(['r', 'e', 'f', '.', 'p', 'c', 'o', 'm', 'p'], .refPhaseCompGet),
    (['r', 'e', 'f', '.', 'p', 'c', 'o', 'm', 'p', '.', 's', 'e', 't'], .refPhaseCompSet),
    (['o', 'u', 't', '.', 'p', 'c', 'o', 'm', 'p'], .outPhaseCompGet),
    (['o', 'u', 't', '.', 'p', 'c', 'o', 'm', 'p', '.', 's', 'e', 't'], .outPhaseCompSet)] ++
  [(['p', 'i', 'n', '.', 'e', 'n', 'a', 'b', 'l', 'e'], .pinEnable),
    (['p', 'i', 'n', '.', 'd', 'i', 's', 'a', 'b', 'l', 'e'], .pinDisable),
    (['p', 'e', 'r', 'o', 'u', 't', '.', 'e', 'n', 'a', 'b', 'l', 'e'], .peroutEnable),
    (['p', 'e', 'r', 'o', 'u', 't', '.', 'd', 'i', 's', 'a', 'b', 'l', 'e'], .peroutDisable)]

/-- The value of a digit. -/
def digitOf (c : Char) : Option Nat :=
  if '0'.toNat ≤ c.toNat ∧ c.toNat ≤ '9'.toNat then some (c.toNat - '0'.toNat)
  else if 'a'.toNat ≤ c.toNat ∧ c.toNat ≤ 'f'.toNat then some (c.toNat - 'a'.toNat + 10)
  else if 'A'.toNat ≤ c.toNat ∧ c.toNat ≤ 'F'.toNat then some (c.toNat - 'A'.toNat + 10)
  else none

/-- A digit string in a base, after the value `acc` of the digits before it. -/
def parseDigits (base : Nat) : List Char → Nat → Option Nat
  | [], acc => some acc
  | c :: cs, acc =>
    match digitOf c with
    | some d => if d < base then parseDigits base cs (acc * base + d) else none
    | none => none

/-- A decimal or `0x` hexadecimal number. -/
def parseNat : List Char → Option Nat
  | '0' :: 'x' :: c :: cs => parseDigits 16 (c :: cs) 0
  | c :: cs => parseDigits 10 (c :: cs) 0
  | [] => none

/-- A number, optionally negative. -/
def parseInt : List Char → Option Int
  | '-' :: cs => (parseNat cs).map fun n => -(n : Int)
  | cs => (parseNat cs).map fun n => (n : Int)

/-- A 64-bit operand: any value a signed or an unsigned 64-bit field holds. -/
def parseX (cs : List Char) : Option (BitVec 64) :=
  match parseInt cs with
  | some v => if -2 ^ 63 ≤ v ∧ v < 2 ^ 64 then some (BitVec.ofInt 64 v) else none
  | none => none

/-- An index operand: a letter, then a number that fits `bits` bits. -/
def parseIndex (letter : Char) (bits : Nat) : List Char → Option Nat
  | c :: cs =>
    if c = letter then
      match parseNat cs with
      | some n => if n < 2 ^ bits then some n else none
      | none => none
    else none
  | [] => none

/-- The text without the spaces before and after it. -/
def dropSpaces (cs : List Char) : List Char :=
  ((cs.dropWhile fun c => c = ' ').reverse.dropWhile fun c => c = ' ').reverse

/-- The text before the first `sep` and the texts after each `sep`. -/
def splitAt (sep : Char) : List Char → List Char → List (List Char)
  | [], acc => [acc.reverse]
  | c :: cs, acc => if c = sep then acc.reverse :: splitAt sep cs [] else splitAt sep cs (c :: acc)

/-- The index byte of an operation on one entity. -/
def indexByte (letter : Char) (cs : List Char) : Option Byte := (parseIndex letter 8 cs).map (BitVec.ofNat 8)

/-- The index byte `{dpll, pair}`. -/
def pairByte (d p : List Char) : Option Byte :=
  match parseIndex 'd' 4 d, parseIndex 'p' 4 p with
  | some i, some q => some (BitVec.ofNat 8 (i * 16 + q))
  | _, _ => none

/-- An operation with an index alone. -/
def withIndex (mk : Byte → Instr) (letter : Char) (cs : List Char) : Option Instr := (indexByte letter cs).map mk

/-- An operation with an index and one 64-bit operand. -/
def withX (mk : Byte → BitVec 64 → Instr) (letter : Char) (cs x : List Char) : Option Instr :=
  match indexByte letter cs, parseX x with
  | some a, some v => some (mk a v)
  | _, _ => none

/-- The instruction of an operation with its operand texts (R120). -/
def assembleOp (op : AsmOp) (args : List (List Char)) : Option Instr :=
  match op, args with
  | .todGet, [d] => withIndex .todGet 'd' d
  | .todSet, [d, x, y] => (parseX y).bind fun v => withX (fun a s => .todSet a s v) 'd' d x
  | .steptime, [d, x] => withX .steptime 'd' d x
  | .adjfine, [d, x] => withX .adjfine 'd' d x
  | .adjphase, [d, x] => withX .adjphase 'd' d x
  | .synthFreqGet, [k] => withIndex .synthFreqGet 's' k
  | .refFreqGet, [r] => withIndex .refFreqGet 'r' r
  | .refFreqSet, [r, x] => withX .refFreqSet 'r' r x
  | .outFreqGet, [o] => withIndex .outFreqGet 'o' o
  | .outFreqSet, [o, x] => withX .outFreqSet 'o' o x
  | .refPhaseCompGet, [r] => withIndex .refPhaseCompGet 'r' r
  | .refPhaseCompSet, [r, x] => withX .refPhaseCompSet 'r' r x
  | .outPhaseCompGet, [o] => withIndex .outPhaseCompGet 'o' o
  | .outPhaseCompSet, [o, x] => withX .outPhaseCompSet 'o' o x
  | .pinEnable, [o] => withIndex .pinEnable 'o' o
  | .pinDisable, [o] => withIndex .pinDisable 'o' o
  | .peroutEnable, [d, p, x, y] =>
    (pairByte d p).bind fun a => (parseX x).bind fun v => (parseX y).map fun w => .peroutEnable a v w
  | .peroutDisable, [d, p] => (pairByte d p).map .peroutDisable
  | _, _ => none

/-- The operand texts after the mnemonic. -/
def operandTexts (rest : List Char) : List (List Char) := (splitAt ',' rest []).map dropSpaces

/-- The instruction of an assembler line (R120). -/
def assemble (line : List Char) : Option Instr :=
  match asmTable.find? (fun r => r.1 == line.takeWhile (fun c => c ≠ ' ')) with
  | some r => assembleOp r.2 (operandTexts (line.dropWhile fun c => c ≠ ' '))
  | none => none

/-- The 17 bytes of a result (R110): the status, then `x` and `y` big-endian. -/
def resultBytes (r : ResRegs) : List Byte := r.status :: (beBytes 8 r.x.toNat ++ beBytes 8 r.y.toNat)

end Sys2Proof.Machine
end

