-- ==== Sys2Proof/Safety.lean ====
section
/-! DEFINITION. The terms statements are made in: the launch premise `Ready` (70_reset_and_hazards.md R333), what a
completed operation leaves (its result, and all it does not change), which registers an operation accesses, which
errors it can report (60_exceptions.md R316), and the machine's invariants. -/

namespace Sys2Proof.Machine

/-! ### Schedules -/

/-- A slot in which nothing moves and no access fails. -/
def Slot.silent : Slot := ⟨[], none⟩

/-- The schedule in which the responder never moves and no access fails. -/
def Env.silent : Env := ⟨[], Slot.silent⟩

/-- The prompt responder, with a 1PPS edge of DPLL `i` before every access. -/
def Env.ticking (i : Fin 2) : Env := ⟨[], ⟨Slot.prompt.moves ++ [.edge i], none⟩⟩

/-- The prompt responder, with two 1PPS edges of DPLL `i`: one before the sixth access and one before the
sixteenth. -/
def Env.onTime (i : Fin 2) : Env :=
  ⟨List.replicate 5 Slot.prompt ++ [⟨Slot.prompt.moves ++ [.edge i], none⟩] ++ List.replicate 9 Slot.prompt ++
    [⟨Slot.prompt.moves ++ [.edge i], none⟩], Slot.prompt⟩

/-- The slot of the `n`-th coming access. -/
def Env.slot (e : Env) (n : Nat) : Slot := e.slots.getD n e.rest

/-- The moves in which the responder performs what the controller can have asked for (R140, R171 to R173, R240, R241). -/
def ackMoves : List Move := Slot.prompt.moves ++ [.edge 0, .edge 1]

/-- The responder acknowledges within the budget (R142): each acknowledge comes before one of any `limit` accesses in a
row, so before one of the `limit` samples of a poll. A time set is acknowledged by the next edge (R173). -/
abbrev Env.Acknowledges (e : Env) (limit : Nat) : Prop :=
  ∀ mv ∈ ackMoves, ∀ n, ∃ k < limit, mv ∈ (e.slot (n + k)).moves

/-! ### The launch premise (R333) -/

def allDomains : List Domain := [.ref, .dpll, .synth, .out]

/-- Nothing is pending in the responder: every request flag is 0 and every latch is `None` (R333). -/
abbrev Asic.Quiet (a : Asic) : Prop :=
  (∀ d ∈ allDomains, a.ctrlByte (.mbSem d) &&& semBoth = 0 ∧ a.req d = .none) ∧
  (∀ i : Fin 2, a.ctrlByte (.todCtrl i) &&& todSem = 0 ∧ a.todPend.get i = none) ∧
  (a.ctrlByte .tieCtrl &&& tieOp = 0 ∧ a.tiePend = none) ∧
  (a.ctrlByte .psCtrl &&& psOp = 0 ∧ a.psPend = none)

/-- Every bank field holds a legal value (R333). -/
abbrev Asic.BanksLegal (a : Asic) : Prop :=
  (∀ k : Fin 5, (a.bankSynth.get k).n ≠ 0) ∧ (∀ r : Fin 10, (a.bankRef.get r).n ≠ 0) ∧
  (∀ p : Fin 10, (a.bankOut.get p).synthSel.toNat ≤ 4 ∧ (a.bankOut.get p).signalFmt.toNat ≤ 3 ∧
    (a.bankOut.get p).div ≠ 0 ∧ (a.bankOut.get p).ndiv ≠ 0)

/-- Nothing is pending, and the responder performs every request at once: the responder of the spec's own programs
(95_test_vectors.md), a case of R142's. -/
abbrev State.Prompt (s : State) : Prop := s.par.wf = true ∧ s.asic.Quiet ∧ s.env = Env.prompt

/-- `Ready` (R333): nothing is pending, every bank field is legal, and the responder acknowledges within the poll
budgets. -/
abbrev State.Ready (s : State) : Prop :=
  s.par.wf = true ∧ s.asic.Quiet ∧ s.asic.BanksLegal ∧ s.env.Acknowledges s.par.mbPollLimit

/-! ### Requests -/

/-- The 18 bytes of a request (R110): the opcode, `a`, and `x` and `y`, the most significant byte of each first. -/
def fieldBytes (op a : Byte) (x y : BitVec 64) : List Byte :=
  [op, a] ++ (List.range 8).map (fun k => BitVec.ofNat 8 (x.toNat / 256 ^ (7 - k))) ++
    (List.range 8).map (fun k => BitVec.ofNat 8 (y.toNat / 256 ^ (7 - k)))

/-- The operations of the opcode table with the fields of a request (R111): a field marked `-` does not count. -/
def operationsOf (a : Byte) (x y : BitVec 64) : List (Byte × Instr) :=
  [(0x10, .todGet a), (0x11, .todSet a x y), (0x12, .steptime a x), (0x13, .adjfine a x), (0x14, .adjphase a x),
    (0x20, .synthFreqGet a), (0x21, .refFreqGet a), (0x22, .refFreqSet a x), (0x23, .outFreqGet a),
    (0x24, .outFreqSet a x), (0x30, .refPhaseCompGet a), (0x31, .refPhaseCompSet a x), (0x32, .outPhaseCompGet a),
    (0x33, .outPhaseCompSet a x), (0x40, .pinEnable a), (0x41, .pinDisable a), (0x42, .peroutEnable a x y),
    (0x43, .peroutDisable a)]

/-! ### The running operation -/

/-- One step `act` of the running operation took `s` to `t`, where the operation goes on: the step answered `v` and left
the ASIC side, the schedule and the perout masks as `t` has them; the position is the line `t` reaches next, and the line
it was in where `t` reaches none (R28); and the TOD sub-state of a DPLL is `CommandIssued` after the write of a command
byte with its semaphore set, `Idle` after a read that shows `SEM = 0` and at the end of `TodWrite`, and else as it was
(R160). -/
def State.GoesOn (s t : State) (act : Act) (v : Nat) : Prop :=
  (∃ u, act.perform s = .ok v u ∧ t.asic = u.asic ∧ t.env = u.env ∧ t.ctl.perout = u.ctl.perout) ∧
  t.ctl.scratch = s.ctl.scratch ++ [v] ∧
  (∀ pos k, t.residual = .act (.line pos) k → t.ctl.seq = pos) ∧
  ((∀ pos k, t.residual ≠ .act (.line pos) k) → t.ctl.seq = s.ctl.seq) ∧
  ∀ i : Fin 2,
    (∀ w, act = .write (.todCtrl i) w → w &&& 0x10 ≠ 0 → t.ctl.tod.get i = .commandIssued) ∧
    (act = .read (.todCtrl i) → v &&& 0x10 = 0 → t.ctl.tod.get i = .idle) ∧
    (act = .todDone i → t.ctl.tod.get i = .idle) ∧
    ((∀ w, act = .write (.todCtrl i) w → w &&& 0x10 = 0) → (act = .read (.todCtrl i) → v &&& 0x10 ≠ 0) →
      act ≠ .todDone i → t.ctl.tod.get i = s.ctl.tod.get i)

/-! ### Completion and frame -/

/-- `t` is what an operation that ended with `status`, `x`, `y` in `s` leaves on the controller side: the result is
delivered to the caller, the lock is free, the phase is `Idle`, and parameters, operand registers, arrivals, script
and schedule are as they were. What the perout masks are is said apart. -/
abbrev State.Returned (s t : State) (status : Byte) (x y : BitVec 64) : Prop :=
  t.res = ⟨status, x, y⟩ ∧ t.resTo = s.ctl.lock.holder ∧ t.ctl.lock = .free ∧ t.ctl.phase = .idle ∧
  t.par = s.par ∧ t.op = s.op ∧ t.port = s.port ∧ t.dev = s.dev ∧ t.boot = s.boot ∧ t.env = s.env

/-- `b` is `a` but for the register bytes whose addresses `area` names: every bank, latch and counter is the same, and
every other register byte reads as before. -/
def Asic.SameBut (area : Nat → Bool) (a b : Asic) : Prop :=
  b = { a with regs := b.regs } ∧ ∀ addr, area addr = false → b.regs.get addr = a.regs.get addr

/-- Is an address one of the bytes of one of these registers? -/
def inRegs (rs : List Reg) (addr : Nat) : Bool := rs.any fun r => r.covers addr

/-- The addresses of a domain's mask, semaphore and data window (R90). -/
def mailboxArea (p : Params) (d : Domain) (addr : Nat) : Bool :=
  inRegs [.mbMask d, .mbSem d] addr || (d.winBase ≤ addr && addr < d.winBase + winLen p d)

/-- The TOD registers of a DPLL. -/
def todArea (i : Fin 2) : Nat → Bool := inRegs [.todCtrl i, .todSec i, .todNs i]

/-- The phase-step registers. -/
def psArea : Nat → Bool := inRegs [.psCtrl, .psCount, .psMask, .psData]

/-- Two areas together. -/
def either (f g : Nat → Bool) (addr : Nat) : Bool := f addr || g addr

/-- As `Returned`, and the perout masks are as they were. -/
abbrev State.Finished (s t : State) (status : Byte) (x y : BitVec 64) : Prop :=
  s.Returned t status x y ∧ t.ctl.perout = s.ctl.perout

/-- The operation `i` ends with the error `e` and reaches no register: not even the schedule has moved on. -/
abbrev Rejects (i : Instr) (s : State) (e : ErrKind) : Prop :=
  ∃ t, exec i s = .next t ∧ s.Finished t e.code 0 0 ∧ t.asic = s.asic

/-- The mailbox operation `i` ends with `Timeout` at its first mailbox read, of sub-resource `k`, and the read stays
pending (R132, R346). -/
abbrev State.MailboxTimesOut (s : State) (i : Instr) (d : Domain) (k : Fin d.count) : Prop :=
  ∃ t, exec i s = .next t ∧ s.Finished t 1 0 0 ∧ t.asic.ctrlByte (.mbSem d) = 0x02 ∧
    t.asic.regVal (.mbMask d) = 2 ^ k.1 ∧
    Asic.SameBut (inRegs [.mbMask d, .mbSem d]) (s.asic.setReq d (.read (BitVec.ofNat 16 (2 ^ k.1)))) t.asic

/-- `u` is the time `t` moved by `k` nanoseconds (R240): its nanoseconds are the sum's, and so are its seconds where those
are a u48; else they are open (U11). -/
def Tod.MovedBy (t : Tod) (k : Int) (u : Tod) : Prop :=
  (u.ns.toNat : Int) = (t.sec.toNat * 1000000000 + t.ns.toNat + k) % 1000000000 ∧
  (0 ≤ t.sec.toNat * 1000000000 + t.ns.toNat + k → t.sec.toNat * 1000000000 + t.ns.toNat + k < 2 ^ 48 * 1000000000 →
    (u.sec.toNat : Int) = (t.sec.toNat * 1000000000 + t.ns.toNat + k) / 1000000000)

/-! ### Accesses -/

/-- `t` is the state a sequence leaves off in when it is run in `s`, however it ends. -/
def Seq.Leaves {α : Type} (q : Seq α) (s t : State) : Prop := (∃ v, q s = .ok v t) ∨ ∃ e, q s = .error e t

/-! ### Data registers -/

/-- Is every byte of an access a readable and writable data byte, no control byte? -/
def dataRange (p : Params) (addr n : Nat) : Prop :=
  ∀ k < n, accessAt p (addr + k) = some .rw ∧ ∀ r, regAt (addr + k) = some r →
    (∀ d, r ≠ .mbSem d) ∧ (∀ i, r ≠ .todCtrl i) ∧ r ≠ .tieCtrl ∧ r ≠ .psCtrl

/-! ### What the banks answer

What an operation returns, or makes of a pair's bank entry, as a function of the banks alone: the rules of files 42, 44
and 45 without the register accesses they are made with. -/

/-- The result code of an answer. -/
def statusOf {α : Type} : Except ErrKind α → Byte
  | .ok _ => 0
  | .error e => e.code

/-- The result value of an unsigned answer; 0 on an error. -/
def natOf : Except ErrKind Nat → BitVec 64
  | .ok v => BitVec.ofNat 64 v
  | .error _ => 0

/-- The result value of a signed answer; 0 on an error. -/
def intOf : Except ErrKind Int → BitVec 64
  | .ok v => BitVec.ofInt 64 v
  | .error _ => 0

/-- A synthesizer's frequency (R190). -/
def SynthBank.answer (b : SynthBank) : Except ErrKind Nat :=
  if b.n = 0 then .error .malformed else .ok (b.base.toNat * b.mult.toNat * b.m.toNat / b.n.toNat)

/-- The nine reference frequencies (R193). -/
def nineFrequencies : List Nat := [1, 25, 100, 1000, 10000000, 25000000, 62500000, 78125000, 100000000]

/-- A reference's frequency (R190, R195). -/
def RefBank.answer (b : RefBank) : Except ErrKind Nat :=
  if b.n = 0 then .error .malformed
  else if b.base.toNat * b.mult.toNat * b.m.toNat / b.n.toNat ∈ nineFrequencies then
    .ok (b.base.toNat * b.mult.toNat * b.m.toNat / b.n.toNat)
  else .error .unsupported

/-- A reference's phase compensation (R251). -/
def RefBank.comp (b : RefBank) : Except ErrKind Int :=
  if -2 ^ 31 < b.phaseComp.toInt ∧ b.phaseComp.toInt < 2 ^ 31 then .ok (-b.phaseComp.toInt) else .error .range

/-- The frequency of the synthesizer that drives an output pair (R199). -/
def Asic.pairFreq (a : Asic) (p : Fin 10) : Except ErrKind Nat :=
  match synthIndex (a.bankOut.get p).synthSel.toNat with
  | some k => (a.bankSynth.get k).answer
  | none => .error .malformed

/-- A pin's frequency from its synthesizer's (R201). -/
def OutBank.pinFreq (b : OutBank) (nSide : Bool) (sf : Nat) : Except ErrKind Nat :=
  if b.div = 0 then .error .malformed
  else if nSide then if b.ndiv = 0 then .error .malformed else .ok (sf / b.div.toNat / b.ndiv.toNat)
  else .ok (sf / b.div.toNat)

/-- The frequency of an output pin that is not of fixed ratio (R202). -/
def Asic.pinFreq (p : Params) (a : Asic) (pin : Fin 20) : Except ErrKind Nat :=
  (a.pairFreq (pairOf pin)).bind fun sf => (a.bankOut.get (pairOf pin)).pinFreq (isNSide p pin) sf

/-- A pair's bank entry after its N side is set to `f` (R203). -/
def OutBank.setNSide (b : OutBank) (f sf : Nat) : Except ErrKind OutBank :=
  if b.div = 0 then .error .malformed
  else if sf / b.div.toNat ≤ f then .error .invalidArgument
  else if sf / b.div.toNat % f ≠ 0 then .error .invalidArgument
  else if 2 ^ 32 ≤ sf / b.div.toNat / f then .error .range
  else .ok { b with ndiv := BitVec.ofNat 32 (sf / b.div.toNat / f) }

/-- A pair's bank entry after its divider is set for `f` (R203). -/
def OutBank.setDivider (b : OutBank) (f sf : Nat) : Except ErrKind OutBank :=
  if sf % f ≠ 0 ∨ sf < f then .error .invalidArgument
  else if 2 ^ 32 ≤ sf / f then .error .range
  else .ok { b with div := BitVec.ofNat 32 (sf / f) }

/-- A pair's bank entry after OUT_FREQ_SET of a non-zero `f` on a pin that is not of fixed ratio (R203). -/
def Asic.setFreq (p : Params) (a : Asic) (pin : Fin 20) (f : Nat) : Except ErrKind OutBank :=
  (a.pairFreq (pairOf pin)).bind fun sf =>
    if isNSide p pin then (a.bankOut.get (pairOf pin)).setNSide f sf
    else (a.bankOut.get (pairOf pin)).setDivider f sf

/-- The half cycle of a pair's synthesizer in picoseconds (R254). -/
def Asic.pairHalf (a : Asic) (p : Fin 10) : Except ErrKind Nat :=
  (a.pairFreq p).bind fun f =>
    if f = 0 ∨ 1000000000000 / (2 * f) = 0 then .error .malformed else .ok (1000000000000 / (2 * f))

/-- An output pair's phase compensation (R256, R257). -/
def Asic.pinComp (a : Asic) (pin : Fin 20) : Except ErrKind Int :=
  (a.pairHalf (pairOf pin)).bind fun h =>
    if -2 ^ 31 ≤ -(a.bankOut.get (pairOf pin)).phaseComp.toInt * h ∧
        -(a.bankOut.get (pairOf pin)).phaseComp.toInt * h < 2 ^ 31 then
      .ok (-(a.bankOut.get (pairOf pin)).phaseComp.toInt * h)
    else .error .range

/-- A pair's bank entry after OUT_PHASE_COMP_SET of an s32 `v` (R258). -/
def Asic.setComp (a : Asic) (pin : Fin 20) (v : Int) : Except ErrKind OutBank :=
  (a.pairHalf (pairOf pin)).bind fun h =>
    if ¬(h : Int) ∣ v then .error .range
    else if 2 ^ 31 ≤ -(v / h) then .error .range
    else .ok { a.bankOut.get (pairOf pin) with phaseComp := BitVec.ofInt 32 (-(v / h)) }

/-- A pair's bank entry after PIN_ENABLE or PIN_DISABLE (R273, R274). -/
def Asic.pinMoved (next : EnableState → Half → EnableState) (a : Asic) (pin : Fin 20) : Except ErrKind OutBank :=
  match enableStateOf (a.bankOut.get (pairOf pin)).signalFmt.toNat with
  | some st =>
    .ok { a.bankOut.get (pairOf pin) with signalFmt := BitVec.ofNat 8 (next st (halfOf pin)).code }
  | none => .error .malformed

/-- The output banks after a pair's entry was set, or not. -/
def Asic.outBanks (a : Asic) (p : Fin 10) : Except ErrKind OutBank → Vector OutBank 10
  | .ok b => upd a.bankOut p b
  | .error _ => a.bankOut

/-- `b` is `a` but for the register bytes `area` names and the output banks, which are `banks`. -/
def Asic.SameButOut (area : Nat → Bool) (banks : Vector OutBank 10) (a b : Asic) : Prop :=
  b = { a with regs := b.regs, bankOut := banks } ∧ ∀ addr, area addr = false → b.regs.get addr = a.regs.get addr

/-- `b` is `a` but for the register bytes `area` names and the reference banks, which are `banks`. -/
def Asic.SameButRef (area : Nat → Bool) (banks : Vector RefBank 10) (a b : Asic) : Prop :=
  b = { a with regs := b.regs, bankRef := banks } ∧ ∀ addr, area addr = false → b.regs.get addr = a.regs.get addr

/-! ### What an operation accesses, and what the responder may write -/

end Sys2Proof.Machine

namespace Sys2Proof
open Machine

/-- Is the instruction an operation of the operation port, not a register-level command? -/
def Instr.isOperation : Instr → Bool
  | .mbReqWrite _ => false
  | .mbReqRead _ => false
  | .todCmdRead _ => false
  | .todCmdReadNext1Hz _ => false
  | .todCmdWriteNext1Hz _ => false
  | .tieCmdWrite => false
  | .psCmdWrite _ _ => false
  | _ => true

/-- The opcode of an operation (R111). -/
def Instr.opcode : Instr → Option Byte
  | .todGet _ => some Opcode.todGet
  | .todSet _ _ _ => some Opcode.todSet
  | .steptime _ _ => some Opcode.steptime
  | .adjfine _ _ => some Opcode.adjfine
  | .adjphase _ _ => some Opcode.adjphase
  | .synthFreqGet _ => some Opcode.synthFreqGet
  | .refFreqGet _ => some Opcode.refFreqGet
  | .refFreqSet _ _ => some Opcode.refFreqSet
  | .outFreqGet _ => some Opcode.outFreqGet
  | .outFreqSet _ _ => some Opcode.outFreqSet
  | .refPhaseCompGet _ => some Opcode.refPhaseCompGet
  | .refPhaseCompSet _ _ => some Opcode.refPhaseCompSet
  | .outPhaseCompGet _ => some Opcode.outPhaseCompGet
  | .outPhaseCompSet _ _ => some Opcode.outPhaseCompSet
  | .pinEnable _ => some Opcode.pinEnable
  | .pinDisable _ => some Opcode.pinDisable
  | .peroutEnable _ _ _ => some Opcode.peroutEnable
  | .peroutDisable _ => some Opcode.peroutDisable
  | .mbReqWrite _ => none
  | .mbReqRead _ => none
  | .todCmdRead _ => none
  | .todCmdReadNext1Hz _ => none
  | .todCmdWriteNext1Hz _ => none
  | .tieCmdWrite => none
  | .psCmdWrite _ _ => none

/-- The procedure an operation's pseudocode is (R28). -/
def Instr.proc : Instr → Option Proc
  | .todGet _ => some .todGet
  | .todSet _ _ _ => some .todSet
  | .steptime _ _ => some .steptime
  | .adjfine _ _ => some .adjfine
  | .adjphase _ _ => some .adjphase
  | .synthFreqGet _ => some .synthFreqGet
  | .refFreqGet _ => some .refFreqGet
  | .refFreqSet _ _ => some .refFreqSet
  | .outFreqGet _ => some .outFreqGet
  | .outFreqSet _ _ => some .outFreqSet
  | .refPhaseCompGet _ => some .refPhaseCompGet
  | .refPhaseCompSet _ _ => some .refPhaseCompSet
  | .outPhaseCompGet _ => some .outPhaseCompGet
  | .outPhaseCompSet _ _ => some .outPhaseCompSet
  | .pinEnable _ => some .pinEnable
  | .pinDisable _ => some .pinDisable
  | .peroutEnable _ _ _ => some .peroutEnable
  | .peroutDisable _ => some .peroutDisable
  | .mbReqWrite _ => none
  | .mbReqRead _ => none
  | .todCmdRead _ => none
  | .todCmdReadNext1Hz _ => none
  | .todCmdWriteNext1Hz _ => none
  | .tieCmdWrite => none
  | .psCmdWrite _ _ => none

/-- The registers an instruction may write (files 40 to 45), of every DPLL its index could name. -/
def Instr.writes : Instr → List Reg
  | .todGet _ => [.todCtrl 0, .todCtrl 1]
  | .todSet _ _ _ => [.todCtrl 0, .todCtrl 1, .todSec 0, .todSec 1, .todNs 0, .todNs 1]
  | .steptime _ _ =>
    [.todCtrl 0, .todCtrl 1, .todSec 0, .todSec 1, .todNs 0, .todNs 1, .psCtrl, .psCount, .psMask, .psData,
      .mbMask .out, .mbSem .out, .mbMask .synth, .mbSem .synth]
  | .adjfine _ _ => [.dfOffset 0, .dfOffset 1]
  | .adjphase _ _ => [.tieCtrl, .tieMask, .tieData 0, .tieData 1]
  | .synthFreqGet _ => [.mbMask .synth, .mbSem .synth]
  | .refFreqGet _ => [.mbMask .ref, .mbSem .ref]
  | .refFreqSet _ _ => [.mbMask .ref, .mbSem .ref, .refFreqBase, .refFreqMult, .refRatioM, .refRatioN]
  | .outFreqGet _ => [.mbMask .out, .mbSem .out, .mbMask .synth, .mbSem .synth]
  | .outFreqSet _ _ => [.mbMask .out, .mbSem .out, .mbMask .synth, .mbSem .synth, .outDiv, .outNdiv]
  | .refPhaseCompGet _ => [.mbMask .ref, .mbSem .ref]
  | .refPhaseCompSet _ _ => [.mbMask .ref, .mbSem .ref, .refPhaseComp]
  | .outPhaseCompGet _ => [.mbMask .out, .mbSem .out, .mbMask .synth, .mbSem .synth]
  | .outPhaseCompSet _ _ => [.mbMask .out, .mbSem .out, .mbMask .synth, .mbSem .synth, .outPhaseComp]
  | .pinEnable _ => [.mbMask .out, .mbSem .out, .outSignalFmt]
  | .pinDisable _ => [.mbMask .out, .mbSem .out, .outSignalFmt]
  | .peroutEnable _ _ _ => [.mbMask .out, .mbSem .out, .mbMask .synth, .mbSem .synth]
  | .peroutDisable _ => []
  | .mbReqWrite d => [.mbSem d]
  | .mbReqRead d => [.mbSem d]
  | .todCmdRead i => [.todCtrl i]
  | .todCmdReadNext1Hz i => [.todCtrl i]
  | .todCmdWriteNext1Hz i => [.todCtrl i]
  | .tieCmdWrite => [.tieCtrl]
  | .psCmdWrite _ _ => [.psCtrl]

/-- The error kinds an operation can report (R316). -/
def Instr.errors : Instr → List ErrKind
  | .todGet _ => [.invalidArgument, .transport, .timeout]
  | .todSet _ _ _ => [.invalidArgument, .range, .transport, .timeout]
  | .steptime _ _ => [.invalidArgument, .range, .unsupported, .malformed, .transport, .timeout]
  | .adjfine _ _ => [.invalidArgument, .transport]
  | .adjphase _ _ => [.invalidArgument, .transport, .timeout]
  | .synthFreqGet _ => [.invalidArgument, .malformed, .transport, .timeout]
  | .refFreqGet _ => [.invalidArgument, .unsupported, .malformed, .transport, .timeout]
  | .refFreqSet _ _ => [.invalidArgument, .unsupported, .transport, .timeout]
  | .outFreqGet _ => [.invalidArgument, .unsupported, .malformed, .transport, .timeout]
  | .outFreqSet _ _ => [.invalidArgument, .range, .unsupported, .malformed, .transport, .timeout]
  | .refPhaseCompGet _ => [.invalidArgument, .range, .transport, .timeout]
  | .refPhaseCompSet _ _ => [.invalidArgument, .range, .transport, .timeout]
  | .outPhaseCompGet _ => [.invalidArgument, .range, .malformed, .transport, .timeout]
  | .outPhaseCompSet _ _ => [.invalidArgument, .range, .malformed, .transport, .timeout]
  | .pinEnable _ => [.invalidArgument, .malformed, .transport, .timeout]
  | .pinDisable _ => [.invalidArgument, .malformed, .transport, .timeout]
  | .peroutEnable _ _ _ => [.invalidArgument, .malformed, .transport, .timeout]
  | .peroutDisable _ => [.invalidArgument]
  | .mbReqWrite _ => []
  | .mbReqRead _ => []
  | .todCmdRead _ => []
  | .todCmdReadNext1Hz _ => []
  | .todCmdWriteNext1Hz _ => []
  | .tieCmdWrite => []
  | .psCmdWrite _ _ => []

/-- Is the index operand of an operation in range (R113)? -/
def Instr.indexOk : Instr → Bool
  | .todGet a => decide (a.toNat < 2)
  | .todSet a _ _ => decide (a.toNat < 2)
  | .steptime a _ => decide (a.toNat < 2)
  | .adjfine a _ => decide (a.toNat < 2)
  | .adjphase a _ => decide (a.toNat < 2)
  | .synthFreqGet a => decide (a.toNat < 5)
  | .refFreqGet a => decide (a.toNat < 10)
  | .refFreqSet a _ => decide (a.toNat < 10)
  | .outFreqGet a => decide (a.toNat < 20)
  | .outFreqSet a _ => decide (a.toNat < 20)
  | .refPhaseCompGet a => decide (a.toNat < 10)
  | .refPhaseCompSet a _ => decide (a.toNat < 10)
  | .outPhaseCompGet a => decide (a.toNat < 20)
  | .outPhaseCompSet a _ => decide (a.toNat < 20)
  | .pinEnable a => decide (a.toNat < 20)
  | .pinDisable a => decide (a.toNat < 20)
  | .peroutEnable a _ _ => decide (a.toNat / 16 < 2) && decide (a.toNat % 16 < 10)
  | .peroutDisable a => decide (a.toNat / 16 < 2) && decide (a.toNat % 16 < 10)
  | _ => true

/-- The operand that must fit s32, of the operations that have one (R111, R113). -/
def Instr.s32Operand : Instr → Option (BitVec 64)
  | .adjfine _ x => some x
  | .adjphase _ x => some x
  | .refPhaseCompSet _ x => some x
  | .outPhaseCompSet _ x => some x
  | _ => none

end Sys2Proof

namespace Sys2Proof.Machine

/-- The addresses the responder may write by itself: the control bytes it acknowledges in, the TOD data registers and
the data windows (R140, R170 to R172, R240, R241). -/
def responderArea (p : Params) (addr : Nat) : Bool :=
  inRegs [.todCtrl 0, .todCtrl 1, .todSec 0, .todSec 1, .todNs 0, .todNs 1, .tieCtrl, .psCtrl, .mbSem .ref,
    .mbSem .dpll, .mbSem .synth, .mbSem .out] addr ||
  allDomains.any fun d => d.winBase ≤ addr && addr < d.winBase + winLen p d

/-! ### Invariants -/

/-- No TOD command is issued (R160). -/
def noCommand : Vector TodPhase 2 := .replicate 2 .idle

/-- What holds of the controller at every step: the phase is idle exactly when the lock is free (R25), and then no TOD
sub-state (R160), no scratch value (R27) and no sequence position (R28, log entry 6) is left; an operation runs only on an
attached device (R21, R334); and the perout masks' bits 10 to 15 are 0 (R29). -/
abbrev State.CtlInv (s : State) : Prop :=
  (s.ctl.lock = .free ↔ s.ctl.phase = .idle) ∧ (s.ctl.phase = .idle → s.ctl.tod = noCommand ∧ s.ctl.scratch = [] ∧ s.ctl.seq = []) ∧
  (s.dev ≠ .attached → s.ctl.lock = .free) ∧ ∀ i : Fin 2, (s.ctl.perout.get i).toNat < 2 ^ 10

/-- The invariant of every step: `CtlInv`, and register storage in its canonical form (the model's own). -/
abbrev State.Inv (s : State) : Prop := s.CtlInv ∧ s.asic.regs.wf = true

/-- What R40 says of the ASIC side an attach finds: no request is pending where the flag bits that stand for it are 0,
and the counters' nanoseconds are below 10^9; and its storage is in the canonical form. -/
abbrev Asic.Attachable (a : Asic) : Prop :=
  a.regs.wf = true ∧
  (∀ d ∈ allDomains, a.ctrlByte (.mbSem d) &&& semBoth = 0 → a.req d = .none) ∧
  (∀ i : Fin 2, (a.ctrlByte (.todCtrl i) &&& todSem = 0 → a.todPend.get i = none) ∧
    (a.tod.get i).ns.toNat < 1000000000) ∧
  (a.ctrlByte .tieCtrl &&& tieOp = 0 → a.tiePend = none) ∧ (a.ctrlByte .psCtrl &&& psOp = 0 → a.psPend = none)

/-- The request bits of a mailbox semaphore that stand for an outstanding request (R34, R93). -/
def MbReq.flags : MbReq → Byte
  | .none => 0
  | .read _ => semRead
  | .write _ => semWrite

/-- The request flags and the latches agree (R34, R36): a domain's semaphore shows exactly its outstanding request,
and the TIE and phase-step latches are `None` exactly when their op-code fields are 0. -/
abbrev Asic.Handshake (a : Asic) : Prop :=
  (∀ d ∈ allDomains, a.ctrlByte (.mbSem d) &&& semBoth = (a.req d).flags) ∧
  (a.tiePend = none ↔ a.ctrlByte .tieCtrl &&& tieOp = 0) ∧
  (a.psPend = none ↔ a.ctrlByte .psCtrl &&& psOp = 0)

/-- The flags and latches agree in the ASIC side an attach will find. -/
abbrev PortEvent.Handshake : PortEvent → Prop
  | .attach a => a.Handshake
  | .request _ _ => True
  | .detach => True

/-- The flags and latches agree in the state and in every ASIC side an attach will find. -/
abbrev State.Handshake (s : State) : Prop := s.asic.Handshake ∧ ∀ e ∈ s.port, PortEvent.Handshake e

end Sys2Proof.Machine
end

