-- ==== Sys2Proof/Certificates/Slice0/Obligations.lean ====
section
/-! DEFINITION. The statements for the provers. Under `State.Prompt` the responder performs every request at once and no
access fails (log entry 5 says that this schedule is the model's); a statement without that premise holds for every
schedule. -/

open Sys2Proof Sys2Proof.Machine

/-! ### Encoding -/

/-- R100, R110, R111: some words, written out from the tables, and the instructions they are. -/
def Obligations.KnownWordsDecode : Prop :=
  decode (.request ([0x10, 0x01] ++ List.replicate 16 0)) = .ok (.todGet 1) ∧
  decode (.request [0x11, 0x00, 0, 0, 0, 0, 0x65, 0x53, 0xF1, 0x00, 0, 0, 0, 0, 0x1D, 0xCD, 0x65, 0x00]) =
    .ok (.todSet 0 1700000000 500000000) ∧
  decode (.request ([0x13, 0x00, 0xFF, 0xFF, 0xFF, 0xFF, 0x80, 0x00, 0x00, 0x00] ++ List.replicate 8 0)) =
    .ok (.adjfine 0 (-2147483648)) ∧
  decode (.request ([0x22, 0x05, 0, 0, 0, 0, 0x00, 0x98, 0x96, 0x80] ++ List.replicate 8 0)) =
    .ok (.refFreqSet 5 10000000) ∧
  decode (.request ([0x31, 0x05, 0xFF, 0xFF, 0xFF, 0xFF, 0xFF, 0xFF, 0xFF, 0x06] ++ List.replicate 8 0)) =
    .ok (.refPhaseCompSet 5 (-250)) ∧
  decode (.request ([0x40, 0x14] ++ List.replicate 16 0)) = .ok (.pinEnable 20) ∧
  decode (.request ([0x15, 0x00] ++ List.replicate 16 0)) = .error (.reservedOpcode 0x15) ∧
  decode (.regWrite 0x0502 0x01) = .ok (.mbReqWrite .out) ∧
  decode (.regWrite 0x0101 0x12) = .ok (.todCmdReadNext1Hz 1) ∧
  decode (.regWrite 0x0160 0x01) = .ok .tieCmdWrite ∧
  decode (.regWrite 0x0170 0x19) = .ok (.psCmdWrite 1 true)

/-- R100, R110, R111: decoding the words of an instruction gives it back, whatever its operands hold. That a phase step
whose nibble names no DPLL is an instruction is the choice of log entry 25. -/
def Obligations.DecodeInvertsEncode : Prop := ∀ i : Instr, decode (encode i) = .ok i

/-- R100, R101, R110 to R112: a register write is a command of at most one instruction, whose words it is, and which is
well formed but for a phase step whose nibble names no DPLL (log entry 25). Every 18-byte request is an opcode, `a`, `x`
and `y`, and is the operation the table has for its opcode, with the fields the table gives it, whatever the others hold;
or its opcode is reserved. -/
def Obligations.WordsHaveOneMeaning : Prop :=
  (∀ (addr : BitVec 16) (b : Byte) (i : Instr), decode (.regWrite addr b) = .ok i →
    encode i = .regWrite addr b ∧ (i.wf = true ∨ ∃ d t, i = .psCmdWrite d t ∧ 2 ≤ d.toNat)) ∧
  (∀ bs : List Byte, bs.length = 18 → ∃ op a x y, bs = fieldBytes op a x y) ∧
  ∀ (op a : Byte) (x y : BitVec 64),
    (∀ i, (op, i) ∈ operationsOf a x y → decode (.request (fieldBytes op a x y)) = .ok i ∧ i.opcode = some op) ∧
    ((∀ i, (op, i) ∉ operationsOf a x y) →
      decode (.request (fieldBytes op a x y)) = .error (.reservedOpcode op) ∧ ∀ i : Instr, i.opcode ≠ some op) ∧
    reqOpcode (fieldBytes op a x y) = op ∧ reqA (fieldBytes op a x y) = a ∧ reqX (fieldBytes op a x y) = x ∧
    reqY (fieldBytes op a x y) = y

/-! ### Steps -/

/-- R22, R25, R26, R110: when the lock is free and the next arrival is a request whose bytes decode to `i`, the step
takes it: its caller holds the lock, the operand registers hold its fields, and `i` runs. R121, R332: while the
bootstrap script runs, a step runs its next line, and a write that is a command `i` runs `i`. One step is a whole
operation (log entry 1). -/
def Obligations.StepRunsDecodedInstruction : Prop :=
  (∀ (s : State) (c : Nat) (bytes : Vector Byte 18) (rest : List PortEvent) (i : Instr),
    s.dev = .attached → s.ctl.lock = .free → s.port = .request c bytes :: rest →
    decode (.request bytes.toList) = .ok i →
    step s = exec i { s with
      port := rest
      ctl := { s.ctl with lock := .held c }
      op := ⟨reqOpcode bytes.toList, reqA bytes.toList, reqX bytes.toList, reqY bytes.toList⟩ }) ∧
  ∀ (s : State) (addr : BitVec 16) (b : Byte) (rest : List ScriptLine) (i : Instr),
    s.dev = .booting → s.boot = .write addr b :: rest → decode (.regWrite addr b) = .ok i →
    step s = exec i { s with boot := rest }

/-- R112: a request with a reserved opcode is accepted, reaches no register, and ends with `InvalidArgument`; its
caller gets the result and the lock is free again. -/
def Obligations.ReservedOpcodeIsInvalidArgument : Prop :=
  ∀ (s : State) (c : Nat) (bytes : Vector Byte 18) (rest : List PortEvent),
    s.dev = .attached → s.ctl.lock = .free → s.port = .request c bytes :: rest →
    (∀ i : Instr, i.opcode ≠ some (reqOpcode bytes.toList)) →
    ∃ t, step s = .next t ∧ t.res = ⟨3, 0, 0⟩ ∧ t.resTo = some c ∧ t.ctl.lock = .free ∧ t.ctl.phase = .idle ∧
      t.ctl.perout = s.ctl.perout ∧ t.asic = s.asic ∧ t.env = s.env ∧ t.port = rest ∧ t.par = s.par ∧ t.dev = s.dev

/-- R332, R334: no step of the bootstrap takes an arrival, delivers a result or changes the lock, the phase or a
perout mask; each takes the script's next line, and where there is none the device is attached and nothing else
changes. A line whose access fails leaves the device unattached (U22). That a detach waits too is the choice of log entry
15, and that a W line is one slot's moves that of log entry 5. -/
def Obligations.BootstrapTakesNoRequest : Prop :=
  ∀ s t : State, s.dev = .booting → step s = .next t →
    t.port = s.port ∧ t.res = s.res ∧ t.resTo = s.resTo ∧ t.op = s.op ∧ t.par = s.par ∧ t.ctl.lock = s.ctl.lock ∧
    t.ctl.phase = s.ctl.phase ∧ t.ctl.perout = s.ctl.perout ∧ t.boot = s.boot.tail ∧
    (s.boot = [] → t = { s with dev := .attached }) ∧
    (∀ addr b rest, s.boot = .write addr b :: rest → (t.dev = .booting ↔ s.failure = none) ∧
      (t.dev = .bootFailed ↔ s.failure ≠ none)) ∧
    (∀ us rest, s.boot = .wait us :: rest → t = { s.tick with boot := rest }) ∧
    (∀ rest, s.boot = .comment :: rest → t = { s with boot := rest })

/-- R121, R332, R62, R72: a script line that writes a data byte, one of the Dpll window's among them, stores it; every
other register byte, every bank, latch and counter is what the responder's moves at that access made it, and the device
goes on booting. R90: one that writes a byte of CHIP_ID is ignored; so is one that writes an unmapped address, which is the
choice of log entry 11. -/
def Obligations.ScriptLineStoresByte : Prop :=
  ∀ (s : State) (addr : BitVec 16) (b : Byte) (rest : List ScriptLine),
    s.dev = .booting → s.boot = .write addr b :: rest → s.failure = none →
    (∀ acc, accessAt s.par addr.toNat = some acc → acc ≠ .ro →
      (∀ r, regAt addr.toNat = some r →
        (∀ d, r ≠ .mbSem d) ∧ (∀ i, r ≠ .todCtrl i) ∧ r ≠ .tieCtrl ∧ r ≠ .psCtrl) →
      ∃ t, step s = .next t ∧ t = { s.tick with boot := rest, asic := { s.tick.asic with regs := t.asic.regs } } ∧
        t.asic.regs.get addr.toNat = b ∧
        ∀ x, x ≠ addr.toNat → t.asic.regs.get x = (runMoves s.par s.env.next.1.moves s.asic).regs.get x) ∧
    (accessAt s.par addr.toNat = some .ro ∨ accessAt s.par addr.toNat = none →
      step s = .next { s.tick with boot := rest })

/-- R21, R330, R334, R40: an attach of a device that is not attached gives the controller its reset values and the
ASIC side whatever the attach finds, a request never pending where its flag bits are 0 and no counter's nanoseconds
beyond a second, and the script is to run again; a detach while the lock is free ends the device, while it is held it is
refused (U23); and a device that is not attached takes no request. What the device does between a detach and an attach,
and that an attach of an attached device is passed over, are the choices of log entry 15. -/
def Obligations.AttachAndDetach : Prop :=
  (∀ (s : State) (a : Asic) (rest : List PortEvent),
    s.dev = .detached ∨ s.dev = .bootFailed → s.port = .attach a :: rest →
    ∃ t, step s = .next t ∧ t.dev = .booting ∧ t.boot = s.par.bootScript ∧ t.ctl.lock = .free ∧ t.ctl.phase = .idle ∧
      (∀ i : Fin 2, t.ctl.perout.get i = 0) ∧ t.res = ⟨0, 0, 0⟩ ∧ t.asic.Attachable ∧ (a.Attachable → t.asic = a) ∧
      (∀ addr, t.asic.regs.get addr = a.regs.get addr) ∧ t.port = rest ∧ t.par = s.par ∧ t.env = s.env) ∧
  ∀ (s : State) (rest : List PortEvent),
    (s.dev = .attached → s.port = .detach :: rest → s.ctl.lock = .free →
      step s = .next { s with dev := .detached, port := rest }) ∧
    (s.dev = .attached → s.port = .detach :: rest → s.ctl.lock ≠ .free → step s = .refused .detachWhileHeld) ∧
    (∀ a, s.dev = .attached → s.port = .attach a :: rest → s.ctl.lock = .free →
      step s = .next { s with port := rest }) ∧
    (∀ c bytes t, s.dev = .detached ∨ s.dev = .bootFailed → s.port = .request c bytes :: rest → step s = .next t →
      t.port = s.port ∧ t.res = s.res ∧ t.resTo = s.resTo ∧ t.ctl = s.ctl ∧ t.dev = s.dev)

/-- R40, R330: what reset leaves of the controller, as the spec states it. -/
def Obligations.ResetController : Prop :=
  State.reset.ctl.lock = .free ∧ State.reset.ctl.phase = .idle ∧ (∀ i : Fin 2, State.reset.ctl.perout.get i = 0) ∧
  State.reset.res = ⟨0, 0, 0⟩

/-! ### Transport -/

/-- R62, R64, R68, R72: a successful write of data bytes stores the value's bytes, the most significant at the lowest
address; every other byte, every bank, latch and counter is what the responder's moves at that access made it. -/
def Obligations.WritesAreBigEndian : Prop :=
  ∀ (s : State) (addr n v : Nat), dataRange s.par addr n → s.failure = none →
    ∃ t, memWrite addr n v s = .ok () t ∧ t = { s.tick with asic := { s.tick.asic with regs := t.asic.regs } } ∧
      (∀ k < n, t.asic.regs.get (addr + k) = BitVec.ofNat 8 (v / 256 ^ (n - 1 - k))) ∧
      ∀ x, x < addr ∨ addr + n ≤ x →
        t.asic.regs.get x = (runMoves s.par s.env.next.1.moves s.asic).regs.get x

/-- R67, of data bytes: a value written reads back where no responder step in between wrote one of its bytes. -/
def Obligations.ReadAfterWriteReturnsValue : Prop :=
  ∀ (s t u : State) (addr n v w : Nat), dataRange s.par addr n → v < 256 ^ n →
    memWrite addr n v s = .ok () t →
    (∀ k < n, (runMoves t.par t.env.next.1.moves t.asic).regs.get (addr + k) = t.asic.regs.get (addr + k)) →
    memRead addr n t = .ok w u → w = v

/-- R66, of data bytes: a failed read ends the sequence with `Transport`; so does a failed write, after which each
byte holds its old or its new value and every other byte, bank, latch and counter is what the responder's moves made
it. -/
def Obligations.FailedAccessIsTransport : Prop :=
  ∀ (s : State) (addr n v : Nat) (f : Failure), s.failure = some f →
    memRead addr n s = .error (.raise .transport) s.tick ∧
    (dataRange s.par addr n →
      ∃ t, memWrite addr n v s = .error (.raise .transport) t ∧
        t = { s.tick with asic := { s.tick.asic with regs := t.asic.regs } } ∧
        (∀ k < n, t.asic.regs.get (addr + k) = BitVec.ofNat 8 (v / 256 ^ (n - 1 - k)) ∨
          t.asic.regs.get (addr + k) = (runMoves s.par s.env.next.1.moves s.asic).regs.get (addr + k)) ∧
        ∀ x, x < addr ∨ addr + n ≤ x →
          t.asic.regs.get x = (runMoves s.par s.env.next.1.moves s.asic).regs.get x)

/-- R130: a poll takes one sample of a flag that is clear, and ends with `Timeout` after its whole budget of samples on
a flag that never clears: the schedule's slots are those of the samples, all used up and no other slot with them. The
schedule is the model's (log entry 5). -/
def Obligations.PollIsBounded : Prop :=
  ∀ (s : State) (r : Reg) (mask : Byte) (limit : Nat) (sl : Slot), r.access = .rw → r.width = 1 →
    (s.asic.ctrlByte r &&& mask = 0 → s.env = ⟨[Slot.silent], sl⟩ →
      (pollClear r mask (limit + 1)).run s = .ok () { s with env := ⟨[], sl⟩ }) ∧
    (s.asic.ctrlByte r &&& mask ≠ 0 → s.env = ⟨List.replicate limit Slot.silent, sl⟩ →
      (pollClear r mask limit).run s = .error (.raise .timeout) { s with env := ⟨[], sl⟩ })

/-! ### Every operation, every schedule -/

/-- R308, R309, R22, R25: every operation ends, in every state and under every schedule, without a fault: the lock is
free, the phase is idle, and the result goes to the caller that held the lock. One step is a whole operation (log
entry 1). -/
def Obligations.EveryOperationEnds : Prop :=
  ∀ (i : Instr) (s : State), i.isOperation = true →
    ∃ t, exec i s = .next t ∧ t.ctl.lock = .free ∧ t.ctl.phase = .idle ∧ t.resTo = s.ctl.lock.holder

/-- R316, R301, R302: an operation reports success or one of the errors its row of R316 names, and both results of an
error are 0. -/
def Obligations.ErrorsAreThoseOfTheTable : Prop :=
  ∀ (i : Instr) (s t : State), i.isOperation = true → exec i s = .next t →
    t.res.status = 0 ∨ ∃ e ∈ i.errors, t.res = ⟨e.code, 0, 0⟩

/-- R24, R25, R39: an operation leaves the parameters, the operand registers, the arrivals, the script and the life of
the device as they were. -/
def Obligations.OperationsKeepControllerState : Prop :=
  ∀ (i : Instr) (s t : State), i.isOperation = true → exec i s = .next t →
    t.par = s.par ∧ t.op = s.op ∧ t.port = s.port ∧ t.boot = s.boot ∧ t.dev = s.dev

/-- R282: only the operation naming a DPLL changes its perout mask, and bits 10 to 15 stay 0. -/
def Obligations.PeroutMaskOwnership : Prop :=
  ∀ (i : Instr) (s t : State), exec i s = .next t →
    (∀ d : Fin 2, t.ctl.perout.get d ≠ s.ctl.perout.get d →
      (∃ a x y, i = .peroutEnable a x y ∧ a.toNat / 16 = d.1) ∨ (∃ a, i = .peroutDisable a ∧ a.toNat / 16 = d.1)) ∧
    ((∀ d : Fin 2, (s.ctl.perout.get d).toNat < 2 ^ 10) → ∀ d : Fin 2, (t.ctl.perout.get d).toNat < 2 ^ 10)

/-- R61, R72, R140, R170 to R172, R240, R241: whatever an instruction does and whatever the responder and the clocks
do meanwhile, every register byte outside the registers the instruction writes and those the responder writes reads as
before. -/
def Obligations.RegisterBytesFrame : Prop :=
  ∀ (i : Instr) (s t : State), exec i s = .next t →
    ∀ addr, inRegs i.writes addr = false → responderArea s.par addr = false →
      t.asic.regs.get addr = s.asic.regs.get addr

/-- R113, R304: an index out of range, or an operand that must fit s32 and does not, ends the operation with
`InvalidArgument` before any register access. -/
def Obligations.BadOperandsReachNoRegister : Prop :=
  ∀ (i : Instr) (s : State), i.isOperation = true →
    (i.indexOk = false ∨ ∃ x, i.s32Operand = some x ∧ ¬(-2 ^ 31 ≤ x.toInt ∧ x.toInt < 2 ^ 31)) →
    Rejects i s .invalidArgument

/-- R167, R197, R198, R203, R233, R253, R280, R304: the argument values an operation turns away before it reaches any
register, and the error of each. -/
def Obligations.BadValuesReachNoRegister : Prop :=
  ∀ (s : State) (a : Byte) (x y : BitVec 64),
    (a.toNat < 2 → ¬(0 ≤ y.toInt ∧ y.toInt < 1000000000) → Rejects (.todSet a x y) s .invalidArgument) ∧
    (a.toNat < 2 → 0 ≤ y.toInt ∧ y.toInt < 1000000000 → ¬(0 ≤ x.toInt ∧ x.toInt < 2 ^ 48) →
      Rejects (.todSet a x y) s .range) ∧
    (∀ h : a.toNat < 2, s.ctl.perout.get ⟨a.toNat, h⟩ = 0 → Rejects (.steptime a x) s .unsupported) ∧
    (a.toNat < 10 → x.toNat ∉ nineFrequencies → Rejects (.refFreqSet a x) s .unsupported) ∧
    (∀ h : a.toNat < 20, s.par.pinFixedRatio ⟨a.toNat, h⟩ = true →
      Rejects (.outFreqGet a) s .unsupported ∧ Rejects (.outFreqSet a x) s .unsupported) ∧
    (∀ h : a.toNat < 20, s.par.pinFixedRatio ⟨a.toNat, h⟩ = false → x.toNat = 0 →
      Rejects (.outFreqSet a x) s .invalidArgument) ∧
    (a.toNat < 10 → x.toInt = -2 ^ 31 → Rejects (.refPhaseCompSet a x) s .range) ∧
    (a.toNat / 16 < 2 → a.toNat % 16 < 10 → x.toInt ≠ 1000000000 ∨ ¬(1000000000 : Int) ∣ y.toInt →
      Rejects (.peroutEnable a x y) s .invalidArgument)

/-! ### Time of day -/

/-- R163: normalisation carries whole seconds out of the nanoseconds, and wraps nothing. -/
def Obligations.NormalizeCarriesSeconds : Prop :=
  ∀ sec ns : Nat, (normalize sec ns).2 < 1000000000 ∧
    (normalize sec ns).1 * 1000000000 + (normalize sec ns).2 = sec * 1000000000 + ns ∧
    (sec < 2 ^ 48 → ns < 2 ^ 32 → (normalize sec ns).1 ≤ 2 ^ 48 - 1 + 4)

/-- R166, R161, R171: TOD_GET returns the counter, normalised, and touches the TOD registers of its DPLL alone. R169:
whatever the schedule, the nanoseconds it returns are below 10^9. The schedule of the first clause is the model's (log
entry 5). -/
def Obligations.TodGetReturnsTime : Prop :=
  (∀ (s : State) (a : Byte) (i : Fin 2), s.Prompt → a.toNat = i.1 →
    ∃ t, exec (.todGet a) s = .next t ∧
      s.Finished t 0 (BitVec.ofNat 64 ((s.asic.tod.get i).sec.toNat + (s.asic.tod.get i).ns.toNat / 1000000000))
        (BitVec.ofNat 64 ((s.asic.tod.get i).ns.toNat % 1000000000)) ∧
      Asic.SameBut (todArea i) s.asic t.asic) ∧
  ∀ (s t : State) (a : Byte), exec (.todGet a) s = .next t → t.res.y.toNat < 1000000000

/-- R167, R164, R173: TOD_SET stores the time in the TOD data registers, reserved bytes 0, and leaves it pending, its
semaphore set; nothing else changes. The schedule is the model's (log entry 5). -/
def Obligations.TodSetSchedulesTime : Prop :=
  ∀ (s : State) (a : Byte) (i : Fin 2) (x y : BitVec 64), s.Prompt → a.toNat = i.1 → 0 ≤ y.toInt →
    y.toInt < 1000000000 → 0 ≤ x.toInt → x.toInt < 2 ^ 48 →
    ∃ t, exec (.todSet a x y) s = .next t ∧ s.Finished t 0 0 0 ∧
      t.asic = { s.asic with
        regs := t.asic.regs
        todPend := upd s.asic.todPend i (some ⟨BitVec.ofNat 48 x.toNat, BitVec.ofNat 32 y.toNat⟩) } ∧
      t.asic.ctrlByte (.todCtrl i) = 0x13 ∧ t.asic.regVal (.todSec i) = x.toNat ∧
      t.asic.regVal (.todNs i) = y.toNat * 65536 ∧
      ∀ addr, todArea i addr = false → t.asic.regs.get addr = s.asic.regs.get addr

/-- R169, R170, R341: a time set and then applied at an edge is the time the next TOD_GET returns. The schedule is the
model's (log entry 5). -/
def Obligations.TodSetThenGet : Prop :=
  ∀ (s t : State) (a : Byte) (i : Fin 2) (x y : BitVec 64), s.Prompt → a.toNat = i.1 →
    exec (.todSet a x y) s = .next t → t.res.status = 0 →
    ∃ u, exec (.todGet a) { t with asic := clockEdge i t.asic } = .next u ∧ u.res = ⟨0, x, y⟩

/-- R171, R172: the acknowledge of a READ latches the counter into the TOD data registers, of a READ_NEXT_1HZ the next
second with 0 nanoseconds; either clears the semaphore, keeps the command code, and touches nothing else. The second after
2^48 - 1 is open (U11); all else is as before it, the model's draw counter apart (log entry 7). With a time
pending beside the command this is the choice of log entry 32, of a byte found at attach that of log entry 31. -/
def Obligations.TodCommandsAreAcknowledged : Prop :=
  ∀ (a : Asic) (i : Fin 2),
    (a.ctrlByte (.todCtrl i) = 0x11 →
      (todAck i a).regVal (.todSec i) = (a.tod.get i).sec.toNat ∧
      (todAck i a).regVal (.todNs i) = (a.tod.get i).ns.toNat * 65536 ∧
      (todAck i a).ctrlByte (.todCtrl i) = 0x01 ∧ Asic.SameBut (todArea i) a (todAck i a)) ∧
    (a.ctrlByte (.todCtrl i) = 0x12 →
      (todAck i a).regVal (.todNs i) = 0 ∧ (todAck i a).ctrlByte (.todCtrl i) = 0x02 ∧
      Asic.SameBut (todArea i) { a with draws := (todAck i a).draws } (todAck i a) ∧
      ((a.tod.get i).sec.toNat < 2 ^ 48 - 1 →
        (todAck i a).regVal (.todSec i) = (a.tod.get i).sec.toNat + 1 ∧ (todAck i a).draws = a.draws))

/-- R170, R173: a 1PPS edge loads a pending time and clears the semaphore; without one it starts the next second; an
advance moves the nanoseconds forward within the second. Nothing else changes: not the other DPLL's counter, no bank and
no other latch. The second after 2^48 - 1 is open (U11), and its nanoseconds are 0 all the same; only the model's draw
counter moves with it (log entry 7). A pending time with nanoseconds of 10^9 or more is loaded unreduced by the choice of
log entry 33. -/
def Obligations.ClockSteps : Prop :=
  ∀ (a : Asic) (i : Fin 2),
    (∀ time, a.todPend.get i = some time →
      clockEdge i a = { a with
        regs := (clockEdge i a).regs, tod := upd a.tod i time, todPend := upd a.todPend i none } ∧
      (clockEdge i a).ctrlByte (.todCtrl i) = a.ctrlByte (.todCtrl i) &&& 0xEF ∧
      ∀ addr, addr ≠ (Reg.todCtrl i).addr → (clockEdge i a).regs.get addr = a.regs.get addr) ∧
    (a.todPend.get i = none →
      clockEdge i a = { a with
        tod := upd a.tod i ⟨((clockEdge i a).tod.get i).sec, 0⟩, draws := (clockEdge i a).draws } ∧
      ((a.tod.get i).sec.toNat < 2 ^ 48 - 1 →
        ((clockEdge i a).tod.get i).sec = (a.tod.get i).sec + 1 ∧ (clockEdge i a).draws = a.draws)) ∧
    (∀ ns : BitVec 32, (a.tod.get i).ns.toNat < ns.toNat → ns.toNat < 1000000000 →
      clockAdvance i ns a = { a with tod := upd a.tod i ⟨(a.tod.get i).sec, ns⟩ })

/-! ### Mailbox -/

/-- R140: the acknowledge of a read request with a one-hot mask puts the selected entry's image into the window and
clears the read bit; of a write request, it sets every selected entry to the window's fields and clears the write bit.
Nothing else changes: no clock, no other latch, no other bank and no other register byte. -/
def Obligations.MailboxAcknowledge : Prop :=
  ∀ (p : Params) (a : Asic) (d : Domain) (m : BitVec 16),
    (∀ k : Fin d.count, m.toNat = 2 ^ k.1 → a.req d = .read m →
      (mbAck p d a).window p d = a.image p d k ∧
      (mbAck p d a).ctrlByte (.mbSem d) = a.ctrlByte (.mbSem d) &&& 0xFD ∧ (mbAck p d a).req d = .none ∧
      mbAck p d a = { a with regs := (mbAck p d a).regs, mbReq := (mbAck p d a).mbReq } ∧
      (∀ e, e ≠ d → (mbAck p d a).req e = a.req e) ∧
      ∀ addr, addr ≠ (Reg.mbSem d).addr → ¬(d.winBase ≤ addr ∧ addr < d.winBase + winLen p d) →
        (mbAck p d a).regs.get addr = a.regs.get addr) ∧
    (m ≠ 0 → m.toNat < 2 ^ d.count → a.req d = .write m →
      (∀ k : Fin d.count, m.getLsbD k.1 = true → (mbAck p d a).image p d k = a.window p d) ∧
      (∀ (e : Domain) (k : Fin e.count), (e = d → m.getLsbD k.1 = false) →
        (mbAck p d a).image p e k = a.image p e k) ∧
      (mbAck p d a).ctrlByte (.mbSem d) = a.ctrlByte (.mbSem d) &&& 0xFE ∧ (mbAck p d a).req d = .none ∧
      mbAck p d a = { a with
        regs := (mbAck p d a).regs
        mbReq := (mbAck p d a).mbReq
        bankRef := (mbAck p d a).bankRef
        bankDpll := (mbAck p d a).bankDpll
        bankSynth := (mbAck p d a).bankSynth
        bankOut := (mbAck p d a).bankOut } ∧
      (d ≠ .ref → (mbAck p d a).bankRef = a.bankRef) ∧ (d ≠ .dpll → (mbAck p d a).bankDpll = a.bankDpll) ∧
      (d ≠ .synth → (mbAck p d a).bankSynth = a.bankSynth) ∧ (d ≠ .out → (mbAck p d a).bankOut = a.bankOut) ∧
      (∀ e, e ≠ d → (mbAck p d a).req e = a.req e) ∧
      ∀ addr, addr ≠ (Reg.mbSem d).addr → (mbAck p d a).regs.get addr = a.regs.get addr)

/-- R141: of the responder's and the clocks' steps, only a read acknowledge of its domain changes a window's bytes; only a
write acknowledge of theirs the Ref, Dpll and Output banks; the Synth bank its own or, to any value, a step made while no
Synth request is outstanding. The controller's accesses change no bank: a read changes nothing but what the responder's
moves at it do (the model's draw counter apart), a write, however it ends, no byte but those it is made to. -/
def Obligations.BankStability : Prop :=
  (∀ (p : Params) (mv : Move) (a : Asic),
    (∀ d, (applyMove p mv a).window p d ≠ a.window p d → mv = .mbAck d ∧ ∃ m, a.req d = .read m) ∧
    ((applyMove p mv a).bankRef ≠ a.bankRef → mv = .mbAck .ref ∧ ∃ m, a.req .ref = .write m) ∧
    ((applyMove p mv a).bankDpll ≠ a.bankDpll → mv = .mbAck .dpll ∧ ∃ m, a.req .dpll = .write m) ∧
    ((applyMove p mv a).bankOut ≠ a.bankOut → mv = .mbAck .out ∧ ∃ m, a.req .out = .write m) ∧
    ((applyMove p mv a).bankSynth ≠ a.bankSynth →
      (mv = .mbAck .synth ∧ ∃ m, a.req .synth = .write m) ∨
      ((∃ k b, mv = .reprogram k b) ∧ a.req .synth = .none)) ∧
    ∀ k b, a.req .synth = .none → applyMove p (.reprogram k b) a = { a with bankSynth := upd a.bankSynth k b }) ∧
  ∀ (s t : State) (addr n v : Nat) (a : Asic), a = runMoves s.par s.env.next.1.moves s.asic →
    ((memRead addr n).Leaves s t → t.asic = { a with draws := t.asic.draws }) ∧
    ((memWrite addr n v).Leaves s t →
      t.asic.bankRef = a.bankRef ∧ t.asic.bankDpll = a.bankDpll ∧ t.asic.bankSynth = a.bankSynth ∧
      t.asic.bankOut = a.bankOut ∧ ∀ x, x < addr ∨ addr + n ≤ x → t.asic.regs.get x = a.regs.get x)

/-- R132, R134: a mailbox read of any domain loads the window with the selected entry's image, and a window field read
after it, at any offset and of any width, is that of the entry. The schedule is the model's (log entry 5). -/
def Obligations.MailboxReadLoadsWindow : Prop :=
  ∀ (s : State) (d : Domain) (k : Fin d.count), s.Prompt →
    ∃ t, (mbRead d k.1).run s = .ok () t ∧ t.asic.window s.par d = s.asic.image s.par d k ∧
      t.asic.regVal (.mbMask d) = 2 ^ k.1 ∧ t.asic.Quiet ∧ t.env = s.env ∧ t.par = s.par ∧
      Asic.SameBut (mailboxArea s.par d) s.asic t.asic ∧
      ∀ off n, off + n ≤ winLen s.par d →
        memRead (d.winBase + off) n t = .ok (fieldAt (s.asic.image s.par d k) off n) t

/-- R92, R100, R137, R140 (U6): the mailbox commands store the request bit and latch the request with the mask the
domain's mask register holds, a read's where the mask selects exactly one entry, a write's where it selects one or
more, none at or above the domain's count; any other mask, to which the spec gives no meaning, is a fault. Over a
pending request the new one is latched (log entry 22); the faults are those of log entry 10. -/
def Obligations.MailboxCommandsLatch : Prop :=
  ∀ (s : State) (d : Domain) (a : Asic) (m : BitVec 16), s.failure = none →
    a = runMoves s.par s.env.next.1.moves s.asic → m.toNat = a.regVal (.mbMask d) →
    ((∃ k : Fin d.count, m.toNat = 2 ^ k.1) →
      exec (.mbReqRead d) s = .next { s.tick with
        asic := { a with
          regs := a.regs.set (Reg.mbSem d).addr 0x02
          mbReq := upd a.mbReq d.idx (.read m) } }) ∧
    ((∀ k : Fin d.count, m.toNat ≠ 2 ^ k.1) → exec (.mbReqRead d) s = .fault .mailboxMask) ∧
    (m ≠ 0 ∧ m.toNat < 2 ^ d.count →
      exec (.mbReqWrite d) s = .next { s.tick with
        asic := { a with
          regs := a.regs.set (Reg.mbSem d).addr 0x01
          mbReq := upd a.mbReq d.idx (.write m) } }) ∧
    (¬(m ≠ 0 ∧ m.toNat < 2 ^ d.count) → exec (.mbReqWrite d) s = .fault .mailboxMask)

/-! ### Register-level commands of the TOD, TIE and phase-step registers -/

/-- R100, R171 to R173: the TOD commands store their byte; WRITE_NEXT_1HZ latches the time in the TOD data registers,
of the nanoseconds its bits 47..16. Over a pending command this is the choice of log entry 22. -/
def Obligations.TodCommandsLatch : Prop :=
  ∀ (s : State) (i : Fin 2) (a : Asic), s.failure = none → a = runMoves s.par s.env.next.1.moves s.asic →
    exec (.todCmdRead i) s =
      .next { s.tick with asic := { a with regs := a.regs.set (Reg.todCtrl i).addr 0x11 } } ∧
    exec (.todCmdReadNext1Hz i) s =
      .next { s.tick with asic := { a with regs := a.regs.set (Reg.todCtrl i).addr 0x12 } } ∧
    exec (.todCmdWriteNext1Hz i) s =
      .next { s.tick with
        asic := { a with
          regs := a.regs.set (Reg.todCtrl i).addr 0x13
          todPend := upd a.todPend i
            (some ⟨BitVec.ofNat 48 (a.regVal (.todSec i)), BitVec.ofNat 32 (a.regVal (.todNs i) / 65536)⟩) } }

/-- R98, R100, R240, R241: the TIE command stores its byte and latches the mask and the data of each DPLL the mask
selects; the phase-step command stores its byte and latches the DPLL nibble, whatever it holds, the TOD flag, the mask,
the value and the count. Over a pending command this is the choice of log entry 22; a nibble that names no DPLL is that of
log entry 25, a mask with a bit above 9 that of log entry 27. -/
def Obligations.PhaseCommandsLatch : Prop :=
  ∀ (s : State) (a : Asic), s.failure = none → a = runMoves s.par s.env.next.1.moves s.asic →
    (∃ l : TieLatch,
      exec .tieCmdWrite s =
        .next { s.tick with asic := { a with regs := a.regs.set Reg.tieCtrl.addr 0x01, tiePend := some l } } ∧
      l.m.toNat = a.regVal .tieMask ∧
      ∀ d : Fin 2, l.v.get d =
        if (a.regVal .tieMask).testBit d.1 then some (BitVec.ofNat 48 (a.regVal (.tieData d))) else none) ∧
    ∀ (d : BitVec 4) (flag : Bool),
      exec (.psCmdWrite d flag) s =
        .next { s.tick with
          asic := { a with
            regs := a.regs.set Reg.psCtrl.addr (BitVec.ofNat 8 (16 * d.toNat + (if flag then 9 else 1)))
            psPend := some
              { d := d
                t := flag
                m := BitVec.ofNat 16 (a.regVal .psMask)
                u := BitVec.ofNat 32 (a.regVal .psData)
                c := BitVec.ofNat 8 (a.regVal .psCount) } } }

/-- R66, R332: the byte of a register-level command whose access fails landed, with what the responder then latches,
or it did not; a WRITE_NEXT_1HZ may be triggered or not in either case, with the time of the data registers, and
triggers nothing else. Issued by the bootstrap, the command leaves the device unattached and delivers no result; issued
otherwise, it ends with `Transport` (the model's choice, log entry 14). Which requests follow their byte is the deduction
of log entry 9. -/
def Obligations.FailedCommandIsTransport : Prop :=
  ∀ (s t : State) (i : Instr) (f : Failure), i.isOperation = false → s.failure = some f → exec i s = .next t →
    ((∀ j, i ≠ .todCmdWriteNext1Hz j) →
      t.asic = runMoves s.par s.env.next.1.moves s.asic ∨
      ∃ u, exec i { s with env := ⟨[⟨s.env.next.1.moves, none⟩], s.env.rest⟩ } = .next u ∧ t.asic = u.asic) ∧
    (∀ j a, i = .todCmdWriteNext1Hz j → a = runMoves s.par s.env.next.1.moves s.asic →
      t.asic = { a with
        regs := if f.landed.head? = some true then a.regs.set (Reg.todCtrl j).addr 0x13 else a.regs
        todPend := if f.raised then
            upd a.todPend j
              (some ⟨BitVec.ofNat 48 (a.regVal (.todSec j)), BitVec.ofNat 32 (a.regVal (.todNs j) / 65536)⟩)
          else a.todPend }) ∧
    (s.dev = .booting → t.dev = .bootFailed ∧ t.res = s.res) ∧
    (s.dev ≠ .booting → t.res = ⟨2, 0, 0⟩ ∧ t.dev = s.dev ∧ t.ctl.lock = .free)

/-- R240, R241: the acknowledge of a pending TIE write steps each selected DPLL's counter by the parameter's amount
for its 48-bit value and clears the op-code; that of a phase step with the TOD flag steps its DPLL's counter by the
parameter's amount at the one frequency of the selected pairs' synthesizers, without the flag none. A step that leaves
the 48-bit range of seconds still sets the nanoseconds; its seconds are open (U11). Either empties its latch and leaves
every bank, every other latch and every other register byte alone. R241 says the frequency of the stepped outputs'
synthesizer; that several synthesizers of one frequency count as one is the choice of log entry 8, that a mask bit above 9
selects no pair that of log entry 27. A nibble that names no DPLL moves at most one counter, by an amount of the parameter
(log entry 25). What op-code the register holds does not matter (log entry 31). -/
def Obligations.PhaseAcknowledges : Prop :=
  ∀ a : Asic,
    (∀ l, a.tiePend = some l →
      tieAck a = { a with
        regs := (tieAck a).regs, tod := (tieAck a).tod, tiePend := none, draws := (tieAck a).draws } ∧
      (tieAck a).ctrlByte .tieCtrl = a.ctrlByte .tieCtrl &&& 0xF8 ∧
      (∀ addr, addr ≠ Reg.tieCtrl.addr → (tieAck a).regs.get addr = a.regs.get addr) ∧
      (∀ d : Fin 2, l.v.get d = none → (tieAck a).tod.get d = a.tod.get d) ∧
      ∀ (d : Fin 2) (v : BitVec 48), l.v.get d = some v →
        (a.tod.get d).MovedBy (Config.tieTodStep v.toInt) ((tieAck a).tod.get d)) ∧
    ∀ l, a.psPend = some l →
      psAck a = { a with
        regs := (psAck a).regs, tod := (psAck a).tod, psPend := none, draws := (psAck a).draws } ∧
      (psAck a).ctrlByte .psCtrl = a.ctrlByte .psCtrl &&& 0xFC ∧
      (∀ addr, addr ≠ Reg.psCtrl.addr → (psAck a).regs.get addr = a.regs.get addr) ∧
      (l.t = false → (psAck a).tod = a.tod) ∧
      (∀ i d : Fin 2, l.d.toNat = i.1 → d ≠ i → (psAck a).tod.get d = a.tod.get d) ∧
      (∀ (i : Fin 2) f, l.d.toNat = i.1 → l.t = true → (∃ q : Fin 10, l.m.getLsbD q.1 = true) →
        (∀ q : Fin 10, l.m.getLsbD q.1 = true → a.pairFreq q = .ok f) →
        (a.tod.get i).MovedBy (Config.psTodStep (l.c.toNat * l.u.toInt) f) ((psAck a).tod.get i)) ∧
      (2 ≤ l.d.toNat →
        (∃ i : Fin 2, (∀ d, d ≠ i → (psAck a).tod.get d = a.tod.get d) ∧
          ((psAck a).tod.get i = a.tod.get i ∨
            ∃ f, (a.tod.get i).MovedBy (Config.psTodStep (l.c.toNat * l.u.toInt) f) ((psAck a).tod.get i))))

/-! ### Frequency trim and phase -/

/-- R220, R221: the DCO offset is the floor-rounded product to within one unit and inside s48, so that its register
image holds its negation exactly. -/
def Obligations.DcoOffsetEncoding : Prop :=
  ∀ ppm : Int, -2 ^ 31 ≤ ppm → ppm < 2 ^ 31 →
    -9223372013568 ≤ dcoOffset ppm ∧ dcoOffset ppm ≤ 9223372009273 ∧
    281474976 * ppm - 65536 < 65536 * dcoOffset ppm ∧ 65536 * dcoOffset ppm ≤ 281474976 * ppm ∧
    sval 48 (dcoImage ppm) = -dcoOffset ppm ∧ dcoImage ppm < 2 ^ 48

/-- R221, R222, R37: a non-zero ADJFINE whose one access succeeds writes the negated offset to the DPLL's register and
nothing else, whatever the schedule; ADJFINE of 0 succeeds, reaches no register and leaves the offset as it was. -/
def Obligations.AdjfineWritesOffset : Prop :=
  ∀ (s : State) (a : Byte) (i : Fin 2) (x : BitVec 64), a.toNat = i.1 → -2 ^ 31 ≤ x.toInt → x.toInt < 2 ^ 31 →
    (x ≠ 0 → s.failure = none →
      ∃ t, exec (.adjfine a x) s = .next t ∧ t.res = ⟨0, 0, 0⟩ ∧ t.resTo = s.ctl.lock.holder ∧ t.ctl.lock = .free ∧
        t.ctl.perout = s.ctl.perout ∧ t.asic.regVal (.dfOffset i) = dcoImage x.toInt ∧
        Asic.SameBut (inRegs [.dfOffset i]) (runMoves s.par s.env.next.1.moves s.asic) t.asic) ∧
    (x = 0 → ∃ t, exec (.adjfine a x) s = .next t ∧ s.Finished t 0 0 0 ∧ t.asic = s.asic)

/-- R224, R225: the TIE value is the delta modulo one second in hundredths of a picosecond, its sign kept; it fits the
48-bit field, which holds it not negated. -/
def Obligations.TieUnitsEncoding : Prop :=
  ∀ delta : Int, tieUnits delta = delta.tmod 1000000000 * 100000 ∧ |tieUnits delta| ≤ 99999999900000 ∧
    sval 48 (tieImage delta) = tieUnits delta ∧ tieImage delta < 2 ^ 48

/-- R226, R240: ADJPHASE selects its DPLL, writes the TIE value and the command, and returns once the responder has
performed it: the DPLL's counter has moved by the parameter's amount for that value. The schedule is the model's (log
entry 5). -/
def Obligations.AdjphaseInjectsTie : Prop :=
  ∀ (s : State) (a : Byte) (i : Fin 2) (x : BitVec 64), s.Prompt → a.toNat = i.1 → -2 ^ 31 ≤ x.toInt →
    x.toInt < 2 ^ 31 →
    ∃ t, exec (.adjphase a x) s = .next t ∧ s.Finished t 0 0 0 ∧
      t.asic = { s.asic.stepTod i (Config.tieTodStep (tieUnits x.toInt)) with regs := t.asic.regs } ∧
      t.asic.regVal .tieMask = 2 ^ i.1 ∧ sval 48 (t.asic.regVal (.tieData i)) = tieUnits x.toInt ∧
      t.asic.ctrlByte .tieCtrl = 0 ∧
      ∀ addr, inRegs [.tieCtrl, .tieMask, .tieData i] addr = false →
        t.asic.regs.get addr = s.asic.regs.get addr

/-- R227: the whole seconds and the remainder of a delta. -/
def Obligations.SplitDelta : Prop :=
  ∀ delta : Int, delta = (split delta).1 * 1000000000 + (split delta).2 ∧ |(split delta).2| < 1000000000 ∧
    (0 ≤ delta → 0 ≤ (split delta).2) ∧ (delta ≤ 0 → (split delta).2 ≤ 0) ∧
    ((split delta).1 ≠ 0 ↔ 1000000000 ≤ |delta|)

/-- R227 to R233: a STEPTIME of less than a second issues the phase step of the lowest active pair's synthesizer, and
enters no TOD register and moves no counter; a step that does not fit s32 is `Range`, a synthesizer that cannot be
read `Malformed`, and then no step is pending. The schedule is the model's (log entry 5). -/
def Obligations.SteptimeSubSecond : Prop :=
  ∀ (s : State) (a : Byte) (i : Fin 2) (x : BitVec 64) (p : Fin 10), s.Prompt → a.toNat = i.1 →
    |x.toInt| < 1000000000 → (s.ctl.perout.get i).getLsbD p.1 = true →
    (∀ q : Fin 10, q < p → (s.ctl.perout.get i).getLsbD q.1 = false) →
    ∃ t, exec (.steptime a x) s = .next t ∧
      (∀ addr, either psArea (either (mailboxArea s.par .out) (mailboxArea s.par .synth)) addr = false →
        t.asic.regs.get addr = s.asic.regs.get addr) ∧
      (∀ f u, s.asic.pairFreq p = .ok f → u = (x.toInt * f).tdiv 1000000000 → -2 ^ 31 ≤ u ∧ u < 2 ^ 31 →
        s.Finished t 0 0 0 ∧ t.asic.ctrlByte .psCtrl = BitVec.ofNat 8 (16 * i.1 + 9) ∧
        t.asic = { s.asic with
          regs := t.asic.regs
          psPend := some { d := BitVec.ofNat 4 i.1, t := true, m := s.ctl.perout.get i, u := BitVec.ofInt 32 u, c := 1 } }) ∧
      (∀ f u, s.asic.pairFreq p = .ok f → u = (x.toInt * f).tdiv 1000000000 → ¬(-2 ^ 31 ≤ u ∧ u < 2 ^ 31) →
        s.Finished t 4 0 0 ∧ t.asic = { s.asic with regs := t.asic.regs }) ∧
      (∀ e, s.asic.pairFreq p = .error e →
        s.Finished t e.code 0 0 ∧ t.asic = { s.asic with regs := t.asic.regs })

/-- R165, R168, R233, R234: a STEPTIME of whole seconds under a responder that is prompt and a clock whose edges fall
while the rollover is waited for and once the stepped time is written: at the edge the sampled time is that of, the
counter holds the stepped seconds, and the operation returns with the remainder's phase step pending. Stepped seconds
that are no u48 end it with `Range`, and no counter is stepped. Under a clock without edges the rollover wait ends with
`Timeout`. The schedules are the model's (log entry 5); one with an edge in every slot is R342's late write, where the
operation ends the same way. -/
def Obligations.SteptimeWholeSeconds : Prop :=
  ∀ (s : State) (a : Byte) (i : Fin 2) (x : BitVec 64) (p : Fin 10) (f : Nat) (n : Nat), s.par.wf = true →
    s.asic.Quiet → a.toNat = i.1 → 1000000000 ≤ |x.toInt| → (s.ctl.perout.get i).getLsbD p.1 = true →
    n = (s.asic.tod.get i).sec.toNat → n + 30 < 2 ^ 48 →
    (s.env = Env.onTime i → 2 ≤ s.par.mbPollLimit → 0 ≤ n + 2 + x.toInt.tdiv 1000000000 →
      n + 2 + x.toInt.tdiv 1000000000 < 2 ^ 48 → (∀ q : Fin 10, q < p → (s.ctl.perout.get i).getLsbD q.1 = false) →
      s.asic.pairFreq p = .ok f → -2 ^ 31 ≤ (x.toInt.tmod 1000000000 * f).tdiv 1000000000 →
      (x.toInt.tmod 1000000000 * f).tdiv 1000000000 < 2 ^ 31 →
      ∃ t, exec (.steptime a x) s = .next t ∧ t.res = ⟨0, 0, 0⟩ ∧ t.resTo = s.ctl.lock.holder ∧ t.ctl.lock = .free ∧
        t.ctl.perout = s.ctl.perout ∧ t.asic = { s.asic with
          regs := t.asic.regs
          tod := upd s.asic.tod i ⟨BitVec.ofInt 48 (n + 2 + x.toInt.tdiv 1000000000), 0⟩
          psPend := some
            { d := BitVec.ofNat 4 i.1
              t := true
              m := s.ctl.perout.get i
              u := BitVec.ofInt 32 ((x.toInt.tmod 1000000000 * f).tdiv 1000000000)
              c := 1 } } ∧
        ∀ addr, either (todArea i) (either psArea (either (mailboxArea s.par .out) (mailboxArea s.par .synth))) addr =
          false → t.asic.regs.get addr = s.asic.regs.get addr) ∧
    (s.env = Env.onTime i →
      ¬(0 ≤ n + 2 + x.toInt.tdiv 1000000000 ∧ n + 2 + x.toInt.tdiv 1000000000 < 2 ^ 48) →
      ∃ t, exec (.steptime a x) s = .next t ∧ t.res = ⟨4, 0, 0⟩ ∧ t.resTo = s.ctl.lock.holder ∧ t.ctl.lock = .free ∧
        t.ctl.perout = s.ctl.perout ∧ t.asic = { s.asic with
          regs := t.asic.regs, tod := upd s.asic.tod i ⟨BitVec.ofNat 48 (n + 1), 0⟩ } ∧
        ∀ addr, todArea i addr = false → t.asic.regs.get addr = s.asic.regs.get addr) ∧
    (s.env = Env.prompt →
      ∃ t, exec (.steptime a x) s = .next t ∧ s.Finished t 1 0 0 ∧ Asic.SameBut (todArea i) s.asic t.asic) ∧
    (s.env = Env.ticking i → 0 ≤ n + 8 + x.toInt.tdiv 1000000000 → n + 26 + x.toInt.tdiv 1000000000 < 2 ^ 48 →
      (∀ q : Fin 10, q < p → (s.ctl.perout.get i).getLsbD q.1 = false) → s.asic.pairFreq p = .ok f →
      -2 ^ 31 ≤ (x.toInt.tmod 1000000000 * f).tdiv 1000000000 →
      (x.toInt.tmod 1000000000 * f).tdiv 1000000000 < 2 ^ 31 →
      ∃ t, exec (.steptime a x) s = .next t ∧ s.Finished t 0 0 0 ∧ t.asic = { s.asic with
        regs := t.asic.regs
        tod := upd s.asic.tod i ⟨BitVec.ofInt 48 (n + 26 + x.toInt.tdiv 1000000000), 0⟩
        psPend := some
          { d := BitVec.ofNat 4 i.1
            t := true
            m := s.ctl.perout.get i
            u := BitVec.ofInt 32 ((x.toInt.tmod 1000000000 * f).tdiv 1000000000)
            c := 1 } } ∧
        ∀ addr, either (todArea i) (either psArea (either (mailboxArea s.par .out) (mailboxArea s.par .synth))) addr =
          false → t.asic.regs.get addr = s.asic.regs.get addr)

/-! ### Frequency -/

/-- R193, R194, R195: the table has the nine quadruples of the rule, each frequency exactly the product of its quadruple;
encoding finds the row of a supported frequency and none of another; decoding accepts a product that is one of the
nine, whatever its quadruple, and no other. -/
def Obligations.ReferenceTableIsExact : Prop :=
  refTable =
    [(1, ⟨1, 1, 1, 1⟩), (25, ⟨25, 1, 1, 1⟩), (100, ⟨100, 1, 1, 1⟩), (1000, ⟨1000, 1, 1, 1⟩),
      (10000000, ⟨10000, 1000, 1, 1⟩), (25000000, ⟨25000, 1000, 1, 1⟩), (62500000, ⟨62500, 1000, 1, 1⟩),
      (78125000, ⟨15625, 5000, 1, 1⟩), (100000000, ⟨10000, 10000, 1, 1⟩)] ∧
  refTable.map Prod.fst = nineFrequencies ∧
  (∀ r ∈ refTable, product r.2.base r.2.mult r.2.m r.2.n = some r.1 ∧ r.2.base < 2 ^ 16 ∧ r.2.mult < 2 ^ 32) ∧
  ∀ f : Nat,
    (f ∈ nineFrequencies → ∃ q, refEncode f = some q ∧ (f, q) ∈ refTable ∧ refDecode f = some f) ∧
    (f ∉ nineFrequencies → refEncode f = none ∧ refDecode f = none)

/-- R190, R191, R192: SYNTH_FREQ_GET returns the synthesizer's product, and `Malformed` where N is 0; it touches the
Synth mailbox alone. The schedule is the model's (log entry 5). -/
def Obligations.SynthFreqGetReturnsProduct : Prop :=
  ∀ (s : State) (a : Byte) (k : Fin 5), s.Prompt → a.toNat = k.1 →
    ∃ t, exec (.synthFreqGet a) s = .next t ∧
      s.Finished t (statusOf (s.asic.bankSynth.get k).answer) (natOf (s.asic.bankSynth.get k).answer) 0 ∧
      Asic.SameBut (mailboxArea s.par .synth) s.asic t.asic

/-- R195, R196: REF_FREQ_GET returns the reference's product where it is one of the nine frequencies, `Malformed`
where N is 0 and `Unsupported` else; it touches the Ref mailbox alone. The schedule is the model's (log entry 5). -/
def Obligations.RefFreqGetDecodes : Prop :=
  ∀ (s : State) (a : Byte) (r : Fin 10), s.Prompt → a.toNat = r.1 →
    ∃ t, exec (.refFreqGet a) s = .next t ∧
      s.Finished t (statusOf (s.asic.bankRef.get r).answer) (natOf (s.asic.bankRef.get r).answer) 0 ∧
      Asic.SameBut (mailboxArea s.par .ref) s.asic t.asic

/-- R193, R194, R197: REF_FREQ_SET of a supported frequency sets the reference's quadruple to the table's and keeps
its phase compensation. The schedule is the model's (log entry 5). -/
def Obligations.RefFreqSetWritesQuadruple : Prop :=
  ∀ (s : State) (a : Byte) (r : Fin 10) (x : BitVec 64) (q : Quad), s.Prompt → a.toNat = r.1 →
    (x.toNat, q) ∈ refTable →
    ∃ t, exec (.refFreqSet a x) s = .next t ∧ s.Finished t 0 0 0 ∧
      Asic.SameButRef (mailboxArea s.par .ref)
        (upd s.asic.bankRef r
          { base := BitVec.ofNat 16 q.base
            mult := BitVec.ofNat 32 q.mult
            m := BitVec.ofNat 16 q.m
            n := BitVec.ofNat 16 q.n
            phaseComp := (s.asic.bankRef.get r).phaseComp })
        s.asic t.asic

/-- R199 to R202: OUT_FREQ_GET returns the pin's frequency, or the error its pair's select, synthesizer or dividers
give; it touches the Output and Synth mailboxes alone. The schedule is the model's (log entry 5). -/
def Obligations.OutFreqGetReturnsPinFrequency : Prop :=
  ∀ (s : State) (a : Byte) (pin : Fin 20), s.Prompt → a.toNat = pin.1 → s.par.pinFixedRatio pin = false →
    ∃ t, exec (.outFreqGet a) s = .next t ∧
      s.Finished t (statusOf (s.asic.pinFreq s.par pin)) (natOf (s.asic.pinFreq s.par pin)) 0 ∧
      Asic.SameBut (either (mailboxArea s.par .out) (mailboxArea s.par .synth)) s.asic t.asic

/-- R200, R203: OUT_FREQ_SET of a non-zero frequency sets the divider, or on the N side the P/N ratio, of the pin's
pair, where the rule accepts it; else it reports the rule's error and changes no bank. The schedule is the model's
(log entry 5). -/
def Obligations.OutFreqSetWritesDivider : Prop :=
  ∀ (s : State) (a : Byte) (pin : Fin 20) (x : BitVec 64), s.Prompt → a.toNat = pin.1 →
    s.par.pinFixedRatio pin = false → x ≠ 0 →
    ∃ t, exec (.outFreqSet a x) s = .next t ∧ s.Finished t (statusOf (s.asic.setFreq s.par pin x.toNat)) 0 0 ∧
      Asic.SameButOut (either (mailboxArea s.par .out) (mailboxArea s.par .synth))
        (s.asic.outBanks (pairOf pin) (s.asic.setFreq s.par pin x.toNat)) s.asic t.asic

/-- R204: a frequency set is the frequency the next get returns. The schedule is the model's (log entry 5). -/
def Obligations.OutFreqRoundTrip : Prop :=
  ∀ (s t : State) (a : Byte) (x : BitVec 64), s.Prompt → exec (.outFreqSet a x) s = .next t → t.res.status = 0 →
    ∃ u, exec (.outFreqGet a) t = .next u ∧ u.res = ⟨0, x, 0⟩

/-! ### Phase compensation -/

/-- R250 to R253: REF_PHASE_COMP_GET returns the negated register value where it is within the s32 range without its
lowest value, else `Range`; REF_PHASE_COMP_SET sets the reference's compensation to the negated value and keeps its
quadruple. Both touch the Ref mailbox alone. The schedule is the model's (log entry 5). -/
def Obligations.RefPhaseCompNegates : Prop :=
  ∀ (s : State) (a : Byte) (r : Fin 10), s.Prompt → a.toNat = r.1 →
    (∃ t, exec (.refPhaseCompGet a) s = .next t ∧
      s.Finished t (statusOf (s.asic.bankRef.get r).comp) (intOf (s.asic.bankRef.get r).comp) 0 ∧
      Asic.SameBut (mailboxArea s.par .ref) s.asic t.asic) ∧
    ∀ x : BitVec 64, -2 ^ 31 < x.toInt → x.toInt < 2 ^ 31 →
      ∃ t, exec (.refPhaseCompSet a x) s = .next t ∧ s.Finished t 0 0 0 ∧
        Asic.SameButRef (mailboxArea s.par .ref)
          (upd s.asic.bankRef r { s.asic.bankRef.get r with phaseComp := BitVec.ofInt 48 (-x.toInt) }) s.asic t.asic

/-- R254 to R258: OUT_PHASE_COMP_GET returns the negated register value times the half cycle of the pair's
synthesizer, or the error its rule gives; OUT_PHASE_COMP_SET sets the pair's compensation to the negated quotient
where the half cycle divides the value, else it reports the rule's error and changes no bank. Both touch the Output
and Synth mailboxes alone. The schedule is the model's (log entry 5). -/
def Obligations.OutPhaseCompScales : Prop :=
  ∀ (s : State) (a : Byte) (pin : Fin 20), s.Prompt → a.toNat = pin.1 →
    (∃ t, exec (.outPhaseCompGet a) s = .next t ∧
      s.Finished t (statusOf (s.asic.pinComp pin)) (intOf (s.asic.pinComp pin)) 0 ∧
      Asic.SameBut (either (mailboxArea s.par .out) (mailboxArea s.par .synth)) s.asic t.asic) ∧
    ∀ x : BitVec 64, -2 ^ 31 ≤ x.toInt → x.toInt < 2 ^ 31 →
      ∃ t, exec (.outPhaseCompSet a x) s = .next t ∧ s.Finished t (statusOf (s.asic.setComp pin x.toInt)) 0 0 ∧
        Asic.SameButOut (either (mailboxArea s.par .out) (mailboxArea s.par .synth))
          (s.asic.outBanks (pairOf pin) (s.asic.setComp pin x.toInt)) s.asic t.asic

/-- R259: a phase compensation set is the one the next get returns: of the same reference, and of either pin of the
same output pair. The schedule is the model's (log entry 5). -/
def Obligations.PhaseCompRoundTrip : Prop :=
  ∀ (s t : State) (a b : Byte) (x : BitVec 64), s.Prompt →
    (exec (.refPhaseCompSet a x) s = .next t → t.res.status = 0 →
      ∃ u, exec (.refPhaseCompGet a) t = .next u ∧ u.res = ⟨0, x, 0⟩) ∧
    (exec (.outPhaseCompSet a x) s = .next t → t.res.status = 0 → b.toNat / 2 = a.toNat / 2 →
      ∃ u, exec (.outPhaseCompGet b) t = .next u ∧ u.res = ⟨0, x, 0⟩)

/-! ### Pins and periodic outputs -/

/-- R270, R272: the enable lattice's two transition tables, and the codes of its states. -/
def Obligations.EnableLattice : Prop :=
  (∀ s h, enableNext s h =
    if s = .bothDisabled then (if h = .p then .pEnable else .nEnable) else .bothEnabled) ∧
  (∀ s h, disableNext s h =
    if s = .bothEnabled then (if h = .p then .nEnable else .pEnable) else .bothDisabled) ∧
  EnableState.bothDisabled.code = 0 ∧ EnableState.pEnable.code = 1 ∧ EnableState.nEnable.code = 2 ∧
  EnableState.bothEnabled.code = 3 ∧ (∀ s : EnableState, enableStateOf s.code = some s) ∧
  (∀ c, 3 < c → enableStateOf c = none)

/-- R271 to R275: PIN_ENABLE and PIN_DISABLE move the pair's enable state along the lattice for the pin's half and
keep the pair's other fields; a reserved state is `Malformed` and no bank changes. The schedule is the model's (log
entry 5). -/
def Obligations.PinOperationsMoveLattice : Prop :=
  ∀ (s : State) (a : Byte) (pin : Fin 20), s.Prompt → a.toNat = pin.1 →
    (∃ t, exec (.pinEnable a) s = .next t ∧ s.Finished t (statusOf (s.asic.pinMoved enableNext pin)) 0 0 ∧
      Asic.SameButOut (mailboxArea s.par .out) (s.asic.outBanks (pairOf pin) (s.asic.pinMoved enableNext pin))
        s.asic t.asic) ∧
    (∃ t, exec (.pinDisable a) s = .next t ∧ s.Finished t (statusOf (s.asic.pinMoved disableNext pin)) 0 0 ∧
      Asic.SameButOut (mailboxArea s.par .out) (s.asic.outBanks (pairOf pin) (s.asic.pinMoved disableNext pin))
        s.asic t.asic)

/-- R280: PEROUT_ENABLE of a one-second period and a whole-second phase adds the pair to its DPLL's mask where the
pair's synthesizer can be read, and else reports `Malformed` and adds nothing; it writes no bank. The schedule is the
model's (log entry 5). -/
def Obligations.PeroutEnableAddsPair : Prop :=
  ∀ (s : State) (a : Byte) (i : Fin 2) (p : Fin 10) (x y : BitVec 64), s.Prompt → a.toNat = 16 * i.1 + p.1 →
    x.toInt = 1000000000 → (1000000000 : Int) ∣ y.toInt →
    ∃ t, exec (.peroutEnable a x y) s = .next t ∧ s.Returned t (statusOf (s.asic.pairFreq p)) 0 0 ∧
      t.ctl.perout = (if statusOf (s.asic.pairFreq p) = 0 then
        upd s.ctl.perout i (s.ctl.perout.get i ||| BitVec.ofNat 16 (2 ^ p.1)) else s.ctl.perout) ∧
      Asic.SameBut (either (mailboxArea s.par .out) (mailboxArea s.par .synth)) s.asic t.asic

/-- R281: PEROUT_DISABLE takes the pair out of its DPLL's mask, in every state, and reaches no register. -/
def Obligations.PeroutDisableRemovesPair : Prop :=
  ∀ (s : State) (a : Byte) (i : Fin 2) (p : Fin 10), a.toNat = 16 * i.1 + p.1 →
    ∃ t, exec (.peroutDisable a) s = .next t ∧ s.Returned t 0 0 0 ∧ t.asic = s.asic ∧
      (∀ j, j ≠ i → t.ctl.perout.get j = s.ctl.perout.get j) ∧
      ∀ q, (t.ctl.perout.get i).getLsbD q = ((s.ctl.perout.get i).getLsbD q && decide (q ≠ p.1))

/-! ### Timeout -/

/-- R130, R132, R142, R301, R308, R346: under a responder that never moves, an operation that needs it ends with
`Timeout`, the lock is free, and the request it issued stays pending: each mailbox operation's first mailbox read, each
TOD read, and the TIE write. The schedule is the model's (log entry 5). Under one that acknowledges within the poll
budget, whatever else happens, none but a STEPTIME of whole seconds, whose rollover wait needs an edge between two
samples, ends with `Timeout`. -/
def Obligations.SilentResponderTimesOut : Prop :=
  (∀ (s : State) (a : Byte), s.par.wf = true → s.asic.Quiet → s.env = Env.silent →
    (∀ r : Fin 10, a.toNat = r.1 →
      s.MailboxTimesOut (.refFreqGet a) .ref r ∧ s.MailboxTimesOut (.refPhaseCompGet a) .ref r ∧
      (∀ x : BitVec 64, x.toNat ∈ nineFrequencies → s.MailboxTimesOut (.refFreqSet a x) .ref r) ∧
      ∀ x : BitVec 64, -2 ^ 31 < x.toInt → x.toInt < 2 ^ 31 → s.MailboxTimesOut (.refPhaseCompSet a x) .ref r) ∧
    (∀ k : Fin 5, a.toNat = k.1 → s.MailboxTimesOut (.synthFreqGet a) .synth k) ∧
    (∀ pin : Fin 20, a.toNat = pin.1 →
      s.MailboxTimesOut (.outPhaseCompGet a) .out (pairOf pin) ∧ s.MailboxTimesOut (.pinEnable a) .out (pairOf pin) ∧
      s.MailboxTimesOut (.pinDisable a) .out (pairOf pin) ∧
      (s.par.pinFixedRatio pin = false → s.MailboxTimesOut (.outFreqGet a) .out (pairOf pin) ∧
        ∀ x : BitVec 64, x ≠ 0 → s.MailboxTimesOut (.outFreqSet a x) .out (pairOf pin)) ∧
      ∀ x : BitVec 64, -2 ^ 31 ≤ x.toInt → x.toInt < 2 ^ 31 →
        s.MailboxTimesOut (.outPhaseCompSet a x) .out (pairOf pin)) ∧
    (∀ (i : Fin 2) (q : Fin 10) (x y : BitVec 64), a.toNat = 16 * i.1 + q.1 → x.toInt = 1000000000 →
      (1000000000 : Int) ∣ y.toInt → s.MailboxTimesOut (.peroutEnable a x y) .out q) ∧
    ∀ i : Fin 2, a.toNat = i.1 →
      (∃ t, exec (.todGet a) s = .next t ∧ s.Finished t 1 0 0 ∧ t.asic.ctrlByte (.todCtrl i) = 0x11 ∧
        Asic.SameBut (inRegs [.todCtrl i]) s.asic t.asic) ∧
      (∀ x : BitVec 64, 1000000000 ≤ |x.toInt| → s.ctl.perout.get i ≠ 0 →
        ∃ t, exec (.steptime a x) s = .next t ∧ s.Finished t 1 0 0 ∧ t.asic.ctrlByte (.todCtrl i) = 0x12 ∧
          Asic.SameBut (inRegs [.todCtrl i]) s.asic t.asic) ∧
      (∀ (x : BitVec 64) (q : Fin 10), |x.toInt| < 1000000000 → (s.ctl.perout.get i).getLsbD q.1 = true →
        (∀ r : Fin 10, r < q → (s.ctl.perout.get i).getLsbD r.1 = false) →
        ∃ t, exec (.steptime a x) s = .next t ∧ s.Finished t 1 0 0 ∧ t.asic.ctrlByte (.mbSem .out) = 0x02 ∧
          Asic.SameBut (inRegs [.psCount, .mbMask .out, .mbSem .out])
            (s.asic.setReq .out (.read (BitVec.ofNat 16 (2 ^ q.1)))) t.asic) ∧
      ∀ x : BitVec 64, -2 ^ 31 ≤ x.toInt → x.toInt < 2 ^ 31 →
        ∃ t, exec (.adjphase a x) s = .next t ∧ s.Finished t 1 0 0 ∧ t.asic.ctrlByte .tieCtrl = 0x01 ∧
          (∃ l : TieLatch, l.v.get i = some (BitVec.ofInt 48 (tieUnits x.toInt)) ∧
            (∀ d, d ≠ i → l.v.get d = none) ∧
            Asic.SameBut (inRegs [.tieCtrl, .tieMask, .tieData i]) { s.asic with tiePend := some l } t.asic)) ∧
  ∀ (i : Instr) (s t : State), i.isOperation = true → s.Ready → (∀ a x, i = .steptime a x → |x.toInt| < 1000000000) →
    exec i s = .next t → t.res.status ≠ 1

/-! ### Invariants -/

/-- R21, R25, R27, R29, R160: every step, of one register-port access (`accessStep`) or of a whole operation (`step`),
keeps this: the phase is idle exactly when the lock is free, then no TOD command is issued, no scratch value exists and the
sequence position is empty (the choice of log entry 6, as R28 calls it meaningless then), an operation runs on an attached
device alone, and the perout masks' upper bits are 0; and register storage keeps its canonical form, which is the model's
own and no rule's. After a whole step the lock is free and the phase idle, because that step runs an operation to its
end: the choice of log entry 1. -/
def Obligations.StepKeepsInvariant : Prop :=
  (∀ s t : State, s.Inv → accessStep s = .next t → t.Inv) ∧
  ∀ s t : State, s.Inv → step s = .next t → t.Inv ∧ t.ctl.lock = .free ∧ t.ctl.phase = .idle

/-- R34, R36: every step, of one register-port access or of a whole operation (log entry 1), keeps request flags and
latches in agreement. A failed write keeps it by the deduction of log entry 9, an idle op-code over a pending request by
that of log entry 26, an attach by that of log entry 29. -/
def Obligations.StepKeepsHandshake : Prop :=
  ∀ s t : State, s.Handshake → (step s = .next t → t.Handshake) ∧ (accessStep s = .next t → t.Handshake)

/-- R20, R22, R25, R27, R28, R160: the machine of one register-port access a step is the machine of one operation a step. A
request accepted leaves the operation at the first line of its pseudocode (one with a reserved opcode has none), no
scratch value assigned and no TOD command issued. A step of a running operation makes at most one access, and ends it as
the whole step does, leaving no position, scratch value or TOD sub-state, or leaves it with the same end, its caller still
holding the lock and the position, the scratch values and the TOD sub-states moved on by that one step (`GoesOn`); so steps
enough come to what the whole step comes to. A detach that waits behind the request is left out: it is refused while the operation
runs (U23), and the whole step takes no arrival meanwhile. A step that runs a whole operation is the choice of log entry
1; one scratch value for each step, and which lines are steps, that of log entry 6; when a TOD command is issued and
done, the deduction of log entry 30. -/
def Obligations.AccessStepsMakeUpOperations : Prop :=
  ∀ s : State, s.Inv → (s.ctl.lock = .free → ∀ c bytes rest, s.port ≠ .request c bytes :: .detach :: rest) →
    (∃ n, accessSteps n s = step s) ∧
    ∀ t, accessStep s = .next t →
      (t.env = s.env ∨ t.env = s.env.next.2) ∧
      (∀ c bytes rest, s.dev = .attached → s.ctl.lock = .free → s.port = .request c bytes :: rest →
        t.ctl.lock = .held c ∧ t.ctl.phase = .busy (reqOpcode bytes.toList) ∧ t.port = rest ∧ t.asic = s.asic ∧
        t.ctl.scratch = [] ∧ t.ctl.tod = noCommand ∧
        (∀ i, decode (.request bytes.toList) = .ok i → ∃ p, i.proc = some p ∧ t.ctl.seq = [⟨p, 1⟩]) ∧
        (∀ e, decode (.request bytes.toList) = .error e → t.ctl.seq = []) ∧ step t = step s) ∧
      (∀ c, s.ctl.lock = .held c →
        (t.ctl.lock = .free ∧ t.ctl.phase = .idle ∧ t.ctl.tod = noCommand ∧ t.ctl.scratch = [] ∧ t.ctl.seq = [] ∧
          step s = .next t) ∨
        (t.ctl.lock = .held c ∧ t.ctl.phase = s.ctl.phase ∧ t.port = s.port ∧ t.res = s.res ∧
          (∃ act k v, s.residual = .act act k ∧ s.GoesOn t act v) ∧ step t = step s))

/-- The invariants hold at reset. The ASIC side's reset values are the model's choice (log entry 3). -/
def Obligations.ResetSatisfiesInvariants : Prop := State.reset.Inv ∧ State.reset.Handshake
end

