-- ==== Sys2Proof/Laws/State.lean ====
section
/-! SUPPORT. One lemma per field of each named update of the state, true by unfolding it. -/

namespace Sys2Proof.Machine

/-! ### Updates of the ASIC side -/

section
variable (a : Asic)

@[simp] theorem Asic.poke_regs (addr : Nat) (b : Byte) : (a.poke addr b).regs = a.regs.set addr b := rfl
@[simp] theorem Asic.poke_mbReq (addr : Nat) (b : Byte) : (a.poke addr b).mbReq = a.mbReq := rfl
@[simp] theorem Asic.poke_bankRef (addr : Nat) (b : Byte) : (a.poke addr b).bankRef = a.bankRef := rfl
@[simp] theorem Asic.poke_bankDpll (addr : Nat) (b : Byte) : (a.poke addr b).bankDpll = a.bankDpll := rfl
@[simp] theorem Asic.poke_bankSynth (addr : Nat) (b : Byte) : (a.poke addr b).bankSynth = a.bankSynth := rfl
@[simp] theorem Asic.poke_bankOut (addr : Nat) (b : Byte) : (a.poke addr b).bankOut = a.bankOut := rfl
@[simp] theorem Asic.poke_tod (addr : Nat) (b : Byte) : (a.poke addr b).tod = a.tod := rfl
@[simp] theorem Asic.poke_todPend (addr : Nat) (b : Byte) : (a.poke addr b).todPend = a.todPend := rfl
@[simp] theorem Asic.poke_tiePend (addr : Nat) (b : Byte) : (a.poke addr b).tiePend = a.tiePend := rfl
@[simp] theorem Asic.poke_psPend (addr : Nat) (b : Byte) : (a.poke addr b).psPend = a.psPend := rfl
@[simp] theorem Asic.poke_draws (addr : Nat) (b : Byte) : (a.poke addr b).draws = a.draws := rfl

@[simp] theorem Asic.setReq_regs (d : Domain) (q : MbReq) : (a.setReq d q).regs = a.regs := rfl
@[simp] theorem Asic.setReq_mbReq (d : Domain) (q : MbReq) : (a.setReq d q).mbReq = upd a.mbReq d.idx q := rfl
@[simp] theorem Asic.setReq_bankRef (d : Domain) (q : MbReq) : (a.setReq d q).bankRef = a.bankRef := rfl
@[simp] theorem Asic.setReq_bankDpll (d : Domain) (q : MbReq) : (a.setReq d q).bankDpll = a.bankDpll := rfl
@[simp] theorem Asic.setReq_bankSynth (d : Domain) (q : MbReq) : (a.setReq d q).bankSynth = a.bankSynth := rfl
@[simp] theorem Asic.setReq_bankOut (d : Domain) (q : MbReq) : (a.setReq d q).bankOut = a.bankOut := rfl
@[simp] theorem Asic.setReq_tod (d : Domain) (q : MbReq) : (a.setReq d q).tod = a.tod := rfl
@[simp] theorem Asic.setReq_todPend (d : Domain) (q : MbReq) : (a.setReq d q).todPend = a.todPend := rfl
@[simp] theorem Asic.setReq_tiePend (d : Domain) (q : MbReq) : (a.setReq d q).tiePend = a.tiePend := rfl
@[simp] theorem Asic.setReq_psPend (d : Domain) (q : MbReq) : (a.setReq d q).psPend = a.psPend := rfl
@[simp] theorem Asic.setReq_draws (d : Domain) (q : MbReq) : (a.setReq d q).draws = a.draws := rfl

@[simp] theorem Asic.setTod_regs (i : Fin 2) (t : Tod) : (a.setTod i t).regs = a.regs := rfl
@[simp] theorem Asic.setTod_mbReq (i : Fin 2) (t : Tod) : (a.setTod i t).mbReq = a.mbReq := rfl
@[simp] theorem Asic.setTod_bankRef (i : Fin 2) (t : Tod) : (a.setTod i t).bankRef = a.bankRef := rfl
@[simp] theorem Asic.setTod_bankDpll (i : Fin 2) (t : Tod) : (a.setTod i t).bankDpll = a.bankDpll := rfl
@[simp] theorem Asic.setTod_bankSynth (i : Fin 2) (t : Tod) : (a.setTod i t).bankSynth = a.bankSynth := rfl
@[simp] theorem Asic.setTod_bankOut (i : Fin 2) (t : Tod) : (a.setTod i t).bankOut = a.bankOut := rfl
@[simp] theorem Asic.setTod_tod (i : Fin 2) (t : Tod) : (a.setTod i t).tod = upd a.tod i t := rfl
@[simp] theorem Asic.setTod_todPend (i : Fin 2) (t : Tod) : (a.setTod i t).todPend = a.todPend := rfl
@[simp] theorem Asic.setTod_tiePend (i : Fin 2) (t : Tod) : (a.setTod i t).tiePend = a.tiePend := rfl
@[simp] theorem Asic.setTod_psPend (i : Fin 2) (t : Tod) : (a.setTod i t).psPend = a.psPend := rfl
@[simp] theorem Asic.setTod_draws (i : Fin 2) (t : Tod) : (a.setTod i t).draws = a.draws := rfl

@[simp] theorem Asic.drawIf_regs (o : Bool) : (a.drawIf o).regs = a.regs := rfl
@[simp] theorem Asic.drawIf_mbReq (o : Bool) : (a.drawIf o).mbReq = a.mbReq := rfl
@[simp] theorem Asic.drawIf_bankRef (o : Bool) : (a.drawIf o).bankRef = a.bankRef := rfl
@[simp] theorem Asic.drawIf_bankDpll (o : Bool) : (a.drawIf o).bankDpll = a.bankDpll := rfl
@[simp] theorem Asic.drawIf_bankSynth (o : Bool) : (a.drawIf o).bankSynth = a.bankSynth := rfl
@[simp] theorem Asic.drawIf_bankOut (o : Bool) : (a.drawIf o).bankOut = a.bankOut := rfl
@[simp] theorem Asic.drawIf_tod (o : Bool) : (a.drawIf o).tod = a.tod := rfl
@[simp] theorem Asic.drawIf_todPend (o : Bool) : (a.drawIf o).todPend = a.todPend := rfl
@[simp] theorem Asic.drawIf_tiePend (o : Bool) : (a.drawIf o).tiePend = a.tiePend := rfl
@[simp] theorem Asic.drawIf_psPend (o : Bool) : (a.drawIf o).psPend = a.psPend := rfl
@[simp] theorem Asic.drawIf_draws (o : Bool) : (a.drawIf o).draws = a.draws + o.toNat := rfl

@[simp] theorem Asic.setWindow_regs (d : Domain) (bs : List Byte) : (a.setWindow d bs).regs = a.regs.setBytes d.winBase bs := rfl
@[simp] theorem Asic.setWindow_mbReq (d : Domain) (bs : List Byte) : (a.setWindow d bs).mbReq = a.mbReq := rfl
@[simp] theorem Asic.setWindow_bankRef (d : Domain) (bs : List Byte) : (a.setWindow d bs).bankRef = a.bankRef := rfl
@[simp] theorem Asic.setWindow_bankDpll (d : Domain) (bs : List Byte) : (a.setWindow d bs).bankDpll = a.bankDpll := rfl
@[simp] theorem Asic.setWindow_bankSynth (d : Domain) (bs : List Byte) : (a.setWindow d bs).bankSynth = a.bankSynth := rfl
@[simp] theorem Asic.setWindow_bankOut (d : Domain) (bs : List Byte) : (a.setWindow d bs).bankOut = a.bankOut := rfl
@[simp] theorem Asic.setWindow_tod (d : Domain) (bs : List Byte) : (a.setWindow d bs).tod = a.tod := rfl
@[simp] theorem Asic.setWindow_todPend (d : Domain) (bs : List Byte) : (a.setWindow d bs).todPend = a.todPend := rfl
@[simp] theorem Asic.setWindow_tiePend (d : Domain) (bs : List Byte) : (a.setWindow d bs).tiePend = a.tiePend := rfl
@[simp] theorem Asic.setWindow_psPend (d : Domain) (bs : List Byte) : (a.setWindow d bs).psPend = a.psPend := rfl
@[simp] theorem Asic.setWindow_draws (d : Domain) (bs : List Byte) : (a.setWindow d bs).draws = a.draws := rfl

@[simp] theorem Asic.clearFlag_regs (r : Reg) (m : Byte) : (a.clearFlag r m).regs = a.regs.set r.addr (clearBits (a.ctrlByte r) m) := rfl
@[simp] theorem Asic.clearFlag_mbReq (r : Reg) (m : Byte) : (a.clearFlag r m).mbReq = a.mbReq := rfl
@[simp] theorem Asic.clearFlag_bankRef (r : Reg) (m : Byte) : (a.clearFlag r m).bankRef = a.bankRef := rfl
@[simp] theorem Asic.clearFlag_bankDpll (r : Reg) (m : Byte) : (a.clearFlag r m).bankDpll = a.bankDpll := rfl
@[simp] theorem Asic.clearFlag_bankSynth (r : Reg) (m : Byte) : (a.clearFlag r m).bankSynth = a.bankSynth := rfl
@[simp] theorem Asic.clearFlag_bankOut (r : Reg) (m : Byte) : (a.clearFlag r m).bankOut = a.bankOut := rfl
@[simp] theorem Asic.clearFlag_tod (r : Reg) (m : Byte) : (a.clearFlag r m).tod = a.tod := rfl
@[simp] theorem Asic.clearFlag_todPend (r : Reg) (m : Byte) : (a.clearFlag r m).todPend = a.todPend := rfl
@[simp] theorem Asic.clearFlag_tiePend (r : Reg) (m : Byte) : (a.clearFlag r m).tiePend = a.tiePend := rfl
@[simp] theorem Asic.clearFlag_psPend (r : Reg) (m : Byte) : (a.clearFlag r m).psPend = a.psPend := rfl
@[simp] theorem Asic.clearFlag_draws (r : Reg) (m : Byte) : (a.clearFlag r m).draws = a.draws := rfl

@[simp] theorem Asic.latchTime_mbReq (i : Fin 2) (x n : Nat) : (a.latchTime i x n).mbReq = a.mbReq := rfl
@[simp] theorem Asic.latchTime_bankRef (i : Fin 2) (x n : Nat) : (a.latchTime i x n).bankRef = a.bankRef := rfl
@[simp] theorem Asic.latchTime_bankDpll (i : Fin 2) (x n : Nat) : (a.latchTime i x n).bankDpll = a.bankDpll := rfl
@[simp] theorem Asic.latchTime_bankSynth (i : Fin 2) (x n : Nat) : (a.latchTime i x n).bankSynth = a.bankSynth := rfl
@[simp] theorem Asic.latchTime_bankOut (i : Fin 2) (x n : Nat) : (a.latchTime i x n).bankOut = a.bankOut := rfl
@[simp] theorem Asic.latchTime_tod (i : Fin 2) (x n : Nat) : (a.latchTime i x n).tod = a.tod := rfl
@[simp] theorem Asic.latchTime_todPend (i : Fin 2) (x n : Nat) : (a.latchTime i x n).todPend = a.todPend := rfl
@[simp] theorem Asic.latchTime_tiePend (i : Fin 2) (x n : Nat) : (a.latchTime i x n).tiePend = a.tiePend := rfl
@[simp] theorem Asic.latchTime_psPend (i : Fin 2) (x n : Nat) : (a.latchTime i x n).psPend = a.psPend := rfl
@[simp] theorem Asic.latchTime_draws (i : Fin 2) (x n : Nat) : (a.latchTime i x n).draws = a.draws := rfl

end

/-! ### Updates of the machine -/

section
variable (s : State)

@[simp] theorem State.tick_par : (s.tick).par = s.par := rfl
@[simp] theorem State.tick_dev : (s.tick).dev = s.dev := rfl
@[simp] theorem State.tick_boot : (s.tick).boot = s.boot := rfl
@[simp] theorem State.tick_ctl : (s.tick).ctl = s.ctl := rfl
@[simp] theorem State.tick_op : (s.tick).op = s.op := rfl
@[simp] theorem State.tick_res : (s.tick).res = s.res := rfl
@[simp] theorem State.tick_resTo : (s.tick).resTo = s.resTo := rfl
@[simp] theorem State.tick_port : (s.tick).port = s.port := rfl
@[simp] theorem State.tick_asic : (s.tick).asic = runMoves s.par s.env.next.1.moves s.asic := rfl
@[simp] theorem State.tick_env : (s.tick).env = s.env.next.2 := rfl

@[simp] theorem State.setPerout_par (i : Fin 2) (m : BitVec 16) : (s.setPerout i m).par = s.par := rfl
@[simp] theorem State.setPerout_dev (i : Fin 2) (m : BitVec 16) : (s.setPerout i m).dev = s.dev := rfl
@[simp] theorem State.setPerout_boot (i : Fin 2) (m : BitVec 16) : (s.setPerout i m).boot = s.boot := rfl
@[simp] theorem State.setPerout_ctl (i : Fin 2) (m : BitVec 16) : (s.setPerout i m).ctl = { s.ctl with perout := upd s.ctl.perout i m } := rfl
@[simp] theorem State.setPerout_op (i : Fin 2) (m : BitVec 16) : (s.setPerout i m).op = s.op := rfl
@[simp] theorem State.setPerout_res (i : Fin 2) (m : BitVec 16) : (s.setPerout i m).res = s.res := rfl
@[simp] theorem State.setPerout_resTo (i : Fin 2) (m : BitVec 16) : (s.setPerout i m).resTo = s.resTo := rfl
@[simp] theorem State.setPerout_port (i : Fin 2) (m : BitVec 16) : (s.setPerout i m).port = s.port := rfl
@[simp] theorem State.setPerout_asic (i : Fin 2) (m : BitVec 16) : (s.setPerout i m).asic = s.asic := rfl
@[simp] theorem State.setPerout_env (i : Fin 2) (m : BitVec 16) : (s.setPerout i m).env = s.env := rfl

@[simp] theorem State.markPair_par (i : Fin 2) (p : Fin 10) (on : Bool) : (s.markPair i p on).par = s.par := rfl
@[simp] theorem State.markPair_dev (i : Fin 2) (p : Fin 10) (on : Bool) : (s.markPair i p on).dev = s.dev := rfl
@[simp] theorem State.markPair_boot (i : Fin 2) (p : Fin 10) (on : Bool) : (s.markPair i p on).boot = s.boot := rfl
@[simp] theorem State.markPair_ctl (i : Fin 2) (p : Fin 10) (on : Bool) :
    (s.markPair i p on).ctl = { s.ctl with
      perout := upd s.ctl.perout i
        (if on then s.ctl.perout.get i ||| pairBit p else s.ctl.perout.get i &&& ~~~pairBit p) } := rfl
@[simp] theorem State.markPair_op (i : Fin 2) (p : Fin 10) (on : Bool) : (s.markPair i p on).op = s.op := rfl
@[simp] theorem State.markPair_res (i : Fin 2) (p : Fin 10) (on : Bool) : (s.markPair i p on).res = s.res := rfl
@[simp] theorem State.markPair_resTo (i : Fin 2) (p : Fin 10) (on : Bool) : (s.markPair i p on).resTo = s.resTo := rfl
@[simp] theorem State.markPair_port (i : Fin 2) (p : Fin 10) (on : Bool) : (s.markPair i p on).port = s.port := rfl
@[simp] theorem State.markPair_asic (i : Fin 2) (p : Fin 10) (on : Bool) : (s.markPair i p on).asic = s.asic := rfl
@[simp] theorem State.markPair_env (i : Fin 2) (p : Fin 10) (on : Bool) : (s.markPair i p on).env = s.env := rfl

@[simp] theorem beginOp_par (op : Byte) : (beginOp op s).par = s.par := rfl
@[simp] theorem beginOp_dev (op : Byte) : (beginOp op s).dev = s.dev := rfl
@[simp] theorem beginOp_boot (op : Byte) : (beginOp op s).boot = s.boot := rfl
@[simp] theorem beginOp_ctl (op : Byte) : (beginOp op s).ctl =
    { s.ctl with phase := .busy op, seq := [], scratch := [], tod := .replicate 2 .idle } := rfl
@[simp] theorem beginOp_op (op : Byte) : (beginOp op s).op = s.op := rfl
@[simp] theorem beginOp_res (op : Byte) : (beginOp op s).res = s.res := rfl
@[simp] theorem beginOp_resTo (op : Byte) : (beginOp op s).resTo = s.resTo := rfl
@[simp] theorem beginOp_port (op : Byte) : (beginOp op s).port = s.port := rfl
@[simp] theorem beginOp_asic (op : Byte) : (beginOp op s).asic = s.asic := rfl
@[simp] theorem beginOp_env (op : Byte) : (beginOp op s).env = s.env := rfl

@[simp] theorem endOp_par (c : Byte) (r : Reply) : (endOp c r s).par = s.par := rfl
@[simp] theorem endOp_dev (c : Byte) (r : Reply) : (endOp c r s).dev = s.dev := rfl
@[simp] theorem endOp_boot (c : Byte) (r : Reply) : (endOp c r s).boot = s.boot := rfl
@[simp] theorem endOp_ctl (c : Byte) (r : Reply) : (endOp c r s).ctl =
    { s.ctl with lock := .free, phase := .idle, seq := [], scratch := [], tod := .replicate 2 .idle } := rfl
@[simp] theorem endOp_op (c : Byte) (r : Reply) : (endOp c r s).op = s.op := rfl
@[simp] theorem endOp_res (c : Byte) (r : Reply) : (endOp c r s).res = ⟨c, r.x, r.y⟩ := rfl
@[simp] theorem endOp_resTo (c : Byte) (r : Reply) : (endOp c r s).resTo = s.ctl.lock.holder := rfl
@[simp] theorem endOp_port (c : Byte) (r : Reply) : (endOp c r s).port = s.port := rfl
@[simp] theorem endOp_asic (c : Byte) (r : Reply) : (endOp c r s).asic = s.asic := rfl
@[simp] theorem endOp_env (c : Byte) (r : Reply) : (endOp c r s).env = s.env := rfl

@[simp] theorem State.note_par (a : Act) (v : Nat) (q : Prog Reply) : (s.note a v q).par = s.par := rfl
@[simp] theorem State.note_dev (a : Act) (v : Nat) (q : Prog Reply) : (s.note a v q).dev = s.dev := rfl
@[simp] theorem State.note_boot (a : Act) (v : Nat) (q : Prog Reply) : (s.note a v q).boot = s.boot := rfl
@[simp] theorem State.note_ctl (a : Act) (v : Nat) (q : Prog Reply) :
    (s.note a v q).ctl = { s.ctl with
      seq := q.position s.ctl.seq
      scratch := s.ctl.scratch ++ [v]
      tod := a.todNext v s.ctl.tod } := rfl
@[simp] theorem State.note_op (a : Act) (v : Nat) (q : Prog Reply) : (s.note a v q).op = s.op := rfl
@[simp] theorem State.note_res (a : Act) (v : Nat) (q : Prog Reply) : (s.note a v q).res = s.res := rfl
@[simp] theorem State.note_resTo (a : Act) (v : Nat) (q : Prog Reply) : (s.note a v q).resTo = s.resTo := rfl
@[simp] theorem State.note_port (a : Act) (v : Nat) (q : Prog Reply) : (s.note a v q).port = s.port := rfl
@[simp] theorem State.note_asic (a : Act) (v : Nat) (q : Prog Reply) : (s.note a v q).asic = s.asic := rfl
@[simp] theorem State.note_env (a : Act) (v : Nat) (q : Prog Reply) : (s.note a v q).env = s.env := rfl

@[simp] theorem startOp_par : (startOp s).par = s.par := rfl
@[simp] theorem startOp_dev : (startOp s).dev = s.dev := rfl
@[simp] theorem startOp_boot : (startOp s).boot = s.boot := rfl
@[simp] theorem startOp_ctl :
    (startOp s).ctl = { s.ctl with
      phase := .busy s.op.opcode
      seq := (s.op.program.after s.par []).position []
      scratch := []
      tod := .replicate 2 .idle } := rfl
@[simp] theorem startOp_op : (startOp s).op = s.op := rfl
@[simp] theorem startOp_res : (startOp s).res = s.res := rfl
@[simp] theorem startOp_resTo : (startOp s).resTo = s.resTo := rfl
@[simp] theorem startOp_port : (startOp s).port = s.port := rfl
@[simp] theorem startOp_asic : (startOp s).asic = s.asic := rfl
@[simp] theorem startOp_env : (startOp s).env = s.env := rfl

@[simp] theorem accept_par (c : Nat) (bs : List Byte) : (accept c bs s).par = s.par := rfl
@[simp] theorem accept_dev (c : Nat) (bs : List Byte) : (accept c bs s).dev = s.dev := rfl
@[simp] theorem accept_boot (c : Nat) (bs : List Byte) : (accept c bs s).boot = s.boot := rfl
@[simp] theorem accept_ctl (c : Nat) (bs : List Byte) : (accept c bs s).ctl = { s.ctl with lock := .held c } := rfl
@[simp] theorem accept_op (c : Nat) (bs : List Byte) : (accept c bs s).op = ⟨reqOpcode bs, reqA bs, reqX bs, reqY bs⟩ := rfl
@[simp] theorem accept_res (c : Nat) (bs : List Byte) : (accept c bs s).res = s.res := rfl
@[simp] theorem accept_resTo (c : Nat) (bs : List Byte) : (accept c bs s).resTo = s.resTo := rfl
@[simp] theorem accept_port (c : Nat) (bs : List Byte) : (accept c bs s).port = s.port := rfl
@[simp] theorem accept_asic (c : Nat) (bs : List Byte) : (accept c bs s).asic = s.asic := rfl
@[simp] theorem accept_env (c : Nat) (bs : List Byte) : (accept c bs s).env = s.env := rfl

@[simp] theorem idle_eq_tick : idle s = s.tick := rfl

end

/-! ### Schedules -/

@[simp] theorem Env.prompt_next : Env.prompt.next = (Slot.prompt, Env.prompt) := rfl

@[simp] theorem Env.silent_next : Env.silent.next = (Slot.silent, Env.silent) := rfl

/-! ### Tables -/

theorem get_eq_getElem {α : Type} {n : Nat} (v : Vector α n) (i : Fin n) : v.get i = v[i.1] := rfl

@[simp] theorem upd_get_same {α : Type} {n : Nat} (v : Vector α n) (i : Fin n) (x : α) : (upd v i x).get i = x := by
  rw [get_eq_getElem, upd, Vector.getElem_set_self]

theorem upd_get_ne {α : Type} {n : Nat} (v : Vector α n) {i j : Fin n} (x : α) (h : i ≠ j) :
    (upd v i x).get j = v.get j := by
  rw [get_eq_getElem, upd, Vector.getElem_set_ne _ _ (fun e => h (Fin.ext e)), get_eq_getElem]

theorem upd_get {α : Type} {n : Nat} (v : Vector α n) (i j : Fin n) (x : α) :
    (upd v i x).get j = if i = j then x else v.get j := by
  split
  · next h => subst h; simp
  · next h => exact upd_get_ne v x h

/-- Two tables with the same entries are equal. -/
theorem table_ext {α : Type} {n : Nat} {v w : Vector α n} (h : ∀ i : Fin n, v.get i = w.get i) : v = w := by
  apply Vector.ext
  intro i hi
  have := h ⟨i, hi⟩
  simpa [Vector.get] using this

@[simp] theorem upd_upd {α : Type} {n : Nat} (v : Vector α n) (i : Fin n) (x y : α) :
    upd (upd v i x) i y = upd v i y := by
  apply table_ext
  intro j
  simp only [upd_get]
  split <;> rfl

/-- Writing an entry's own value changes nothing. -/
theorem upd_self {α : Type} {n : Nat} (v : Vector α n) (i : Fin n) : upd v i (v.get i) = v := by
  apply table_ext
  intro j
  rw [upd_get]
  split
  · next h => rw [h]
  · rfl

theorem domain_idx_inj {d e : Domain} (h : d.idx = e.idx) : d = e := by
  cases d <;> cases e <;> first | rfl | exact absurd h (by decide)

@[simp] theorem req_setReq_same (a : Asic) (d : Domain) (q : MbReq) : (a.setReq d q).req d = q := by
  simp [Asic.req]

theorem req_setReq_ne (a : Asic) {d e : Domain} (q : MbReq) (h : d ≠ e) : (a.setReq d q).req e = a.req e := by
  unfold Asic.req
  rw [Asic.setReq_mbReq]
  exact upd_get_ne _ _ (fun e => h (domain_idx_inj e))

end Sys2Proof.Machine
end

