-- ==== Sys2Proof/Laws/Prog.lean ====
section
/-! SUPPORT. Programs: what running one does, one lemma for each way of building one. -/

namespace Sys2Proof.Machine

/-! ### One after another -/

theorem run_bind {α β : Type} (m : Prog α) (f : α → Prog β) (s : State) :
    (letI := Prog.monad; m >>= f).run s = match m.run s with
      | .ok a s' => (f a).run s'
      | .error e s' => .error e s' := by
  show (Prog.bind m f).run s = _
  induction m generalizing s with
  | ret a => rfl
  | raise e => rfl
  | act a k ih =>
    simp only [Prog.bind, Prog.run]
    cases a.perform s with
    | ok v s' => exact ih v s'
    | error e s' => rfl
  | params k ih => exact ih _ _

theorem run_bind_ok {α β : Type} {m : Prog α} {f : α → Prog β} {s s' : State} {a : α} (h : m.run s = .ok a s') :
    (letI := Prog.monad; m >>= f).run s = (f a).run s' := by rw [run_bind, h]

theorem run_bind_error {α β : Type} {m : Prog α} {f : α → Prog β} {s s' : State} {e : Stop}
    (h : m.run s = .error e s') : (letI := Prog.monad; m >>= f).run s = .error e s' := by rw [run_bind, h]

@[simp] theorem run_ret {α : Type} (a : α) (s : State) : (Prog.ret a).run s = .ok a s := rfl

@[simp] theorem run_pure {α : Type} (a : α) (s : State) :
    (letI := Prog.monad; (pure a : Prog α)).run s = .ok a s := rfl

/-! ### Lines -/

theorem perform_within (l : Line) (a : Act) (s : State) : (a.within l).perform s = a.perform s := by
  cases a <;> rfl

@[simp] theorem run_within {α : Type} (l : Line) (q : Prog α) (s : State) : (q.within l).run s = q.run s := by
  induction q generalizing s with
  | ret a => rfl
  | raise e => rfl
  | act a k ih =>
    simp only [Prog.within, Prog.run, perform_within]
    cases a.perform s with
    | ok v s' => exact ih v s'
    | error e s' => rfl
  | params k ih => exact ih _ _

/-- The lines a program passes through do not change what it does. -/
@[simp] theorem run_on {α : Type} (q : Prog α) (proc : Proc) (n : Nat) (s : State) : (q.on proc n).run s = q.run s :=
  run_within _ q s

theorem run_on_ok {α β : Type} {m : Prog α} {f : α → Prog β} {proc : Proc} {n : Nat} {s s' : State} {a : α}
    (h : m.run s = .ok a s') : (letI := Prog.monad; m.on proc n >>= f).run s = (f a).run s' :=
  run_bind_ok ((run_on m proc n s).trans h)

theorem run_on_error {α β : Type} {m : Prog α} {f : α → Prog β} {proc : Proc} {n : Nat} {s s' : State} {e : Stop}
    (h : m.run s = .error e s') : (letI := Prog.monad; m.on proc n >>= f).run s = .error e s' :=
  run_bind_error ((run_on m proc n s).trans h)

@[simp] theorem run_mark {β : Type} (proc : Proc) (n : Nat) (f : Unit → Prog β) (s : State) :
    (letI := Prog.monad; mark proc n >>= f).run s = (f ()).run s := rfl

/-! ### Errors and checks -/

@[simp] theorem raise_run {α : Type} (e : ErrKind) (s : State) : (raise e : Prog α).run s = .error (.raise e) s := rfl

@[simp] theorem raiseIf_true (e : ErrKind) (s : State) : (raiseIf true e).run s = .error (.raise e) s := rfl

@[simp] theorem raiseIf_false (e : ErrKind) (s : State) : (raiseIf false e).run s = .ok () s := rfl

@[simp] theorem orRaise_some {α : Type} (v : α) (e : ErrKind) (s : State) : (orRaise (some v) e).run s = .ok v s := rfl

@[simp] theorem orRaise_none {α : Type} (e : ErrKind) (s : State) :
    (orRaise (none : Option α) e).run s = .error (.raise e) s := rfl

theorem checkIndex_ok {n v : Nat} (h : v < n) (s : State) : (checkIndex n v).run s = .ok ⟨v, h⟩ s := by
  unfold checkIndex
  rw [dif_pos h]
  rfl

theorem checkIndex_bad {n v : Nat} (h : ¬v < n) (s : State) :
    (checkIndex n v).run s = .error (.raise .invalidArgument) s := by
  unfold checkIndex
  rw [dif_neg h]
  rfl

theorem checkS32_ok {x : BitVec 64} (h : fitsS32 x.toInt = true) (s : State) : (checkS32 x).run s = .ok x.toInt s := by
  unfold checkS32
  rw [if_pos h]
  rfl

theorem checkS32_bad {x : BitVec 64} (h : fitsS32 x.toInt = false) (s : State) :
    (checkS32 x).run s = .error (.raise .invalidArgument) s := by
  unfold checkS32
  rw [h]
  rfl

/-! ### Steps -/

@[simp] theorem load_run (r : Reg) (s : State) : (load r).run s = readReg r s := by
  simp only [load, Prog.run, Act.perform]
  cases readReg r s <;> rfl

@[simp] theorem store_run (r : Reg) (v : Nat) (s : State) : (store r v).run s = writeReg r v s := by
  simp only [store, Prog.run, Act.perform]
  cases writeReg r v s <;> rfl

@[simp] theorem perout_run (i : Fin 2) (s : State) : (perout i).run s = .ok (s.ctl.perout.get i) s := by
  unfold perout Prog.run Act.perform
  simp [Prog.run]

@[simp] theorem markPair_run (i : Fin 2) (p : Fin 10) (on : Bool) (s : State) :
    (markPair i p on).run s = .ok () (s.markPair i p on) := rfl

@[simp] theorem todDone_run (i : Fin 2) (s : State) : (todDone i).run s = .ok () s := rfl

@[simp] theorem params_run (s : State) : params.run s = .ok s.par s := rfl

end Sys2Proof.Machine
end

