-- ==== Sys2Proof/Laws/Memory.lean ====
section
/-! SUPPORT. Register storage: a byte reads back as written, a write leaves every other byte alone, every operation keeps
the canonical form; and byte order: the value of the bytes of a value. -/

namespace Sys2Proof.Machine

/-! ### One byte -/

theorem get_filter_ne (m : Memory) {addr b : Nat} (h : addr ≠ b) :
    Memory.get (m.filter fun c => c.1 ≠ addr) b = Memory.get m b := by
  induction m with
  | nil => rfl
  | cons c cs ih =>
    by_cases hc : c.1 = addr
    · have hb : c.1 ≠ b := fun e => h (hc.symm.trans e)
      simp only [ne_eq, decide_not] at ih ⊢
      simp [hc, Memory.get, h, ih]
    · simp only [ne_eq, decide_not] at ih ⊢
      simp [hc, Memory.get, ih]

theorem get_filter_self (m : Memory) (addr : Nat) :
    Memory.get (m.filter fun c => c.1 ≠ addr) addr = Memory.unlisted addr := by
  induction m with
  | nil => rfl
  | cons c cs ih =>
    simp only [ne_eq, decide_not] at ih ⊢
    by_cases hc : c.1 = addr
    · simp [hc, ih]
    · simp [hc, Memory.get, ih]

theorem get_insert_ne (m : Memory) {c : Host.Cell} {b : Nat} (h : c.1 ≠ b) :
    Memory.get (Memory.insert c m) b = Memory.get m b := by
  induction m with
  | nil => simp [Memory.insert, Memory.get, h]
  | cons d ds ih =>
    unfold Memory.insert
    split
    · simp [Memory.get, h]
    · simp [Memory.get, ih]

theorem get_insert_self (m : Memory) (addr : Nat) (v : Byte) (h : ∀ c ∈ m, c.1 ≠ addr) :
    Memory.get (Memory.insert (addr, v) m) addr = v := by
  induction m with
  | nil => simp [Memory.insert, Memory.get]
  | cons d ds ih =>
    unfold Memory.insert
    split
    · simp [Memory.get]
    · have hd : d.1 ≠ addr := h d (by simp)
      simp [Memory.get, hd, ih fun c hc => h c (by simp [hc])]

@[simp] theorem get_set_same (m : Memory) (addr : Nat) (b : Byte) : (m.set addr b).get addr = b := by
  unfold Memory.set
  split
  · next h => rw [get_filter_self, h]
  · exact get_insert_self _ _ _ fun c hc => by simpa using (List.mem_filter.mp hc).2

theorem get_set_ne (m : Memory) {addr b : Nat} (v : Byte) (h : addr ≠ b) : (m.set addr v).get b = m.get b := by
  unfold Memory.set
  split
  · exact get_filter_ne m h
  · rw [get_insert_ne _ (by simpa using h), get_filter_ne m h]

theorem get_set (m : Memory) (addr b : Nat) (v : Byte) :
    (m.set addr v).get b = if addr = b then v else m.get b := by
  split
  · next h => rw [h, get_set_same]
  · next h => exact get_set_ne m v h

/-! ### Canonical form -/

theorem wf_cons (c : Host.Cell) (cs : Memory) :
    Memory.wf (c :: cs) = true ↔ c.2 ≠ Memory.unlisted c.1 ∧ (∀ d ∈ cs, c.1 < d.1) ∧ Memory.wf cs = true := by
  simp [Memory.wf, and_assoc]

theorem wf_filter (m : Memory) (f : Host.Cell → Bool) (h : m.wf = true) : Memory.wf (m.filter f) = true := by
  induction m with
  | nil => rfl
  | cons c cs ih =>
    obtain ⟨h1, h2, h3⟩ := (wf_cons c cs).mp h
    rw [List.filter_cons]
    split
    · exact (wf_cons _ _).mpr ⟨h1, fun d hd => h2 d (List.mem_filter.mp hd).1, ih h3⟩
    · exact ih h3

theorem mem_insert (c d : Host.Cell) (m : Memory) : d ∈ Memory.insert c m ↔ d = c ∨ d ∈ m := by
  induction m with
  | nil => simp [Memory.insert]
  | cons e es ih =>
    unfold Memory.insert
    split
    · simp
    · simp only [List.mem_cons, ih]
      tauto

theorem wf_insert (m : Memory) (c : Host.Cell) (hc : c.2 ≠ Memory.unlisted c.1) (hm : m.wf = true)
    (hn : ∀ d ∈ m, d.1 ≠ c.1) : Memory.wf (Memory.insert c m) = true := by
  induction m with
  | nil => simp [Memory.insert, Memory.wf, hc]
  | cons d ds ih =>
    obtain ⟨h1, h2, h3⟩ := (wf_cons d ds).mp hm
    unfold Memory.insert
    split
    · next hlt =>
      refine (wf_cons _ _).mpr ⟨hc, fun e he => ?_, hm⟩
      rcases List.mem_cons.mp he with rfl | he
      · exact hlt
      · exact lt_trans hlt (h2 e he)
    · next hlt =>
      have hd : d.1 < c.1 := lt_of_le_of_ne (not_lt.mp hlt) (hn d (by simp))
      refine (wf_cons _ _).mpr ⟨h1, fun e he => ?_, ih h3 fun e he => hn e (by simp [he])⟩
      rcases (mem_insert c e ds).mp he with rfl | he
      · exact hd
      · exact h2 e he

/-- A byte write keeps the canonical form. -/
theorem wf_set (m : Memory) (addr : Nat) (b : Byte) (h : m.wf = true) : (m.set addr b).wf = true := by
  unfold Memory.set
  split
  · exact wf_filter _ _ h
  · next hb =>
    exact wf_insert _ _ hb (wf_filter _ _ h) fun d hd => by simpa using (List.mem_filter.mp hd).2

/-- A write of several bytes keeps the canonical form. -/
theorem wf_setBytes (m : Memory) (addr : Nat) (bs : List Byte) (h : m.wf = true) : (m.setBytes addr bs).wf = true := by
  induction bs generalizing m addr with
  | nil => exact h
  | cons b bs ih => exact ih _ _ (wf_set _ _ _ h)

/-- A register image write keeps the canonical form. -/
theorem wf_setValue (m : Memory) (r : Reg) (v : Nat) (h : m.wf = true) : (m.setValue r v).wf = true :=
  wf_setBytes _ _ _ h

/-! ### Several bytes -/

@[simp] theorem bytes_length (m : Memory) (addr n : Nat) : (m.bytes addr n).length = n := by
  induction n generalizing addr with
  | zero => rfl
  | succ n ih => simp [Memory.bytes, ih]

/-- A write of several bytes leaves every address outside them alone. -/
theorem get_setBytes_out (m : Memory) (addr b : Nat) (bs : List Byte) (h : b < addr ∨ addr + bs.length ≤ b) :
    (m.setBytes addr bs).get b = m.get b := by
  induction bs generalizing m addr with
  | nil => rfl
  | cons c cs ih =>
    have hl : (c :: cs).length = cs.length + 1 := rfl
    rw [Memory.setBytes, ih _ _ (by omega), get_set_ne _ _ (by omega)]

/-- The k-th byte written reads back. -/
theorem get_setBytes_in (m : Memory) (addr k : Nat) (bs : List Byte) (h : k < bs.length) :
    (m.setBytes addr bs).get (addr + k) = bs[k] := by
  induction bs generalizing m addr k with
  | nil => simp at h
  | cons c cs ih =>
    cases k with
    | zero => simp [Memory.setBytes, get_setBytes_out]
    | succ k =>
      have := ih (m.set addr c) (addr + 1) k (by simpa using h)
      rw [Memory.setBytes, show addr + (k + 1) = addr + 1 + k by omega, this]
      rfl

/-- The bytes at an address depend on those bytes alone. -/
theorem bytes_congr (m m' : Memory) (addr n : Nat) (h : ∀ k < n, m.get (addr + k) = m'.get (addr + k)) :
    m.bytes addr n = m'.bytes addr n := by
  induction n generalizing addr with
  | zero => rfl
  | succ n ih =>
    have h0 := h 0 (by omega)
    simp only [Nat.add_zero] at h0
    rw [Memory.bytes, Memory.bytes, h0, ih (addr + 1) fun k hk => by
      have := h (k + 1) (by omega)
      rwa [show addr + 1 + k = addr + (k + 1) by omega]]

/-- Bytes written read back. -/
@[simp] theorem bytes_setBytes (m : Memory) (addr : Nat) (bs : List Byte) :
    (m.setBytes addr bs).bytes addr bs.length = bs := by
  induction bs generalizing m addr with
  | nil => rfl
  | cons c cs ih =>
    show Memory.get _ addr :: Memory.bytes _ (addr + 1) cs.length = _
    rw [Memory.setBytes, ih, get_setBytes_out _ _ _ _ (by omega), get_set_same]

theorem bytes_setBytes_of_length (m : Memory) (addr n : Nat) (bs : List Byte) (h : bs.length = n) :
    (m.setBytes addr bs).bytes addr n = bs := by rw [← h, bytes_setBytes]

/-- Bytes elsewhere are left alone. -/
theorem bytes_setBytes_out (m : Memory) (addr b n : Nat) (bs : List Byte)
    (h : b + n ≤ addr ∨ addr + bs.length ≤ b) : (m.setBytes addr bs).bytes b n = m.bytes b n :=
  bytes_congr _ _ _ _ fun k hk => get_setBytes_out _ _ _ _ (by omega)

theorem bytes_set_out (m : Memory) (addr b n : Nat) (v : Byte) (h : addr < b ∨ b + n ≤ addr) :
    (m.set addr v).bytes b n = m.bytes b n :=
  bytes_congr _ _ _ _ fun k hk => get_set_ne _ _ (by omega)

/-! ### Byte order -/

@[simp] theorem beBytes_length (n v : Nat) : (beBytes n v).length = n := by
  induction n with
  | zero => rfl
  | succ n ih => simp [beBytes, ih]

@[simp] theorem leBytes_length (n v : Nat) : (leBytes n v).length = n := by
  induction n generalizing v with
  | zero => rfl
  | succ n ih => simp [leBytes, ih]

/-- A big-endian image ends in its low byte. -/
theorem beBytes_succ (n v : Nat) : beBytes (n + 1) v = beBytes n (v / 256) ++ [BitVec.ofNat 8 v] := by
  induction n with
  | zero => simp [beBytes]
  | succ n ih =>
    rw [beBytes, ih, beBytes, Nat.div_div_eq_div_mul, ← Nat.pow_succ']
    rfl

/-- The transport's reversal turns the little-endian buffer into the big-endian image (R62, R64). -/
@[simp] theorem leBytes_reverse (n v : Nat) : (leBytes n v).reverse = beBytes n v := by
  induction n generalizing v with
  | zero => rfl
  | succ n ih => rw [leBytes, List.reverse_cons, ih, beBytes_succ]

/-- The value of the image of a value is that value, within the image's width. -/
theorem beVal_beBytes (n v : Nat) : beVal (beBytes n v) = v % 256 ^ n := by
  induction n with
  | zero => simp [beVal, beBytes, Nat.mod_one]
  | succ n ih =>
    have h : v % (256 ^ n * 256) = v % 256 ^ n + 256 ^ n * (v / 256 ^ n % 256) := Nat.mod_mul
    rw [beBytes, beVal, beBytes_length, ih, BitVec.toNat_ofNat]
    show v / 256 ^ n % 256 * 256 ^ n + v % 256 ^ n = v % (256 ^ n * 256)
    rw [h]
    ring

theorem beVal_beBytes_lt (n v : Nat) (h : v < 256 ^ n) : beVal (beBytes n v) = v := by
  rw [beVal_beBytes, Nat.mod_eq_of_lt h]

/-- A value read from `n` bytes is below 256^n. -/
theorem beVal_lt (bs : List Byte) : beVal bs < 256 ^ bs.length := by
  induction bs with
  | nil => simp [beVal]
  | cons b bs ih =>
    have hb : b.toNat < 256 := b.isLt
    have hp : 0 < 256 ^ bs.length := by positivity
    rw [beVal, List.length_cons, Nat.pow_succ]
    nlinarith

/-- A register image reads back (R67). -/
theorem value_setValue (m : Memory) (r : Reg) (v : Nat) (h : v < 256 ^ r.width) : (m.setValue r v).value r = v := by
  unfold Memory.value Memory.setValue
  rw [bytes_setBytes_of_length _ _ _ _ (beBytes_length _ _), beVal_beBytes_lt _ _ h]

theorem value_lt (m : Memory) (r : Reg) : m.value r < 256 ^ r.width := by
  have := beVal_lt (m.bytes r.addr r.width)
  rwa [bytes_length] at this

/-! ### The canonical form of any storage -/

theorem canon_cons (c : Host.Cell) (cs : Memory) : Memory.canon (c :: cs) = (Memory.canon cs).set c.1 c.2 := rfl

/-- The canonical form reads as the storage it is made of. -/
@[simp] theorem get_canon (m : Memory) (addr : Nat) : m.canon.get addr = m.get addr := by
  induction m with
  | nil => rfl
  | cons c cs ih =>
    rw [canon_cons, get_set, ih]
    rfl

theorem wf_canon (m : Memory) : m.canon.wf = true := by
  induction m with
  | nil => rfl
  | cons c cs ih => exact wf_set _ _ _ ih

/-- Storage in the canonical form is its own canonical form. -/
theorem canon_of_wf (m : Memory) (h : m.wf = true) : m.canon = m := by
  induction m with
  | nil => rfl
  | cons c cs ih =>
    obtain ⟨hc, hlt, hw⟩ := (wf_cons c cs).1 h
    rw [canon_cons, ih hw]
    have hf : cs.filter (fun d => d.1 ≠ c.1) = cs := by
      rw [List.filter_eq_self]
      intro d hd
      have := hlt d hd
      simp only [decide_eq_true_eq]
      omega
    unfold Memory.set
    rw [if_neg hc, hf]
    cases cs with
    | nil => rfl
    | cons d ds =>
      rw [Memory.insert, if_pos (hlt d (by simp))]

end Sys2Proof.Machine
end

