-- ==== Sys2Proof/Laws/RegMap.lean ====
section
/-! SUPPORT. The register map: every register occupies its own bytes, and no two registers share one. -/

namespace Sys2Proof.Machine

theorem mem_all (r : Reg) : r ∈ Reg.all := by
  have h : ∀ i : Fin 2, i = 0 ∨ i = 1 := by decide
  cases r with
  | todCtrl i => rcases h i with rfl | rfl <;> decide
  | todSec i => rcases h i with rfl | rfl <;> decide
  | todNs i => rcases h i with rfl | rfl <;> decide
  | dfOffset i => rcases h i with rfl | rfl <;> decide
  | tieData i => rcases h i with rfl | rfl <;> decide
  | mbMask d => cases d <;> decide
  | mbSem d => cases d <;> decide
  | _ => decide

theorem regAt_table : ∀ r ∈ Reg.all, ∀ k < r.width, regAt (r.addr + k) = some r := by decide +kernel

/-- The register at each of a register's own bytes is that register. -/
theorem regAt_addr (r : Reg) {k : Nat} (h : k < r.width) : regAt (r.addr + k) = some r :=
  regAt_table r (mem_all r) k h

theorem width_pos (r : Reg) : 0 < r.width := by
  have h : ∀ r ∈ Reg.all, 0 < r.width := by decide
  exact h r (mem_all r)

theorem regAt_first (r : Reg) : regAt r.addr = some r := regAt_addr r (k := 0) (width_pos r)

theorem regAt_of_covers {r : Reg} {addr : Nat} (h : r.covers addr = true) : regAt addr = some r := by
  simp only [Reg.covers, Bool.and_eq_true, decide_eq_true_eq] at h
  have := regAt_addr r (k := addr - r.addr) (by omega)
  rwa [show r.addr + (addr - r.addr) = addr by omega] at this

/-- No byte belongs to two registers. -/
theorem covers_unique {r r' : Reg} {addr : Nat} (h : r.covers addr = true) (h' : r'.covers addr = true) : r = r' := by
  have := (regAt_of_covers h).symm.trans (regAt_of_covers h')
  exact Option.some.inj this

/-- The bytes of two registers are apart. -/
theorem regs_apart {r r' : Reg} (h : r ≠ r') : r.addr + r.width ≤ r'.addr ∨ r'.addr + r'.width ≤ r.addr := by
  by_contra hc
  have h1 := width_pos r
  have h2 := width_pos r'
  apply h
  apply covers_unique (addr := max r.addr r'.addr) <;>
    simp only [Reg.covers, Bool.and_eq_true, decide_eq_true_eq] <;> omega

/-- A register image write leaves every other register's value alone. -/
theorem value_setValue_ne (m : Memory) {r r' : Reg} (v : Nat) (h : r ≠ r') : (m.setValue r v).value r' = m.value r' := by
  have hb := regs_apart h
  unfold Memory.value Memory.setValue
  rw [bytes_setBytes_out _ _ _ _ _ (by rw [beBytes_length]; omega)]

theorem get_setValue_out (m : Memory) (r : Reg) (v addr : Nat) (h : r.covers addr = false) :
    (m.setValue r v).get addr = m.get addr := by
  simp only [Reg.covers, Bool.and_eq_false_iff, decide_eq_false_iff_not] at h
  unfold Memory.setValue
  rw [get_setBytes_out _ _ _ _ (by rw [beBytes_length]; omega)]

/-- Which registers raise a responder request when written. -/
def isControl : Reg → Bool
  | .mbSem _ => true
  | .todCtrl _ => true
  | .tieCtrl => true
  | .psCtrl => true
  | _ => false

theorem control_width {r : Reg} (h : isControl r = true) : r.width = 1 := by
  cases r <;> first | rfl | exact absurd h Bool.false_ne_true

/-- A control register's value is its byte. -/
theorem value_control (m : Memory) {r : Reg} (h : isControl r = true) : m.value r = (m.get r.addr).toNat := by
  unfold Memory.value
  rw [control_width h]
  simp [Memory.bytes, beVal]

theorem accessAt_addr (p : Params) (r : Reg) {k : Nat} (h : k < r.width) : accessAt p (r.addr + k) = some r.access := by
  unfold accessAt
  rw [regAt_addr r h]

/-- A register written leaves the first byte of every other register. -/
theorem get_setValue_ctrl (m : Memory) {r r' : Reg} (v : Nat) (h : r ≠ r') : (m.setValue r v).get r'.addr = m.get r'.addr := by
  refine get_setValue_out _ _ _ _ ?_
  by_contra hc
  exact h (covers_unique (addr := r'.addr) (by simpa using hc) (by simp [Reg.covers, width_pos]))

end Sys2Proof.Machine
end

