-- ==== Sys2Proof/Laws/Transport.lean ====
section
/-! SUPPORT. The register transport: what one read or one write of a register field does. -/

namespace Sys2Proof.Machine

/-! ### Sequences -/

theorem seq_bind {α β : Type} (m : Seq α) (f : α → Seq β) (s : State) :
    (m >>= f) s = match m s with
      | .ok a s' => f a s'
      | .error e s' => .error e s' := by
  show EStateM.bind m f s = _
  unfold EStateM.bind
  cases m s <;> rfl

theorem seq_bind_ok {α β : Type} {m : Seq α} {f : α → Seq β} {s s' : State} {a : α} (h : m s = .ok a s') :
    (m >>= f) s = f a s' := by rw [seq_bind, h]

theorem seq_bind_error {α β : Type} {m : Seq α} {f : α → Seq β} {s s' : State} {e : Stop} (h : m s = .error e s') :
    (m >>= f) s = .error e s' := by rw [seq_bind, h]

@[simp] theorem seq_pure {α : Type} (a : α) (s : State) : (pure a : Seq α) s = .ok a s := rfl

@[simp] theorem seq_get (s : State) : (get : Seq State) s = .ok s s := rfl

/-! ### Reads -/

theorem readBytes_rw (p : Params) (a : Asic) (addr n : Nat) (h : ∀ k < n, accessAt p (addr + k) = some .rw) :
    a.readBytes p addr n = a.regs.bytes addr n := by
  induction n generalizing addr with
  | zero => rfl
  | succ n ih =>
    have h0 := h 0 (by omega)
    rw [Asic.readBytes, Memory.bytes, ih (addr + 1) fun k hk => by
      have := h (k + 1) (by omega)
      rwa [show addr + 1 + k = addr + (k + 1) by omega]]
    simp only [Nat.add_zero] at h0
    simp [Asic.readByte, h0]

theorem readsOpen_rw (p : Params) (addr n : Nat) (h : ∀ k < n, accessAt p (addr + k) = some .rw) :
    readsOpen p addr n = false := by
  induction n generalizing addr with
  | zero => rfl
  | succ n ih =>
    have h0 := h 0 (by omega)
    simp only [Nat.add_zero] at h0
    rw [readsOpen, ih (addr + 1) fun k hk => by
      have := h (k + 1) (by omega)
      rwa [show addr + 1 + k = addr + (k + 1) by omega]]
    simp [h0]

/-- A successful read of a readable and writable register gives its value and changes nothing (R65, R72). -/
theorem readReg_ok {r : Reg} {s : State} (hr : r.access = .rw) (hf : s.failure = none) :
    readReg r s = .ok (s.tick.asic.regVal r) s.tick := by
  have h : ∀ k < r.width, accessAt s.par (r.addr + k) = some .rw := fun k hk => by rw [accessAt_addr _ _ hk, hr]
  unfold readReg memRead
  rw [seq_bind, xferRead]
  simp only [hf, readsOpen_rw _ _ _ h, readBytes_rw _ _ _ _ h]
  rfl

/-- A failed read ends the operation with `Transport` (R66). -/
theorem readReg_failed {r : Reg} {s : State} {f : Failure} (hf : s.failure = some f) :
    readReg r s = .error (.raise .transport) s.tick := by
  unfold readReg memRead
  rw [seq_bind, xferRead]
  simp only [hf]

/-- A read of a readable and writable register either gives its value or fails. -/
theorem readReg_cases {r : Reg} (hr : r.access = .rw) (s : State) :
    readReg r s = .ok (s.tick.asic.regVal r) s.tick ∨ readReg r s = .error (.raise .transport) s.tick := by
  cases hf : s.failure with
  | none => exact .inl (readReg_ok hr hf)
  | some f => exact .inr (readReg_failed hf)

/-! ### Writes -/

theorem storeCells_data (p : Params) (a : Asic) (addr : Nat) (bs : List Byte)
    (h : ∀ k < bs.length, ∀ (a : Asic) (b : Byte), storeByte p a (addr + k) b = .ok (a.poke (addr + k) b)) :
    storeCells p a (cellsFrom addr bs) = .ok { a with regs := a.regs.setBytes addr bs } := by
  induction bs generalizing a addr with
  | nil => rfl
  | cons b bs ih =>
    have h0 := h 0 (by simp) a b
    rw [cellsFrom, storeCells]
    simp only [Nat.add_zero] at h0
    simp only [h0]
    rw [ih _ (addr + 1) fun k hk a b => by
      have := h (k + 1) (by simpa using hk) a b
      rwa [show addr + 1 + k = addr + (k + 1) by omega]]
    rfl

theorem storeByte_data (p : Params) {r : Reg} (hc : isControl r = false) (ha : r.access ≠ .ro) {k : Nat}
    (h : k < r.width) (a : Asic) (b : Byte) : storeByte p a (r.addr + k) b = .ok (a.poke (r.addr + k) b) := by
  unfold storeByte
  rw [regAt_addr r h]
  cases r <;> first | rfl | exact absurd hc.symm Bool.false_ne_true | exact absurd rfl ha

/-- The ASIC side after a successful write of a data register. -/
def Asic.setReg (a : Asic) (r : Reg) (v : Nat) : Asic := { a with regs := a.regs.setValue r v }

/-- A successful write of a data register stores its value, big-endian, and does nothing else (R64, R72). -/
theorem writeReg_data {r : Reg} {s : State} (v : Nat) (hc : isControl r = false) (ha : r.access ≠ .ro)
    (hf : s.failure = none) :
    writeReg r v s = .ok () { s.tick with asic := s.tick.asic.setReg r v } := by
  unfold writeReg memWrite xferWrite land
  simp only [hf, leBytes_reverse]
  rw [storeCells_data _ _ _ _ fun k hk a b => storeByte_data _ hc ha (by simpa using hk) a b]
  rfl

theorem leBytes_one (v : Nat) : leBytes 1 v = [BitVec.ofNat 8 v] := rfl

/-- A successful write of a control register is what the byte landing there does (R72). -/
theorem writeReg_control {r : Reg} {s : State} (b : Byte) (hw : r.width = 1) (hf : s.failure = none) {a : Asic}
    (hs : storeByte s.par s.tick.asic r.addr b = .ok a) :
    writeReg r b.toNat s = .ok () { s.tick with asic := a } := by
  unfold writeReg memWrite xferWrite land
  rw [hw, leBytes_one]
  simp only [hf, BitVec.ofNat_toNat, BitVec.setWidth_eq, List.reverse_cons, List.reverse_nil, List.nil_append,
    cellsFrom, storeCells, State.tick_par, hs]

theorem writeReg_control_fault {r : Reg} {s : State} (b : Byte) (hw : r.width = 1) (hf : s.failure = none) {f : Fault}
    (hs : storeByte s.par s.tick.asic r.addr b = .error f) :
    writeReg r b.toNat s = .error (.fault f) s.tick := by
  unfold writeReg memWrite xferWrite land
  rw [hw, leBytes_one]
  simp only [hf, BitVec.ofNat_toNat, BitVec.setWidth_eq, List.reverse_cons, List.reverse_nil, List.nil_append,
    cellsFrom, storeCells, State.tick_par, hs]

/-! ### What a control byte does -/

theorem storeByte_mbSem (p : Params) (a : Asic) (d : Domain) (b : Byte) :
    storeByte p a (Reg.mbSem d).addr b = latchSem a d b := by unfold storeByte; rw [regAt_first]

theorem storeByte_todCtrl (p : Params) (a : Asic) (i : Fin 2) (b : Byte) :
    storeByte p a (Reg.todCtrl i).addr b = latchTod a i b := by unfold storeByte; rw [regAt_first]

theorem storeByte_tieCtrl (p : Params) (a : Asic) (b : Byte) : storeByte p a Reg.tieCtrl.addr b = latchTie a b := by
  unfold storeByte; rw [regAt_first]

theorem storeByte_psCtrl (p : Params) (a : Asic) (b : Byte) : storeByte p a Reg.psCtrl.addr b = latchPs a b := by
  unfold storeByte; rw [regAt_first]

/-! ### Polls -/

/-- The first sample of a poll. -/
theorem pollClear_succ (r : Reg) (mask : Byte) (limit : Nat) (s : State) :
    (pollClear r mask (limit + 1)).run s = match readReg r s with
      | .ok v s' => if v &&& mask.toNat = 0 then .ok () s' else (pollClear r mask limit).run s'
      | .error e s' => .error e s' := by
  rw [pollClear, run_mark, run_bind, run_on, load_run]
  cases readReg r s with
  | ok v s' =>
    simp only [run_mark]
    split <;> rfl
  | error e s' => rfl

@[simp] theorem pollClear_zero (r : Reg) (mask : Byte) (s : State) :
    (pollClear r mask 0).run s = .error (.raise .timeout) s := rfl

theorem poll_run (r : Reg) (mask : Byte) (s : State) :
    (poll r mask).run s = (pollClear r mask s.par.mbPollLimit).run s := rfl

/-- A poll whose first sample shows the flag clear takes one access (R130). -/
theorem poll_clear {r : Reg} {mask : Byte} {s : State} (hr : r.access = .rw) (hl : s.par.wf = true)
    (hf : s.failure = none) (hc : s.tick.asic.regVal r &&& mask.toNat = 0) : (poll r mask).run s = .ok () s.tick := by
  have hp : 1 ≤ s.par.mbPollLimit := by
    unfold Params.wf at hl
    simp only [Bool.and_eq_true, decide_eq_true_eq] at hl
    exact hl.1
  obtain ⟨n, hn⟩ : ∃ n, s.par.mbPollLimit = n + 1 := ⟨s.par.mbPollLimit - 1, by omega⟩
  rw [poll_run, hn, pollClear_succ, readReg_ok hr hf]
  exact if_pos hc

end Sys2Proof.Machine
end

