-- ==== Sys2Proof/Laws/Access.lean ====
section
/-! SUPPORT. The controller one step at a time: what a step leaves is still to do, and doing it is going on with the
operation. -/

namespace Sys2Proof.Machine

/-! ### What is left of a program -/

@[simp] theorem after_ret {α : Type} (p : Params) (a : α) (vs : List Nat) : (Prog.ret a).after p vs = .ret a := by
  cases vs <;> rfl

@[simp] theorem after_raise {α : Type} (p : Params) (e : ErrKind) (vs : List Nat) :
    (Prog.raise e : Prog α).after p vs = .raise e := by cases vs <;> rfl

@[simp] theorem after_act_nil {α : Type} (p : Params) (a : Act) (k : Nat → Prog α) :
    (Prog.act a k).after p [] = .act a k := rfl

@[simp] theorem after_act_cons {α : Type} (p : Params) (a : Act) (k : Nat → Prog α) (v : Nat) (vs : List Nat) :
    (Prog.act a k).after p (v :: vs) = (k v).after p vs := rfl

@[simp] theorem after_params {α : Type} (p : Params) (k : Params → Prog α) (vs : List Nat) :
    (Prog.params k).after p vs = (k p).after p vs := by cases vs <;> rfl

/-- One more answered step. -/
theorem after_append {α : Type} (p : Params) (q : Prog α) (vs : List Nat) {a : Act} {k : Nat → Prog α} (v : Nat)
    (h : q.after p vs = .act a k) : q.after p (vs ++ [v]) = (k v).after p [] := by
  induction q generalizing vs with
  | ret x => simp at h
  | raise e => simp at h
  | act b j ih =>
    cases vs with
    | nil =>
      cases h
      rfl
    | cons w ws => exact ih w ws h
  | params j ih =>
    rw [after_params] at h ⊢
    exact ih p vs h

/-- A program run, and what is left of it before its first step. -/
theorem run_after_nil {α : Type} (q : Prog α) {p : Params} {s : State} (h : s.par = p) :
    (q.after p []).run s = q.run s := by
  induction q with
  | ret x => rw [after_ret]
  | raise e => rw [after_raise]
  | act b j _ => rfl
  | params j ih =>
    rw [after_params, ih p]
    subst h
    rfl

/-- What is left of a program reads no parameter next. -/
theorem after_ne_params {α : Type} (p : Params) (q : Prog α) (vs : List Nat) (k : Params → Prog α) :
    q.after p vs ≠ .params k := by
  induction q generalizing vs with
  | ret x => simp
  | raise e => simp
  | act b j ih => cases vs <;> simp [ih]
  | params j ih =>
    rw [after_params]
    exact ih p vs

/-! ### The controller's own bookkeeping -/

/-- The sequence position, the scratch values and the TOD sub-states replaced. -/
def State.book (s : State) (l : List Line) (c : List Nat) (t : Vector TodPhase 2) : State :=
  { s with ctl := { s.ctl with seq := l, scratch := c, tod := t } }

theorem note_book (s : State) (a : Act) (v : Nat) (q : Prog Reply) :
    s.note a v q = s.book (q.position s.ctl.seq) (s.ctl.scratch ++ [v]) (a.todNext v s.ctl.tod) := rfl

theorem startOp_book (s : State) :
    startOp s = (beginOp s.op.opcode s).book ((s.op.program.after s.par []).position []) [] (.replicate 2 .idle) := rfl

/-- The state of a result replaced. -/
def onState {α : Type} (f : State → State) : EStateM.Result Stop State α → EStateM.Result Stop State α
  | .ok a s => .ok a (f s)
  | .error e s => .error e (f s)

/-- No step of the controller depends on its bookkeeping. -/
theorem perform_book (a : Act) (s : State) (l : List Line) (c : List Nat) (t : Vector TodPhase 2) :
    a.perform (s.book l c t) = onState (fun s => s.book l c t) (a.perform s) := by
  have hf : (s.book l c t).failure = s.failure := rfl
  have ht : (s.book l c t).tick = s.tick.book l c t := rfl
  cases a with
  | line _ => rfl
  | read r =>
    simp only [Act.perform, readReg, memRead, seq_bind, xferRead, hf]
    cases s.failure with
    | some f => rfl
    | none =>
      simp only [ht, show (s.book l c t).par = s.par from rfl]
      cases readsOpen s.par r.addr r.width <;> rfl
  | write r v =>
    simp only [Act.perform, writeReg, memWrite, xferWrite, hf]
    cases s.failure with
    | some f =>
      simp only [landFailed, ht]
      show (match (match storeCells s.tick.par s.tick.asic _ with | .error f => _ | .ok a => _ :
        EStateM.Result Stop State Unit) with | .ok _ s' => _ | .error e s' => _ : EStateM.Result Stop State Nat) = _
      cases storeCells s.tick.par s.tick.asic (landedCells (cellsFrom r.addr (leBytes r.width v).reverse) f.landed) <;>
        rfl
    | none =>
      simp only [land, ht]
      show (match (match storeCells s.tick.par s.tick.asic _ with | .error f => _ | .ok a => _ :
        EStateM.Result Stop State Unit) with | .ok _ s' => _ | .error e s' => _ : EStateM.Result Stop State Nat) = _
      cases storeCells s.tick.par s.tick.asic (cellsFrom r.addr (leBytes r.width v).reverse) <;> rfl
  | perout _ => rfl
  | markPair _ _ _ => rfl
  | todDone _ => rfl

theorem run_book {α : Type} (q : Prog α) (s : State) (l : List Line) (c : List Nat) (t : Vector TodPhase 2) :
    q.run (s.book l c t) = onState (fun s => s.book l c t) (q.run s) := by
  induction q generalizing s with
  | ret x => rfl
  | raise e => rfl
  | act a k ih =>
    simp only [Prog.run, perform_book]
    cases a.perform s with
    | ok v s' => exact ih v s'
    | error e s' => rfl
  | params k ih => exact ih _ _

/-- What an operation leaves holds none of it (R27, R28, R160). -/
theorem finish_book (r : EStateM.Result Stop State Reply) (l : List Line) (c : List Nat) (t : Vector TodPhase 2) :
    finish (onState (fun s => s.book l c t) r) = finish r := by
  cases r with
  | ok a s => rfl
  | error e s => cases e <;> rfl

/-! ### What a step of the controller keeps -/

/-- What no step of an operation changes. -/
structure SameRun (s t : State) : Prop where
  par : t.par = s.par
  dev : t.dev = s.dev
  boot : t.boot = s.boot
  lock : t.ctl.lock = s.ctl.lock
  phase : t.ctl.phase = s.ctl.phase
  scratch : t.ctl.scratch = s.ctl.scratch
  seq : t.ctl.seq = s.ctl.seq
  tod : t.ctl.tod = s.ctl.tod
  op : t.op = s.op
  res : t.res = s.res
  resTo : t.resTo = s.resTo
  port : t.port = s.port
  env : t.env = s.env ∨ t.env = s.env.next.2

theorem perform_same {a : Act} {s t : State} {v : Nat} (h : a.perform s = .ok v t) : SameRun s t := by
  cases a with
  | line _ => cases h; constructor <;> first | rfl | exact .inl rfl
  | read r =>
    simp only [Act.perform, readReg, memRead, seq_bind, xferRead] at h
    cases hf : s.failure with
    | some f => rw [hf] at h; cases h
    | none =>
      rw [hf] at h
      cases h
      split <;> (constructor <;> first | rfl | exact .inr rfl)
  | write r v =>
    simp only [Act.perform, writeReg, memWrite, xferWrite] at h
    cases hf : s.failure with
    | some f =>
      rw [hf] at h
      simp only [landFailed] at h
      cases hc : storeCells s.tick.par s.tick.asic
          (landedCells (cellsFrom r.addr (leBytes r.width v).reverse) f.landed) <;> rw [hc] at h <;> cases h
    | none =>
      rw [hf] at h
      simp only [land] at h
      cases hc : storeCells s.tick.par s.tick.asic (cellsFrom r.addr (leBytes r.width v).reverse) <;> rw [hc] at h <;>
        cases h
      constructor <;> first | rfl | exact .inr rfl
  | perout _ => cases h; constructor <;> first | rfl | exact .inl rfl
  | markPair _ _ _ => cases h; constructor <;> first | rfl | exact .inl rfl
  | todDone _ => cases h; constructor <;> first | rfl | exact .inl rfl

/-! ### One step, and the rest -/

/-- What a step leaves to do. -/
theorem residual_note {s s' : State} {a : Act} {k : Nat → Prog Reply} {v : Nat} (hr : s.residual = .act a k)
    (hp : a.perform s = .ok v s') : (s'.note a v ((k v).after s.par [])).residual = (k v).after s.par [] := by
  have hs := perform_same hp
  show (s'.op.program.after s'.par (s'.ctl.scratch ++ [v])) = _
  rw [hs.op, hs.par, hs.scratch]
  exact after_append _ _ _ _ hr

/-- The TOD sub-states after a step (R160), case by case. -/
theorem todNext_cases (a : Act) (v : Nat) (t : Vector TodPhase 2) (i : Fin 2) :
    (∀ w, a = .write (.todCtrl i) w → w &&& 0x10 ≠ 0 → (a.todNext v t).get i = .commandIssued) ∧
    (a = .read (.todCtrl i) → v &&& 0x10 = 0 → (a.todNext v t).get i = .idle) ∧
    (a = .todDone i → (a.todNext v t).get i = .idle) ∧
    ((∀ w, a = .write (.todCtrl i) w → w &&& 0x10 = 0) → (a = .read (.todCtrl i) → v &&& 0x10 ≠ 0) →
      a ≠ .todDone i → (a.todNext v t).get i = t.get i) := by
  refine ⟨fun w h hw => ?_, fun h hv => ?_, fun h => ?_, fun h1 h2 h3 => ?_⟩
  · subst h
    show (if w &&& 0x10 = 0 then _ else upd t i .commandIssued).get i = _
    rw [if_neg hw, upd_get_same]
  · subst h
    show (if v &&& 0x10 = 0 then upd t i .idle else _).get i = _
    rw [if_pos hv, upd_get_same]
  · subst h
    exact upd_get_same _ _ _
  · unfold Act.todNext
    split
    · next j w =>
      split
      · rfl
      · next hw => exact upd_get_ne _ _ fun (e : j = i) => hw (h1 w (by rw [e]))
    · next j =>
      split
      · next hv => exact upd_get_ne _ _ fun (e : j = i) => h2 (by rw [e]) hv
      · rfl
    · next j => exact upd_get_ne _ _ fun (e : j = i) => h3 (by rw [e])
    · rfl

/-- A step that completes moves the position, the scratch values and the TOD sub-states on. -/
theorem note_goesOn {s s' : State} {a : Act} {k : Nat → Prog Reply} {v : Nat} (hr : s.residual = .act a k)
    (hp : a.perform s = .ok v s') : s.GoesOn (s'.note a v ((k v).after s.par [])) a v := by
  have hs := perform_same hp
  refine ⟨⟨s', hp, rfl, rfl, rfl⟩, congrArg (· ++ [v]) hs.scratch, fun pos j h => ?_, fun h => ?_, fun i => ?_⟩
  · rw [residual_note hr hp] at h
    show Prog.position _ _ = _
    rw [h]
    rfl
  · rw [residual_note hr hp] at h
    refine Eq.trans ?_ hs.seq
    show Prog.position _ _ = _
    unfold Prog.position
    split
    · next pos j e => exact absurd e (h pos j)
    · rfl
  · rw [← hs.tod]
    exact todNext_cases a v s'.ctl.tod i

/-- A step that completes leaves the operation with the rest of what it had to do, and the same end. -/
theorem resume_note {s s' : State} {a : Act} {k : Nat → Prog Reply} {v : Nat} (hr : s.residual = .act a k)
    (hp : a.perform s = .ok v s') : resume (s'.note a v ((k v).after s.par [])) = resume s := by
  have hs := perform_same hp
  unfold resume
  rw [residual_note hr hp, run_after_nil _ (by rw [State.note_par, hs.par]), note_book, run_book, finish_book, hr]
  simp only [Prog.run, hp]

/-- A step of the running operation ends it, as going on to the end does; or the operation is as far from its end as
before, less that step. -/
theorem opStep_cases {s t : State} (h : opStep s = .next t) :
    (resume s = .next t) ∨
    (∃ a k v s', s.residual = .act a k ∧ a.perform s = .ok v s' ∧ t = s'.note a v ((k v).after s.par []) ∧
      resume t = resume s) := by
  unfold opStep at h
  split at h
  · next a k hr =>
    split at h
    · next v s' hp =>
      cases h
      exact .inr ⟨a, k, v, s', hr, hp, rfl, resume_note hr hp⟩
    · next e s' hp =>
      refine .inl ?_
      unfold resume
      rw [hr]
      simp only [Prog.run, hp]
      exact h
  · next q hq =>
    exact .inl h

/-! ### An accepted request -/

theorem decodeOp_row {c : Prop} [Decidable c] {i j : Instr} {o : Byte} {e : Except DecodeError Instr}
    (hj : c → j.opcode = some o ∧ (programOf j).isSome) (he : e = .ok i → i.opcode = some o ∧ (programOf i).isSome)
    (h : (if c then .ok j else e) = .ok i) : i.opcode = some o ∧ (programOf i).isSome := by
  by_cases hc : c
  · rw [if_pos hc] at h
    cases h
    exact hj hc
  · rw [if_neg hc] at h
    exact he h

/-- A request decodes to an operation of its own opcode, which has a program. -/
theorem decodeOp_program {o a : Byte} {x y : BitVec 64} {i : Instr} (h : decodeOp o a x y = .ok i) :
    i.opcode = some o ∧ (programOf i).isSome := by
  revert h
  unfold decodeOp
  iterate 18 refine decodeOp_row (fun e => ⟨congrArg some e.symm, rfl⟩) ?_
  exact fun h => by cases h

/-- The first line of an operation's program is the first of its pseudocode (R28). -/
theorem program_first {i : Instr} {q : Prog Reply} (h : programOf i = some q) :
    ∃ p, i.proc = some p ∧ ∀ par, (q.after par []).position [] = [⟨p, 1⟩] := by
  cases i <;> simp [programOf] at h <;> subst h <;> exact ⟨_, rfl, fun _ => rfl⟩

/-- An operation is its program, run under its opcode. -/
theorem exec_program {i : Instr} {q : Prog Reply} (h : programOf i = some q) :
    ∃ o, i.opcode = some o ∧ ∀ s, exec i s = runOperation o q s := by
  cases i <;> simp [programOf] at h <;> subst h <;> exact ⟨_, rfl, fun _ => rfl⟩

/-- What an accepted request runs is the program its operand registers hold. -/
theorem runRequest_accept (bytes : Vector Byte 18) (c : Nat) (s : State) :
    runRequest bytes.toList (accept c bytes.toList s) =
      runOperation (reqOpcode bytes.toList) (accept c bytes.toList s).op.program (accept c bytes.toList s) := by
  have hd : decode (.request bytes.toList) = decodeOp (reqOpcode bytes.toList) (reqA bytes.toList)
      (reqX bytes.toList) (reqY bytes.toList) := by
    show decodeRequest _ = _
    unfold decodeRequest
    rw [if_pos (by simp)]
  unfold runRequest OpRegs.program
  rw [hd]
  simp only [accept_op]
  cases h : decodeOp (reqOpcode bytes.toList) (reqA bytes.toList) (reqX bytes.toList) (reqY bytes.toList) with
  | error e => rfl
  | ok i =>
    obtain ⟨h1, h2⟩ := decodeOp_program h
    obtain ⟨q, hq⟩ := Option.isSome_iff_exists.mp h2
    obtain ⟨o, ho, he⟩ := exec_program hq
    rw [h1] at ho
    cases ho
    simp only [he, hq, Option.getD_some]

/-- An operation at its beginning comes to what the whole operation comes to. -/
theorem resume_startOp (s : State) : resume (startOp s) = runOperation s.op.opcode s.op.program s := by
  have hr : (startOp s).residual = s.op.program.after s.par [] := rfl
  unfold resume runOperation
  rw [hr, run_after_nil _ (by simp), startOp_book, run_book, finish_book]

end Sys2Proof.Machine
end

