-- ==== Sys2Proof/Laws/Responder.lean ====
section
/-! SUPPORT. The responder: what an acknowledge leaves alone, that a quiet ASIC stays as it is under the prompt responder,
and what the prompt responder makes of one pending request. -/

namespace Sys2Proof.Machine

/-! ### Fields of a byte read as control -/

theorem ctrlByte_eq (a : Asic) (r : Reg) : a.ctrlByte r = a.regs.get r.addr := rfl

theorem regVal_control (a : Asic) {r : Reg} (h : isControl r = true) : a.regVal r = (a.ctrlByte r).toNat :=
  value_control a.regs h

theorem toNat_and (x y : Byte) : x.toNat &&& y.toNat = (x &&& y).toNat := (BitVec.toNat_and x y).symm

theorem and_toNat_eq_zero (x y : Byte) : x.toNat &&& y.toNat = 0 ↔ x &&& y = 0 := by
  rw [toNat_and]
  exact ⟨fun h => BitVec.eq_of_toNat_eq (by simpa using h), fun h => by simp [h]⟩

/-- A command with its semaphore bit clear is none. -/
theorem todCmdOf_clear : ∀ b : Byte, b &&& todSem = 0 → todCmdOf b = none := by decide +kernel

/-! ### Moves that are not enabled -/

theorem mbAck_none (p : Params) {d : Domain} {a : Asic} (h : a.req d = .none) : mbAck p d a = a := by
  unfold mbAck
  rw [h]

theorem todAck_clear {i : Fin 2} {a : Asic} (h : a.ctrlByte (.todCtrl i) &&& todSem = 0) : todAck i a = a := by
  unfold todAck
  rw [todCmdOf_clear _ h]

theorem tieAck_none {a : Asic} (h : a.tiePend = none) : tieAck a = a := by
  unfold tieAck
  rw [h]

theorem psAck_none {a : Asic} (h : a.psPend = none) : psAck a = a := by
  unfold psAck
  rw [h]

/-- The prompt responder's moves, one after the other. -/
theorem runMoves_prompt (p : Params) (a : Asic) :
    runMoves p Slot.prompt.moves a =
      psAck (tieAck (todAck 1 (todAck 0 (mbAck p .out (mbAck p .synth (mbAck p .dpll (mbAck p .ref a))))))) := rfl

theorem Asic.Quiet.req {a : Asic} (h : a.Quiet) (d : Domain) : a.req d = .none :=
  (h.1 d (by cases d <;> decide)).2

theorem Asic.Quiet.sem {a : Asic} (h : a.Quiet) (d : Domain) : a.ctrlByte (.mbSem d) &&& semBoth = 0 :=
  (h.1 d (by cases d <;> decide)).1

/-- A quiet ASIC has nothing for the prompt responder to do. -/
theorem runMoves_prompt_quiet (p : Params) {a : Asic} (h : a.Quiet) : runMoves p Slot.prompt.moves a = a := by
  rw [runMoves_prompt, mbAck_none p (h.req .ref), mbAck_none p (h.req .dpll), mbAck_none p (h.req .synth),
    mbAck_none p (h.req .out), todAck_clear (h.2.1 0).1, todAck_clear (h.2.1 1).1, tieAck_none h.2.2.1.2,
    psAck_none h.2.2.2.2]

/-! ### Areas of the register space -/

theorem image_length (p : Params) (a : Asic) (d : Domain) (k : Fin d.count) : (a.image p d k).length = winLen p d := by
  cases d with
  | ref => simp [Asic.image, RefBank.image, winLen]
  | dpll => simp [Asic.image, padTo, winLen]
  | synth => simp [Asic.image, SynthBank.image, winLen]
  | out => simp [Asic.image, OutBank.image, winLen]

/-- The domain whose data window holds a register. -/
def windowOf : Reg → Option Domain
  | .refFreqBase => some .ref
  | .refFreqMult => some .ref
  | .refRatioM => some .ref
  | .refRatioN => some .ref
  | .refPhaseComp => some .ref
  | .synthFreqBase => some .synth
  | .synthFreqMult => some .synth
  | .synthRatioM => some .synth
  | .synthRatioN => some .synth
  | .outSynthSel => some .out
  | .outSignalFmt => some .out
  | .outDiv => some .out
  | .outNdiv => some .out
  | .outPhaseComp => some .out
  | _ => none

/-- The longest a domain's data window can be. -/
def winMax : Domain → Nat
  | .dpll => 240
  | .ref => 16
  | .synth => 10
  | .out => 14

theorem winLen_le (p : Params) (d : Domain) : winLen p d ≤ winMax d := by
  have := p.dpllWinLen.isLt
  cases d <;> simp only [winLen, winMax] <;> omega

theorem window_apart_table : ∀ r ∈ Reg.all, ∀ d ∈ allDomains, windowOf r ≠ some d →
    r.addr + r.width ≤ d.winBase ∨ d.winBase + winMax d ≤ r.addr := by decide +kernel

theorem mem_allDomains (d : Domain) : d ∈ allDomains := by cases d <;> decide

/-- A register outside a domain's data window shares no byte with it. -/
theorem window_apart (p : Params) {r : Reg} {d : Domain} (h : windowOf r ≠ some d) :
    r.addr + r.width ≤ d.winBase ∨ d.winBase + winLen p d ≤ r.addr := by
  have h1 := window_apart_table r (mem_all r) d (mem_allDomains d) h
  have h2 := winLen_le p d
  omega

/-- A register outside a domain's mask, semaphore and window has no byte in the domain's area. -/
theorem mailboxArea_reg (p : Params) {d : Domain} {r : Reg} (hm : r ≠ .mbMask d) (hs : r ≠ .mbSem d)
    (hw : windowOf r ≠ some d) {k : Nat} (hk : k < r.width) : mailboxArea p d (r.addr + k) = false := by
  have h1 : (Reg.mbMask d).covers (r.addr + k) = false := by
    by_contra hc
    exact hm (Option.some.inj ((regAt_addr r hk).symm.trans (regAt_of_covers (by simpa using hc))))
  have h2 : (Reg.mbSem d).covers (r.addr + k) = false := by
    by_contra hc
    exact hs (Option.some.inj ((regAt_addr r hk).symm.trans (regAt_of_covers (by simpa using hc))))
  have h3 := window_apart p hw
  simp only [mailboxArea, inRegs, List.any_cons, List.any_nil, h1, h2, Bool.or_false, Bool.false_or,
    Bool.and_eq_false_iff, decide_eq_false_iff_not]
  omega

/-! ### Acknowledges -/

theorem oneHot_pow : ∀ d : Domain, ∀ k : Fin d.count, oneHot d.count (BitVec.ofNat 16 (2 ^ k.1)) = some k := by
  intro d
  cases d <;> decide +kernel

theorem readMaskOk_pow (d : Domain) (k : Fin d.count) : readMaskOk d (BitVec.ofNat 16 (2 ^ k.1)) = true := by
  unfold readMaskOk
  rw [oneHot_pow]
  rfl

theorem writeMaskOk_pow : ∀ d : Domain, ∀ k : Fin d.count, writeMaskOk d (BitVec.ofNat 16 (2 ^ k.1)) = true := by
  intro d
  cases d <;> decide +kernel

/-! ### The frequency of the stepped outputs -/

theorem agreed_of_all {v : Option Nat} {l : List (Option Nat)} (hne : l ≠ []) (h : ∀ w ∈ l, w = v) : agreed l = v := by
  cases l with
  | nil => exact absurd rfl hne
  | cons w ws =>
    have hw : w = v := h w (List.mem_cons_self ..)
    have hs : ws.all (fun u => u == w) = true :=
      List.all_eq_true.2 fun u hu => by rw [beq_iff_eq, hw]; exact h u (List.mem_cons_of_mem _ hu)
    rw [agreed, if_pos hs, hw]

/-- Pairs driven at one frequency are stepped at it (R241). -/
theorem steppedFreq_of_all {a : Asic} {m : BitVec 16} {f : Nat} (hne : ∃ q : Fin 10, m.getLsbD q.1 = true)
    (h : ∀ q : Fin 10, m.getLsbD q.1 = true → a.drivenFreq q = some f) : a.steppedFreq m = some f := by
  obtain ⟨q, hq⟩ := hne
  apply agreed_of_all
  · exact List.ne_nil_of_mem (List.mem_map_of_mem (List.mem_filter.2 ⟨List.mem_finRange q, hq⟩))
  · intro w hw
    obtain ⟨r, hr, rfl⟩ := List.mem_map.1 hw
    exact h r (by simpa using (List.mem_filter.1 hr).2)

end Sys2Proof.Machine
end

