-- ==== Sys2Proof/Laws/Runs.lean ====
section
/-! SUPPORT. What a sequence can do, whatever the schedule: `Runs` says what it keeps, which errors it raises, that it
never faults, and what holds when it returns; one rule per way of building a sequence, and one lemma per shared
operation. -/

namespace Sys2Proof.Machine

/-! ### What moves leave alone -/

/-- A change of the ASIC side by the responder or a clock: the canonical form is kept, and every byte outside the
responder's area. -/
def Asic.Moved (p : Params) (a b : Asic) : Prop :=
  (a.regs.wf = true → b.regs.wf = true) ∧
  ∀ addr, responderArea p addr = false → b.regs.get addr = a.regs.get addr

theorem Asic.Moved.refl (p : Params) (a : Asic) : Asic.Moved p a a := ⟨id, fun _ _ => rfl⟩

theorem Asic.Moved.trans {p : Params} {a b c : Asic} (h : Asic.Moved p a b) (h' : Asic.Moved p b c) :
    Asic.Moved p a c := ⟨fun w => h'.1 (h.1 w), fun x hx => (h'.2 x hx).trans (h.2 x hx)⟩

theorem moved_of_regs {p : Params} {a b : Asic} (h : b.regs = a.regs) : Asic.Moved p a b :=
  ⟨fun w => h ▸ w, fun _ _ => by rw [h]⟩

/-- The registers the responder writes by itself. -/
def responderRegs : List Reg :=
  [.todCtrl 0, .todCtrl 1, .todSec 0, .todSec 1, .todNs 0, .todNs 1, .tieCtrl, .psCtrl, .mbSem .ref,
    .mbSem .dpll, .mbSem .synth, .mbSem .out]

theorem responderArea_regs {p : Params} {addr : Nat} (h : responderArea p addr = false) {r : Reg}
    (hr : r ∈ responderRegs) : r.covers addr = false := by
  unfold responderArea at h
  rw [Bool.or_eq_false_iff] at h
  have := h.1
  unfold inRegs at this
  rw [List.any_eq_false] at this
  simpa using this r hr

theorem responderArea_window {p : Params} {addr : Nat} (h : responderArea p addr = false) (d : Domain) :
    addr < d.winBase ∨ d.winBase + winLen p d ≤ addr := by
  unfold responderArea at h
  rw [Bool.or_eq_false_iff] at h
  have h2 := h.2
  rw [List.any_eq_false] at h2
  have := h2 d (mem_allDomains d)
  simp only [Bool.and_eq_true, decide_eq_true_eq, not_and, not_lt] at this
  omega

theorem mem_responder_sem (d : Domain) : Reg.mbSem d ∈ responderRegs := by cases d <;> decide

theorem mem_responder_ctrl : ∀ i : Fin 2, Reg.todCtrl i ∈ responderRegs := by decide
theorem mem_responder_sec : ∀ i : Fin 2, Reg.todSec i ∈ responderRegs := by decide
theorem mem_responder_ns : ∀ i : Fin 2, Reg.todNs i ∈ responderRegs := by decide

theorem addr_ne_of_not_covers {r : Reg} {addr : Nat} (h : r.covers addr = false) : r.addr ≠ addr := by
  intro e
  have := width_pos r
  simp only [Reg.covers, Bool.and_eq_false_iff, decide_eq_false_iff_not] at h
  omega

theorem moved_set {p : Params} (a : Asic) {b : Asic} {r : Reg} {v : Byte} (hr : r ∈ responderRegs)
    (hb : b.regs = a.regs.set r.addr v) : Asic.Moved p a b :=
  ⟨fun w => hb ▸ wf_set _ _ _ w, fun _ hx => by
    rw [hb, get_set_ne _ _ (addr_ne_of_not_covers (responderArea_regs hx hr))]⟩

theorem moved_setValue {p : Params} (a : Asic) {b : Asic} {r : Reg} {v : Nat} (hr : r ∈ responderRegs)
    (hb : b.regs = a.regs.setValue r v) : Asic.Moved p a b :=
  ⟨fun w => hb ▸ wf_setValue _ _ _ w, fun _ hx => by
    rw [hb, get_setValue_out _ _ _ _ (responderArea_regs hx hr)]⟩

theorem moved_window {p : Params} (a : Asic) {b : Asic} {d : Domain} {bs : List Byte} (hl : bs.length = winLen p d)
    (hb : b.regs = a.regs.setBytes d.winBase bs) : Asic.Moved p a b :=
  ⟨fun w => hb ▸ wf_setBytes _ _ _ w, fun _ hx => by
    rw [hb, get_setBytes_out _ _ _ _ (by have := responderArea_window hx d; omega)]⟩

theorem moved_clearFlag {p : Params} (a : Asic) {r : Reg} (m : Byte) (hr : r ∈ responderRegs) :
    Asic.Moved p a (a.clearFlag r m) := moved_set a hr rfl

theorem commit_regs (a : Asic) (d : Domain) (k : Fin d.count) (bs : List Byte) : (a.commit d k bs).regs = a.regs := by
  cases d <;> rfl

theorem commit_fold_regs (d : Domain) (m : BitVec 16) (bs : List Byte) (l : List (Fin d.count)) (a : Asic) :
    (l.foldl (fun a k => if m.getLsbD k.1 then a.commit d k bs else a) a).regs = a.regs := by
  induction l generalizing a with
  | nil => rfl
  | cons k l ih =>
    rw [List.foldl_cons, ih]
    split
    · exact commit_regs ..
    · rfl

theorem commitMask_regs (a : Asic) (d : Domain) (m : BitVec 16) (bs : List Byte) :
    (a.commitMask d m bs).regs = a.regs := commit_fold_regs d m bs _ a

theorem mbAck_moved (p : Params) (d : Domain) (a : Asic) : Asic.Moved p a (mbAck p d a) := by
  unfold mbAck
  split
  · exact .refl _ _
  · unfold ackRead
    split
    · exact (moved_window a (image_length p a d _) rfl).trans
        ((moved_clearFlag _ _ (mem_responder_sem d)).trans (moved_of_regs rfl))
    · exact .refl _ _
  · unfold ackWrite
    split
    · exact (moved_of_regs (commitMask_regs ..)).trans
        ((moved_clearFlag _ _ (mem_responder_sem d)).trans (moved_of_regs rfl))
    · exact .refl _ _

theorem latchTime_moved (p : Params) (a : Asic) (i : Fin 2) (sec ns : Nat) :
    Asic.Moved p a (a.latchTime i sec ns) := by
  unfold Asic.latchTime
  refine (moved_setValue a (b := { a with regs := a.regs.setValue (.todSec i) sec }) (mem_responder_sec i) rfl).trans ?_
  exact (moved_setValue _ (mem_responder_ns i) rfl).trans (moved_clearFlag _ _ (mem_responder_ctrl i))

theorem todAck_moved (p : Params) (i : Fin 2) (a : Asic) : Asic.Moved p a (todAck i a) := by
  unfold todAck
  split
  · exact latchTime_moved ..
  · exact (latchTime_moved p a i _ _).trans (moved_of_regs rfl)
  · exact .refl _ _
  · exact .refl _ _

theorem stepTod_regs (a : Asic) (i : Fin 2) (k : Int) : (a.stepTod i k).regs = a.regs := rfl

theorem tieStep_regs (l : TieLatch) (a : Asic) (d : Fin 2) : (tieStep l a d).regs = a.regs := by
  unfold tieStep
  split <;> rfl

theorem tieFold_regs (l : TieLatch) (ds : List (Fin 2)) (a : Asic) : (ds.foldl (tieStep l) a).regs = a.regs := by
  induction ds generalizing a with
  | nil => rfl
  | cons d ds ih => rw [List.foldl_cons, ih, tieStep_regs]

theorem tieAck_moved (p : Params) (a : Asic) : Asic.Moved p a (tieAck a) := by
  unfold tieAck
  split
  · exact (moved_of_regs (b := { (List.finRange 2).foldl (tieStep _) a with tiePend := none })
      (tieFold_regs _ _ a)).trans (moved_clearFlag _ _ (by decide))
  · exact .refl _ _

theorem psStep_regs (l : PsLatch) (a : Asic) : (psStep l a).regs = a.regs := by
  unfold psStep
  split
  · split <;> rfl
  · rfl

theorem psAck_moved (p : Params) (a : Asic) : Asic.Moved p a (psAck a) := by
  unfold psAck
  split
  · exact (moved_of_regs (b := { psStep _ a with psPend := none }) (psStep_regs _ a)).trans
      (moved_clearFlag _ _ (by decide))
  · exact .refl _ _

theorem clockEdge_moved (p : Params) (i : Fin 2) (a : Asic) : Asic.Moved p a (clockEdge i a) := by
  unfold clockEdge
  split
  · exact (moved_of_regs rfl).trans (moved_clearFlag _ _ (mem_responder_ctrl i))
  · exact moved_of_regs rfl

theorem applyMove_moved (p : Params) (mv : Move) (a : Asic) : Asic.Moved p a (applyMove p mv a) := by
  cases mv with
  | mbAck d => exact mbAck_moved p d a
  | todAck i => exact todAck_moved p i a
  | tieAck => exact tieAck_moved p a
  | psAck => exact psAck_moved p a
  | advance i ns =>
    show Asic.Moved p a (clockAdvance i ns a)
    unfold clockAdvance
    split
    · exact moved_of_regs rfl
    · exact .refl _ _
  | edge i => exact clockEdge_moved p i a
  | reprogram k b =>
    show Asic.Moved p a (reprogram k b a)
    unfold reprogram
    split
    · exact moved_of_regs rfl
    · exact .refl _ _

/-- Moves keep the canonical form and every byte outside the responder's area. -/
theorem runMoves_moved (p : Params) (mvs : List Move) (a : Asic) : Asic.Moved p a (runMoves p mvs a) := by
  unfold runMoves
  induction mvs generalizing a with
  | nil => exact .refl _ _
  | cons mv mvs ih => exact (applyMove_moved p mv a).trans (ih _)

/-! ### What a landing byte changes -/

theorem latchSem_regs {a b : Asic} {d : Domain} {v : Byte} (h : latchSem a d v = .ok b) :
    b.regs = a.regs.set (Reg.mbSem d).addr v := by
  unfold latchSem at h
  split at h
  · split at h <;> cases h
    rfl
  · split at h
    · split at h <;> cases h
      rfl
    · split at h <;> cases h
      rfl

theorem latchTod_regs {a b : Asic} {i : Fin 2} {v : Byte} (h : latchTod a i v = .ok b) :
    b.regs = a.regs.set (Reg.todCtrl i).addr v := by
  unfold latchTod at h
  split at h
  · cases h; rfl
  · split at h
    · cases h; rfl
    · split at h <;> cases h
      rfl

theorem latchTie_regs {a b : Asic} {v : Byte} (h : latchTie a v = .ok b) :
    b.regs = a.regs.set Reg.tieCtrl.addr v := by
  unfold latchTie at h
  split at h
  · cases h; rfl
  · split at h <;> cases h
    rfl

theorem latchPs_regs {a b : Asic} {v : Byte} (h : latchPs a v = .ok b) :
    b.regs = a.regs.set Reg.psCtrl.addr v := by
  unfold latchPs at h
  split at h
  · cases h; rfl
  · split at h <;> cases h
    rfl

theorem regAt_covers {addr : Nat} {r : Reg} (h : regAt addr = some r) : r.covers addr = true := by
  have := List.find?_some h
  simpa using this

theorem covers_control {r : Reg} {addr : Nat} (hw : r.width = 1) (h : r.covers addr = true) : addr = r.addr := by
  simp only [Reg.covers, hw, Bool.and_eq_true, decide_eq_true_eq] at h
  omega

/-- A byte that lands changes at most the byte at its own address. -/
theorem storeByte_regs {p : Params} {a b : Asic} {addr : Nat} {v : Byte} (h : storeByte p a addr v = .ok b) :
    b.regs = a.regs.set addr v ∨ b.regs = a.regs := by
  unfold storeByte at h
  split at h
  · cases h; exact .inr rfl
  · next hr => exact .inl (covers_control rfl (regAt_covers hr) ▸ latchSem_regs h)
  · next hr => exact .inl (covers_control rfl (regAt_covers hr) ▸ latchTod_regs h)
  · next hr => exact .inl (covers_control rfl (regAt_covers hr) ▸ latchTie_regs h)
  · next hr => exact .inl (covers_control rfl (regAt_covers hr) ▸ latchPs_regs h)
  · cases h; exact .inl rfl
  · split at h <;> cases h
    · exact .inl rfl
    · exact .inr rfl

/-- `b` is `a` but for register bytes and latches: no bank, no counter and no draw differs. -/
def Asic.SameBanks (a b : Asic) : Prop :=
  b = { a with regs := b.regs, mbReq := b.mbReq, todPend := b.todPend, tiePend := b.tiePend, psPend := b.psPend }

theorem latch_banks {a b : Asic} {v : Byte} :
    (∀ d, latchSem a d v = .ok b → a.SameBanks b) ∧ (∀ i, latchTod a i v = .ok b → a.SameBanks b) ∧
    (latchTie a v = .ok b → a.SameBanks b) ∧ (latchPs a v = .ok b → a.SameBanks b) := by
  refine ⟨fun d h => ?_, fun i h => ?_, fun h => ?_, fun h => ?_⟩
  · unfold latchSem at h
    repeat' split at h
    all_goals cases h <;> rfl
  · unfold latchTod at h
    repeat' split at h
    all_goals cases h <;> rfl
  · unfold latchTie at h
    repeat' split at h
    all_goals cases h <;> rfl
  · unfold latchPs at h
    repeat' split at h
    all_goals cases h <;> rfl

/-- A byte that lands changes no bank and no counter (R72). -/
theorem storeByte_banks {p : Params} {a b : Asic} {addr : Nat} {v : Byte} (h : storeByte p a addr v = .ok b) :
    a.SameBanks b := by
  unfold storeByte at h
  split at h
  · cases h; rfl
  · exact latch_banks.1 _ h
  · exact latch_banks.2.1 _ h
  · exact latch_banks.2.2.1 h
  · exact latch_banks.2.2.2 h
  · cases h; rfl
  · split at h <;> cases h <;> rfl

/-- Bytes that land change no bank and no counter. -/
theorem storeCells_banks {p : Params} {a b : Asic} {cells : List Host.Cell} (h : storeCells p a cells = .ok b) :
    a.SameBanks b := by
  induction cells generalizing a with
  | nil => cases h; rfl
  | cons c cs ih =>
    unfold storeCells at h
    split at h
    · next h' =>
      have h2 := ih h
      unfold Asic.SameBanks at *
      rw [storeByte_banks h'] at h2
      exact h2
    · cases h

/-- Bytes that land keep the canonical form and change at most the bytes at their own addresses. -/
theorem storeCells_regs {p : Params} {a b : Asic} {cells : List Host.Cell} (h : storeCells p a cells = .ok b) :
    (a.regs.wf = true → b.regs.wf = true) ∧ ∀ addr, (∀ c ∈ cells, c.1 ≠ addr) → b.regs.get addr = a.regs.get addr := by
  induction cells generalizing a with
  | nil => cases h; exact ⟨id, fun _ _ => rfl⟩
  | cons c cs ih =>
    unfold storeCells at h
    split at h
    · next a' h' =>
      obtain ⟨h1, h2⟩ := ih h
      refine ⟨fun w => h1 ?_, fun addr hc => (h2 addr fun d hd => hc d (by simp [hd])).trans ?_⟩
      · rcases storeByte_regs h' with e | e <;> rw [e]
        · exact wf_set _ _ _ w
        · exact w
      · rcases storeByte_regs h' with e | e <;> rw [e]
        exact get_set_ne _ _ (hc c (by simp))
    · cases h

theorem cellsFrom_mem {addr : Nat} {bs : List Byte} {c : Host.Cell} (h : c ∈ cellsFrom addr bs) :
    addr ≤ c.1 ∧ c.1 < addr + bs.length := by
  induction bs generalizing addr with
  | nil => simp [cellsFrom] at h
  | cons b bs ih =>
    rw [List.length_cons]
    rcases List.mem_cons.mp h with rfl | h
    · exact ⟨le_refl _, by simp⟩
    · have := ih h
      omega

theorem landedCells_mem {cells : List Host.Cell} {ls : List Bool} {c : Host.Cell} (h : c ∈ landedCells cells ls) :
    c ∈ cells := by
  induction cells generalizing ls with
  | nil => simp [landedCells] at h
  | cons d ds ih =>
    cases ls with
    | nil => simp [landedCells] at h
    | cons l ls =>
      unfold landedCells at h
      split at h
      · rcases List.mem_cons.mp h with rfl | h
        · simp
        · simp [ih h]
      · simp [ih h]

/-! ### `Runs` -/

/-- What every sequence that may write only the registers `W` keeps of the state it runs in. -/
structure Kept (W : List Reg) (s t : State) : Prop where
  par : t.par = s.par
  dev : t.dev = s.dev
  boot : t.boot = s.boot
  lock : t.ctl.lock = s.ctl.lock
  phase : t.ctl.phase = s.ctl.phase
  perout : t.ctl.perout = s.ctl.perout
  op : t.op = s.op
  res : t.res = s.res
  resTo : t.resTo = s.resTo
  port : t.port = s.port
  wf : s.asic.regs.wf = true → t.asic.regs.wf = true
  get : ∀ addr, inRegs W addr = false → responderArea s.par addr = false →
    t.asic.regs.get addr = s.asic.regs.get addr

theorem Kept.refl (W : List Reg) (s : State) : Kept W s s :=
  ⟨rfl, rfl, rfl, rfl, rfl, rfl, rfl, rfl, rfl, rfl, id, fun _ _ _ => rfl⟩

theorem Kept.trans {W : List Reg} {s t u : State} (h : Kept W s t) (h' : Kept W t u) : Kept W s u where
  par := h'.par.trans h.par
  dev := h'.dev.trans h.dev
  boot := h'.boot.trans h.boot
  lock := h'.lock.trans h.lock
  phase := h'.phase.trans h.phase
  perout := h'.perout.trans h.perout
  op := h'.op.trans h.op
  res := h'.res.trans h.res
  resTo := h'.resTo.trans h.resTo
  port := h'.port.trans h.port
  wf := fun w => h'.wf (h.wf w)
  get := fun addr h1 h2 => (h'.get addr h1 (h.par ▸ h2)).trans (h.get addr h1 h2)

/-- The sequence `m`, run where `P` holds, never faults, keeps what `Kept W` says, raises only errors of `E`, and
leaves `Q` where it returns. -/
def Runs {α : Type} (W : List Reg) (E : List ErrKind) (P : State → Prop) (m : Prog α) (Q : α → State → Prop) : Prop :=
  ∀ s, P s → match m.run s with
    | .ok a t => Kept W s t ∧ Q a t
    | .error (.raise e) t => Kept W s t ∧ e ∈ E
    | .error (.fault _) _ => False

section
variable {α β : Type} {W : List Reg} {E : List ErrKind} {P : State → Prop}

theorem Runs.bind {m : Prog α} {f : α → Prog β} {Q : α → State → Prop} {R : β → State → Prop} (hm : Runs W E P m Q)
    (hf : ∀ a, Runs W E (Q a) (f a) R) : Runs W E P (letI := Prog.monad; m >>= f) R := by
  intro s hs
  rw [run_bind]
  have h := hm s hs
  cases hms : m.run s with
  | ok a t =>
    rw [hms] at h
    have h' := hf a t h.2
    show match (f a).run t with
      | .ok b u => Kept W s u ∧ R b u
      | .error (.raise e) u => Kept W s u ∧ e ∈ E
      | .error (.fault _) _ => False
    cases hfa : (f a).run t with
    | ok b u => rw [hfa] at h'; exact ⟨h.1.trans h'.1, h'.2⟩
    | error e u =>
      rw [hfa] at h'
      cases e with
      | raise e => exact ⟨h.1.trans h'.1, h'.2⟩
      | fault f => exact h'
  | error e t =>
    rw [hms] at h
    cases e with
    | raise e => exact h
    | fault f => exact h

/-- The lines of a program change nothing of what it can do. -/
theorem Runs.on {m : Prog α} {Q : α → State → Prop} {proc : Proc} {n : Nat} (h : Runs W E P m Q) :
    Runs W E P (m.on proc n) Q := by
  intro s hs
  rw [run_on]
  exact h s hs

theorem Runs.mark {f : Unit → Prog β} {R : β → State → Prop} {proc : Proc} {n : Nat} (h : Runs W E P (f ()) R) :
    Runs W E P (letI := Prog.monad; mark proc n >>= f) R := by
  intro s hs
  rw [run_mark]
  exact h s hs

theorem Runs.pure {Q : α → State → Prop} {a : α} (h : ∀ s, P s → Q a s) : Runs W E P (Prog.ret a) Q :=
  fun s hs => ⟨.refl _ _, h s hs⟩

theorem Runs.raise {Q : α → State → Prop} {e : ErrKind} (h : e ∈ E) : Runs W E P (raise e : Prog α) Q :=
  fun _ _ => ⟨.refl _ _, h⟩

theorem Runs.raiseIf {c : Bool} {e : ErrKind} (h : e ∈ E) : Runs W E P (raiseIf c e) fun _ s => P s ∧ c = false := by
  cases c
  · exact fun s hs => ⟨.refl _ _, hs, rfl⟩
  · exact fun _ _ => ⟨.refl _ _, h⟩

theorem Runs.orRaise {o : Option α} {e : ErrKind} (h : e ∈ E) :
    Runs W E P (orRaise o e) fun v s => P s ∧ o = some v := by
  cases o
  · exact fun _ _ => ⟨.refl _ _, h⟩
  · exact fun s hs => ⟨.refl _ _, hs, rfl⟩

theorem Runs.params : Runs W E P params fun v s => P s ∧ v = s.par := fun _ hs => ⟨.refl _ _, hs, rfl⟩

theorem Runs.perout {i : Fin 2} : Runs W E P (perout i) fun v s => P s ∧ v = s.ctl.perout.get i := by
  intro s hs
  rw [perout_run]
  exact ⟨.refl _ _, hs, rfl⟩

theorem Runs.todDone {i : Fin 2} : Runs W E P (todDone i) fun _ s => P s := fun _ hs => ⟨.refl _ _, hs⟩

theorem Runs.checkIndex {n v : Nat} (h : .invalidArgument ∈ E) : Runs W E P (checkIndex n v) fun _ s => P s := by
  intro s hs
  by_cases hv : v < n
  · rw [checkIndex_ok hv]; exact ⟨.refl _ _, hs⟩
  · rw [checkIndex_bad hv]; exact ⟨.refl _ _, h⟩

theorem Runs.checkS32 {x : BitVec 64} (h : .invalidArgument ∈ E) :
    Runs W E P (checkS32 x) fun v s => P s ∧ v = x.toInt ∧ fitsS32 x.toInt = true := by
  intro s hs
  cases hv : fitsS32 x.toInt
  · rw [checkS32_bad hv]; exact ⟨.refl _ _, h⟩
  · rw [checkS32_ok hv]; exact ⟨.refl _ _, hs, rfl, rfl⟩

theorem Runs.post {m : Prog α} {Q R : α → State → Prop} (h : Runs W E P m Q) (hq : ∀ a s, Q a s → R a s) :
    Runs W E P m R := by
  intro s hs
  have := h s hs
  cases hm : m.run s with
  | ok a t => rw [hm] at this; exact ⟨this.1, hq a t this.2⟩
  | error e t =>
    rw [hm] at this
    cases e with
    | raise e => exact this
    | fault f => exact this

theorem Kept.mono {W W' : List Reg} {s t : State} (h : Kept W s t) (hw : ∀ r ∈ W, r ∈ W') : Kept W' s t :=
  ⟨h.par, h.dev, h.boot, h.lock, h.phase, h.perout, h.op, h.res, h.resTo, h.port, h.wf, fun addr h1 h2 =>
    h.get addr (by
      unfold inRegs at h1 ⊢
      rw [List.any_eq_false] at h1 ⊢
      exact fun r hr => h1 r (hw r hr)) h2⟩

/-- More registers, and more errors. -/
theorem Runs.mono {m : Prog α} {Q : α → State → Prop} {W' : List Reg} {E' : List ErrKind} (h : Runs W E P m Q)
    (hw : ∀ r ∈ W, r ∈ W') (he : ∀ e ∈ E, e ∈ E') : Runs W' E' P m Q := by
  intro s hs
  have := h s hs
  cases hm : m.run s with
  | ok a t => rw [hm] at this; exact ⟨this.1.mono hw, this.2⟩
  | error e t =>
    rw [hm] at this
    cases e with
    | raise e => exact ⟨this.1.mono hw, he _ this.2⟩
    | fault f => exact this

theorem Runs.pre {m : Prog α} {Q : α → State → Prop} {P' : State → Prop} (h : Runs W E P m Q) (hp : ∀ s, P' s → P s) :
    Runs W E P' m Q := fun s hs => h s (hp s hs)

end

/-! ### Register accesses -/

theorem access_kept (W : List Reg) (s : State) : Kept W s s.tick :=
  ⟨rfl, rfl, rfl, rfl, rfl, rfl, rfl, rfl, rfl, rfl, (runMoves_moved _ _ _).1, fun a _ h => (runMoves_moved _ _ _).2 a h⟩

/-- A property of the state that accesses and writes of the registers `W` cannot change. -/
def Stable (W : List Reg) (P : State → Prop) : Prop := ∀ s t, Kept W s t → P s → P t

theorem Runs.load {W : List Reg} {E : List ErrKind} {P : State → Prop} {r : Reg} (hr : r.access = .rw)
    (hP : Stable W P) (hE : .transport ∈ E) : Runs W E P (load r) fun v s => P s ∧ v = s.asic.regVal r := by
  intro s hs
  rw [load_run]
  rcases readReg_cases hr s with h | h <;> rw [h]
  · exact ⟨access_kept W s, hP _ _ (access_kept W s) hs, rfl⟩
  · exact ⟨access_kept W s, hE⟩

theorem not_covers_of_mem {W : List Reg} {r : Reg} {addr : Nat} (hr : r ∈ W) (h : inRegs W addr = false) :
    r.covers addr = false := by
  unfold inRegs at h
  rw [List.any_eq_false] at h
  simpa using h r hr

/-- The state after bytes of one register have landed. -/
theorem stored_kept {W : List Reg} {r : Reg} (hr : r ∈ W) {s : State} {cells : List Host.Cell} {a : Asic}
    (hc : ∀ c ∈ cells, r.covers c.1 = true) (h : storeCells s.par s.asic cells = .ok a) :
    Kept W s { s with asic := a } :=
  ⟨rfl, rfl, rfl, rfl, rfl, rfl, rfl, rfl, rfl, rfl, (storeCells_regs h).1, fun addr h1 _ =>
    (storeCells_regs h).2 addr fun c hcm e => by
      have := hc c hcm
      rw [e, not_covers_of_mem hr h1] at this
      exact absurd this Bool.false_ne_true⟩

theorem cells_covered (r : Reg) (v : Nat) : ∀ c ∈ cellsFrom r.addr (leBytes r.width v).reverse, r.covers c.1 = true := by
  intro c hc
  have := cellsFrom_mem hc
  simp only [leBytes_reverse, beBytes_length] at this
  simp [Reg.covers, this]

theorem Kept.pend {W : List Reg} {s t : State} (h : Kept W s t) (v : Vector (Option Tod) 2) :
    Kept W s { t with asic := { t.asic with todPend := v } } :=
  ⟨h.par, h.dev, h.boot, h.lock, h.phase, h.perout, h.op, h.res, h.resTo, h.port, h.wf, h.get⟩

/-- A write of a register some value of which might fault: what it keeps where no byte of it faults. -/
theorem Runs.store {W : List Reg} {E : List ErrKind} {P : State → Prop} {Q : State → Prop} {r : Reg} {v : Nat}
    (hr : r ∈ W) (hP : Stable W P) (hE : .transport ∈ E)
    (hok : ∀ s, P s → ∀ ls, ∃ a, storeCells s.par s.asic
      (landedCells (cellsFrom r.addr (leBytes r.width v).reverse) ls) = .ok a)
    (hQ : ∀ s, P s → ∃ a, storeCells s.par s.asic (cellsFrom r.addr (leBytes r.width v).reverse) = .ok a ∧
      Q { s with asic := a }) :
    Runs W E P (store r v) fun _ s => Q s := by
  intro s hs
  rw [store_run]
  have hk := access_kept W s
  have hs' := hP _ _ hk hs
  unfold writeReg memWrite xferWrite land landFailed
  cases hf : s.failure with
  | some f =>
    obtain ⟨a, ha⟩ := hok _ hs' f.landed
    simp only [ha]
    exact ⟨hk.trans ((stored_kept hr (fun c hc => cells_covered r v c (landedCells_mem hc)) ha).pend _), hE⟩
  | none =>
    obtain ⟨a, ha, hq⟩ := hQ _ hs'
    simp only [ha]
    exact ⟨hk.trans (stored_kept hr (cells_covered r v) ha), hq⟩

/-- Bytes of a data register never fault as they land. -/
theorem storeCells_ok (p : Params) {r : Reg} (hc : isControl r = false) (ha : r.access ≠ .ro)
    (cells : List Host.Cell) (h : ∀ c ∈ cells, r.covers c.1 = true) (a : Asic) : ∃ b, storeCells p a cells = .ok b := by
  induction cells generalizing a with
  | nil => exact ⟨a, rfl⟩
  | cons c cs ih =>
    have h1 := h c (by simp)
    have h2 : storeByte p a c.1 c.2 = .ok (a.poke c.1 c.2) := by
      simp only [Reg.covers, Bool.and_eq_true, decide_eq_true_eq] at h1
      have := storeByte_data p hc ha (k := c.1 - r.addr) (by omega) a c.2
      rwa [show r.addr + (c.1 - r.addr) = c.1 by omega] at this
    obtain ⟨b, hb⟩ := ih (fun d hd => h d (by simp [hd])) (a.poke c.1 c.2)
    exact ⟨b, by unfold storeCells; rw [h2]; exact hb⟩

theorem storeCells_reg (p : Params) {r : Reg} (hc : isControl r = false) (ha : r.access ≠ .ro) (v : Nat) (a : Asic) :
    storeCells p a (cellsFrom r.addr (leBytes r.width v).reverse) = .ok (a.setReg r v) := by
  rw [leBytes_reverse,
    storeCells_data _ _ _ _ fun k hk a b => storeByte_data _ hc ha (by simpa using hk) a b]
  rfl

/-- A write of a data register. -/
theorem Runs.writeData {W : List Reg} {E : List ErrKind} {P : State → Prop} {r : Reg} {v : Nat} (hr : r ∈ W)
    (hc : isControl r = false) (ha : r.access ≠ .ro) (hP : Stable W P) (hE : .transport ∈ E) :
    Runs W E P (Machine.store r v) fun _ s => P s ∧ s.asic.regVal r = v % 256 ^ r.width := by
  refine Runs.store hr hP hE
    (fun s _ ls => storeCells_ok _ hc ha _ (fun c hc => cells_covered r v c (landedCells_mem hc)) _)
    fun s hs => ⟨_, storeCells_reg _ hc ha v _, hP _ _ (stored_kept hr (cells_covered r v)
      (storeCells_reg _ hc ha v _)) hs, ?_⟩
  show Memory.value (Memory.setValue _ r v) r = _
  unfold Memory.value Memory.setValue
  rw [bytes_setBytes_of_length _ _ _ _ (beBytes_length _ _), beVal_beBytes]

theorem landedCells_single (c : Host.Cell) (ls : List Bool) : landedCells [c] ls = [] ∨ landedCells [c] ls = [c] := by
  cases ls with
  | nil => exact .inl rfl
  | cons l ls => cases l <;> cases ls <;> simp [landedCells]

/-- A write of a control byte that is latched without a fault wherever `P` holds. -/
theorem Runs.writeCtrl {W : List Reg} {E : List ErrKind} {P Q : State → Prop} {r : Reg} {b : Byte} (hr : r ∈ W)
    (hw : r.width = 1) (hP : Stable W P) (hE : .transport ∈ E)
    (hok : ∀ s, P s → ∃ a, storeByte s.par s.asic r.addr b = .ok a ∧ Q { s with asic := a }) :
    Runs W E P (Machine.store r b.toNat) fun _ s => Q s := by
  have hcells : cellsFrom r.addr (leBytes r.width b.toNat).reverse = [(r.addr, b)] := by
    rw [hw, leBytes_one]
    simp [cellsFrom]
  refine Runs.store hr hP hE (fun s hs ls => ?_) fun s hs => ?_
  · obtain ⟨a, ha, _⟩ := hok s hs
    rw [hcells]
    rcases landedCells_single (r.addr, b) ls with e | e <;> rw [e]
    · exact ⟨_, rfl⟩
    · exact ⟨a, by simp [storeCells, ha]⟩
  · obtain ⟨a, ha, hq⟩ := hok s hs
    exact ⟨a, by rw [hcells]; simp [storeCells, ha], hq⟩

theorem Runs.pollClear {W : List Reg} {E : List ErrKind} {P : State → Prop} {r : Reg} (hr : r.access = .rw) (mask : Byte)
    (hP : Stable W P) (hE : .transport ∈ E) (hE' : .timeout ∈ E) (n : Nat) :
    Runs W E P (pollClear r mask n) fun _ s => P s := by
  induction n with
  | zero => exact (Runs.raise hE').on
  | succ n ih =>
    unfold Machine.pollClear
    refine Runs.mark ((Runs.load hr hP hE).on.bind fun v => Runs.mark ?_)
    split
    · exact Runs.pure fun s hs => hs.1
    · exact Runs.mark (ih.pre fun s hs => hs.1)

/-- A poll keeps every property that accesses keep; it can time out. -/
theorem Runs.poll {W : List Reg} {E : List ErrKind} {P : State → Prop} {r : Reg} (hr : r.access = .rw) (mask : Byte)
    (hP : Stable W P) (hE : .transport ∈ E) (hE' : .timeout ∈ E) : Runs W E P (poll r mask) fun _ s => P s := by
  unfold Machine.poll
  exact Runs.params.bind fun v => (Runs.pollClear hr mask hP hE hE' _).pre fun s hs => hs.1

theorem stable_true (W : List Reg) : Stable W fun _ => True := fun _ _ _ _ => trivial

/-- A register the responder never writes has no byte in its area. -/
theorem responderArea_reg {r : Reg} (hr : r ∉ responderRegs) (hw : windowOf r = none) (p : Params) {k : Nat}
    (hk : k < r.width) : responderArea p (r.addr + k) = false := by
  unfold responderArea
  rw [Bool.or_eq_false_iff]
  constructor
  · show inRegs responderRegs (r.addr + k) = false
    unfold inRegs
    rw [List.any_eq_false]
    intro r' hr' hc
    exact hr (covers_unique (r := r) (r' := r') (by simp [Reg.covers, hk]) hc ▸ hr')
  · rw [List.any_eq_false]
    intro d _
    have := window_apart p (r := r) (d := d) (by rw [hw]; simp)
    simp only [Bool.and_eq_true, decide_eq_true_eq, not_and, not_lt]
    omega

/-- A register neither the sequence nor the responder writes keeps its value. -/
theorem kept_regVal {W : List Reg} {r : Reg} (hW : r ∉ W) (hr : r ∉ responderRegs) (hw : windowOf r = none)
    {s t : State} (h : Kept W s t) : t.asic.regVal r = s.asic.regVal r := by
  have hn : ∀ k < r.width, inRegs W (r.addr + k) = false := by
    intro k hk
    unfold inRegs
    rw [List.any_eq_false]
    intro r' hr' hc
    exact hW (covers_unique (r := r) (r' := r') (by simp [Reg.covers, hk]) hc ▸ hr')
  unfold Asic.regVal Memory.value
  rw [bytes_congr _ _ _ _ fun k hk => h.get _ (hn k hk) (responderArea_reg hr hw _ hk)]

end Sys2Proof.Machine
end

