-- ==== Sys2Proof/Laws/Keeps.lean ====
section
/-! SUPPORT. Properties of the ASIC side that every move and every landing byte keeps are kept by every sequence; and the
agreement of request flags and latches (`Asic.Handshake`) is one. -/

namespace Sys2Proof.Machine

/-! ### Properties every access keeps -/

/-- A property of the ASIC side that moves, landing bytes, draws and triggered TOD writes keep. -/
structure Lasting (I : Asic → Prop) : Prop where
  move : ∀ p mv a, I a → I (applyMove p mv a)
  store : ∀ p a addr b a', I a → storeByte p a addr b = .ok a' → I a'
  draw : ∀ a n, I a → I { a with draws := n }
  pend : ∀ a v, I a → I { a with todPend := v }

/-- The state a result leaves, also where it ends early. -/
def left {α : Type} : EStateM.Result Stop State α → State
  | .ok _ s => s
  | .error _ s => s

/-- A controller step keeps a property of the ASIC side, however it ends. -/
def Keeps {α : Type} (I : Asic → Prop) (m : Seq α) : Prop := ∀ s, I s.asic → I (left (m s)).asic

section
variable {I : Asic → Prop} {α β : Type}

theorem Lasting.moves (h : Lasting I) (p : Params) (mvs : List Move) (a : Asic) (ha : I a) : I (runMoves p mvs a) := by
  unfold runMoves
  induction mvs generalizing a with
  | nil => exact ha
  | cons mv mvs ih => exact ih _ (h.move p mv a ha)

theorem Lasting.cells (h : Lasting I) (p : Params) (cells : List Host.Cell) {a b : Asic} (ha : I a)
    (hb : storeCells p a cells = .ok b) : I b := by
  induction cells generalizing a with
  | nil => cases hb; exact ha
  | cons c cs ih =>
    unfold storeCells at hb
    split at hb
    · next a' h' => exact ih (h.store _ _ _ _ _ ha h') hb
    · cases hb

theorem Lasting.tick (h : Lasting I) {s : State} (hs : I s.asic) : I s.tick.asic := h.moves _ _ _ hs

theorem Lasting.xferRead (h : Lasting I) (addr n : Nat) : Keeps I (xferRead addr n) := by
  intro s hs
  unfold Machine.xferRead
  cases s.failure with
  | some ls => exact h.tick hs
  | none =>
    show I (if _ then _ else s.tick).asic
    split
    · exact h.draw _ _ (h.tick hs)
    · exact h.tick hs

theorem Lasting.land (h : Lasting I) (cells : List Host.Cell) : Keeps I (land cells) := by
  intro s hs
  unfold Machine.land
  cases hc : storeCells s.par s.asic cells with
  | error f => exact hs
  | ok a => exact h.cells _ _ hs hc

theorem Lasting.landFailed (h : Lasting I) (cells : List Host.Cell) (f : Failure) : Keeps I (landFailed cells f) := by
  intro s hs
  unfold Machine.landFailed
  cases hc : storeCells s.par s.asic (landedCells cells f.landed) with
  | error f => exact hs
  | ok a => exact h.pend _ _ (h.cells _ _ hs hc)

theorem Lasting.xferWrite (h : Lasting I) (addr : Nat) (buf : List Byte) : Keeps I (xferWrite addr buf) := by
  intro s hs
  unfold Machine.xferWrite
  cases s.failure with
  | some f => exact h.landFailed _ _ _ (h.tick hs)
  | none => exact h.land _ _ (h.tick hs)

theorem Lasting.readReg (h : Lasting I) (r : Reg) : Keeps I (readReg r) := by
  intro s hs
  have := h.xferRead r.addr r.width s hs
  unfold Machine.readReg memRead
  rw [seq_bind]
  cases hx : Machine.xferRead r.addr r.width s <;> rw [hx] at this <;> exact this

theorem Lasting.writeReg (h : Lasting I) (r : Reg) (v : Nat) : Keeps I (writeReg r v) := h.xferWrite _ _

theorem Lasting.perform (h : Lasting I) (a : Act) : Keeps I a.perform := by
  intro s hs
  cases a with
  | line _ => exact hs
  | read r => exact h.readReg r s hs
  | write r v =>
    have := h.writeReg r v s hs
    simp only [Act.perform]
    cases hx : Machine.writeReg r v s <;> rw [hx] at this <;> exact this
  | perout _ => exact hs
  | markPair _ _ _ => exact hs
  | todDone _ => exact hs

/-- Every program keeps it. -/
theorem Lasting.run (h : Lasting I) (m : Prog α) : Keeps I m.run := by
  induction m with
  | ret a => exact fun _ hs => hs
  | raise e => exact fun _ hs => hs
  | act a k ih =>
    intro s hs
    have := h.perform a s hs
    simp only [Prog.run]
    cases hx : a.perform s with
    | ok v s' => rw [hx] at this; exact ih v s' this
    | error e s' => rw [hx] at this; exact this
  | params k ih => exact fun s hs => ih _ s hs

/-- What a step to the end leaves keeps it. -/
theorem Lasting.finish (_ : Lasting I) {r : EStateM.Result Stop State Reply} (hr : I (left r).asic) {t : State}
    (ht : finish r = .next t) : I t.asic := by
  unfold Machine.finish at ht
  split at ht <;> cases ht <;> exact hr

end

/-! ### The canonical form -/

theorem lasting_wf : Lasting fun a => a.regs.wf = true where
  move p mv a h := (applyMove_moved p mv a).1 h
  store p a addr b a' h hb := by
    rcases storeByte_regs hb with e | e <;> rw [e]
    · exact wf_set _ _ _ h
    · exact h
  draw _ _ h := h
  pend _ _ h := h

/-! ### Flags and latches agree -/

theorem ctrl_addr_inj {r r' : Reg} (hc : isControl r = true) (hc' : isControl r' = true) (h : r ≠ r') :
    r'.addr ≠ r.addr := by
  have := regs_apart h
  rw [control_width hc, control_width hc'] at this
  omega

/-- The agreement depends on control bytes and latches alone. -/
theorem Asic.Handshake.congr {a b : Asic} (h : a.Handshake)
    (hr : ∀ r : Reg, r = .tieCtrl ∨ r = .psCtrl ∨ (∃ d, r = .mbSem d) → b.ctrlByte r = a.ctrlByte r)
    (h1 : b.mbReq = a.mbReq) (h3 : b.tiePend = a.tiePend) (h4 : b.psPend = a.psPend) : b.Handshake := by
  refine ⟨fun d hd => ?_, ?_, ?_⟩
  · rw [hr _ (.inr (.inr ⟨d, rfl⟩)), Asic.req, h1]; exact h.1 d hd
  · rw [hr _ (.inl rfl), h3]; exact h.2.1
  · rw [hr _ (.inr (.inl rfl)), h4]; exact h.2.2

/-- One semaphore and its request replaced together. -/
theorem Asic.Handshake.sem {a b : Asic} (h : a.Handshake) (d : Domain) {v : Byte} {q : MbReq}
    (hregs : b.regs = a.regs.set (Reg.mbSem d).addr v) (hreq : b.mbReq = upd a.mbReq d.idx q)
    (hv : v &&& semBoth = q.flags) (h3 : b.tiePend = a.tiePend) (h4 : b.psPend = a.psPend) : b.Handshake := by
  refine ⟨fun e he => ?_, ?_, ?_⟩
  · by_cases hd : d = e
    · subst hd
      unfold Asic.ctrlByte Asic.req
      rw [hregs, get_set_same, hreq, upd_get_same]
      exact hv
    · have h1 := h.1 e he
      unfold Asic.ctrlByte Asic.req at h1 ⊢
      rw [hregs, get_set_ne _ _ (ctrl_addr_inj (r := .mbSem e) rfl rfl (by simpa using fun x => hd x.symm)), hreq,
        upd_get_ne _ _ (fun x => hd (domain_idx_inj x))]
      exact h1
  · have h1 := h.2.1
    unfold Asic.ctrlByte at h1 ⊢
    rw [hregs, get_set_ne _ _ (ctrl_addr_inj (r := .tieCtrl) rfl rfl (by simp)), h3]
    exact h1
  · have h1 := h.2.2
    unfold Asic.ctrlByte at h1 ⊢
    rw [hregs, get_set_ne _ _ (ctrl_addr_inj (r := .psCtrl) rfl rfl (by simp)), h4]
    exact h1

/-- The TIE control byte and latch replaced together. -/
theorem Asic.Handshake.tie {a b : Asic} (h : a.Handshake) {v : Byte} (hregs : b.regs = a.regs.set Reg.tieCtrl.addr v)
    (hreq : b.mbReq = a.mbReq) (hv : b.tiePend = none ↔ v &&& tieOp = 0) (h4 : b.psPend = a.psPend) :
    b.Handshake := by
  refine ⟨fun e he => ?_, ?_, ?_⟩
  · have h1 := h.1 e he
    unfold Asic.ctrlByte Asic.req at h1 ⊢
    rw [hregs, get_set_ne _ _ (ctrl_addr_inj (r := .mbSem e) rfl rfl (by simp)), hreq]
    exact h1
  · unfold Asic.ctrlByte
    rw [hregs, get_set_same]
    exact hv
  · have h1 := h.2.2
    unfold Asic.ctrlByte at h1 ⊢
    rw [hregs, get_set_ne _ _ (ctrl_addr_inj (r := .psCtrl) rfl rfl (by simp)), h4]
    exact h1

/-- The phase-step control byte and latch replaced together. -/
theorem Asic.Handshake.ps {a b : Asic} (h : a.Handshake) {v : Byte} (hregs : b.regs = a.regs.set Reg.psCtrl.addr v)
    (hreq : b.mbReq = a.mbReq) (hv : b.psPend = none ↔ v &&& psOp = 0) (h3 : b.tiePend = a.tiePend) :
    b.Handshake := by
  refine ⟨fun e he => ?_, ?_, ?_⟩
  · have h1 := h.1 e he
    unfold Asic.ctrlByte Asic.req at h1 ⊢
    rw [hregs, get_set_ne _ _ (ctrl_addr_inj (r := .mbSem e) rfl rfl (by simp)), hreq]
    exact h1
  · have h1 := h.2.1
    unfold Asic.ctrlByte at h1 ⊢
    rw [hregs, get_set_ne _ _ (ctrl_addr_inj (r := .tieCtrl) rfl rfl (by simp)), h3]
    exact h1
  · unfold Asic.ctrlByte
    rw [hregs, get_set_same]
    exact hv

theorem clear_read : ∀ b : Byte, b &&& semBoth = semRead → clearBits b semRead &&& semBoth = 0 := by decide +kernel
theorem clear_write : ∀ b : Byte, b &&& semBoth = semWrite → clearBits b semWrite &&& semBoth = 0 := by decide +kernel
theorem clear_tie : ∀ b : Byte, clearBits b tieOp &&& tieOp = 0 := by decide +kernel
theorem clear_ps : ∀ b : Byte, clearBits b psOp &&& psOp = 0 := by decide +kernel

theorem get_setBytes_sem (p : Params) (a : Asic) (d : Domain) (k : Fin d.count) {r : Reg} (hc : isControl r = true) :
    (a.regs.setBytes d.winBase (a.image p d k)).get r.addr = a.regs.get r.addr := by
  have hl := image_length p a d k
  have hw := window_apart p (r := r) (d := d) (by
    cases r <;> first | exact absurd hc Bool.false_ne_true | simp [windowOf])
  have := width_pos r
  rw [get_setBytes_out _ _ _ _ (by omega)]

theorem commit_fold_pend (d : Domain) (m : BitVec 16) (bs : List Byte) (l : List (Fin d.count)) (a : Asic) :
    (l.foldl (fun a k => if m.getLsbD k.1 then a.commit d k bs else a) a).mbReq = a.mbReq ∧
    (l.foldl (fun a k => if m.getLsbD k.1 then a.commit d k bs else a) a).tiePend = a.tiePend ∧
    (l.foldl (fun a k => if m.getLsbD k.1 then a.commit d k bs else a) a).psPend = a.psPend := by
  induction l generalizing a with
  | nil => exact ⟨rfl, rfl, rfl⟩
  | cons k l ih =>
    rw [List.foldl_cons]
    obtain ⟨h1, h2, h3⟩ := ih (if m.getLsbD k.1 then a.commit d k bs else a)
    rw [h1, h2, h3]
    split
    · cases d <;> exact ⟨rfl, rfl, rfl⟩
    · exact ⟨rfl, rfl, rfl⟩

theorem handshake_mbAck (p : Params) (d : Domain) {a : Asic} (h : a.Handshake) : (mbAck p d a).Handshake := by
  have hs := h.1 d (mem_allDomains d)
  unfold mbAck
  split
  · exact h
  · next m hm =>
    rw [hm] at hs
    unfold ackRead
    split
    · next k _ =>
      have hw : (a.setWindow d (a.image p d k)).Handshake := h.congr (fun r hr => by
        refine get_setBytes_sem p a d k ?_
        rcases hr with rfl | rfl | ⟨e, rfl⟩ <;> rfl) rfl rfl rfl
      refine hw.sem d (q := .none) rfl rfl ?_ rfl rfl
      refine clear_read _ ?_
      unfold Asic.ctrlByte
      rw [Asic.setWindow_regs, get_setBytes_sem p a d k rfl]
      exact hs
    · exact h
  · next m hm =>
    rw [hm] at hs
    unfold ackWrite
    split
    · obtain ⟨h1, h2, h3⟩ := commit_fold_pend d m (a.window p d) (List.finRange d.count) a
      have hr : (a.commitMask d m (a.window p d)).regs = a.regs := commitMask_regs ..
      have hw : (a.commitMask d m (a.window p d)).Handshake :=
        h.congr (fun r _ => by unfold Asic.ctrlByte; rw [hr]) h1 h2 h3
      refine hw.sem d (q := .none) rfl rfl ?_ rfl rfl
      refine clear_write _ ?_
      unfold Asic.ctrlByte
      rw [hr]
      exact hs
    · exact h

theorem ctrl_latchTime (a : Asic) (i : Fin 2) (sec ns : Nat) {r : Reg} (hc : isControl r = true) (hn : ∀ i, r ≠ .todCtrl i) :
    (a.latchTime i sec ns).ctrlByte r = a.ctrlByte r := by
  have h1 : ∀ r' : Reg, isControl r' = false → r'.covers r.addr = false := fun r' h' => by
    by_contra hcov
    have := covers_unique (r := r') (r' := r) (addr := r.addr) (by simpa using hcov) (by simp [Reg.covers, width_pos])
    rw [this, hc] at h'
    exact Bool.false_ne_true h'.symm
  show Memory.get (Memory.set _ _ _) _ = _
  rw [get_set_ne _ _ (ctrl_addr_inj (r := r) (r' := .todCtrl i) hc rfl (hn i)), get_setValue_out _ _ _ _ (h1 _ rfl),
    get_setValue_out _ _ _ _ (h1 _ rfl)]
  rfl

theorem tieFold_pend (l : TieLatch) (ds : List (Fin 2)) (a : Asic) :
    (ds.foldl (tieStep l) a).mbReq = a.mbReq ∧ (ds.foldl (tieStep l) a).psPend = a.psPend := by
  induction ds generalizing a with
  | nil => exact ⟨rfl, rfl⟩
  | cons d ds ih =>
    rw [List.foldl_cons, (ih _).1, (ih _).2]
    unfold tieStep
    split <;> exact ⟨rfl, rfl⟩

theorem psStep_pend (l : PsLatch) (a : Asic) : (psStep l a).mbReq = a.mbReq ∧ (psStep l a).tiePend = a.tiePend := by
  unfold psStep
  split
  · split <;> exact ⟨rfl, rfl⟩
  · exact ⟨rfl, rfl⟩

theorem not_todCtrl {r : Reg} (h : r = .tieCtrl ∨ r = .psCtrl ∨ ∃ d, r = .mbSem d) :
    isControl r = true ∧ ∀ i, r ≠ .todCtrl i := by
  rcases h with rfl | rfl | ⟨d, rfl⟩ <;> exact ⟨rfl, fun i => by simp⟩

theorem handshake_todClear (i : Fin 2) (m : Byte) {a b : Asic} (h : a.Handshake) (h0 : b.regs = a.regs)
    (h1 : b.mbReq = a.mbReq) (h3 : b.tiePend = a.tiePend) (h4 : b.psPend = a.psPend) :
    (b.clearFlag (.todCtrl i) m).Handshake :=
  h.congr (fun r hr => by
    obtain ⟨hc, hn⟩ := not_todCtrl hr
    unfold Asic.ctrlByte
    rw [Asic.clearFlag_regs, get_set_ne _ _ (ctrl_addr_inj (r := r) (r' := .todCtrl i) hc rfl (hn i)), h0]) h1 h3 h4

theorem handshake_move (p : Params) (mv : Move) {a : Asic} (h : a.Handshake) : (applyMove p mv a).Handshake := by
  cases mv with
  | mbAck d => exact handshake_mbAck p d h
  | todAck i =>
    have hl : ∀ sec ns, (a.latchTime i sec ns).Handshake := fun sec ns => h.congr (fun r hr => by
      obtain ⟨hc, hn⟩ := not_todCtrl hr
      exact ctrl_latchTime a i sec ns hc hn) rfl rfl rfl
    show (todAck i a).Handshake
    unfold todAck
    split
    · exact hl _ _
    · exact (hl _ _).congr (fun _ _ => rfl) rfl rfl rfl
    · exact h
    · exact h
  | tieAck =>
    show (tieAck a).Handshake
    unfold tieAck
    split
    · next l _ =>
      obtain ⟨h1, h2⟩ := tieFold_pend l (List.finRange 2) a
      refine h.tie (v := clearBits (a.ctrlByte .tieCtrl) tieOp) ?_ h1 ⟨fun _ => clear_tie _, fun _ => rfl⟩ h2
      show Memory.set (Asic.regs (List.foldl _ _ _)) _ (clearBits (Memory.get (Asic.regs (List.foldl _ _ _)) _) _) = _
      rw [tieFold_regs]
      rfl
    · exact h
  | psAck =>
    show (psAck a).Handshake
    unfold psAck
    split
    · next l _ =>
      obtain ⟨h1, h2⟩ := psStep_pend l a
      refine h.ps (v := clearBits (a.ctrlByte .psCtrl) psOp) ?_ h1 ⟨fun _ => clear_ps _, fun _ => rfl⟩ h2
      show Memory.set (psStep l a).regs _ (clearBits (Memory.get (psStep l a).regs _) _) = _
      rw [psStep_regs]
      rfl
    · exact h
  | advance i ns =>
    show (clockAdvance i ns a).Handshake
    unfold clockAdvance
    split
    · exact h.congr (fun _ _ => rfl) rfl rfl rfl
    · exact h
  | edge i =>
    show (clockEdge i a).Handshake
    unfold clockEdge
    split
    · exact handshake_todClear i _ h rfl rfl rfl rfl
    · exact h.congr (fun _ _ => rfl) rfl rfl rfl
  | reprogram k b =>
    show (reprogram k b a).Handshake
    unfold reprogram
    split
    · exact h.congr (fun _ _ => rfl) rfl rfl rfl
    · exact h

theorem handshake_data {a b : Asic} {addr : Nat} {v : Byte} (h : a.Handshake) (hregs : b.regs = a.regs.set addr v)
    (hn : ∀ r : Reg, r = .tieCtrl ∨ r = .psCtrl ∨ (∃ d, r = .mbSem d) → addr ≠ r.addr)
    (h1 : b.mbReq = a.mbReq) (h3 : b.tiePend = a.tiePend) (h4 : b.psPend = a.psPend) : b.Handshake :=
  h.congr (fun r hr => by unfold Asic.ctrlByte; rw [hregs, get_set_ne _ _ (hn r hr)]) h1 h3 h4

theorem tie_one : ¬((0x01 : Byte) &&& tieOp = 0) := by decide

theorem ps_one : ∀ b : Byte, b &&& 0x07 = 0x01 → ¬(b &&& psOp = 0) := by decide +kernel
theorem ps_zero : ∀ b : Byte, b &&& 0x07 = 0 → b &&& psOp = 0 := by decide +kernel

theorem regAt_ne_addr {addr : Nat} {o : Option Reg} {r : Reg} (h : regAt addr = o) (hr : o ≠ some r) : addr ≠ r.addr := by
  rintro rfl
  rw [regAt_first] at h
  exact hr h.symm

theorem handshake_store {p : Params} {a a' : Asic} {addr : Nat} {b : Byte} (h : a.Handshake)
    (hs : storeByte p a addr b = .ok a') : a'.Handshake := by
  unfold storeByte at hs
  split at hs
  · cases hs; exact h
  · next d hr =>
    have h0 := h.1 d (mem_allDomains d)
    unfold latchSem at hs
    split at hs
    · next hb =>
      split at hs <;> cases hs
      exact h.sem d rfl rfl (by subst hb; rfl) rfl rfl
    · split at hs
      · next hb =>
        split at hs <;> cases hs
        exact h.sem d rfl rfl (by subst hb; rfl) rfl rfl
      · split at hs <;> cases hs
        next hb =>
        obtain ⟨hb0, hreq⟩ := hb
        subst hb0
        refine h.sem d (q := .none) rfl ?_ (by decide) rfl rfl
        rw [show (MbReq.none) = a.mbReq.get d.idx from hreq.symm, upd_self]
        rfl
  · next i hr =>
    have key : ∀ v : Byte, ∀ b' : Asic, b'.regs = a.regs.set (Reg.todCtrl i).addr v → b'.mbReq = a.mbReq →
        b'.tiePend = a.tiePend → b'.psPend = a.psPend → b'.Handshake := fun v b' e1 e2 e3 e4 =>
      handshake_data h e1 (fun r hr => by
        obtain ⟨hc, hn⟩ := not_todCtrl hr
        exact ctrl_addr_inj hc rfl (hn i)) e2 e3 e4
    have hregs := latchTod_regs hs
    unfold latchTod at hs
    split at hs
    · cases hs; exact key b _ hregs rfl rfl rfl
    · split at hs
      · cases hs; exact key b _ hregs rfl rfl rfl
      · split at hs <;> cases hs
        exact key b _ hregs rfl rfl rfl
  · have hregs := latchTie_regs hs
    unfold latchTie at hs
    split at hs
    · next hb =>
      cases hs
      exact h.tie hregs rfl ⟨fun e => by simp at e, fun e => by subst hb; exact absurd e tie_one⟩ rfl
    · split at hs <;> cases hs
      next hb =>
      subst hb
      exact h.tie hregs rfl ⟨fun _ => by decide, fun _ => rfl⟩ rfl
  · have hregs := latchPs_regs hs
    unfold latchPs at hs
    split at hs
    · next hb =>
      cases hs
      exact h.ps hregs rfl ⟨fun e => by simp at e, fun e => absurd e (ps_one b hb)⟩ rfl
    · split at hs <;> cases hs
      next hb =>
      exact h.ps hregs rfl ⟨fun _ => ps_zero b hb, fun _ => rfl⟩ rfl
  · next r hr1 hr2 hr3 hr4 hr5 hr6 =>
    cases hs
    refine handshake_data (b := a.poke addr b) h rfl (fun r' hr' => ?_) rfl rfl rfl
    rcases hr' with rfl | rfl | ⟨d, rfl⟩
    · refine regAt_ne_addr hr6 fun e => ?_
      cases e
      simp_all
    · refine regAt_ne_addr hr6 fun e => ?_
      cases e
      simp_all
    · refine regAt_ne_addr hr6 fun e => ?_
      cases e
      simp_all
  · next hr =>
    split at hs <;> cases hs
    · exact handshake_data (b := a.poke addr b) h rfl (fun r' _ => regAt_ne_addr hr (by simp)) rfl rfl rfl
    · exact h

/-- Every move and every landing byte keeps flags and latches in agreement. -/
theorem lasting_handshake : Lasting Asic.Handshake where
  move p mv _ h := handshake_move p mv h
  store _ _ _ _ _ h hs := handshake_store h hs
  draw _ _ h := h
  pend _ _ h := h.congr (fun _ _ => rfl) rfl rfl rfl

/-! ### What an attach finds -/

theorem found_ctrlByte (a : Asic) (r : Reg) : a.found.ctrlByte r = a.ctrlByte r := get_canon _ _

theorem found_req (a : Asic) (d : Domain) : a.found.req d = a.foundReq d := by cases d <;> rfl

theorem found_todPend (a : Asic) (i : Fin 2) :
    a.found.todPend.get i = if a.ctrlByte (.todCtrl i) &&& todSem = 0 then none else a.todPend.get i := by
  show (Vector.ofFn _).get i = _
  rw [get_eq_getElem, Vector.getElem_ofFn]

theorem found_tod (a : Asic) (i : Fin 2) :
    a.found.tod.get i = ⟨(a.tod.get i).sec, BitVec.ofNat 32 ((a.tod.get i).ns.toNat % nsPerS)⟩ := by
  show (Vector.map _ _).get i = _
  rw [get_eq_getElem, Vector.getElem_map, get_eq_getElem]

/-- An attach installs only what R40 allows. -/
theorem found_attachable (a : Asic) : a.found.Attachable := by
  refine ⟨wf_canon _, fun d _ h => ?_, fun i => ⟨fun h => ?_, ?_⟩, fun h => ?_, fun h => ?_⟩
  · rw [found_ctrlByte] at h
    rw [found_req, Asic.foundReq, if_pos h]
  · rw [found_ctrlByte] at h
    rw [found_todPend, if_pos h]
  · rw [found_tod]
    show (BitVec.ofNat 32 _).toNat < _
    rw [BitVec.toNat_ofNat]
    have := Nat.mod_lt (a.tod.get i).ns.toNat (show 0 < nsPerS by decide)
    exact lt_of_le_of_lt (Nat.mod_le _ _) this
  · rw [found_ctrlByte] at h
    exact if_pos h
  · rw [found_ctrlByte] at h
    exact if_pos h

/-- What R40 allows is installed as it is. -/
theorem found_of_attachable {a : Asic} (h : a.Attachable) : a.found = a := by
  obtain ⟨h1, h2, h3, h4, h5⟩ := h
  have hreq : ∀ d, a.foundReq d = a.req d := fun d => by
    unfold Asic.foundReq
    split
    · next h => exact (h2 d (mem_allDomains d) h).symm
    · rfl
  have e1 : a.found.regs = a.regs := canon_of_wf _ h1
  have e2 : a.found.mbReq = a.mbReq := by
    apply table_ext
    intro j
    have hj : ∀ d : Domain, a.found.mbReq.get d.idx = a.mbReq.get d.idx := fun d => (found_req a d).trans (hreq d)
    match j with
    | 0 => exact hj .ref
    | 1 => exact hj .dpll
    | 2 => exact hj .synth
    | 3 => exact hj .out
  have e3 : a.found.tod = a.tod := by
    apply table_ext
    intro i
    rw [found_tod, Nat.mod_eq_of_lt (show _ < nsPerS from (h3 i).2), BitVec.ofNat_toNat, BitVec.setWidth_eq]
  have e4 : a.found.todPend = a.todPend := by
    apply table_ext
    intro i
    rw [found_todPend]
    split
    · next h => exact ((h3 i).1 h).symm
    · rfl
  have e5 : a.found.tiePend = a.tiePend := by
    show (if _ then _ else _) = _
    split
    · next h => exact (h4 h).symm
    · rfl
  have e6 : a.found.psPend = a.psPend := by
    show (if _ then _ else _) = _
    split
    · next h => exact (h5 h).symm
    · rfl
  calc a.found
    _ = { a with
          regs := a.found.regs, mbReq := a.found.mbReq, tod := a.found.tod, todPend := a.found.todPend
          tiePend := a.found.tiePend, psPend := a.found.psPend } := rfl
    _ = a := by rw [e1, e2, e3, e4, e5, e6]

/-- Flags and latches that agree still do. -/
theorem found_handshake {a : Asic} (h : a.Handshake) : a.found.Handshake := by
  refine h.congr (fun r _ => found_ctrlByte a r) ?_ ?_ ?_
  · apply table_ext
    intro j
    have hj : ∀ d : Domain, a.found.mbReq.get d.idx = a.mbReq.get d.idx := fun d => by
      refine (found_req a d).trans ?_
      unfold Asic.foundReq
      split
      · next h0 =>
        have h1 := h.1 d (mem_allDomains d)
        rw [h0] at h1
        show _ = a.req d
        cases hq : a.req d with
        | none => rfl
        | read m =>
          rw [hq] at h1
          exact absurd h1 (show ¬(0 : Byte) = semRead by decide)
        | write m =>
          rw [hq] at h1
          exact absurd h1 (show ¬(0 : Byte) = semWrite by decide)
      · rfl
    match j with
    | 0 => exact hj .ref
    | 1 => exact hj .dpll
    | 2 => exact hj .synth
    | 3 => exact hj .out
  · show (if _ then _ else _) = _
    split
    · next h0 => exact (h.2.1.2 h0).symm
    · rfl
  · show (if _ then _ else _) = _
    split
    · next h0 => exact (h.2.2.2 h0).symm
    · rfl

end Sys2Proof.Machine
end

