-- ==== Sys2Proof/Laws/PerInstr.lean ====
section
/-! SUPPORT. Facts of every instruction as syntax, one lemma per constructor. -/

namespace Sys2Proof.Laws.EncodedForm

open Sys2Proof.Machine

/-- A request is 18 bytes long (R110). -/
theorem length_requestBytes (op a : Byte) (x y : BitVec 64) : (requestBytes op a x y).length = 18 := by
  simp [requestBytes]

/-- The words of an instruction have the form their port takes (R100, R110): an operation is a request of 18 bytes whose
first byte is its opcode, a command one byte written to a readable register one byte wide. -/
def Statement (i : Instr) : Prop :=
  match encode i with
  | .request bs => bs.length = 18 ∧ i.opcode = some (reqOpcode bs) ∧ i.isOperation = true
  | .regWrite addr _ =>
    i.isOperation = false ∧ i.opcode = none ∧ ∃ r, regAt addr.toNat = some r ∧ r.width = 1 ∧ r.access = .rw

theorem todGet (a : Byte) : Statement (.todGet a) := ⟨length_requestBytes _ _ _ _, rfl, rfl⟩
theorem todSet (a : Byte) (x : BitVec 64) (y : BitVec 64) : Statement (.todSet a x y) :=
  ⟨length_requestBytes _ _ _ _, rfl, rfl⟩
theorem steptime (a : Byte) (x : BitVec 64) : Statement (.steptime a x) := ⟨length_requestBytes _ _ _ _, rfl, rfl⟩
theorem adjfine (a : Byte) (x : BitVec 64) : Statement (.adjfine a x) := ⟨length_requestBytes _ _ _ _, rfl, rfl⟩
theorem adjphase (a : Byte) (x : BitVec 64) : Statement (.adjphase a x) := ⟨length_requestBytes _ _ _ _, rfl, rfl⟩
theorem synthFreqGet (a : Byte) : Statement (.synthFreqGet a) := ⟨length_requestBytes _ _ _ _, rfl, rfl⟩
theorem refFreqGet (a : Byte) : Statement (.refFreqGet a) := ⟨length_requestBytes _ _ _ _, rfl, rfl⟩
theorem refFreqSet (a : Byte) (x : BitVec 64) : Statement (.refFreqSet a x) := ⟨length_requestBytes _ _ _ _, rfl, rfl⟩
theorem outFreqGet (a : Byte) : Statement (.outFreqGet a) := ⟨length_requestBytes _ _ _ _, rfl, rfl⟩
theorem outFreqSet (a : Byte) (x : BitVec 64) : Statement (.outFreqSet a x) := ⟨length_requestBytes _ _ _ _, rfl, rfl⟩
theorem refPhaseCompGet (a : Byte) : Statement (.refPhaseCompGet a) := ⟨length_requestBytes _ _ _ _, rfl, rfl⟩
theorem refPhaseCompSet (a : Byte) (x : BitVec 64) : Statement (.refPhaseCompSet a x) :=
  ⟨length_requestBytes _ _ _ _, rfl, rfl⟩
theorem outPhaseCompGet (a : Byte) : Statement (.outPhaseCompGet a) := ⟨length_requestBytes _ _ _ _, rfl, rfl⟩
theorem outPhaseCompSet (a : Byte) (x : BitVec 64) : Statement (.outPhaseCompSet a x) :=
  ⟨length_requestBytes _ _ _ _, rfl, rfl⟩
theorem pinEnable (a : Byte) : Statement (.pinEnable a) := ⟨length_requestBytes _ _ _ _, rfl, rfl⟩
theorem pinDisable (a : Byte) : Statement (.pinDisable a) := ⟨length_requestBytes _ _ _ _, rfl, rfl⟩
theorem peroutEnable (a : Byte) (x : BitVec 64) (y : BitVec 64) : Statement (.peroutEnable a x y) :=
  ⟨length_requestBytes _ _ _ _, rfl, rfl⟩
theorem peroutDisable (a : Byte) : Statement (.peroutDisable a) := ⟨length_requestBytes _ _ _ _, rfl, rfl⟩
theorem mbReqWrite (d : Domain) : Statement (.mbReqWrite d) := ⟨rfl, rfl, .mbSem d, by cases d <;> decide, rfl, rfl⟩
theorem mbReqRead (d : Domain) : Statement (.mbReqRead d) := ⟨rfl, rfl, .mbSem d, by cases d <;> decide, rfl, rfl⟩
theorem todCmdRead (i : Fin 2) : Statement (.todCmdRead i) := ⟨rfl, rfl, .todCtrl i, by revert i; decide, rfl, rfl⟩
theorem todCmdReadNext1Hz (i : Fin 2) : Statement (.todCmdReadNext1Hz i) :=
  ⟨rfl, rfl, .todCtrl i, by revert i; decide, rfl, rfl⟩
theorem todCmdWriteNext1Hz (i : Fin 2) : Statement (.todCmdWriteNext1Hz i) :=
  ⟨rfl, rfl, .todCtrl i, by revert i; decide, rfl, rfl⟩
theorem tieCmdWrite : Statement .tieCmdWrite := ⟨rfl, rfl, .tieCtrl, by decide, rfl, rfl⟩
theorem psCmdWrite (n : BitVec 4) (t : Bool) : Statement (.psCmdWrite n t) := ⟨rfl, rfl, .psCtrl, by decide, rfl, rfl⟩

end Sys2Proof.Laws.EncodedForm
end

