-- ==== Sys2Proof/Laws/Prompt.lean ====
section
/-! SUPPORT. The shared sequences under the prompt responder (`Env.prompt`), from an ASIC side with nothing pending: each
returns, and what it leaves. `State.after a` is the state `n` accesses later with the ASIC side `a`. -/

namespace Sys2Proof.Machine

/-! ### The state some accesses later -/

/-- The state some accesses later, with the ASIC side `a`, under a schedule that does not move on. -/
def State.after (s : State) (a : Asic) : State := { s with asic := a }

section
variable (s : State) (a : Asic)
@[simp] theorem State.after_par : (s.after a).par = s.par := rfl
@[simp] theorem State.after_dev : (s.after a).dev = s.dev := rfl
@[simp] theorem State.after_boot : (s.after a).boot = s.boot := rfl
@[simp] theorem State.after_ctl : (s.after a).ctl = s.ctl := rfl
@[simp] theorem State.after_op : (s.after a).op = s.op := rfl
@[simp] theorem State.after_res : (s.after a).res = s.res := rfl
@[simp] theorem State.after_resTo : (s.after a).resTo = s.resTo := rfl
@[simp] theorem State.after_port : (s.after a).port = s.port := rfl
@[simp] theorem State.after_asic : (s.after a).asic = a := rfl
@[simp] theorem State.after_env : (s.after a).env = s.env := rfl
@[simp] theorem State.after_after (b : Asic) : (s.after a).after b = s.after b := rfl
@[simp] theorem State.after_self : s.after s.asic = s := rfl
end

theorem access_prompt {s : State} (he : s.env = Env.prompt) :
    s.tick = s.after (runMoves s.par Slot.prompt.moves s.asic) := by
  unfold State.tick State.after
  rw [he]
  rfl

theorem failure_prompt {s : State} (he : s.env = Env.prompt) : s.failure = none := by
  unfold State.failure
  rw [he]
  rfl

theorem access_quiet {s : State} (he : s.env = Env.prompt) (hq : s.asic.Quiet) : s.tick = s.after s.asic := by
  rw [access_prompt he, runMoves_prompt_quiet _ hq]

/-! ### One access -/

theorem prompt_read {s : State} (he : s.env = Env.prompt) (hq : s.asic.Quiet) {r : Reg} (hr : r.access = .rw) :
    (load r).run s = .ok (s.asic.regVal r) (s.after s.asic) := by
  rw [load_run, readReg_ok hr (failure_prompt he), access_quiet he hq, State.after_asic]

theorem prompt_write {s : State} (he : s.env = Env.prompt) (hq : s.asic.Quiet) {r : Reg} (v : Nat)
    (hc : isControl r = false) (ha : r.access ≠ .ro) :
    (store r v).run s = .ok () (s.after (s.asic.setReg r v)) := by
  rw [store_run, writeReg_data v hc ha (failure_prompt he), access_quiet he hq]
  rfl

theorem prompt_latch {s : State} (he : s.env = Env.prompt) (hq : s.asic.Quiet) {r : Reg} (b : Byte) (hw : r.width = 1)
    {a : Asic} (h : storeByte s.par s.asic r.addr b = .ok a) : (store r b.toNat).run s = .ok () (s.after a) := by
  have hs : storeByte s.par s.tick.asic r.addr b = .ok a := by rw [access_quiet he hq]; exact h
  rw [store_run, writeReg_control b hw (failure_prompt he) hs, access_quiet he hq]
  rfl

theorem prompt_poll {s : State} (hl : s.par.wf = true) (he : s.env = Env.prompt) {r : Reg} (hr : isControl r = true)
    (hrw : r.access = .rw) {mask : Byte} {a : Asic} (hm : runMoves s.par Slot.prompt.moves s.asic = a)
    (hc : a.ctrlByte r &&& mask = 0) : (poll r mask).run s = .ok () (s.after a) := by
  have ha : s.tick = s.after a := by rw [access_prompt he, hm]
  rw [poll_clear hrw hl (failure_prompt he) (by
    rw [ha, State.after_asic, regVal_control _ hr]
    exact (and_toNat_eq_zero _ _).mpr hc), ha]

theorem prompt_poll_quiet {s : State} (hl : s.par.wf = true) (he : s.env = Env.prompt) (hq : s.asic.Quiet) {r : Reg}
    (hr : isControl r = true) (hrw : r.access = .rw) {mask : Byte} (hc : s.asic.ctrlByte r &&& mask = 0) :
    (poll r mask).run s = .ok () (s.after s.asic) :=
  prompt_poll hl he hr hrw (runMoves_prompt_quiet _ hq) hc

/-! ### Nothing pending -/

/-- Storage changed outside the control bytes leaves nothing pending. -/
theorem Asic.Quiet.congr {a b : Asic} (h : a.Quiet) (hr : ∀ r : Reg, isControl r = true → b.ctrlByte r = a.ctrlByte r)
    (h1 : b.mbReq = a.mbReq) (h2 : b.todPend = a.todPend) (h3 : b.tiePend = a.tiePend) (h4 : b.psPend = a.psPend) :
    b.Quiet := by
  refine ⟨fun d hd => ?_, fun i => ?_, ?_, ?_⟩
  · rw [hr _ rfl, Asic.req, h1]; exact h.1 d hd
  · rw [hr _ rfl, h2]; exact h.2.1 i
  · rw [hr _ rfl, h3]; exact h.2.2.1
  · rw [hr _ rfl, h4]; exact h.2.2.2

theorem ctrlByte_setReg (a : Asic) {r r' : Reg} (v : Nat) (h : isControl r = false) (h' : isControl r' = true) :
    (a.setReg r v).ctrlByte r' = a.ctrlByte r' := by
  have hn : r ≠ r' := fun e => by rw [e, h'] at h; exact Bool.false_ne_true h.symm
  refine get_setValue_out _ _ _ _ ?_
  by_contra hc
  exact hn (covers_unique (addr := r'.addr) (by simpa using hc) (by simp [Reg.covers, width_pos]))

theorem Asic.Quiet.setReg {a : Asic} (h : a.Quiet) {r : Reg} (v : Nat) (hc : isControl r = false) :
    (a.setReg r v).Quiet := h.congr (fun _ h' => ctrlByte_setReg a v hc h') rfl rfl rfl rfl

/-! ### `SameBut` -/

theorem Asic.SameBut.refl (area : Nat → Bool) (a : Asic) : Asic.SameBut area a a := ⟨rfl, fun _ _ => rfl⟩

theorem Asic.SameBut.trans {area : Nat → Bool} {a b c : Asic} (h : Asic.SameBut area a b) (h' : Asic.SameBut area b c) :
    Asic.SameBut area a c := by
  refine ⟨?_, fun x hx => (h'.2 x hx).trans (h.2 x hx)⟩
  rw [h'.1, h.1]

theorem Asic.SameBut.mono {f g : Nat → Bool} {a b : Asic} (h : Asic.SameBut f a b) (hfg : ∀ x, g x = false → f x = false) :
    Asic.SameBut g a b := ⟨h.1, fun x hx => h.2 x (hfg x hx)⟩

theorem sameBut_setReg (area : Nat → Bool) (a : Asic) (r : Reg) (v : Nat) (h : ∀ x, area x = false → r.covers x = false) :
    Asic.SameBut area a (a.setReg r v) := ⟨rfl, fun x hx => get_setValue_out _ _ _ _ (h x hx)⟩

/-! ### Mailbox read -/

/-- The ASIC side after a mailbox read: mask, semaphore and window hold what the read left there. -/
def Asic.loaded (p : Params) (a : Asic) (d : Domain) (k : Fin d.count) : Asic :=
  { a with
    regs :=
      (((a.regs.setValue (.mbMask d) (2 ^ k.1)).set (Reg.mbSem d).addr semRead).setBytes d.winBase (a.image p d k)).set
        (Reg.mbSem d).addr 0 }

theorem image_congr (p : Params) {a b : Asic} (h1 : b.bankRef = a.bankRef) (h2 : b.bankDpll = a.bankDpll)
    (h3 : b.bankSynth = a.bankSynth) (h4 : b.bankOut = a.bankOut) (d : Domain) (k : Fin d.count) :
    b.image p d k = a.image p d k := by
  cases d <;> simp [Asic.image, h1, h2, h3, h4]

theorem mask_covers_area (p : Params) (d : Domain) {x : Nat} (h : mailboxArea p d x = false) :
    (Reg.mbMask d).covers x = false ∧ (Reg.mbSem d).covers x = false ∧
      (x < d.winBase ∨ d.winBase + winLen p d ≤ x) := by
  simp only [mailboxArea, inRegs, List.any_cons, List.any_nil, Bool.or_false, Bool.or_eq_false_iff,
    Bool.and_eq_false_iff, decide_eq_false_iff_not] at h
  refine ⟨h.1.1, h.1.2, ?_⟩
  omega

/-- A mailbox read changes its own domain's area alone (R132, R140). -/
theorem loaded_sameBut (p : Params) (a : Asic) (d : Domain) (k : Fin d.count) :
    Asic.SameBut (mailboxArea p d) a (a.loaded p d k) := by
  refine ⟨rfl, fun x hx => ?_⟩
  obtain ⟨h1, h2, h3⟩ := mask_covers_area p d hx
  have hs := addr_ne_of_not_covers h2
  have hl := image_length p a d k
  show Memory.get (Memory.set _ _ _) x = _
  rw [get_set_ne _ _ hs, get_setBytes_out _ _ _ _ (by omega), get_set_ne _ _ hs, get_setValue_out _ _ _ _ h1]

theorem sem_window_apart (p : Params) (d : Domain) :
    (Reg.mbSem d).addr < d.winBase ∨ d.winBase + winLen p d ≤ (Reg.mbSem d).addr := by
  have := window_apart p (r := .mbSem d) (d := d) (by simp [windowOf])
  have := width_pos (.mbSem d)
  omega

/-- After a mailbox read the window is the image of the sub-resource (R140). -/
theorem loaded_window (p : Params) (a : Asic) (d : Domain) (k : Fin d.count) :
    (a.loaded p d k).window p d = a.image p d k := by
  have hl := image_length p a d k
  have := sem_window_apart p d
  show Memory.bytes (Memory.set _ _ _) _ _ = _
  rw [bytes_set_out _ _ _ _ _ (by omega), bytes_setBytes_of_length _ _ _ _ hl]

theorem loaded_sem (p : Params) (a : Asic) (d : Domain) (k : Fin d.count) :
    (a.loaded p d k).ctrlByte (.mbSem d) = 0 := get_set_same _ _ _

theorem value_set_ne (m : Memory) {r r' : Reg} (hw : r'.width = 1) (h : r ≠ r') (b : Byte) :
    (m.set r'.addr b).value r = m.value r := by
  unfold Memory.value
  rw [bytes_set_out _ _ _ _ _ (by have := regs_apart h; omega)]

theorem loaded_mask (p : Params) (a : Asic) (d : Domain) (k : Fin d.count) :
    (a.loaded p d k).regVal (.mbMask d) = 2 ^ k.1 := by
  have hl := image_length p a d k
  have hw := window_apart p (r := .mbMask d) (d := d) (by simp [windowOf])
  have hlt : ∀ d : Domain, ∀ k : Fin d.count, 2 ^ k.1 < 256 ^ (Reg.mbMask d).width := by
    intro d; cases d <;> decide
  show Memory.value (Memory.set _ _ _) _ = _
  rw [value_set_ne _ rfl (by simp)]
  unfold Memory.value
  rw [bytes_setBytes_out _ _ _ _ _ (by omega)]
  show Memory.value (Memory.set _ _ _) _ = _
  rw [value_set_ne _ rfl (by simp), value_setValue _ _ _ (hlt d k)]

/-- A control byte outside a domain's area. -/
theorem ctrl_not_area (p : Params) {d : Domain} {r : Reg} (hc : isControl r = true) (hs : r ≠ .mbSem d) :
    mailboxArea p d r.addr = false := by
  have := mailboxArea_reg p (d := d) (r := r) (fun e => by rw [e] at hc; exact absurd hc Bool.false_ne_true) hs (by
    cases r <;> first | exact absurd hc Bool.false_ne_true | simp [windowOf]) (k := 0) (width_pos r)
  simpa using this

/-- A change of a domain's area that leaves its semaphore 0 leaves nothing pending. -/
theorem Asic.Quiet.sameBut {p : Params} {d : Domain} {a b : Asic} (h : a.Quiet)
    (hb : ∀ x, mailboxArea p d x = false → b.regs.get x = a.regs.get x) (hs : b.ctrlByte (.mbSem d) = 0)
    (h1 : b.mbReq = a.mbReq) (h2 : b.todPend = a.todPend) (h3 : b.tiePend = a.tiePend) (h4 : b.psPend = a.psPend) :
    b.Quiet := by
  have hr : ∀ r : Reg, isControl r = true → r ≠ .mbSem d → b.ctrlByte r = a.ctrlByte r := fun r hc hn =>
    hb _ (ctrl_not_area p hc hn)
  refine ⟨fun e he => ?_, fun i => ?_, ?_, ?_⟩
  · rw [Asic.req, h1]
    by_cases hd : e = d
    · subst hd; rw [hs]; exact ⟨by decide, (h.1 e he).2⟩
    · rw [hr _ rfl (by simpa using hd)]; exact h.1 e he
  · rw [hr _ rfl (by simp), h2]; exact h.2.1 i
  · rw [hr _ rfl (by simp), h3]; exact h.2.2.1
  · rw [hr _ rfl (by simp), h4]; exact h.2.2.2

theorem loaded_quiet (p : Params) {a : Asic} (h : a.Quiet) (d : Domain) (k : Fin d.count) : (a.loaded p d k).Quiet :=
  h.sameBut (loaded_sameBut p a d k).2 (loaded_sem p a d k) rfl rfl rfl rfl

/-- Only one domain has a request: the prompt responder performs it and nothing else. -/
theorem runMoves_prompt_req (p : Params) {a b : Asic} {d : Domain} (ho : ∀ e, e ≠ d → a.req e = .none)
    (hb : mbAck p d a = b) (hq : b.Quiet) : runMoves p Slot.prompt.moves a = b := by
  rw [runMoves_prompt]
  cases d with
  | ref =>
    rw [hb, mbAck_none p (hq.req .dpll), mbAck_none p (hq.req .synth), mbAck_none p (hq.req .out),
      todAck_clear (hq.2.1 0).1, todAck_clear (hq.2.1 1).1, tieAck_none hq.2.2.1.2, psAck_none hq.2.2.2.2]
  | dpll =>
    rw [mbAck_none p (ho .ref (by decide)), hb, mbAck_none p (hq.req .synth), mbAck_none p (hq.req .out),
      todAck_clear (hq.2.1 0).1, todAck_clear (hq.2.1 1).1, tieAck_none hq.2.2.1.2, psAck_none hq.2.2.2.2]
  | synth =>
    rw [mbAck_none p (ho .ref (by decide)), mbAck_none p (ho .dpll (by decide)), hb, mbAck_none p (hq.req .out),
      todAck_clear (hq.2.1 0).1, todAck_clear (hq.2.1 1).1, tieAck_none hq.2.2.1.2, psAck_none hq.2.2.2.2]
  | out =>
    rw [mbAck_none p (ho .ref (by decide)), mbAck_none p (ho .dpll (by decide)), mbAck_none p (ho .synth (by decide)),
      hb, todAck_clear (hq.2.1 0).1, todAck_clear (hq.2.1 1).1, tieAck_none hq.2.2.1.2, psAck_none hq.2.2.2.2]

/-- `MbRead` under the prompt responder (R132): the sub-resource's image in the window. -/
theorem mbRead_prompt {s : State} (hl : s.par.wf = true) (he : s.env = Env.prompt) (hq : s.asic.Quiet) (d : Domain)
    (k : Fin d.count) : (mbRead d k.1).run s = .ok () (s.after (s.asic.loaded s.par d k)) := by
  have hq1 : (s.asic.setReg (.mbMask d) (2 ^ k.1)).Quiet := hq.setReg _ rfl
  have hm1 : (s.asic.setReg (.mbMask d) (2 ^ k.1)).mask d = BitVec.ofNat 16 (2 ^ k.1) := by
    have hlt : ∀ d : Domain, ∀ k : Fin d.count, 2 ^ k.1 < 256 ^ (Reg.mbMask d).width := by
      intro d; cases d <;> decide
    unfold Asic.mask
    rw [show (s.asic.setReg (.mbMask d) (2 ^ k.1)).regVal (.mbMask d) = 2 ^ k.1 from value_setValue _ _ _ (hlt d k)]
  unfold mbRead
  rw [run_on_ok (prompt_poll_quiet hl he hq rfl rfl (hq.sem d)),
    run_on_ok (prompt_write (s := s.after s.asic) he hq _ rfl (by simp [Reg.access]))]
  simp only [State.after_after, State.after_asic]
  have hst : storeByte s.par (s.asic.setReg (.mbMask d) (2 ^ k.1)) (Reg.mbSem d).addr semRead =
      .ok (((s.asic.setReg (.mbMask d) (2 ^ k.1)).poke (Reg.mbSem d).addr semRead).setReq d
        (.read (BitVec.ofNat 16 (2 ^ k.1)))) := by
    rw [storeByte_mbSem, latchSem, if_pos rfl, hm1, readMaskOk_pow, if_pos rfl]
  rw [run_on_ok (prompt_latch (s := s.after (s.asic.setReg (.mbMask d) (2 ^ k.1))) he hq1 semRead rfl hst)]
  simp only [State.after_after]
  refine (run_on _ _ _ _).trans <| (prompt_poll (s := s.after (((s.asic.setReg (.mbMask d) (2 ^ k.1)).poke (Reg.mbSem d).addr semRead).setReq d
    (.read (BitVec.ofNat 16 (2 ^ k.1))))) hl he rfl rfl ?_ (mask := semRead) (a := s.asic.loaded s.par d k)
    (by rw [loaded_sem]; decide)).trans (by rw [State.after_after])
  refine runMoves_prompt_req s.par (d := d) (fun e hn => ?_) ?_
    (loaded_quiet s.par hq d k)
  · simp only [State.after_asic]
    rw [req_setReq_ne _ _ (fun e => hn e.symm)]
    exact hq.req e
  · simp only [State.after_asic]
    unfold mbAck
    rw [req_setReq_same]
    simp only [ackRead, oneHot_pow]
    have hi : ((s.asic.setReg (.mbMask d) (2 ^ k.1)).poke (Reg.mbSem d).addr semRead |>.setReq d
        (.read (BitVec.ofNat 16 (2 ^ k.1)))).image s.par d k = s.asic.image s.par d k := image_congr _ rfl rfl rfl rfl d k
    rw [hi]
    have hb : clearBits semRead semRead = 0 := by decide
    have hc : (Asic.setWindow (((s.asic.setReg (.mbMask d) (2 ^ k.1)).poke (Reg.mbSem d).addr semRead).setReq d
        (.read (BitVec.ofNat 16 (2 ^ k.1)))) d (s.asic.image s.par d k)).ctrlByte (.mbSem d) = semRead := by
      have := sem_window_apart s.par d
      have hl := image_length s.par s.asic d k
      show Memory.get (Memory.setBytes _ _ _) _ = _
      rw [get_setBytes_out _ _ _ _ (by omega)]
      exact get_set_same _ _ _
    unfold Asic.clearFlag
    rw [hc, hb]
    have hr : upd (upd s.asic.mbReq d.idx (.read (BitVec.ofNat 16 (2 ^ k.1)))) d.idx .none = s.asic.mbReq := by
      rw [upd_upd, show (MbReq.none) = s.asic.mbReq.get d.idx from (hq.req d).symm, upd_self]
    show ({ s.asic with regs := _, mbReq := upd (upd s.asic.mbReq d.idx _) d.idx .none } : Asic) = _
    rw [hr]
    rfl

/-! ### Window fields -/

theorem bytes_drop_take (m : Memory) (addr n off k : Nat) (h : off + k ≤ n) :
    ((m.bytes addr n).drop off).take k = m.bytes (addr + off) k := by
  induction n generalizing addr off k with
  | zero =>
    obtain rfl : off = 0 := by omega
    obtain rfl : k = 0 := by omega
    rfl
  | succ n ih =>
    cases off with
    | zero =>
      cases k with
      | zero => rfl
      | succ k =>
        have := ih (addr + 1) 0 k (by omega)
        simp only [List.drop_zero, Nat.add_zero] at this ⊢
        rw [Memory.bytes, Memory.bytes, List.take_succ_cons, this]
    | succ off =>
      have := ih (addr + 1) off k (by omega)
      rw [Memory.bytes, List.drop_succ_cons, this]
      congr 1
      omega

/-- A window register's value is a field of the window. -/
theorem regVal_field (p : Params) (a : Asic) (d : Domain) (r : Reg) (off : Nat) (h : r.addr = d.winBase + off)
    (hl : off + r.width ≤ winLen p d) : a.regVal r = fieldAt (a.window p d) off r.width := by
  unfold fieldAt Asic.window
  rw [bytes_drop_take _ _ _ _ _ hl, ← h]
  rfl

/-- The Ref window's fields (R140). -/
theorem ofImage_ref (p : Params) (a : Asic) : RefBank.ofImage (a.window p .ref) =
    ⟨BitVec.ofNat 16 (a.regVal .refFreqBase), BitVec.ofNat 32 (a.regVal .refFreqMult),
      BitVec.ofNat 16 (a.regVal .refRatioM), BitVec.ofNat 16 (a.regVal .refRatioN),
      BitVec.ofNat 48 (a.regVal .refPhaseComp)⟩ := by
  rw [regVal_field p a .ref .refFreqBase 0 rfl (by simp [Reg.width, winLen]), regVal_field p a .ref .refFreqMult 2 rfl (by simp [Reg.width, winLen]),
    regVal_field p a .ref .refRatioM 6 rfl (by simp [Reg.width, winLen]), regVal_field p a .ref .refRatioN 8 rfl (by simp [Reg.width, winLen]),
    regVal_field p a .ref .refPhaseComp 10 rfl (by simp [Reg.width, winLen])]
  rfl

/-- The Output window's fields (R140). -/
theorem ofImage_out (p : Params) (a : Asic) : OutBank.ofImage (a.window p .out) =
    ⟨BitVec.ofNat 8 (a.regVal .outSynthSel), BitVec.ofNat 8 (a.regVal .outSignalFmt),
      BitVec.ofNat 32 (a.regVal .outDiv), BitVec.ofNat 32 (a.regVal .outNdiv),
      BitVec.ofNat 32 (a.regVal .outPhaseComp)⟩ := by
  rw [regVal_field p a .out .outSynthSel 0 rfl (by simp [Reg.width, winLen]), regVal_field p a .out .outSignalFmt 1 rfl (by simp [Reg.width, winLen]),
    regVal_field p a .out .outDiv 2 rfl (by simp [Reg.width, winLen]), regVal_field p a .out .outNdiv 6 rfl (by simp [Reg.width, winLen]),
    regVal_field p a .out .outPhaseComp 10 rfl (by simp [Reg.width, winLen])]
  rfl

/-- The window registers hold the fields of the bank entry whose image the Ref window holds. -/
theorem window_ref {p : Params} {a : Asic} {b : RefBank} (h : a.window p .ref = b.image) :
    a.regVal .refFreqBase = b.base.toNat ∧ a.regVal .refFreqMult = b.mult.toNat ∧ a.regVal .refRatioM = b.m.toNat ∧
      a.regVal .refRatioN = b.n.toNat ∧ a.regVal .refPhaseComp = b.phaseComp.toNat := by
  rw [regVal_field p a .ref .refFreqBase 0 rfl (by simp [Reg.width, winLen]), regVal_field p a .ref .refFreqMult 2 rfl (by simp [Reg.width, winLen]),
    regVal_field p a .ref .refRatioM 6 rfl (by simp [Reg.width, winLen]), regVal_field p a .ref .refRatioN 8 rfl (by simp [Reg.width, winLen]),
    regVal_field p a .ref .refPhaseComp 10 rfl (by simp [Reg.width, winLen]), h]
  exact ⟨beVal_beBytes_lt 2 _ b.base.isLt, beVal_beBytes_lt 4 _ b.mult.isLt, beVal_beBytes_lt 2 _ b.m.isLt,
    beVal_beBytes_lt 2 _ b.n.isLt, beVal_beBytes_lt 6 _ b.phaseComp.isLt⟩

/-- The window registers hold the fields of the bank entry whose image the Synth window holds. -/
theorem window_synth {p : Params} {a : Asic} {b : SynthBank} (h : a.window p .synth = b.image) :
    a.regVal .synthFreqBase = b.base.toNat ∧ a.regVal .synthFreqMult = b.mult.toNat ∧
      a.regVal .synthRatioM = b.m.toNat ∧ a.regVal .synthRatioN = b.n.toNat := by
  rw [regVal_field p a .synth .synthFreqBase 0 rfl (by simp [Reg.width, winLen]),
    regVal_field p a .synth .synthFreqMult 2 rfl (by simp [Reg.width, winLen]), regVal_field p a .synth .synthRatioM 6 rfl (by simp [Reg.width, winLen]),
    regVal_field p a .synth .synthRatioN 8 rfl (by simp [Reg.width, winLen]), h]
  exact ⟨beVal_beBytes_lt 2 _ b.base.isLt, beVal_beBytes_lt 4 _ b.mult.isLt, beVal_beBytes_lt 2 _ b.m.isLt,
    beVal_beBytes_lt 2 _ b.n.isLt⟩

/-- The window registers hold the fields of the bank entry whose image the Output window holds. -/
theorem window_out {p : Params} {a : Asic} {b : OutBank} (h : a.window p .out = b.image) :
    a.regVal .outSynthSel = b.synthSel.toNat ∧ a.regVal .outSignalFmt = b.signalFmt.toNat ∧
      a.regVal .outDiv = b.div.toNat ∧ a.regVal .outNdiv = b.ndiv.toNat ∧
      a.regVal .outPhaseComp = b.phaseComp.toNat := by
  rw [regVal_field p a .out .outSynthSel 0 rfl (by simp [Reg.width, winLen]), regVal_field p a .out .outSignalFmt 1 rfl (by simp [Reg.width, winLen]),
    regVal_field p a .out .outDiv 2 rfl (by simp [Reg.width, winLen]), regVal_field p a .out .outNdiv 6 rfl (by simp [Reg.width, winLen]),
    regVal_field p a .out .outPhaseComp 10 rfl (by simp [Reg.width, winLen]), h]
  exact ⟨beVal_beBytes_lt 1 _ b.synthSel.isLt, beVal_beBytes_lt 1 _ b.signalFmt.isLt, beVal_beBytes_lt 4 _ b.div.isLt,
    beVal_beBytes_lt 4 _ b.ndiv.isLt, beVal_beBytes_lt 4 _ b.phaseComp.isLt⟩

/-! ### Mailbox write -/

theorem commit_fold_pow (d : Domain) (k : Fin d.count) (bs : List Byte) (l : List (Fin d.count)) (hn : l.Nodup)
    (a : Asic) :
    l.foldl (fun a j => if (BitVec.ofNat 16 (2 ^ k.1)).getLsbD j.1 then a.commit d j bs else a) a =
      if k ∈ l then a.commit d k bs else a := by
  have hb : ∀ j : Fin d.count, (BitVec.ofNat 16 (2 ^ k.1)).getLsbD j.1 = decide (j = k) := by
    have : ∀ d : Domain, ∀ k j : Fin d.count, (BitVec.ofNat 16 (2 ^ k.1)).getLsbD j.1 = decide (j = k) := by
      intro d
      cases d <;> decide +kernel
    exact this d k
  induction l generalizing a with
  | nil => rfl
  | cons j l ih =>
    rw [List.foldl_cons, ih hn.tail, hb]
    have hj : j ∉ l := (List.nodup_cons.mp hn).1
    by_cases h : j = k
    · subst h; simp [hj]
    · have : k ≠ j := fun e => h e.symm
      simp [h, this]

/-- A one-hot write mask commits one sub-resource (R140). -/
theorem commitMask_pow (a : Asic) (d : Domain) (k : Fin d.count) (bs : List Byte) :
    a.commitMask d (BitVec.ofNat 16 (2 ^ k.1)) bs = a.commit d k bs := by
  unfold Asic.commitMask
  rw [commit_fold_pow d k bs _ (List.nodup_finRange _), if_pos (List.mem_finRange k)]

theorem windowOf_data {r : Reg} {d : Domain} (h : windowOf r = some d) :
    isControl r = false ∧ r.access = .rw ∧ r ≠ .mbMask d := by
  cases r <;> simp [windowOf] at h <;> simp [isControl, Reg.access]

theorem covers_window {r : Reg} {d : Domain} (h : windowOf r = some d) (p : Params) {x : Nat}
    (hx : r.covers x = true) : d.winBase ≤ x ∧ x < d.winBase + winLen p d := by
  simp only [Reg.covers, Bool.and_eq_true, decide_eq_true_eq] at hx
  cases r <;> simp only [windowOf, Option.some.injEq, reduceCtorEq] at h <;> subst h <;>
    simp only [Reg.addr, Reg.width, Domain.winBase, winLen] at hx ⊢ <;> omega

/-- The ASIC side with window fields populated. -/
def Asic.populate (a : Asic) (fields : List (Reg × Nat)) : Asic := fields.foldl (fun a f => a.setReg f.1 f.2) a

theorem populate_sameBut (p : Params) (d : Domain) (fields : List (Reg × Nat))
    (hf : ∀ f ∈ fields, windowOf f.1 = some d) (a : Asic) :
    Asic.SameBut (fun x => d.winBase ≤ x && x < d.winBase + winLen p d) a (a.populate fields) := by
  unfold Asic.populate
  induction fields generalizing a with
  | nil => exact .refl _ _
  | cons f fs ih =>
    refine Asic.SameBut.trans (sameBut_setReg _ a f.1 f.2 fun x hx => ?_) (ih (fun g hg => hf g (by simp [hg])) _)
    by_contra hc
    have := covers_window (hf f (by simp)) p (x := x) (by simpa using hc)
    simp [this] at hx

theorem populate_quiet {d : Domain} (fields : List (Reg × Nat)) (hf : ∀ f ∈ fields, windowOf f.1 = some d)
    {a : Asic} (h : a.Quiet) : (a.populate fields).Quiet := by
  unfold Asic.populate
  induction fields generalizing a with
  | nil => exact h
  | cons f fs ih => exact ih (fun g hg => hf g (by simp [hg])) (h.setReg _ (windowOf_data (hf f (by simp))).1)

theorem writeFields_prompt (d : Domain) (fields : List (Reg × Nat)) (hf : ∀ f ∈ fields, windowOf f.1 = some d)
    {s : State} (he : s.env = Env.prompt) (hq : s.asic.Quiet) :
    (writeFields fields).run s = .ok () (s.after (s.asic.populate fields)) := by
  induction fields generalizing s with
  | nil => rfl
  | cons f fs ih =>
    obtain ⟨h1, h2, _⟩ := windowOf_data (hf f (by simp))
    rw [writeFields, run_on_ok (prompt_write he hq _ h1 (by rw [h2]; decide)),
      ih (fun g hg => hf g (by simp [hg])) (s := s.after (s.asic.setReg f.1 f.2)) he (hq.setReg _ h1),
      State.after_after]
    rfl

/-- The ASIC side after a mailbox write of `fields` to sub-resource `k`. -/
def Asic.written (p : Params) (a : Asic) (d : Domain) (k : Fin d.count) (fields : List (Reg × Nat)) : Asic :=
  { ((a.loaded p d k).populate fields).commit d k (((a.loaded p d k).populate fields).window p d) with
    regs := (((a.loaded p d k).populate fields).regs.set (Reg.mbSem d).addr semWrite).set (Reg.mbSem d).addr 0 }

theorem commit_pend (a : Asic) (d : Domain) (k : Fin d.count) (bs : List Byte) :
    (a.commit d k bs).mbReq = a.mbReq ∧ (a.commit d k bs).todPend = a.todPend ∧
      (a.commit d k bs).tiePend = a.tiePend ∧ (a.commit d k bs).psPend = a.psPend ∧
      (a.commit d k bs).tod = a.tod ∧ (a.commit d k bs).draws = a.draws := by
  cases d <;> exact ⟨rfl, rfl, rfl, rfl, rfl, rfl⟩

theorem populate_pend (a : Asic) (fields : List (Reg × Nat)) :
    a.populate fields = { a with regs := (a.populate fields).regs } := by
  unfold Asic.populate
  induction fields generalizing a with
  | nil => rfl
  | cons f fs ih =>
    rw [List.foldl_cons]
    conv => lhs; rw [ih]
    rfl

/-- A mailbox write changes register bytes of its own domain's area alone. -/
theorem written_get (p : Params) (a : Asic) (d : Domain) (k : Fin d.count) (fields : List (Reg × Nat))
    (hf : ∀ f ∈ fields, windowOf f.1 = some d) {x : Nat} (hx : mailboxArea p d x = false) :
    (a.written p d k fields).regs.get x = a.regs.get x := by
  obtain ⟨_, h2, h3⟩ := mask_covers_area p d hx
  have hs := addr_ne_of_not_covers h2
  show Memory.get (Memory.set _ _ _) x = _
  rw [get_set_ne _ _ hs, get_set_ne _ _ hs, (populate_sameBut p d fields hf _).2 x (by
    simp only [Bool.and_eq_false_iff, decide_eq_false_iff_not]; omega), (loaded_sameBut p a d k).2 x hx]

theorem written_quiet (p : Params) {a : Asic} (h : a.Quiet) (d : Domain) (k : Fin d.count) (fields : List (Reg × Nat))
    (hf : ∀ f ∈ fields, windowOf f.1 = some d) : (a.written p d k fields).Quiet := by
  have hp := populate_pend (a.loaded p d k) fields
  obtain ⟨h1, h2, h3, h4, _⟩ := commit_pend ((a.loaded p d k).populate fields) d k
    (((a.loaded p d k).populate fields).window p d)
  refine h.sameBut (fun x hx => written_get p a d k fields hf hx) (get_set_same _ _ _) (h1.trans ?_) (h2.trans ?_)
    (h3.trans ?_) (h4.trans ?_)
  · rw [hp]; rfl
  · rw [hp]; rfl
  · rw [hp]; rfl
  · rw [hp]; rfl

theorem window_congr (p : Params) {a b : Asic} (d : Domain)
    (h : ∀ x, d.winBase ≤ x → x < d.winBase + winLen p d → b.regs.get x = a.regs.get x) :
    b.window p d = a.window p d := bytes_congr _ _ _ _ fun k hk => h _ (by omega) (by omega)

theorem commit_congr (a : Asic) (d : Domain) (k : Fin d.count) (bs : List Byte) (m : Memory) (q : Vector MbReq 4) :
    ({ a with regs := m, mbReq := q } : Asic).commit d k bs = { a.commit d k bs with regs := m, mbReq := q } := by
  cases d <;> rfl

theorem maskVal_populate (p : Params) (a : Asic) (d : Domain) (k : Fin d.count) (fields : List (Reg × Nat))
    (hf : ∀ f ∈ fields, windowOf f.1 = some d) :
    ((a.loaded p d k).populate fields).mask d = BitVec.ofNat 16 (2 ^ k.1) := by
  have hw := window_apart p (r := .mbMask d) (d := d) (by simp [windowOf])
  have : ((a.loaded p d k).populate fields).regVal (.mbMask d) = (a.loaded p d k).regVal (.mbMask d) := by
    unfold Asic.regVal Memory.value
    rw [bytes_congr _ _ _ _ fun j hj => (populate_sameBut p d fields hf _).2 _ (by
      simp only [Bool.and_eq_false_iff, decide_eq_false_iff_not]; omega)]
  unfold Asic.mask
  rw [this, loaded_mask]

/-- `MbWrite` under the prompt responder (R133): the sub-resource's bank takes the window's fields. -/
theorem mbWrite_prompt {s : State} (hl : s.par.wf = true) (he : s.env = Env.prompt) (hq : s.asic.Quiet) (d : Domain)
    (k : Fin d.count) (fields : List (Reg × Nat)) (hf : ∀ f ∈ fields, windowOf f.1 = some d) :
    (mbWrite d k.1 fields).run s = .ok () (s.after (s.asic.written s.par d k fields)) := by
  have hq1 := loaded_quiet s.par hq d k
  have hq2 := populate_quiet fields hf hq1
  unfold mbWrite
  rw [run_on_ok (mbRead_prompt hl he hq d k),
    run_bind_ok (writeFields_prompt d fields hf (s := s.after (s.asic.loaded s.par d k)) he hq1)]
  simp only [State.after_after, State.after_asic]
  generalize hb : (s.asic.loaded s.par d k).populate fields = b at hq2
  have hmask : b.mask d = BitVec.ofNat 16 (2 ^ k.1) := hb ▸ maskVal_populate s.par s.asic d k fields hf
  have hst : storeByte s.par b (Reg.mbSem d).addr semWrite =
      .ok ((b.poke (Reg.mbSem d).addr semWrite).setReq d (.write (BitVec.ofNat 16 (2 ^ k.1)))) := by
    rw [storeByte_mbSem, latchSem, if_neg (by decide), if_pos rfl, hmask, writeMaskOk_pow, if_pos rfl]
  rw [run_on_ok (prompt_latch (s := s.after b) he hq2 semWrite rfl hst)]
  simp only [State.after_after]
  rw [run_on]
  refine (prompt_poll (s := s.after ((b.poke (Reg.mbSem d).addr semWrite).setReq d
    (.write (BitVec.ofNat 16 (2 ^ k.1))))) hl he rfl rfl ?_ (mask := semWrite)
    (a := s.asic.written s.par d k fields) ?_).trans ?_
  · refine runMoves_prompt_req s.par (d := d) (fun e hn => ?_) ?_ (written_quiet s.par hq d k fields hf)
    · simp only [State.after_asic]
      rw [req_setReq_ne _ _ (fun e => hn e.symm)]
      exact hq2.req e
    · simp only [State.after_asic]
      unfold mbAck
      rw [req_setReq_same]
      simp only [ackWrite, writeMaskOk_pow, if_true, commitMask_pow]
      have hs := sem_window_apart s.par d
      have hwin : Asic.window s.par ((b.poke (Reg.mbSem d).addr semWrite).setReq d (.write (BitVec.ofNat 16 (2 ^ k.1)))) d =
          b.window s.par d := window_congr _ _ fun x h1 h2 => get_set_ne _ _ (by omega)
      rw [hwin]
      have hcm : Asic.commit ((b.poke (Reg.mbSem d).addr semWrite).setReq d (.write (BitVec.ofNat 16 (2 ^ k.1)))) d k
          (b.window s.par d) = { b.commit d k (b.window s.par d) with
            regs := b.regs.set (Reg.mbSem d).addr semWrite
            mbReq := upd b.mbReq d.idx (.write (BitVec.ofNat 16 (2 ^ k.1))) } :=
        commit_congr b d k _ _ _
      rw [hcm]
      unfold Asic.clearFlag Asic.ctrlByte
      simp only [get_set_same]
      have hcl : clearBits semWrite semWrite = 0 := by decide
      rw [hcl]
      have hr : upd (upd b.mbReq d.idx (.write (BitVec.ofNat 16 (2 ^ k.1)))) d.idx .none = b.mbReq := by
        rw [upd_upd, show (MbReq.none) = b.mbReq.get d.idx from (hq2.req d).symm, upd_self]
      unfold Asic.poke Asic.setReq Asic.written
      simp only [hr, hb]
      have := (commit_pend b d k (b.window s.par d)).1
      rw [← this]
  · rw [show (s.asic.written s.par d k fields).ctrlByte (.mbSem d) = 0 from get_set_same _ _ _]
    decide
  · rw [State.after_after]

end Sys2Proof.Machine
end

