-- ==== Sys2Proof/Laws/PromptOps.lean ====
section
/-! SUPPORT. The frequency and time sequences under the prompt responder: what each returns and leaves. -/

namespace Sys2Proof.Machine

/-! ### Frequency -/

/-- The image of a synthesizer's bank entry does not depend on register storage. -/
theorem loaded_bankSynth (p : Params) (a : Asic) (d : Domain) (k : Fin d.count) :
    (a.loaded p d k).bankSynth = a.bankSynth := rfl

/-- `SynthFreq` under the prompt responder (R191). -/
theorem synthFreq_prompt {s : State} (hl : s.par.wf = true) (he : s.env = Env.prompt) (hq : s.asic.Quiet) (k : Fin 5) :
    (synthFreq k).run s = match (s.asic.bankSynth.get k).freq with
      | some f => .ok f (s.after (s.asic.loaded s.par .synth k))
      | none => .error (.raise .malformed) (s.after (s.asic.loaded s.par .synth k)) := by
  have hq1 := loaded_quiet s.par hq .synth k
  obtain ⟨h1, h2, h3, h4⟩ := window_synth (loaded_window s.par s.asic .synth k)
  unfold synthFreq
  rw [run_on_ok (mbRead_prompt hl he hq .synth k),
    run_on_ok (prompt_read (s := s.after (s.asic.loaded s.par .synth k)) he hq1 rfl)]
  simp only [State.after_after, State.after_asic]
  rw [run_on_ok (prompt_read (s := s.after (s.asic.loaded s.par .synth k)) he hq1 rfl)]
  simp only [State.after_after, State.after_asic]
  rw [run_on_ok (prompt_read (s := s.after (s.asic.loaded s.par .synth k)) he hq1 rfl)]
  simp only [State.after_after, State.after_asic]
  rw [run_on_ok (prompt_read (s := s.after (s.asic.loaded s.par .synth k)) he hq1 rfl)]
  simp only [State.after_after, State.after_asic]
  rw [h1, h2, h3, h4]
  unfold SynthBank.freq
  cases product (s.asic.bankSynth.get k).base.toNat (s.asic.bankSynth.get k).mult.toNat
    (s.asic.bankSynth.get k).m.toNat (s.asic.bankSynth.get k).n.toNat <;> rfl

theorem synthIndex_fin (k : Fin 5) : synthIndex k.1 = some k := by
  unfold synthIndex
  rw [dif_pos k.isLt]

theorem synthIndex_bad {sel : Nat} (h : 5 ≤ sel) : synthIndex sel = none := by
  unfold synthIndex
  rw [dif_neg (by omega)]

/-- `OutSynthFreq` under the prompt responder where the pair's select is a synthesizer (R199). -/
theorem outSynthFreq_prompt {s : State} (hl : s.par.wf = true) (he : s.env = Env.prompt) (hq : s.asic.Quiet)
    (p : Fin 10) (k : Fin 5) (hk : (s.asic.bankOut.get p).synthSel.toNat = k.1) :
    (outSynthFreq p).run s = match (s.asic.bankSynth.get k).freq with
      | some f => .ok f (s.after ((s.asic.loaded s.par .out p).loaded s.par .synth k))
      | none => .error (.raise .malformed) (s.after ((s.asic.loaded s.par .out p).loaded s.par .synth k)) := by
  have hq1 := loaded_quiet s.par hq .out p
  obtain ⟨h1, _⟩ := window_out (loaded_window s.par s.asic .out p)
  unfold outSynthFreq
  rw [run_on_ok (mbRead_prompt hl he hq .out p),
    run_on_ok (prompt_read (s := s.after (s.asic.loaded s.par .out p)) he hq1 rfl)]
  simp only [State.after_after, State.after_asic]
  rw [h1, hk, synthIndex_fin, run_bind_ok (orRaise_some k _ _), run_on,
    synthFreq_prompt (s := s.after (s.asic.loaded s.par .out p)) hl he hq1 k]
  simp only [State.after_after, State.after_asic]
  rfl

/-- `OutSynthFreq` under the prompt responder where the pair's select is no synthesizer (R199). -/
theorem outSynthFreq_prompt_bad {s : State} (hl : s.par.wf = true) (he : s.env = Env.prompt) (hq : s.asic.Quiet)
    (p : Fin 10) (hk : 5 ≤ (s.asic.bankOut.get p).synthSel.toNat) :
    (outSynthFreq p).run s = .error (.raise .malformed) (s.after (s.asic.loaded s.par .out p)) := by
  have hq1 := loaded_quiet s.par hq .out p
  obtain ⟨h1, _⟩ := window_out (loaded_window s.par s.asic .out p)
  unfold outSynthFreq
  rw [run_on_ok (mbRead_prompt hl he hq .out p),
    run_on_ok (prompt_read (s := s.after (s.asic.loaded s.par .out p)) he hq1 rfl)]
  simp only [State.after_after, State.after_asic]
  rw [h1, synthIndex_bad hk, run_bind_error (orRaise_none _ _)]

/-- A mailbox read of one domain leaves another domain's window as it was. -/
theorem loaded_window_other (p : Params) (a : Asic) {d e : Domain} (k : Fin d.count) (h : d ≠ e) :
    (a.loaded p d k).window p e = a.window p e := by
  refine window_congr p e fun x h1 h2 => (loaded_sameBut p a d k).2 x ?_
  have hw := p.dpllWinLen.isLt
  simp only [mailboxArea, inRegs, Reg.covers, List.any_cons, List.any_nil, Bool.or_false, Bool.or_eq_false_iff,
    Bool.and_eq_false_iff, decide_eq_false_iff_not]
  cases d <;> cases e <;> first | exact absurd rfl h | skip
  all_goals
    simp only [Reg.addr, Reg.width, Domain.winBase, dpllWinBase, winLen] at h1 h2 ⊢
    omega

/-! ### Time of day -/

theorem nsOfImage_imageOfNs {ns : Nat} (h : ns < 2 ^ 32) : nsOfImage (imageOfNs ns) = ns := by
  unfold nsOfImage imageOfNs
  rw [Nat.mul_div_cancel _ (by decide), Nat.mod_eq_of_lt h]

/-- The ASIC side after a time read: the command, the time latched, and the semaphore cleared. -/
def Asic.timed (a : Asic) (i : Fin 2) (c : TodCmd) (sec ns : Nat) : Asic :=
  (a.poke (Reg.todCtrl i).addr c.byte).latchTime i sec ns

theorem todCtrl_apart : ∀ i : Fin 2, (Reg.todCtrl i) ≠ .todSec i ∧ (Reg.todCtrl i) ≠ .todNs i := by
  intro i
  simp

theorem timed_sameBut (a : Asic) (i : Fin 2) (c : TodCmd) (sec ns : Nat) :
    Asic.SameBut (todArea i) a (a.timed i c sec ns) := by
  refine ⟨rfl, fun x hx => ?_⟩
  simp only [todArea, inRegs, List.any_cons, List.any_nil, Bool.or_false, Bool.or_eq_false_iff] at hx
  obtain ⟨h1, h2, h3⟩ := hx
  have hc := addr_ne_of_not_covers h1
  show Memory.get (Memory.set _ _ _) x = _
  rw [get_set_ne _ _ hc, get_setValue_out _ _ _ _ h3, get_setValue_out _ _ _ _ h2]
  exact get_set_ne _ _ hc

theorem timed_ctrl (a : Asic) (i : Fin 2) (c : TodCmd) (sec ns : Nat) :
    (a.timed i c sec ns).ctrlByte (.todCtrl i) = clearBits c.byte todSem := by
  show Memory.get (Memory.set _ _ _) _ = _
  rw [get_set_same]
  unfold Asic.ctrlByte
  rw [get_setValue_ctrl _ _ (by simp), get_setValue_ctrl _ _ (by simp)]
  show clearBits (Memory.get (Memory.set _ _ _) _) _ = _
  rw [get_set_same]

theorem timed_values (a : Asic) (i : Fin 2) (c : TodCmd) {sec ns : Nat} (hs : sec < 2 ^ 48) (hn : ns < 2 ^ 32) :
    (a.timed i c sec ns).regVal (.todSec i) = sec ∧ (a.timed i c sec ns).regVal (.todNs i) = imageOfNs ns := by
  constructor
  · show Memory.value (Memory.set _ _ _) _ = _
    rw [value_set_ne _ rfl (by simp), value_setValue_ne _ _ (by simp), value_setValue _ _ _ (by simpa [Reg.width] using hs)]
  · show Memory.value (Memory.set _ _ _) _ = _
    rw [value_set_ne _ rfl (by simp), value_setValue _ _ _ (by unfold imageOfNs; simp only [Reg.width]; omega)]

/-- A change of one DPLL's TOD registers that leaves its semaphore clear leaves nothing pending. -/
theorem Asic.Quiet.todArea {i : Fin 2} {a b : Asic} (h : a.Quiet) (hb : Asic.SameBut (todArea i) a b)
    (hs : b.ctrlByte (.todCtrl i) &&& todSem = 0) : b.Quiet := by
  have hr : ∀ r : Reg, isControl r = true → r ≠ .todCtrl i → b.ctrlByte r = a.ctrlByte r := by
    intro r hc hn
    refine hb.2 _ ?_
    unfold Machine.todArea inRegs
    rw [List.any_eq_false]
    intro r' hr' hcov
    have := covers_unique (r := r) (r' := r') (addr := r.addr) (by simp [Reg.covers, width_pos]) hcov
    subst this
    simp only [List.mem_cons, List.not_mem_nil, or_false] at hr'
    rcases hr' with e | e | e
    · exact hn e
    · rw [e] at hc; exact Bool.false_ne_true hc
    · rw [e] at hc; exact Bool.false_ne_true hc
  have he := hb.1
  refine ⟨fun d hd => ?_, fun j => ?_, ?_, ?_⟩
  · rw [hr _ rfl (by simp), Asic.req, he]; exact h.1 d hd
  · refine ⟨?_, by rw [he]; exact (h.2.1 j).2⟩
    by_cases hj : j = i
    · subst hj; exact hs
    · rw [hr _ rfl (by simpa using hj)]; exact (h.2.1 j).1
  · rw [hr _ rfl (by simp), he]; exact h.2.2.1
  · rw [hr _ rfl (by simp), he]; exact h.2.2.2

theorem timed_quiet {a : Asic} (h : a.Quiet) (i : Fin 2) (c : TodCmd) (sec ns : Nat) : (a.timed i c sec ns).Quiet :=
  h.todArea (timed_sameBut a i c sec ns) (by rw [timed_ctrl]; cases c <;> decide)

/-- Only DPLL `i` has a TOD command: the prompt responder performs it and nothing else. -/
theorem runMoves_prompt_tod (p : Params) {a b : Asic} {i : Fin 2} (hr : ∀ d, a.req d = .none)
    (ho : ∀ j, j ≠ i → a.ctrlByte (.todCtrl j) &&& todSem = 0) (hb : todAck i a = b) (hq : b.Quiet) :
    runMoves p Slot.prompt.moves a = b := by
  rw [runMoves_prompt, mbAck_none p (hr .ref), mbAck_none p (hr .dpll), mbAck_none p (hr .synth), mbAck_none p (hr .out)]
  rcases (show i = 0 ∨ i = 1 by omega) with rfl | rfl
  · rw [hb, todAck_clear (hq.2.1 1).1, tieAck_none hq.2.2.1.2, psAck_none hq.2.2.2.2]
  · rw [todAck_clear (ho 0 (by decide)), hb, tieAck_none hq.2.2.1.2, psAck_none hq.2.2.2.2]

/-- A time read under the prompt responder, of a command the responder answers with `sec`, `ns`. -/
theorem todRead_prompt {s : State} (hl : s.par.wf = true) (he : s.env = Env.prompt) (hq : s.asic.Quiet) (i : Fin 2)
    (c : TodCmd) {sec ns : Nat} (hs : sec < 2 ^ 48) (hn : ns < 2 ^ 32)
    (ha : todAck i (s.asic.poke (Reg.todCtrl i).addr c.byte) = s.asic.timed i c sec ns) :
    (todRead i c).run s = .ok (normalize sec ns) (s.after (s.asic.timed i c sec ns)) := by
  have hq1 := timed_quiet hq i c sec ns
  obtain ⟨hv1, hv2⟩ := timed_values s.asic i c hs hn
  have hst : ∃ a, storeByte s.par s.asic (Reg.todCtrl i).addr c.byte = .ok a ∧
      todAck i a = s.asic.timed i c sec ns ∧ a.mbReq = s.asic.mbReq ∧
      a.regs = s.asic.regs.set (Reg.todCtrl i).addr c.byte := by
    rw [storeByte_todCtrl]
    cases c
    · exact ⟨_, rfl, ha, rfl, rfl⟩
    · exact ⟨_, rfl, ha, rfl, rfl⟩
    · exfalso
      have h1 := congrArg (fun a => a.ctrlByte (.todCtrl i)) ha
      simp only [timed_ctrl] at h1
      have h2 : todAck i (s.asic.poke (Reg.todCtrl i).addr TodCmd.writeNext1Hz.byte) =
          s.asic.poke (Reg.todCtrl i).addr TodCmd.writeNext1Hz.byte := by
        have : Asic.ctrlByte (s.asic.poke (Reg.todCtrl i).addr TodCmd.writeNext1Hz.byte) (.todCtrl i) =
          TodCmd.writeNext1Hz.byte := get_set_same _ _ _
        unfold todAck
        rw [this, show todCmdOf TodCmd.writeNext1Hz.byte = some .writeNext1Hz from by decide]
      rw [h2] at h1
      have h3 : Asic.ctrlByte (s.asic.poke (Reg.todCtrl i).addr TodCmd.writeNext1Hz.byte) (.todCtrl i) =
        TodCmd.writeNext1Hz.byte := get_set_same _ _ _
      rw [h3] at h1
      exact absurd h1 (by decide)
  obtain ⟨a, hst, hack, hreq, hregs⟩ := hst
  unfold todRead
  rw [run_on_ok (prompt_poll_quiet hl he hq rfl rfl (hq.2.1 i).1),
    run_on_ok (prompt_latch (s := s.after s.asic) he hq c.byte rfl hst)]
  simp only [State.after_after]
  rw [run_on_ok (prompt_poll (s := s.after a) hl he rfl rfl (a := s.asic.timed i c sec ns)
    (runMoves_prompt_tod s.par (i := i) (fun d => ?_) (fun j hj => ?_) hack hq1) (hq1.2.1 i).1)]
  · simp only [State.after_after]
    rw [run_on_ok (prompt_read (s := s.after (s.asic.timed i c sec ns)) he hq1 rfl)]
    simp only [State.after_after, State.after_asic]
    rw [run_on_ok (prompt_read (s := s.after (s.asic.timed i c sec ns)) he hq1 rfl)]
    simp only [State.after_after, State.after_asic, hv1, hv2, nsOfImage_imageOfNs hn]
    rfl
  · show a.req d = .none
    unfold Asic.req
    rw [hreq]
    exact hq.req d
  · show a.regs.get (Reg.todCtrl j).addr &&& todSem = 0
    rw [hregs, get_set_ne _ _ (by
      have h1 := i.isLt
      have h2 := j.isLt
      have : j.1 ≠ i.1 := fun e => hj (Fin.ext e)
      simp only [Reg.addr]
      omega)]
    exact (hq.2.1 j).1

theorem todAck_of {a : Asic} {i : Fin 2} {b : Byte} : (a.poke (Reg.todCtrl i).addr b).ctrlByte (.todCtrl i) = b :=
  get_set_same _ _ _

/-- A READ under the prompt responder returns the counter (R161, R171). -/
theorem todRead_read {s : State} (hl : s.par.wf = true) (he : s.env = Env.prompt) (hq : s.asic.Quiet) (i : Fin 2) :
    (todRead i .read).run s = .ok (normalize (s.asic.tod.get i).sec.toNat (s.asic.tod.get i).ns.toNat)
      (s.after (s.asic.timed i .read (s.asic.tod.get i).sec.toNat (s.asic.tod.get i).ns.toNat)) := by
  refine todRead_prompt hl he hq i .read (s.asic.tod.get i).sec.isLt (s.asic.tod.get i).ns.isLt ?_
  unfold todAck
  rw [todAck_of, show todCmdOf TodCmd.read.byte = some .read from by decide]
  rfl

/-- A READ_NEXT_1HZ under the prompt responder returns the next second (R165, R172). -/
theorem todRead_next {s : State} (hl : s.par.wf = true) (he : s.env = Env.prompt) (hq : s.asic.Quiet) (i : Fin 2)
    (h : (s.asic.tod.get i).sec.toNat < 2 ^ 48 - 1) :
    (todRead i .readNext1Hz).run s = .ok ((s.asic.tod.get i).sec.toNat + 1, 0)
      (s.after (s.asic.timed i .readNext1Hz ((s.asic.tod.get i).sec.toNat + 1) 0)) := by
  have hn : hasNextSec (s.asic.tod.get i).sec = true := decide_eq_true h
  have hsec : ((s.asic.tod.get i).sec + 1).toNat = (s.asic.tod.get i).sec.toNat + 1 := by
    rw [BitVec.toNat_add]
    exact Nat.mod_eq_of_lt (by rw [show BitVec.toNat (1 : BitVec 48) = 1 from rfl]; omega)
  refine todRead_prompt hl he hq i .readNext1Hz (sec := (s.asic.tod.get i).sec.toNat + 1) (ns := 0) (by omega)
    (by decide) ?_
  unfold todAck
  rw [todAck_of, show todCmdOf TodCmd.readNext1Hz.byte = some .readNext1Hz from by decide]
  simp only [Asic.poke_tod, Asic.poke_draws, nextSec, hn, if_true, hsec, Bool.not_true]
  rfl

/-- `TodWrite` under the prompt responder leaves the time pending for the next edge (R164, R173). -/
theorem todWrite_prompt {s : State} (hl : s.par.wf = true) (he : s.env = Env.prompt) (hq : s.asic.Quiet) (i : Fin 2)
    {sec ns : Nat} (hs : sec < 2 ^ 48) (hn : ns < 2 ^ 32) :
    ∃ m, (todWrite i sec ns).run s = .ok () (s.after { s.asic with
        regs := m, todPend := upd s.asic.todPend i (some ⟨BitVec.ofNat 48 sec, BitVec.ofNat 32 ns⟩) }) ∧
      m.get (Reg.todCtrl i).addr = TodCmd.writeNext1Hz.byte ∧
      ∀ x, todArea i x = false → m.get x = s.asic.regs.get x := by
  have hq1 := hq.setReg (r := .todSec i) sec rfl
  have hq2 := hq1.setReg (r := .todNs i) (imageOfNs ns) rfl
  unfold todWrite
  rw [run_on_ok (prompt_poll_quiet hl he hq rfl rfl (hq.2.1 i).1),
    run_on_ok (prompt_write (s := s.after s.asic) he hq sec rfl (by simp [Reg.access]))]
  simp only [State.after_after, State.after_asic]
  rw [run_on_ok (prompt_write (s := s.after (s.asic.setReg (.todSec i) sec)) he hq1 (imageOfNs ns) rfl
    (by simp [Reg.access]))]
  simp only [State.after_after, State.after_asic]
  have h1 : ((s.asic.setReg (.todSec i) sec).setReg (.todNs i) (imageOfNs ns)).regVal (.todSec i) = sec := by
    show Memory.value (Memory.setValue (Memory.setValue _ _ _) _ _) _ = _
    rw [value_setValue_ne _ _ (by simp), value_setValue _ _ _ (by simpa [Reg.width] using hs)]
  have h2 : ((s.asic.setReg (.todSec i) sec).setReg (.todNs i) (imageOfNs ns)).regVal (.todNs i) = imageOfNs ns :=
    value_setValue _ _ _ (by unfold imageOfNs; simp only [Reg.width]; omega)
  have himg : ((s.asic.setReg (.todSec i) sec).setReg (.todNs i) (imageOfNs ns)).todImage i =
      ⟨BitVec.ofNat 48 sec, BitVec.ofNat 32 ns⟩ := by
    unfold Asic.todImage
    rw [h1, h2, nsOfImage_imageOfNs hn]
  generalize hb : (s.asic.setReg (.todSec i) sec).setReg (.todNs i) (imageOfNs ns) = b at hq2 himg
  have hst : storeByte s.par b (Reg.todCtrl i).addr TodCmd.writeNext1Hz.byte = .ok
      { b.poke (Reg.todCtrl i).addr TodCmd.writeNext1Hz.byte with
        todPend := upd b.todPend i (some ⟨BitVec.ofNat 48 sec, BitVec.ofNat 32 ns⟩) } := by
    rw [storeByte_todCtrl, latchTod, if_neg (by decide), if_neg (by decide), if_pos rfl, himg]
  refine ⟨_, (run_on_ok (prompt_latch (s := s.after b) he hq2 TodCmd.writeNext1Hz.byte rfl hst)).trans ?_,
    get_set_same b.regs _ _, fun x hx => ?_⟩
  · rw [run_on, todDone_run, ← hb]
    rfl
  · simp only [todArea, inRegs, List.any_cons, List.any_nil, Bool.or_false, Bool.or_eq_false_iff] at hx
    obtain ⟨h1, h2, h3⟩ := hx
    have hc := addr_ne_of_not_covers h1
    rw [get_set_ne _ _ hc, ← hb]
    show Memory.get (Memory.setValue (Memory.setValue _ _ _) _ _) x = _
    rw [get_setValue_out _ _ _ _ h3, get_setValue_out _ _ _ _ h2]

end Sys2Proof.Machine
end

