-- ==== Sys2Proof/Laws/Shared.lean ====
section
/-! SUPPORT. What each shared sequence can do, whatever the schedule: the registers it writes, the errors it raises, that it
never faults, and what it leaves. -/

namespace Sys2Proof.Machine

/-! ### Mailbox -/

/-- The selection mask of a domain selects sub-resource `k`. -/
def maskIs (d : Domain) (k : Nat) (s : State) : Prop := s.asic.regVal (.mbMask d) = 2 ^ k

theorem mask_stable {W : List Reg} (d : Domain) (k : Nat) (h : Reg.mbMask d ∉ W) : Stable W (maskIs d k) := by
  intro s t hk hs
  unfold maskIs
  rw [kept_regVal h (by cases d <;> decide) rfl hk]
  exact hs

theorem mask_of_maskIs {d : Domain} {k : Nat} {s : State} (h : maskIs d k s) :
    s.asic.mask d = BitVec.ofNat 16 (2 ^ k) := by
  unfold Asic.mask
  rw [show s.asic.regVal (.mbMask d) = 2 ^ k from h]

theorem regVal_congr {a b : Asic} {r : Reg} (h : ∀ k < r.width, b.regs.get (r.addr + k) = a.regs.get (r.addr + k)) :
    b.regVal r = a.regVal r := by
  unfold Asic.regVal Memory.value
  rw [bytes_congr _ _ _ _ h]

theorem regVal_poke_ne (a : Asic) {r r' : Reg} (hw : r'.width = 1) (h : r ≠ r') (b : Byte) :
    (a.poke r'.addr b).regVal r = a.regVal r :=
  regVal_congr fun k hk => get_set_ne _ _ (by have := regs_apart h; omega)

theorem maskIs_poke {d : Domain} {k : Nat} {s : State} {a : Asic} {b : Byte} (h : maskIs d k s)
    (ha : a.regs = (s.asic.poke (Reg.mbSem d).addr b).regs) : maskIs d k { s with asic := a } := by
  show a.regVal (.mbMask d) = 2 ^ k
  have := regVal_poke_ne s.asic (r := .mbMask d) (r' := .mbSem d) rfl (by simp) b
  unfold Asic.regVal at this ⊢
  rw [ha, this]
  exact h

theorem latchSem_read {d : Domain} {k : Fin d.count} {s : State} (h : maskIs d k.1 s) :
    ∃ a, storeByte s.par s.asic (Reg.mbSem d).addr semRead = .ok a ∧ maskIs d k.1 { s with asic := a } := by
  rw [storeByte_mbSem, latchSem, if_pos rfl, mask_of_maskIs h, readMaskOk_pow, if_pos rfl]
  exact ⟨_, rfl, maskIs_poke h rfl⟩

theorem latchSem_write {d : Domain} {k : Fin d.count} {s : State} (h : maskIs d k.1 s) :
    ∃ a, storeByte s.par s.asic (Reg.mbSem d).addr semWrite = .ok a ∧ maskIs d k.1 { s with asic := a } := by
  rw [storeByte_mbSem, latchSem, if_neg (by decide), if_pos rfl, mask_of_maskIs h, writeMaskOk_pow, if_pos rfl]
  exact ⟨_, rfl, maskIs_poke h rfl⟩

theorem two_pow_lt_mask : ∀ d : Domain, ∀ k : Fin d.count, 2 ^ k.1 < 256 ^ (Reg.mbMask d).width := by
  intro d
  cases d <;> decide

/-- A mailbox read writes the mask and the semaphore of its domain, and leaves the mask selecting `k`. -/
theorem mbRead_runs (d : Domain) (k : Fin d.count) :
    Runs [.mbMask d, .mbSem d] [.transport, .timeout] (fun _ => True) (mbRead d k.1) fun _ s => maskIs d k.1 s := by
  unfold mbRead
  refine (Runs.poll rfl _ (stable_true _) (by simp) (by simp)).on.bind fun _ => ?_
  refine Runs.bind (Q := fun _ s => maskIs d k.1 s) ((Runs.writeData (by simp) rfl (by simp [Reg.access]) (stable_true _)
    (by simp)).on.post fun _ s hs => ?_) fun _ => ?_
  · unfold maskIs
    rw [hs.2, Nat.mod_eq_of_lt (two_pow_lt_mask d k)]
  refine Runs.mono (W := [.mbSem d]) (E := [.transport, .timeout]) ?_ (by simp) (by simp)
  have hst := mask_stable (W := [.mbSem d]) d k.1 (by simp)
  exact (Runs.writeCtrl (by simp) rfl hst (by simp) fun s hs => latchSem_read hs).on.bind fun _ =>
    (Runs.poll rfl _ hst (by simp) (by simp)).on

/-- Populating window fields writes those registers; no field is a mask or a control register. -/
theorem writeFields_runs {W : List Reg} {E : List ErrKind} {P : State → Prop} (fields : List (Reg × Nat))
    (hW : ∀ f ∈ fields, f.1 ∈ W ∧ isControl f.1 = false ∧ f.1.access ≠ .ro) (hP : Stable W P) (hE : .transport ∈ E) :
    Runs W E P (writeFields fields) fun _ s => P s := by
  induction fields with
  | nil => exact Runs.pure fun _ hs => hs
  | cons f fs ih =>
    obtain ⟨h1, h2, h3⟩ := hW f (by simp)
    exact ((Runs.writeData h1 h2 h3 hP hE).on.post fun _ _ hs => hs.1).bind fun _ =>
      ih fun g hg => hW g (by simp [hg])

/-- A mailbox write writes the mask, the semaphore and its fields. -/
theorem mbWrite_runs (d : Domain) (k : Fin d.count) (fields : List (Reg × Nat))
    (hf : ∀ f ∈ fields, isControl f.1 = false ∧ f.1.access ≠ .ro ∧ f.1 ≠ .mbMask d) :
    Runs (.mbMask d :: .mbSem d :: fields.map Prod.fst) [.transport, .timeout] (fun _ => True) (mbWrite d k.1 fields)
      fun _ _ => True := by
  unfold mbWrite
  refine ((mbRead_runs d k).mono (by simp) (by simp)).on.bind fun _ => ?_
  refine Runs.mono (W := .mbSem d :: fields.map Prod.fst) (E := [.transport, .timeout]) ?_
    (by intro r hr; simp at hr ⊢; tauto) (by simp)
  have hst := mask_stable (W := .mbSem d :: fields.map Prod.fst) d k.1 (by
    simp only [List.mem_cons, List.mem_map, reduceCtorEq, false_or, not_exists, not_and]
    exact fun f hm he => (hf f hm).2.2 he)
  refine (writeFields_runs fields (fun f hm => ⟨?_, (hf f hm).1, (hf f hm).2.1⟩) hst (by simp)).bind fun _ => ?_
  · exact List.mem_cons_of_mem _ (List.mem_map_of_mem hm)
  · exact (Runs.writeCtrl (by simp) rfl hst (by simp) fun s hs => latchSem_write hs).on.bind fun _ =>
      (Runs.poll rfl _ hst (by simp) (by simp)).on.post fun _ _ _ => trivial

/-! ### Time of day -/

theorem latchTod_ok (s : State) (i : Fin 2) (c : TodCmd) :
    ∃ a, storeByte s.par s.asic (Reg.todCtrl i).addr c.byte = .ok a ∧ True := by
  rw [storeByte_todCtrl]
  cases c
  · exact ⟨_, rfl, trivial⟩
  · exact ⟨_, rfl, trivial⟩
  · exact ⟨_, rfl, trivial⟩

theorem normalize_lt (sec ns : Nat) : (normalize sec ns).2 < nsPerS := Nat.mod_lt _ (by decide)

/-- A time read writes the control register alone; its nanoseconds are normalised. -/
theorem todRead_runs (i : Fin 2) (c : TodCmd) :
    Runs [.todCtrl i] [.transport, .timeout] (fun _ => True) (todRead i c) fun t _ => t.2 < nsPerS := by
  have hT := stable_true [.todCtrl i]
  have hE : ErrKind.transport ∈ [ErrKind.transport, .timeout] := by simp
  unfold todRead
  refine (Runs.poll rfl _ hT hE (by simp)).on.bind fun _ => ?_
  refine (Runs.writeCtrl (Q := fun _ => True) (by simp) rfl hT hE fun s _ => latchTod_ok s i c).on.bind fun _ => ?_
  refine (Runs.poll rfl _ hT hE (by simp)).on.bind fun _ => ?_
  refine ((Runs.load rfl hT hE).on.post fun _ _ h => h.1).bind fun _ => ?_
  exact ((Runs.load rfl hT hE).on.post fun _ _ h => h.1).bind fun _ => (Runs.pure fun _ _ => normalize_lt _ _).on

/-- A time write writes the TOD registers of its DPLL. -/
theorem todWrite_runs (i : Fin 2) (sec ns : Nat) :
    Runs [.todCtrl i, .todSec i, .todNs i] [.transport, .timeout] (fun _ => True) (todWrite i sec ns)
      fun _ _ => True := by
  have hT := stable_true [.todCtrl i, .todSec i, .todNs i]
  have hE : ErrKind.transport ∈ [ErrKind.transport, .timeout] := by simp
  unfold todWrite
  refine (Runs.poll rfl _ hT hE (by simp)).on.bind fun _ => ?_
  refine ((Runs.writeData (by simp) rfl (by simp [Reg.access]) hT hE).on.post fun _ _ h => h.1).bind fun _ => ?_
  refine ((Runs.writeData (by simp) rfl (by simp [Reg.access]) hT hE).on.post fun _ _ h => h.1).bind fun _ => ?_
  refine (Runs.writeCtrl (Q := fun _ => True) (by simp) rfl hT hE fun s _ =>
    latchTod_ok s i .writeNext1Hz).on.bind fun _ => Runs.todDone.on

theorem rolloverSamples_runs (i : Fin 2) (first n : Nat) :
    Runs [.todCtrl i] [.transport, .timeout] (fun _ => True) (rolloverSamples i first n)
      fun t _ => t.2 < nsPerS ∧ first < t.1 := by
  induction n with
  | zero => exact (Runs.raise (by simp)).on
  | succ n ih =>
    unfold rolloverSamples
    refine Runs.mark (Runs.mark ((todRead_runs i _).on.bind fun t => Runs.mark ?_))
    split
    · next h => exact Runs.pure fun _ hs => ⟨hs, h⟩
    · exact ih.pre fun _ _ => trivial

/-- The rollover wait ends in a second later than its first sample's. -/
theorem rolloverWait_runs (i : Fin 2) :
    Runs [.todCtrl i] [.transport, .timeout] (fun _ => True) (rolloverWait i) fun t _ => t.2 < nsPerS := by
  unfold rolloverWait
  refine (todRead_runs i _).on.bind fun first => Runs.params.bind fun _ => ?_
  exact ((rolloverSamples_runs i _ _).pre fun _ _ => trivial).post fun _ _ h => h.1

/-! ### Frequency -/

theorem synthFreq_runs (k : Fin 5) :
    Runs [.mbMask .synth, .mbSem .synth] [.transport, .timeout, .malformed] (fun _ => True) (synthFreq k)
      fun _ _ => True := by
  have hT := stable_true [.mbMask .synth, .mbSem .synth]
  have hr : ∀ r : Reg, r.access = .rw → Runs [.mbMask .synth, .mbSem .synth] [.transport, .timeout, .malformed]
    (fun _ => True) (load r) fun _ _ => True := fun r h =>
    (Runs.load h hT (by simp)).post fun _ _ _ => trivial
  unfold synthFreq
  refine (((mbRead_runs .synth k).mono (by simp) (by simp)).on.post fun _ _ _ => trivial).bind fun _ => ?_
  exact (hr _ rfl).on.bind fun _ => (hr _ rfl).on.bind fun _ => (hr _ rfl).on.bind fun _ => (hr _ rfl).on.bind fun _ =>
    (Runs.orRaise (by simp)).on.post fun _ _ _ => trivial

theorem outSynthFreq_runs (p : Fin 10) :
    Runs [.mbMask .out, .mbSem .out, .mbMask .synth, .mbSem .synth] [.transport, .timeout, .malformed] (fun _ => True)
      (outSynthFreq p) fun _ _ => True := by
  unfold outSynthFreq
  refine (((mbRead_runs .out p).mono (by simp) (by simp)).on.post fun _ _ _ => trivial).bind fun _ => ?_
  refine ((Runs.load rfl (stable_true _) (by simp)).on.post fun _ _ _ => trivial).bind fun v => ?_
  exact ((Runs.orRaise (by simp)).post (R := fun _ _ => True) fun _ _ _ => trivial).bind fun k =>
    ((synthFreq_runs k).mono (by simp) (by simp)).on

/-! ### Phase step -/

theorem latchPs_ok : ∀ i : Fin 2, phaseStepByte i &&& 0x07 = 0x01 ∧ psDpllField (phaseStepByte i) = BitVec.ofNat 4 i.1 := by
  decide

theorem phaseStep_runs (i : Fin 2) (rem : Int) :
    Runs [.psCtrl, .psCount, .psMask, .psData, .mbMask .out, .mbSem .out, .mbMask .synth, .mbSem .synth]
      [.transport, .timeout, .malformed, .range, .unsupported] (fun _ => True) (phaseStep i rem) fun _ _ => True := by
  have hT := stable_true
    [.psCtrl, .psCount, .psMask, .psData, .mbMask .out, .mbSem .out, .mbMask .synth, .mbSem .synth]
  unfold phaseStep
  refine (Runs.poll rfl _ hT (by simp) (by simp)).on.bind fun _ => ?_
  refine ((Runs.writeData (by simp) rfl (by decide) hT (by simp)).on.post fun _ _ h => h.1).bind fun _ => ?_
  refine (Runs.perout.on.post (R := fun _ _ => True) fun _ _ _ => trivial).bind fun m => ?_
  refine ((Runs.orRaise (by simp)).post (R := fun _ _ => True) fun _ _ _ => trivial).bind fun p => ?_
  refine ((outSynthFreq_runs p).mono (by simp) (by simp)).on.bind fun f => ?_
  refine ((Runs.orRaise (by simp)).on.post (R := fun _ _ => True) fun _ _ _ => trivial).bind fun u => ?_
  refine ((Runs.writeData (by simp) rfl (by decide) hT (by simp)).on.post fun _ _ h => h.1).bind fun _ => ?_
  refine ((Runs.writeData (by simp) rfl (by decide) hT (by simp)).on.post fun _ _ h => h.1).bind fun _ => ?_
  refine (Runs.writeCtrl (Q := fun _ => True) (by simp) rfl hT (by simp) fun s _ => ?_).on.bind fun _ =>
    (Runs.pure fun _ _ => trivial).on
  rw [storeByte_psCtrl, latchPs, if_pos (latchPs_ok i).1]
  exact ⟨_, rfl, trivial⟩

end Sys2Proof.Machine
end

