-- ==== Sys2Proof/Laws/Timely.lean ====
section
/-! SUPPORT. Requests that are acknowledged in time (40_mailbox.md R142): what a move does to a control byte, and that no
poll of a responder that acknowledges within its budget times out. -/

namespace Sys2Proof.Machine

/-! ### A control byte, and the move that acknowledges it -/

/-- The flag bits of a control register. -/
def flagMask : Reg → Byte
  | .mbSem _ => semBoth
  | .todCtrl _ => todSem
  | .tieCtrl => tieOp
  | .psCtrl => psOp
  | _ => 0

/-- The move that acknowledges what a control register asks for. -/
def ackOf : Reg → Move
  | .mbSem d => .mbAck d
  | .todCtrl i => .todAck i
  | .tieCtrl => .tieAck
  | _ => .psAck

/-- No flag bit of a control register is set. -/
def Asic.Clear (a : Asic) (r : Reg) : Prop := a.ctrlByte r &&& flagMask r = 0

/-- A control register holds a request its acknowledge performs. -/
def Asic.Asked (a : Asic) : Reg → Prop
  | .mbSem d => (∃ m, a.req d = .read m ∧ readMaskOk d m = true ∧ a.ctrlByte (.mbSem d) = semRead) ∨
      ∃ m, a.req d = .write m ∧ writeMaskOk d m = true ∧ a.ctrlByte (.mbSem d) = semWrite
  | .todCtrl i => a.ctrlByte (.todCtrl i) = 0x11 ∨ a.ctrlByte (.todCtrl i) = 0x12
  | .tieCtrl => a.ctrlByte .tieCtrl = 0x01 ∧ a.tiePend.isSome = true
  | _ => False

theorem Asic.Clear.congr {a b : Asic} {r : Reg} (h : a.Clear r) (hb : b.ctrlByte r = a.ctrlByte r) : b.Clear r := by
  unfold Asic.Clear
  rw [hb]
  exact h

theorem Asic.Clear.bits {a b : Asic} {r : Reg} {m : Byte} (h : a.Clear r)
    (hb : b.ctrlByte r = clearBits (a.ctrlByte r) m) : b.Clear r := by
  have : ∀ x y z : Byte, x &&& y = 0 → clearBits x z &&& y = 0 := by
    intro x y z h
    unfold clearBits
    rw [BitVec.and_assoc, BitVec.and_comm (~~~z), ← BitVec.and_assoc, h]
    exact BitVec.zero_and
  unfold Asic.Clear
  rw [hb]
  exact this _ _ _ h

theorem ctrl_clearFlag (a : Asic) (r r' : Reg) (m : Byte) (hc : isControl r = true) (hc' : isControl r' = true) :
    (a.clearFlag r' m).ctrlByte r = if r = r' then clearBits (a.ctrlByte r) m else a.ctrlByte r := by
  split
  · next h => subst h; exact get_set_same _ _ _
  · next h => exact get_set_ne _ _ (ctrl_addr_inj hc hc' h)

theorem ctrl_setWindow (p : Params) (a : Asic) (d : Domain) (k : Fin d.count) {r : Reg} (hc : isControl r = true) :
    (a.setWindow d (a.image p d k)).ctrlByte r = a.ctrlByte r := get_setBytes_sem p a d k hc

theorem ctrl_commitMask (a : Asic) (d : Domain) (m : BitVec 16) (bs : List Byte) (r : Reg) :
    (a.commitMask d m bs).ctrlByte r = a.ctrlByte r := by
  unfold Asic.ctrlByte
  rw [commitMask_regs]

theorem clearBits_none (b : Byte) : clearBits b 0 = b := by
  unfold clearBits
  exact BitVec.and_allOnes

theorem ctrl_latchTime' (a : Asic) (i : Fin 2) (sec ns : Nat) {r : Reg} (hc : isControl r = true) :
    (a.latchTime i sec ns).ctrlByte r = if r = .todCtrl i then clearBits (a.ctrlByte r) todSem else a.ctrlByte r := by
  have h1 : ∀ r' : Reg, isControl r' = false → r'.covers r.addr = false := fun r' h' => by
    by_contra hcov
    have := covers_unique (r := r') (r' := r) (addr := r.addr) (by simpa using hcov) (by simp [Reg.covers, width_pos])
    rw [this, hc] at h'
    exact Bool.false_ne_true h'.symm
  show (Asic.clearFlag _ _ _).ctrlByte r = _
  rw [ctrl_clearFlag _ _ _ _ hc rfl]
  unfold Asic.ctrlByte
  rw [get_setValue_out _ _ _ _ (h1 _ rfl), get_setValue_out _ _ _ _ (h1 _ rfl)]

/-- A move clears bits of a control byte. One that is not its acknowledge clears none, but for an edge, which clears the
semaphore of a TOD command. -/
theorem ctrl_move (p : Params) (mv : Move) (a : Asic) {r : Reg} (hc : isControl r = true) :
    ∃ m, (applyMove p mv a).ctrlByte r = clearBits (a.ctrlByte r) m ∧
      (mv ≠ ackOf r → m = 0 ∨ (∃ i, r = .todCtrl i) ∧ m = todSem) := by
  have h0 : ∃ m, a.ctrlByte r = clearBits (a.ctrlByte r) m ∧
      (mv ≠ ackOf r → m = 0 ∨ (∃ i, r = .todCtrl i) ∧ m = todSem) := ⟨0, (clearBits_none _).symm, fun _ => .inl rfl⟩
  have hi : ∀ (r' : Reg) (m : Byte), (r = r' → mv ≠ ackOf r → (∃ i, r = .todCtrl i) ∧ m = todSem) →
      ∃ m', (if r = r' then clearBits (a.ctrlByte r) m else a.ctrlByte r) = clearBits (a.ctrlByte r) m' ∧
        (mv ≠ ackOf r → m' = 0 ∨ (∃ i, r = .todCtrl i) ∧ m' = todSem) := fun r' m h => by
    split
    · next e => exact ⟨m, rfl, fun hm => .inr (h e hm)⟩
    · exact h0
  cases mv with
  | mbAck d =>
    show ∃ m, (mbAck p d a).ctrlByte r = _ ∧ _
    unfold mbAck
    split
    · exact h0
    · unfold ackRead
      split
      · show ∃ m, (Asic.clearFlag _ _ _).ctrlByte r = _ ∧ _
        rw [ctrl_clearFlag _ _ _ _ hc rfl, ctrl_setWindow p a d _ hc]
        exact hi _ _ fun e hm => absurd (e ▸ rfl) hm
      · exact h0
    · unfold ackWrite
      split
      · show ∃ m, (Asic.clearFlag _ _ _).ctrlByte r = _ ∧ _
        rw [ctrl_clearFlag _ _ _ _ hc rfl, ctrl_commitMask]
        exact hi _ _ fun e hm => absurd (e ▸ rfl) hm
      · exact h0
  | todAck i =>
    show ∃ m, (todAck i a).ctrlByte r = _ ∧ _
    unfold todAck
    split
    · rw [ctrl_latchTime' _ _ _ _ hc]
      exact hi _ _ fun e _ => ⟨⟨i, e⟩, rfl⟩
    · show ∃ m, (Asic.latchTime _ _ _ _).ctrlByte r = _ ∧ _
      rw [ctrl_latchTime' _ _ _ _ hc]
      exact hi _ _ fun e _ => ⟨⟨i, e⟩, rfl⟩
    · exact h0
    · exact h0
  | tieAck =>
    show ∃ m, (tieAck a).ctrlByte r = _ ∧ _
    unfold tieAck
    split
    · rw [ctrl_clearFlag _ _ _ _ hc rfl]
      simp only [Asic.ctrlByte, tieFold_regs]
      exact hi _ _ fun e hm => absurd (e ▸ rfl) hm
    · exact h0
  | psAck =>
    show ∃ m, (psAck a).ctrlByte r = _ ∧ _
    unfold psAck
    split
    · rw [ctrl_clearFlag _ _ _ _ hc rfl]
      simp only [Asic.ctrlByte, psStep_regs]
      exact hi _ _ fun e hm => absurd (e ▸ rfl) hm
    · exact h0
  | advance i ns =>
    show ∃ m, (clockAdvance i ns a).ctrlByte r = _ ∧ _
    unfold clockAdvance
    split <;> exact h0
  | edge i =>
    show ∃ m, (clockEdge i a).ctrlByte r = _ ∧ _
    unfold clockEdge
    split
    · rw [ctrl_clearFlag _ _ _ _ hc rfl]
      exact hi _ _ fun e _ => ⟨⟨i, e⟩, rfl⟩
    · exact h0
  | reprogram k b =>
    show ∃ m, (reprogram k b a).ctrlByte r = _ ∧ _
    unfold reprogram
    split <;> exact h0

/-- Only its own acknowledge touches a domain's request. -/
theorem req_move (p : Params) {mv : Move} (a : Asic) {d : Domain} (h : mv ≠ .mbAck d) :
    (applyMove p mv a).req d = a.req d := by
  cases mv with
  | mbAck e =>
    have he : e ≠ d := fun x => h (by rw [x])
    show (mbAck p e a).req d = _
    unfold mbAck
    split
    · rfl
    · unfold ackRead
      split
      · exact req_setReq_ne _ _ he
      · rfl
    · unfold ackWrite
      split
      · refine (req_setReq_ne _ _ he).trans ?_
        exact congrArg (fun v => v.get d.idx) (commit_fold_pend ..).1
      · rfl
  | todAck i =>
    show (todAck i a).req d = _
    unfold todAck
    split <;> rfl
  | tieAck =>
    show (tieAck a).req d = _
    unfold tieAck
    split
    · next l _ => exact congrArg (fun v => v.get d.idx) (tieFold_pend l (List.finRange 2) a).1
    · rfl
  | psAck =>
    show (psAck a).req d = _
    unfold psAck
    split
    · next l _ => exact congrArg (fun v => v.get d.idx) (psStep_pend l a).1
    · rfl
  | advance i ns =>
    show (clockAdvance i ns a).req d = _
    unfold clockAdvance
    split <;> rfl
  | edge i =>
    show (clockEdge i a).req d = _
    unfold clockEdge
    split <;> rfl
  | reprogram k b =>
    show (reprogram k b a).req d = _
    unfold reprogram
    split <;> rfl

/-- Only its own acknowledge touches the TIE latch. -/
theorem tiePend_move (p : Params) {mv : Move} (a : Asic) (h : mv ≠ .tieAck) :
    (applyMove p mv a).tiePend = a.tiePend := by
  cases mv with
  | mbAck e =>
    show (mbAck p e a).tiePend = _
    unfold mbAck
    split
    · rfl
    · unfold ackRead
      split <;> rfl
    · unfold ackWrite
      split
      · exact (commit_fold_pend ..).2.1
      · rfl
  | todAck i =>
    show (todAck i a).tiePend = _
    unfold todAck
    split <;> rfl
  | tieAck => exact absurd rfl h
  | psAck =>
    show (psAck a).tiePend = _
    unfold psAck
    split
    · next l _ => exact (psStep_pend l a).2
    · rfl
  | advance i ns =>
    show (clockAdvance i ns a).tiePend = _
    unfold clockAdvance
    split <;> rfl
  | edge i =>
    show (clockEdge i a).tiePend = _
    unfold clockEdge
    split <;> rfl
  | reprogram k b =>
    show (reprogram k b a).tiePend = _
    unfold reprogram
    split <;> rfl

theorem clear_move (p : Params) (mv : Move) {a : Asic} {r : Reg} (hc : isControl r = true) (h : a.Clear r) :
    (applyMove p mv a).Clear r := by
  obtain ⟨m, hm, _⟩ := ctrl_move p mv a hc
  exact h.bits hm

theorem clear_full : ∀ d : Domain, clearBits semRead semRead &&& flagMask (.mbSem d) = 0 ∧
    clearBits semWrite semWrite &&& flagMask (.mbSem d) = 0 := by intro d; cases d <;> decide

/-- The acknowledge of a request clears its flags. -/
theorem ack_clears (p : Params) {a : Asic} {r : Reg} (hc : isControl r = true) (h : a.Asked r) :
    (applyMove p (ackOf r) a).Clear r := by
  cases r with
  | mbSem d =>
    rcases h with ⟨m, h1, h2, h3⟩ | ⟨m, h1, h2, h3⟩
    · obtain ⟨k, hk⟩ := Option.isSome_iff_exists.mp h2
      show ((mbAck p d a).ctrlByte _) &&& _ = 0
      unfold mbAck
      rw [h1]
      show ((ackRead p d m a).ctrlByte _) &&& _ = 0
      unfold ackRead
      rw [hk]
      show ((Asic.clearFlag _ _ _).ctrlByte _) &&& _ = 0
      rw [ctrl_clearFlag _ _ _ _ rfl rfl, if_pos rfl, ctrl_setWindow p a d _ rfl, h3]
      exact (clear_full d).1
    · show ((mbAck p d a).ctrlByte _) &&& _ = 0
      unfold mbAck
      rw [h1]
      show ((ackWrite p d m a).ctrlByte _) &&& _ = 0
      unfold ackWrite
      rw [if_pos h2]
      show ((Asic.clearFlag _ _ _).ctrlByte _) &&& _ = 0
      rw [ctrl_clearFlag _ _ _ _ rfl rfl, if_pos rfl, ctrl_commitMask, h3]
      exact (clear_full d).2
  | todCtrl i =>
    show ((todAck i a).ctrlByte _) &&& _ = 0
    unfold todAck
    rcases h with h | h
    · rw [h, show todCmdOf 0x11 = some .read by decide]
      show ((Asic.latchTime _ _ _ _).ctrlByte _) &&& _ = 0
      rw [ctrl_latchTime' _ _ _ _ rfl, if_pos rfl, h]
      exact (by decide : clearBits 0x11 todSem &&& todSem = 0)
    · rw [h, show todCmdOf 0x12 = some .readNext1Hz by decide]
      show ((Asic.latchTime _ _ _ _).ctrlByte _) &&& _ = 0
      rw [ctrl_latchTime' _ _ _ _ rfl, if_pos rfl, h]
      exact (by decide : clearBits 0x12 todSem &&& todSem = 0)
  | tieCtrl =>
    obtain ⟨h1, h2⟩ := h
    obtain ⟨l, hl⟩ := Option.isSome_iff_exists.mp h2
    show ((tieAck a).ctrlByte _) &&& _ = 0
    unfold tieAck
    rw [hl]
    show ((Asic.clearFlag _ _ _).ctrlByte _) &&& _ = 0
    rw [ctrl_clearFlag _ _ _ _ rfl rfl, if_pos rfl]
    exact clear_tie _
  | psCtrl => exact absurd h id
  | _ => exact absurd hc Bool.false_ne_true

/-- A request stays as it is, or a move clears its flags. -/
theorem asked_move (p : Params) (mv : Move) {a : Asic} {r : Reg} (hc : isControl r = true) (h : a.Asked r) :
    ((applyMove p mv a).Asked r ∧ (applyMove p mv a).ctrlByte r = a.ctrlByte r) ∨ (applyMove p mv a).Clear r := by
  by_cases hm : mv = ackOf r
  · subst hm
    exact .inr (ack_clears p hc h)
  obtain ⟨m, hb, hm0⟩ := ctrl_move p mv a hc
  cases r with
  | mbSem d =>
    left
    rcases hm0 hm with rfl | ⟨⟨i, e⟩, _⟩
    · rw [clearBits_none] at hb
      simp only [Asic.Asked, hb, req_move p a hm] at h ⊢
      exact ⟨h, trivial⟩
    · cases e
  | todCtrl i =>
    rcases hm0 hm with rfl | ⟨_, rfl⟩
    · rw [clearBits_none] at hb
      simp only [Asic.Asked, hb] at h ⊢
      exact .inl ⟨h, trivial⟩
    · right
      unfold Asic.Clear
      rw [hb]
      rcases h with h | h
      · rw [h]
        exact (by decide : clearBits 0x11 todSem &&& todSem = 0)
      · rw [h]
        exact (by decide : clearBits 0x12 todSem &&& todSem = 0)
  | tieCtrl =>
    left
    rcases hm0 hm with rfl | ⟨⟨i, e⟩, _⟩
    · rw [clearBits_none] at hb
      simp only [Asic.Asked, hb, tiePend_move p a hm] at h ⊢
      exact ⟨h, trivial⟩
    · cases e
  | psCtrl => exact absurd h id
  | _ => exact absurd hc Bool.false_ne_true

/-! ### Moves of a slot -/

theorem clear_moves (p : Params) (mvs : List Move) {a : Asic} {r : Reg} (hc : isControl r = true) (h : a.Clear r) :
    (runMoves p mvs a).Clear r := by
  unfold runMoves
  induction mvs generalizing a with
  | nil => exact h
  | cons mv mvs ih => exact ih (clear_move p mv hc h)

/-- The request of the byte `b`, or none. -/
def Asic.Waits (a : Asic) (r : Reg) (b : Byte) : Prop := (a.Asked r ∧ a.ctrlByte r = b) ∨ a.Clear r

theorem waits_move (p : Params) (mv : Move) {a : Asic} {r : Reg} {b : Byte} (hc : isControl r = true) (h : a.Waits r b) :
    (applyMove p mv a).Waits r b := by
  rcases h with ⟨h, hb⟩ | h
  · rcases asked_move p mv hc h with ⟨h1, h2⟩ | h1
    · exact .inl ⟨h1, h2.trans hb⟩
    · exact .inr h1
  · exact .inr (clear_move p mv hc h)

theorem waits_moves (p : Params) (mvs : List Move) {a : Asic} {r : Reg} {b : Byte} (hc : isControl r = true)
    (h : a.Waits r b) : (runMoves p mvs a).Waits r b := by
  induction mvs generalizing a with
  | nil => exact h
  | cons mv mvs ih => exact ih (a := applyMove p mv a) (waits_move p mv hc h)

/-- Moves among which is the acknowledge leave nothing asked. -/
theorem ack_moves (p : Params) (mvs : List Move) {a : Asic} {r : Reg} {b : Byte} (hc : isControl r = true)
    (h : a.Waits r b) (hm : ackOf r ∈ mvs) : (runMoves p mvs a).Clear r := by
  induction mvs generalizing a with
  | nil => simp at hm
  | cons mv mvs ih =>
    show (runMoves p mvs (applyMove p mv a)).Clear r
    by_cases he : mv = ackOf r
    · subst he
      refine clear_moves p mvs hc ?_
      rcases h with h | h
      · exact ack_clears p hc h.1
      · exact clear_move p _ hc h
    · exact ih (waits_move p mv hc h) (by simpa [Ne.symm he] using hm)

/-! ### Programs that do not time out -/

/-- A result that is no `Timeout`, and leaves `Q` where it is a return. -/
def InTime {α : Type} (Q : State → Prop) : EStateM.Result Stop State α → Prop
  | .ok _ t => Q t
  | .error e _ => e ≠ .raise .timeout

/-- Run where `P` holds, `m` does not end with `Timeout`, and leaves `Q` where it returns. -/
def Timely {α : Type} (P : State → Prop) (m : Prog α) (Q : State → Prop) : Prop := ∀ s, P s → InTime Q (m.run s)

/-- The responder acknowledges in time, and no control register but perhaps `r` has a flag set; the byte `b` there asks
for something, which its acknowledge performs. -/
def Waiting (r : Reg) (b : Byte) (s : State) : Prop :=
  s.env.Acknowledges s.par.mbPollLimit ∧ s.asic.Waits r b ∧
  ∀ r', isControl r' = true → r' ≠ r → s.asic.Clear r'

/-- The responder acknowledges in time, and no flag is set. -/
def Idle (s : State) : Prop := s.env.Acknowledges s.par.mbPollLimit ∧ ∀ r, isControl r = true → s.asic.Clear r

section
variable {α β : Type} {P Q : State → Prop}

theorem Timely.bind {m : Prog α} {f : α → Prog β} {R : State → Prop} (hm : Timely P m Q) (hf : ∀ a, Timely Q (f a) R) :
    Timely P (letI := Prog.monad; m >>= f) R := by
  intro s hs
  rw [run_bind]
  have h := hm s hs
  cases hms : m.run s with
  | ok a t => rw [hms] at h; exact hf a t h
  | error e t => rw [hms] at h; exact h

theorem Timely.on {m : Prog α} {proc : Proc} {n : Nat} (h : Timely P m Q) : Timely P (m.on proc n) Q := by
  intro s hs
  rw [run_on]
  exact h s hs

theorem Timely.mark {f : Unit → Prog β} {proc : Proc} {n : Nat} (h : Timely P (f ()) Q) :
    Timely P (letI := Prog.monad; mark proc n >>= f) Q := by
  intro s hs
  rw [run_mark]
  exact h s hs

theorem Timely.ret (a : α) : Timely P (Prog.ret a) P := fun _ hs => hs

theorem Timely.raise {e : ErrKind} (h : e ≠ .timeout) : Timely P (raise e : Prog α) P := fun _ _ => by
  show Stop.raise e ≠ _
  simpa using h

theorem Timely.raiseIf (c : Bool) {e : ErrKind} (h : e ≠ .timeout) : Timely P (raiseIf c e) P := by
  cases c
  · exact .ret ()
  · exact .raise h

theorem Timely.orRaise (o : Option α) {e : ErrKind} (h : e ≠ .timeout) : Timely P (orRaise o e) P := by
  cases o
  · exact .raise h
  · exact .ret _

theorem Timely.checkIndex (n v : Nat) : Timely P (checkIndex n v) P := by
  unfold Machine.checkIndex
  split
  · exact .ret _
  · exact .raise (by decide)

theorem Timely.checkS32 (x : BitVec 64) : Timely P (checkS32 x) P := by
  unfold Machine.checkS32
  split
  · exact .ret _
  · exact .raise (by decide)

theorem Timely.params : Timely P params P := fun _ hs => hs

theorem Timely.perout (i : Fin 2) : Timely P (perout i) P := by
  intro s hs
  rw [perout_run]
  exact hs

theorem Timely.todDone (i : Fin 2) : Timely P (todDone i) P := fun _ hs => hs

theorem Timely.markPair (i : Fin 2) (p : Fin 10) (on : Bool) : Timely Idle (markPair i p on) Idle := fun _ hs => hs

theorem Timely.pre {P' : State → Prop} {m : Prog α} (h : Timely P m Q) (hp : ∀ s, P' s → P s) : Timely P' m Q :=
  fun s hs => h s (hp s hs)

end

/-! ### Accesses -/

theorem Env.Acknowledges.next {e : Env} {n : Nat} (h : e.Acknowledges n) : e.next.2.Acknowledges n := by
  intro mv hmv k
  obtain ⟨j, hj, hm⟩ := h mv hmv (k + 1)
  refine ⟨j, hj, ?_⟩
  have : e.next.2.slot (k + j) = e.slot (k + 1 + j) := by
    obtain ⟨slots, rest⟩ := e
    rw [show k + 1 + j = (k + j) + 1 by omega]
    cases slots <;> rfl
  rw [this]
  exact hm

theorem idle_tick {s : State} (h : Idle s) : Idle s.tick :=
  ⟨h.1.next, fun r hr => clear_moves _ _ hr (h.2 r hr)⟩

theorem waiting_tick {s : State} {r : Reg} {b : Byte} (hc : isControl r = true) (h : Waiting r b s) :
    Waiting r b s.tick :=
  ⟨h.1.next, waits_moves _ _ hc h.2.1, fun r' hr' hn => clear_moves _ _ hr' (h.2.2 r' hr' hn)⟩

theorem waiting_clear {s : State} {r : Reg} {b : Byte} (h : Waiting r b s) (hc : s.asic.Clear r) : Idle s :=
  ⟨h.1, fun r' hr' => by
    by_cases e : r' = r
    · rw [e]; exact hc
    · exact h.2.2 r' hr' e⟩

theorem idle_waiting {s : State} (r : Reg) (b : Byte) (hc : isControl r = true) (h : Idle s) : Waiting r b s :=
  ⟨h.1, .inr (h.2 r hc), fun r' hr' _ => h.2 r' hr'⟩

theorem Timely.load {r : Reg} (hr : r.access = .rw) : Timely Idle (load r) Idle := by
  intro s hs
  rw [load_run]
  rcases readReg_cases hr s with h | h <;> rw [h]
  · exact idle_tick hs
  · simp [InTime]

/-- A data register written leaves every flag as it was. -/
theorem Timely.store {r : Reg} (v : Nat) (hc : isControl r = false) (ha : r.access ≠ .ro) :
    Timely Idle (store r v) Idle := by
  intro s hs
  rw [store_run]
  cases hf : s.failure with
  | some f =>
    unfold writeReg memWrite xferWrite landFailed
    simp only [hf]
    split <;> simp [InTime]
  | none =>
    rw [writeReg_data v hc ha hf]
    refine ⟨(idle_tick hs).1, fun r' hr' => ((idle_tick hs).2 r' hr').congr ?_⟩
    exact get_setValue_ctrl _ _ (by rintro rfl; rw [hr'] at hc; exact Bool.false_ne_true hc.symm)

theorem ctrl_poke_ne {a b : Asic} {r r' : Reg} {v : Byte} (hc : isControl r = true) (hc' : isControl r' = true)
    (hn : r' ≠ r) (h : b.regs = a.regs.set r.addr v) : b.ctrlByte r' = a.ctrlByte r' := by
  unfold Asic.ctrlByte
  rw [h, get_set_ne _ _ (ctrl_addr_inj hc' hc hn)]

/-- A control register written: what its byte asks for is waited for. -/
theorem Timely.command {r : Reg} (b : Byte) (hc : isControl r = true)
    (hl : ∀ p a a', storeByte p a r.addr b = .ok a' → a'.Asked r ∧ a'.regs = a.regs.set r.addr b) :
    Timely Idle (Machine.store r b.toNat) (Waiting r b) := by
  intro s hs
  rw [store_run]
  cases hf : s.failure with
  | some f =>
    unfold writeReg memWrite xferWrite landFailed
    simp only [hf]
    split <;> simp [InTime]
  | none =>
    cases hst : storeByte s.par s.tick.asic r.addr b with
    | error f => rw [writeReg_control_fault b (control_width hc) hf hst]; simp [InTime]
    | ok a =>
      rw [writeReg_control b (control_width hc) hf hst]
      obtain ⟨h1, h2⟩ := hl _ _ _ hst
      exact ⟨hs.1.next, .inl ⟨h1, by unfold Asic.ctrlByte; rw [h2]; exact get_set_same _ _ _⟩, fun r' hr' hn => ((idle_tick hs).2 r' hr').congr (ctrl_poke_ne hc hr' hn h2)⟩

/-- A poll of a flag the responder clears in time. -/
theorem Timely.pollClear {r : Reg} (hc : isControl r = true) (hr : r.access = .rw) {b mask : Byte} (hb : b &&& mask ≠ 0)
    (hk : ∀ x : Byte, x &&& flagMask r = 0 → x &&& mask = 0) (n : Nat) (s : State) (hs : Waiting r b s)
    (ha : ∃ k < n, ackOf r ∈ (s.env.slot k).moves) : InTime Idle ((Machine.pollClear r mask n).run s) := by
  induction n generalizing s with
  | zero => obtain ⟨k, hk, _⟩ := ha; omega
  | succ n ih =>
    rw [pollClear_succ]
    rcases readReg_cases hr s with h | h <;> rw [h]
    · have hw := waiting_tick hc hs
      simp only [regVal_control _ hc, and_toNat_eq_zero]
      by_cases hz : s.tick.asic.ctrlByte r &&& mask = 0
      · rw [if_pos hz]
        refine waiting_clear hw ?_
        rcases hw.2.1 with ⟨_, h⟩ | h
        · exact absurd (h ▸ hz) hb
        · exact h
      · rw [if_neg hz]
        refine ih s.tick hw ?_
        obtain ⟨k, hlt, hmem⟩ := ha
        cases k with
        | zero =>
          refine absurd (hk _ (ack_moves s.par s.env.next.1.moves hc hs.2.1 ?_)) hz
          have : s.env.next.1 = s.env.slot 0 := by
            generalize s.env = e
            obtain ⟨slots, rest⟩ := e
            cases slots <;> rfl
          rw [this]
          exact hmem
        | succ k =>
          refine ⟨k, by omega, ?_⟩
          have : s.env.next.2.slot k = s.env.slot (k + 1) := by
            generalize s.env = e
            obtain ⟨slots, rest⟩ := e
            cases slots <;> rfl
          rw [State.tick_env, this]
          exact hmem
    · simp [InTime]

/-- A poll waits out what is asked for. -/
theorem Timely.poll {r : Reg} (hc : isControl r = true) (hr : r.access = .rw) (hm : ackOf r ∈ ackMoves) {b mask : Byte}
    (hb : b &&& mask ≠ 0) (hk : ∀ x : Byte, x &&& flagMask r = 0 → x &&& mask = 0) :
    Timely (Waiting r b) (Machine.poll r mask) Idle := by
  intro s hs
  rw [poll_run]
  refine Timely.pollClear hc hr hb hk _ s hs ?_
  obtain ⟨k, h1, h2⟩ := hs.1 _ hm 0
  exact ⟨k, h1, by simpa using h2⟩

/-! ### The polls and commands of the block -/

theorem clear_le : ∀ b : Byte, b &&& semBoth = 0 → b &&& semRead = 0 ∧ b &&& semWrite = 0 := by decide +kernel

/-- A poll where nothing is asked for. -/
theorem Timely.pollIdle {r : Reg} (hc : isControl r = true) (hr : r.access = .rw) (hm : ackOf r ∈ ackMoves)
    (hf : flagMask r ≠ 0) : Timely Idle (Machine.poll r (flagMask r)) Idle :=
  (Timely.poll (b := flagMask r) hc hr hm (by rwa [BitVec.and_self]) fun _ h => h).pre fun _ => idle_waiting r _ hc

theorem mem_ackMoves (d : Domain) : ackOf (.mbSem d) ∈ ackMoves := by cases d <;> decide
theorem mem_ackMoves_tod : ∀ i : Fin 2, ackOf (.todCtrl i) ∈ ackMoves := by decide

theorem Timely.semRead (d : Domain) : Timely Idle (Machine.store (.mbSem d) semRead.toNat) (Waiting (.mbSem d) semRead) :=
  Timely.command _ rfl fun p a a' h => by
    rw [storeByte_mbSem, latchSem, if_pos rfl] at h
    split at h <;> cases h
    next hm => exact ⟨.inl ⟨_, req_setReq_same _ _ _, hm, get_set_same _ _ _⟩, rfl⟩

theorem Timely.semWrite (d : Domain) : Timely Idle (Machine.store (.mbSem d) semWrite.toNat) (Waiting (.mbSem d) semWrite) :=
  Timely.command _ rfl fun p a a' h => by
    rw [storeByte_mbSem, latchSem, if_neg (by decide), if_pos rfl] at h
    split at h <;> cases h
    next hm => exact ⟨.inr ⟨_, req_setReq_same _ _ _, hm, get_set_same _ _ _⟩, rfl⟩

theorem Timely.todCommand (i : Fin 2) (c : TodCmd) (h : c ≠ .writeNext1Hz) :
    Timely Idle (Machine.store (.todCtrl i) c.byte.toNat) (Waiting (.todCtrl i) c.byte) :=
  Timely.command _ rfl fun p a a' h' => by
    rw [storeByte_todCtrl] at h'
    cases c
    · cases h'
      exact ⟨.inl (get_set_same _ _ _), rfl⟩
    · cases h'
      exact ⟨.inr (get_set_same _ _ _), rfl⟩
    · exact absurd rfl h

theorem Timely.tieCommand : Timely Idle (Machine.store .tieCtrl tieWriteByte.toNat) (Waiting .tieCtrl tieWriteByte) :=
  Timely.command _ rfl fun p a a' h => by
    rw [storeByte_tieCtrl] at h
    cases h
    exact ⟨⟨(get_set_same a.regs Reg.tieCtrl.addr tieWriteByte : _), rfl⟩, rfl⟩

/-- A command nothing waits for. -/
theorem Timely.last {r : Reg} (v : Nat) : Timely Idle (Machine.store r v) fun _ => True := by
  intro s _
  rw [store_run]
  unfold writeReg memWrite xferWrite
  cases s.failure with
  | some f =>
    simp only [landFailed]
    split <;> simp [InTime]
  | none =>
    simp only [land]
    split <;> simp [InTime]

/-! ### Sequences -/

theorem mbRead_timely (d : Domain) (k : Nat) : Timely Idle (mbRead d k) Idle := by
  unfold mbRead
  refine (Timely.pollIdle (r := .mbSem d) rfl rfl (mem_ackMoves d) (by simp [flagMask]; decide)).on.bind fun _ => ?_
  refine (Timely.store _ rfl (by simp [Reg.access])).on.bind fun _ => (Timely.semRead d).on.bind fun _ => ?_
  exact (Timely.poll rfl rfl (mem_ackMoves d) (by decide) fun x h => (clear_le x h).1).on

theorem writeFields_timely (fields : List (Reg × Nat)) (h : ∀ f ∈ fields, isControl f.1 = false ∧ f.1.access ≠ .ro) :
    Timely Idle (writeFields fields) Idle := by
  induction fields with
  | nil => exact .ret ()
  | cons f fs ih =>
    obtain ⟨h1, h2⟩ := h f (by simp)
    exact (Timely.store _ h1 h2).on.bind fun _ => ih fun g hg => h g (by simp [hg])

theorem mbWrite_timely (d : Domain) (k : Nat) (fields : List (Reg × Nat))
    (h : ∀ f ∈ fields, isControl f.1 = false ∧ f.1.access ≠ .ro) : Timely Idle (mbWrite d k fields) Idle := by
  unfold mbWrite
  refine (mbRead_timely d k).on.bind fun _ => (writeFields_timely fields h).bind fun _ => ?_
  refine (Timely.semWrite d).on.bind fun _ => ?_
  exact (Timely.poll rfl rfl (mem_ackMoves d) (by decide) fun x h => (clear_le x h).2).on

theorem Timely.pollTod (i : Fin 2) : Timely Idle (Machine.poll (.todCtrl i) todSem) Idle :=
  Timely.pollIdle (r := .todCtrl i) rfl rfl (mem_ackMoves_tod i) (by simp [flagMask]; decide)

theorem todRead_timely (i : Fin 2) (c : TodCmd) (h : c ≠ .writeNext1Hz) : Timely Idle (todRead i c) Idle := by
  unfold todRead
  refine (Timely.pollTod i).on.bind fun _ => (Timely.todCommand i c h).on.bind fun _ => ?_
  refine (Timely.poll rfl rfl (mem_ackMoves_tod i) (show c.byte &&& todSem ≠ 0 by cases c <;> decide)
    fun _ h => h).on.bind fun _ => ?_
  exact (Timely.load rfl).on.bind fun _ => (Timely.load rfl).on.bind fun _ => (Timely.ret _).on

theorem synthFreq_timely (k : Fin 5) : Timely Idle (synthFreq k) Idle := by
  unfold synthFreq
  refine (mbRead_timely _ _).on.bind fun _ => (Timely.load rfl).on.bind fun _ => (Timely.load rfl).on.bind fun _ => ?_
  exact (Timely.load rfl).on.bind fun _ => (Timely.load rfl).on.bind fun _ => (Timely.orRaise _ (by decide)).on

theorem outSynthFreq_timely (p : Fin 10) : Timely Idle (outSynthFreq p) Idle := by
  unfold outSynthFreq
  refine (mbRead_timely _ _).on.bind fun _ => (Timely.load rfl).on.bind fun _ => ?_
  exact (Timely.orRaise _ (by decide)).bind fun _ => (synthFreq_timely _).on

/-- A phase step leaves its own command waiting (R343). -/
theorem phaseStep_timely (i : Fin 2) (rem : Int) : Timely Idle (phaseStep i rem) fun _ => True := by
  unfold phaseStep
  refine (Timely.pollIdle (r := .psCtrl) rfl rfl (by decide) (by decide)).on.bind fun _ => ?_
  refine (Timely.store _ rfl (by decide)).on.bind fun _ => (Timely.perout i).on.bind fun _ => ?_
  refine (Timely.orRaise _ (by decide)).bind fun _ => (outSynthFreq_timely _).on.bind fun _ => ?_
  refine (Timely.orRaise _ (by decide)).on.bind fun _ => (Timely.store _ rfl (by decide)).on.bind fun _ => ?_
  exact (Timely.store _ rfl (by decide)).on.bind fun _ =>
    (Timely.last _).on.bind fun _ => (Timely.ret ()).on

end Sys2Proof.Machine
end

