-- ==== Sys2Proof/Tests/Slice0.lean ====
section
/-! SUPPORT. Tests of the model on fixed values, whose expected results are the vectors and programs of
95_test_vectors.md (its ids stand in the comments) or the bytes of 30_encoding.md written out by hand; and, for each
obligation with hypotheses, a witness that meets them. -/

namespace Sys2Proof.Tests

set_option Elab.async false

open Sys2Proof.Machine

/-! ### Helpers -/

/-- A request's bytes, its tail filled with zeros. -/
def req (bs : List Byte) : Vector Byte 18 := Vector.ofFn fun k : Fin 18 => bs.getD k.1 0

/-- A request's bytes as a list. -/
def words (bs : List Byte) : List Byte := bs ++ List.replicate (18 - bs.length) 0

/-- The ASIC side of the tests: the banks of programs P1, P3 and P6, every synthesizer at 100 MHz. -/
def calmAsic : Asic :=
  { Asic.reset with
    bankRef := .replicate 10 ⟨1, 1, 1, 1, 0⟩
    bankSynth := .replicate 5 ⟨10000, 10000, 1, 1⟩
    bankOut := .replicate 10 ⟨1, 0, 4, 5, 0⟩
    tod := #v[⟨1000, 200000000⟩, ⟨7, 999999999⟩] }

/-- An attached device whose lock caller 3 holds, with one pair in each perout mask. -/
def calm : State :=
  { State.reset with
    dev := .attached
    ctl := { Ctl.reset with lock := .held 3, perout := #v[0x0004, 0x0200] }
    asic := calmAsic }

/-- `calm` with a pair's bank entry replaced. -/
def withOut (p : Fin 10) (b : OutBank) : State :=
  { calm with asic := { calmAsic with bankOut := upd calmAsic.bankOut p b } }

/-- `calm` with a reference's bank entry replaced. -/
def withRef (r : Fin 10) (b : RefBank) : State :=
  { calm with asic := { calmAsic with bankRef := upd calmAsic.bankRef r b } }

/-- `calm` with every pair N-divided. -/
def nDivided : State := { calm with par := { calm.par with signalType := .replicate 10 .seNDivided } }

/-- `calm` under another schedule. -/
def under (e : Env) : State := { calm with env := e }

/-- `s` under a prompt responder whose slots can be counted. -/
def counted (s : State) : State := { s with env := ⟨List.replicate 20 Slot.prompt, Slot.prompt⟩ }

/-- The accesses made since `counted`. -/
def accesses (t : State) : Nat := 20 - t.env.slots.length

/-- An access that fails on all bytes but those `landed` names. -/
def failing (landed : List Bool) : State := under ⟨[⟨[], some ⟨landed, false⟩⟩], Slot.silent⟩

/-- A device in its bootstrap, with a script to run. -/
def booting (ls : List ScriptLine) : State := { calm with dev := .booting, boot := ls }

/-- An attached, idle device with arrivals. -/
def waiting (es : List PortEvent) : State := { calm with ctl := { calm.ctl with lock := .free }, port := es }

/-- Does an outcome answer a next state of which `f` holds? -/
def gives (o : Host.Outcome State Fault Refusal) (f : State → Bool) : Bool :=
  match o with
  | .next t => f t
  | .fault _ => false
  | .refused _ => false

/-- The next state of an outcome. -/
def nextOf (o : Host.Outcome State Fault Refusal) : State :=
  match o with
  | .next t => t
  | .fault _ => State.reset
  | .refused _ => State.reset

theorem eq_next {o : Host.Outcome State Fault Refusal} (h : gives o (fun _ => true) = true) : o = .next (nextOf o) := by
  cases o
  · rfl
  · cases h
  · cases h

/-- The bytes of a register. -/
def image (t : State) (r : Reg) : List Byte := t.asic.regs.bytes r.addr r.width

/-! ### Well-formedness -/

theorem test_wf_refuses_dpll_2 : (Instr.psCmdWrite 2 true).wf = false := by decide
theorem test_wf_refuses_dpll_15 : (Instr.psCmdWrite 15 false).wf = false := by decide
theorem test_wf_admits_dpll_1 : (Instr.psCmdWrite 1 false).wf = true := by decide

/-! ### Decoding: every constructor from a word written out (programs P1 to P6; R100, R111) -/

theorem test_decode_tod :
    decode (.request (words [0x10, 0x01])) = .ok (.todGet 1) ∧
    decode (.request [0x11, 0x00, 0, 0, 0, 0, 0x65, 0x53, 0xF1, 0x00, 0, 0, 0, 0, 0x1D, 0xCD, 0x65, 0x00]) =
      .ok (.todSet 0 1700000000 500000000) ∧
    decode (.request (words [0x12, 0x00, 0, 0, 0, 0, 0x95, 0x02, 0xF9, 0x00])) = .ok (.steptime 0 2500000000) ∧
    decode (.request (words [0x13, 0x01, 0, 0, 0, 0, 0, 0x01, 0x00, 0x00])) = .ok (.adjfine 1 65536) ∧
    decode (.request (words [0x14, 0x00, 0xFF, 0xFF, 0xFF, 0xFF, 0xFF, 0xFF, 0xFF, 0xFF])) = .ok (.adjphase 0 (-1)) := by
  decide +kernel

theorem test_decode_frequency :
    decode (.request (words [0x20, 0x01])) = .ok (.synthFreqGet 1) ∧
    decode (.request (words [0x21, 0x05])) = .ok (.refFreqGet 5) ∧
    decode (.request (words [0x22, 0x05, 0, 0, 0, 0, 0, 0, 0x30, 0x39])) = .ok (.refFreqSet 5 12345) ∧
    decode (.request (words [0x23, 0x05])) = .ok (.outFreqGet 5) ∧
    decode (.request (words [0x24, 0x04, 0, 0, 0, 0, 0, 0x98, 0x96, 0x80])) = .ok (.outFreqSet 4 10000000) := by
  decide +kernel

theorem test_decode_phase_comp :
    decode (.request (words [0x30, 0x05])) = .ok (.refPhaseCompGet 5) ∧
    decode (.request (words [0x31, 0x05, 0xFF, 0xFF, 0xFF, 0xFF, 0xFF, 0xFF, 0xFF, 0x06])) =
      .ok (.refPhaseCompSet 5 (-250)) ∧
    decode (.request (words [0x32, 0x05])) = .ok (.outPhaseCompGet 5) ∧
    decode (.request (words [0x33, 0x04, 0, 0, 0, 0, 0, 0, 0x3A, 0x99])) = .ok (.outPhaseCompSet 4 15001) := by
  decide +kernel

theorem test_decode_pins :
    decode (.request (words [0x40, 0x06])) = .ok (.pinEnable 6) ∧
    decode (.request (words [0x41, 0x06])) = .ok (.pinDisable 6) ∧
    decode (.request [0x42, 0x19, 0, 0, 0, 0, 0x3B, 0x9A, 0xCA, 0x00, 0xFF, 0xFF, 0xFF, 0xFF, 0xC4, 0x65, 0x36, 0x00]) =
      .ok (.peroutEnable 0x19 1000000000 (-1000000000)) ∧
    decode (.request (words [0x43, 0x05])) = .ok (.peroutDisable 5) := by
  decide +kernel

theorem test_decode_commands :
    decode (.regWrite 0x0202 0x01) = .ok (.mbReqWrite .ref) ∧ decode (.regWrite 0x0302 0x02) = .ok (.mbReqRead .dpll) ∧
    decode (.regWrite 0x0402 0x02) = .ok (.mbReqRead .synth) ∧ decode (.regWrite 0x0502 0x01) = .ok (.mbReqWrite .out) ∧
    decode (.regWrite 0x0101 0x11) = .ok (.todCmdRead 1) ∧
    decode (.regWrite 0x0100 0x12) = .ok (.todCmdReadNext1Hz 0) ∧
    decode (.regWrite 0x0101 0x13) = .ok (.todCmdWriteNext1Hz 1) ∧
    decode (.regWrite 0x0160 0x01) = .ok .tieCmdWrite ∧
    decode (.regWrite 0x0170 0x09) = .ok (.psCmdWrite 0 true) ∧
    decode (.regWrite 0x0170 0x19) = .ok (.psCmdWrite 1 true) ∧
    decode (.regWrite 0x0170 0x11) = .ok (.psCmdWrite 1 false) ∧
    decode (.regWrite 0x0170 0xF9) = .ok (.psCmdWrite 15 true) := by
  decide +kernel

theorem test_decode_rejects :
    decode (.request (words [0x15])) = .error (.reservedOpcode 0x15) ∧
    decode (.request (words [0x00])) = .error (.reservedOpcode 0x00) ∧
    decode (.request [0x10, 0x00]) = .error (.wrongLength 2) ∧
    decode (.regWrite 0x0502 0x03) = .error (.noCommand 0x0502 0x03) ∧
    decode (.regWrite 0x0100 0x03) = .error (.noCommand 0x0100 0x03) ∧
    decode (.regWrite 0x0170 0x0D) = .error (.noCommand 0x0170 0x0D) ∧
    decode (.regWrite 0x0210 0x01) = .error (.notControlRegister 0x0210) ∧
    decode (.regWrite 0x0600 0x01) = .error (.notControlRegister 0x0600) := by
  decide +kernel

/-- R120, with the lines of D6, L18 and the alias of `tod.step`. -/
theorem test_assemble :
    assemble "tod.set d0, 1700000000, 0x1DCD6500".toList = some (.todSet 0 1700000000 500000000) ∧
    assemble "perout.enable d1, p9, 1000000000, -1000000000".toList =
      some (.peroutEnable 0x19 1000000000 (-1000000000)) ∧
    assemble "adjtime d1, -1".toList = some (.steptime 1 (-1)) ∧
    assemble "pin.enable o20".toList = some (.pinEnable 20) ∧ assemble "pin.enable d19".toList = none := by
  decide +kernel

/-- R110: the result of P1 step 4, status 0 and -250. -/
theorem test_result_bytes :
    resultBytes ⟨0, -250, 0⟩ =
      [0, 0xFF, 0xFF, 0xFF, 0xFF, 0xFF, 0xFF, 0xFF, 0x06, 0, 0, 0, 0, 0, 0, 0, 0] := by
  decide +kernel

/-! ### Time of day (D6, D7, D10, D13, D5, P3, ST8) -/

theorem test_todGet :
    gives (exec (.todGet 1) (counted calm)) (fun t => decide (t.res = ⟨0, 7, 999999999⟩) &&
      decide (t.asic.ctrlByte (.todCtrl 1) = 0x01) && decide (t.resTo = some 3) && decide (accesses t = 5)) = true := by
  decide +kernel

theorem test_todGet_bad_index :
    gives (exec (.todGet 2) (counted calm)) (fun t => decide (t.res = ⟨3, 0, 0⟩) && decide (accesses t = 0)) = true := by
  decide +kernel

theorem test_todSet :
    gives (exec (.todSet 0 1700000000 500000000) calm) (fun t => decide (t.res = ⟨0, 0, 0⟩) &&
      decide (image t (.todSec 0) = [0x00, 0x00, 0x65, 0x53, 0xF1, 0x00]) &&
      decide (image t (.todNs 0) = [0x1D, 0xCD, 0x65, 0x00, 0x00, 0x00]) &&
      decide (t.asic.ctrlByte (.todCtrl 0) = 0x13) &&
      decide (t.asic.todPend.get 0 = some ⟨1700000000, 500000000⟩)) = true := by
  decide +kernel

theorem test_todSet_range :
    gives (exec (.todSet 0 (2 ^ 48) 0) calm) (fun t => decide (t.res = ⟨4, 0, 0⟩) && decide (t.asic = calmAsic)) =
      true := by
  decide +kernel

theorem test_normalize : normalize 5 0xFFFFFFFF = (9, 294967295) ∧ normalize (2 ^ 48 - 1) 1000000000 = (2 ^ 48, 0) := by
  decide +kernel

theorem test_todNs_reserved_bytes : nsOfImage 0x1DCD6500ABCD = 500000000 := by decide +kernel

/-- P3 step 3. -/
theorem test_steptime :
    gives (exec (.steptime 0 500000) calm) (fun t => decide (t.res = ⟨0, 0, 0⟩) &&
      decide (image t .psData = [0x00, 0x00, 0xC3, 0x50]) && decide (image t .psMask = [0x00, 0x04]) &&
      decide (t.asic.ctrlByte .psCtrl = 0x09) &&
      decide (t.asic.psPend = some ⟨0#4, true, 4, 50000, 1⟩)) = true := by
  decide +kernel

/-- The schedule of P3 step 4: an edge after the first time read, and one in the wait for the written time. -/
def p3 : Env :=
  ⟨List.replicate 5 Slot.prompt ++ [⟨.edge 0 :: Slot.prompt.moves, none⟩] ++ List.replicate 9 Slot.prompt ++
    [⟨[.edge 0], none⟩], Slot.prompt⟩

/-- P3 step 4, with its end state. -/
theorem test_steptime_whole_seconds :
    gives (exec (.steptime 0 2500000000) (under p3)) (fun t => decide (t.res = ⟨0, 0, 0⟩) &&
      decide (t.asic.tod.get 0 = ⟨1004, 0⟩) && decide (t.asic.ctrlByte (.todCtrl 0) = 0x03) &&
      decide (image t (.todSec 0) = [0x00, 0x00, 0x00, 0x00, 0x03, 0xEC]) &&
      decide (t.asic.psPend = some ⟨0, true, 4, 50000000, 1⟩)) = true := by
  decide +kernel

theorem test_todCmdRead :
    gives (exec (.todCmdRead 1) calm) (fun t => decide (t.asic.ctrlByte (.todCtrl 1) = 0x11) &&
      decide ((todAck 1 t.asic).regs.bytes 0x0126 6 = [0x3B, 0x9A, 0xC9, 0xFF, 0x00, 0x00])) = true := by
  decide +kernel

/-- D17. -/
theorem test_todCmdReadNext1Hz :
    gives (exec (.todCmdReadNext1Hz 0) calm) (fun t => decide ((todAck 0 t.asic).regVal (.todSec 0) = 1001) &&
      decide ((todAck 0 t.asic).regVal (.todNs 0) = 0)) = true := by
  decide +kernel

/-- R173: the latch is taken from the data registers as they stand. -/
theorem test_todCmdWriteNext1Hz :
    gives (exec (.todCmdWriteNext1Hz 0)
      { calm with asic := { calmAsic with regs := [(0x0115, 9), (0x0116, 0x1D), (0x0119, 7), (0x011B, 0xCD)] } })
      (fun t => decide (t.asic.todPend.get 0 = some ⟨9, 0x1D000007⟩)) = true := by
  decide +kernel

/-! ### Adjustment (A4, A8, A15, A18, SU, ST) -/

theorem test_adjfine :
    gives (exec (.adjfine 1 65536) (counted calm)) (fun t =>
      decide (image t (.dfOffset 1) = [0xFF, 0xFF, 0xEF, 0x39, 0x08, 0x60]) && decide (accesses t = 1)) = true := by
  decide +kernel

theorem test_adjfine_lowest :
    gives (exec (.adjfine 0 (BitVec.ofInt 64 (-2147483648))) calm) (fun t =>
      decide (image t (.dfOffset 0) = [0x08, 0x63, 0x7B, 0xD0, 0x00, 0x00])) = true := by
  decide +kernel

theorem test_dcoOffset :
    dcoOffset 1 = 4294 ∧ dcoOffset (-1) = -4295 ∧ dcoOffset 2147483647 = 9223372009273 ∧
    dcoOffset (-2147483648) = -9223372013568 := by
  decide +kernel

theorem test_adjphase :
    gives (exec (.adjphase 1 1500) calm) (fun t => decide (t.asic.regVal .tieMask = 2) &&
      decide (image t (.tieData 1) = [0x00, 0x00, 0x08, 0xF0, 0xD1, 0x80]) &&
      decide (t.asic.ctrlByte .tieCtrl = 0x00)) = true := by
  decide +kernel

theorem test_adjphase_negative :
    gives (exec (.adjphase 0 (BitVec.ofInt 64 (-1500000000))) calm) (fun t =>
      decide (image t (.tieData 0) = [0xD2, 0x86, 0x77, 0xC2, 0xE0, 0x00])) = true := by
  decide +kernel

theorem test_stepUnits :
    stepUnits (-500000000) 100000000 = some (-50000000) ∧ stepUnits (-1) 100000000 = some 0 ∧
    stepUnits 999999999 2147483658 = none ∧ split (-2500000000) = (-2, -500000000) ∧ lowestPair 0x0014 = some 2 := by
  decide +kernel

theorem test_tieCmdWrite :
    gives (exec .tieCmdWrite { calm with asic := { calmAsic with regs := [(0x0157, 5), (0x015D, 6), (0x0161, 2)] } })
      (fun t => decide (t.asic.tiePend = some ⟨2, #v[none, some 6]⟩)) = true := by
  decide +kernel

theorem test_psCmdWrite :
    gives (exec (.psCmdWrite 1 false)
      { calm with asic := { calmAsic with regs := [(0x0171, 2), (0x0173, 4), (0x0177, 9)] } })
      (fun t => decide (t.asic.ctrlByte .psCtrl = 0x11) && decide (t.asic.psPend = some ⟨1, false, 4, 9, 2⟩)) = true := by
  decide +kernel

/-- R241, R36: a nibble that names no DPLL is latched all the same, and its acknowledge clears the op-code; the idle
op-code written over it takes it back. -/
theorem test_psCmdWrite_no_dpll :
    gives (exec (.psCmdWrite 9 false) calm) (fun t => decide (t.asic.ctrlByte .psCtrl = 0x91) &&
      decide (t.asic.psPend = some ⟨9#4, false, 0, 0, 0⟩) && decide ((psAck t.asic).ctrlByte .psCtrl = 0x90) &&
      gives (step { t with dev := .booting, env := Env.silent, boot := [.write 0x0170 0x00] })
        (fun u => decide (u.dev = .booting) && decide (u.asic.psPend = none))) = true := by
  decide +kernel

/-- R241: pairs of one synthesizer frequency, no pair, and pairs of two. -/
theorem test_steppedFreq :
    calmAsic.steppedFreq 0x0208 = some 100000000 ∧ calmAsic.steppedFreq 0 = none ∧
    ({ calmAsic with
      bankSynth := upd calmAsic.bankSynth 4 ⟨1, 1, 1, 1⟩
      bankOut := upd calmAsic.bankOut 9 ⟨4, 0, 4, 5, 0⟩ } : Asic).steppedFreq 0x0208 = none := by
  decide +kernel

/-! ### Frequency (F) -/

theorem test_synthFreqGet :
    gives (exec (.synthFreqGet 2) (counted calm)) (fun t => decide (t.res = ⟨0, 100000000, 0⟩) &&
      decide (t.asic.regVal (.mbMask .synth) = 4) && decide (accesses t = 8)) = true := by
  decide +kernel

theorem test_product :
    product 25000 1000 5 4 = some 31250000 ∧ product 1 1 1 0 = none ∧ product 10 10 1 3 = some 33 ∧
    product 65535 (2 ^ 32 - 1) 65535 1 = some 18446181123756261375 := by
  decide +kernel

/-- F15. -/
theorem test_refFreqGet :
    gives (exec (.refFreqGet 5) (withRef 5 ⟨20000, 500, 1, 1, 0⟩)) (fun t => decide (t.res = ⟨0, 10000000, 0⟩)) =
      true := by
  decide +kernel

/-- F16. -/
theorem test_refFreqGet_unsupported :
    gives (exec (.refFreqGet 5) (withRef 5 ⟨10000, 1000, 1, 3, 0⟩)) (fun t => decide (t.res = ⟨5, 0, 0⟩)) = true := by
  decide +kernel

/-- P1 step 1, with F5's window bytes. -/
theorem test_refFreqSet :
    gives (exec (.refFreqSet 5 10000000) calm) (fun t => decide (t.res = ⟨0, 0, 0⟩) &&
      decide (t.asic.regs.bytes 0x0210 10 = [0x27, 0x10, 0x00, 0x00, 0x03, 0xE8, 0x00, 0x01, 0x00, 0x01]) &&
      decide (t.asic.bankRef.get 5 = ⟨10000, 1000, 1, 1, 0⟩) && decide (image t (.mbMask .ref) = [0x00, 0x20])) =
      true := by
  decide +kernel

theorem test_refFreqSet_unsupported :
    gives (exec (.refFreqSet 5 12345) calm) (fun t => decide (t.res = ⟨5, 0, 0⟩) && decide (t.asic = calmAsic)) =
      true := by
  decide +kernel

/-- F31. -/
theorem test_outFreqGet :
    gives (exec (.outFreqGet 6) nDivided) (fun t => decide (t.res = ⟨0, 25000000, 0⟩)) = true ∧
    gives (exec (.outFreqGet 7) nDivided) (fun t => decide (t.res = ⟨0, 5000000, 0⟩)) = true := by
  decide +kernel

/-- F35. -/
theorem test_outFreqGet_bad_select :
    gives (exec (.outFreqGet 4) (counted (withOut 2 ⟨5, 0, 4, 5, 0⟩))) (fun t => decide (t.res = ⟨6, 0, 0⟩) &&
      decide (accesses t = 5)) = true := by
  decide +kernel

/-- F32. -/
theorem test_outFreqSet :
    gives (exec (.outFreqSet 6 50000000) nDivided) (fun t =>
      decide (t.asic.bankOut.get 3 = ⟨1, 0, 2, 5, 0⟩) &&
      gives (exec (.outFreqGet 7) t) (fun u => decide (u.res = ⟨0, 10000000, 0⟩))) = true := by
  decide +kernel

/-- F28, F29. -/
theorem test_outFreqSet_nSide :
    gives (exec (.outFreqSet 7 5000000) (withOut 3 ⟨1, 0, 4, 9, 0⟩ |> fun s => { s with par := nDivided.par }))
      (fun t => decide (t.asic.bankOut.get 3 = ⟨1, 0, 4, 5, 0⟩)) = true ∧
    gives (exec (.outFreqSet 7 25000000) nDivided) (fun t => decide (t.res = ⟨3, 0, 0⟩)) = true := by
  decide +kernel

/-! ### Phase compensation (P1, P6, PC) -/

theorem test_refPhaseCompGet :
    gives (exec (.refPhaseCompGet 5) (withRef 5 ⟨1, 1, 1, 1, 0xFFFFFFFFFC18⟩))
      (fun t => decide (t.res = ⟨0, 1000, 0⟩)) = true ∧
    gives (exec (.refPhaseCompGet 5) (withRef 5 ⟨1, 1, 1, 1, 0xFFFF80000000⟩))
      (fun t => decide (t.res = ⟨4, 0, 0⟩)) = true := by
  decide +kernel

theorem test_refPhaseCompSet :
    gives (exec (.refPhaseCompSet 5 (-250)) calm)
      (fun t => decide (t.asic.bankRef.get 5 = ⟨1, 1, 1, 1, 0x0000000000FA⟩)) = true := by
  decide +kernel

/-- PC18, PC19. -/
theorem test_outPhaseCompGet :
    gives (exec (.outPhaseCompGet 5) (withOut 2 ⟨1, 3, 10, 1, 0xFFFFFFFF⟩)) (fun t => decide (t.res = ⟨0, 5000, 0⟩)) =
      true ∧
    gives (exec (.outPhaseCompGet 5) (withOut 2 ⟨1, 3, 10, 1, 0x80000000⟩)) (fun t => decide (t.res = ⟨4, 0, 0⟩)) =
      true := by
  decide +kernel

/-- P6 steps 3 and 5, and PC15. -/
theorem test_outPhaseCompSet :
    gives (exec (.outPhaseCompSet 4 15000) (withOut 2 ⟨1, 3, 10, 1, 0⟩))
      (fun t => decide (t.asic.bankOut.get 2 = ⟨1, 3, 10, 1, 0xFFFFFFFD⟩)) = true ∧
    gives (exec (.outPhaseCompSet 4 15001) (withOut 2 ⟨1, 3, 10, 1, 7⟩)) (fun t => decide (t.res = ⟨4, 0, 0⟩) &&
      decide (t.asic.bankOut.get 2 = ⟨1, 3, 10, 1, 7⟩)) = true ∧
    gives (exec (.outPhaseCompSet 4 (-5000)) calm) (fun t => decide ((t.asic.bankOut.get 2).phaseComp = 1)) = true := by
  decide +kernel

/-! ### Pins and periodic outputs (L) -/

theorem test_pinEnable :
    gives (exec (.pinEnable 7) (counted calm)) (fun t => decide (t.asic.bankOut.get 3 = ⟨1, 2, 4, 5, 0⟩) &&
      decide (accesses t = 12)) = true := by
  decide +kernel

theorem test_pinEnable_reserved_state :
    gives (exec (.pinEnable 7) (withOut 3 ⟨1, 4, 4, 5, 0⟩)) (fun t => decide (t.res = ⟨6, 0, 0⟩) &&
      decide ((t.asic.bankOut.get 3).signalFmt = 4)) = true := by
  decide +kernel

/-- L13, L11. -/
theorem test_pinDisable :
    gives (exec (.pinDisable 6) (withOut 3 ⟨1, 3, 4, 5, 0⟩)) (fun t => decide ((t.asic.bankOut.get 3).signalFmt = 2)) =
      true ∧
    gives (exec (.pinDisable 6) (withOut 3 ⟨1, 2, 4, 5, 0⟩)) (fun t => decide ((t.asic.bankOut.get 3).signalFmt = 0)) =
      true := by
  decide +kernel

/-- L17, L19. -/
theorem test_peroutEnable :
    gives (exec (.peroutEnable 0x13 1000000000 (-1000000000)) calm) (fun t =>
      decide (t.ctl.perout = #v[0x0004, 0x0208])) = true ∧
    gives (exec (.peroutEnable 0x02 500000000 0) calm) (fun t => decide (t.res = ⟨3, 0, 0⟩)) = true := by
  decide +kernel

/-- L22, and the bit taken out. -/
theorem test_peroutDisable :
    gives (exec (.peroutDisable 0x05) calm) (fun t => decide (t.ctl.perout = #v[0x0004, 0x0200])) = true ∧
    gives (exec (.peroutDisable 0x19) calm) (fun t => decide (t.ctl.perout = #v[0x0004, 0x0000])) = true := by
  decide +kernel

/-! ### Mailbox and transport (M, T, P5) -/

theorem test_mbReqRead :
    gives (exec (.mbReqRead .synth) { calm with asic := { calmAsic with regs := [(0x0400, 0x10)] } }) (fun t =>
      decide (t.asic.ctrlByte (.mbSem .synth) = 0x02) && decide (t.asic.req .synth = .read 0x10)) = true := by
  decide +kernel

theorem test_mbReqWrite :
    gives (exec (.mbReqWrite .out) { calm with asic := { calmAsic with regs := [(0x0501, 0x06), (0x0511, 2)] } })
      (fun t => decide (t.asic.req .out = .write 6) &&
        decide ((((mbAck calm.par .out t.asic).bankOut.get 1).signalFmt,
          ((mbAck calm.par .out t.asic).bankOut.get 2).signalFmt,
          ((mbAck calm.par .out t.asic).bankOut.get 0).signalFmt) = (2, 2, 0))) = true := by
  decide +kernel

/-- The state a sequence leaves, whichever way it ends. -/
def leaves {α : Type} (r : EStateM.Result Stop State α) : State :=
  match r with
  | .ok _ t => t
  | .error _ t => t

theorem leaves_leaves {α : Type} (q : Seq α) (s : State) : q.Leaves s (leaves (q s)) := by
  unfold Seq.Leaves leaves
  cases q s with
  | ok v t => exact .inl ⟨v, rfl⟩
  | error e t => exact .inr ⟨e, rfl⟩

/-- T10: the bytes a failed write leaves where only its second byte landed. -/
theorem test_failed_write : (leaves (memWrite 0x0172 2 0x1234 (failing [false, true]))).asic.regs.bytes 0x0172 2 =
    [0x00, 0x34] := by
  decide +kernel

/-- R66: a failed WRITE_NEXT_1HZ, triggered though its byte did not land, and not triggered though it did. -/
theorem test_failed_command :
    gives (exec (.todCmdWriteNext1Hz 0) (under ⟨[⟨[], some ⟨[false], true⟩⟩], Slot.silent⟩))
      (fun t => decide (t.asic.ctrlByte (.todCtrl 0) = 0) && decide (t.asic.todPend.get 0 = some ⟨0, 0⟩)) = true ∧
    gives (exec (.todCmdWriteNext1Hz 0) (failing [true]))
      (fun t => decide (t.asic.ctrlByte (.todCtrl 0) = 0x13) && decide (t.asic.todPend.get 0 = none)) = true := by
  decide +kernel

/-- T4, T9: a write, and a prefix read of it. -/
theorem test_write : (leaves (memWrite 0x0174 4 0x0000C350 calm)).asic.regs.bytes 0x0174 4 =
    [0x00, 0x00, 0xC3, 0x50] := by
  decide +kernel

/-- A Synth responder that is dead, every other one prompt (P5). -/
def p5 : Env :=
  ⟨List.replicate 20 ⟨[.mbAck .ref, .mbAck .out, .todAck 0, .todAck 1, .tieAck, .psAck], none⟩, Slot.silent⟩

/-- P5, with a budget of 4 samples. -/
theorem test_timeout_and_recovery :
    gives (exec (.synthFreqGet 0) { under p5 with par := { calm.par with mbPollLimit := 4 } }) (fun t =>
      decide (t.res = ⟨1, 0, 0⟩) && decide (t.ctl.lock = .free) && decide (t.asic.ctrlByte (.mbSem .synth) = 0x02) &&
      decide (accesses t = 7) &&
      gives (exec (.adjfine 0 65536) t) (fun u => decide (u.res = ⟨0, 0, 0⟩)) &&
      gives (exec (.synthFreqGet 1) t) (fun u => decide (u.res = ⟨1, 0, 0⟩) && decide (accesses u = 11))) = true := by
  decide +kernel

/-! ### Steps -/

/-- E5, as a step. -/
theorem test_step_request :
    gives (step (waiting [.request 5 (req [0x40, 0x14])])) (fun t => decide (t.res = ⟨3, 0, 0⟩) &&
      decide (t.resTo = some 5) && decide (t.port = []) && decide (t.op = ⟨0x40, 0x14, 0, 0⟩)) = true := by
  decide +kernel

/-- R332: a script line that writes data, and one that is a command. -/
theorem test_step_script :
    gives (step (booting [.write 0x0177 0x5A])) (fun t => decide (image t .psData = [0, 0, 0, 0x5A])) = true ∧
    gives (step (booting [.write 0x0160 0x01])) (fun t => decide (t.asic.tiePend.isSome)) = true := by
  decide +kernel

/-- The host's words, as the first step after reset. -/
theorem test_withFetchWord :
    gives (step (State.reset.withFetchWord 144 (0x13 + 0x01 * 2 ^ 8 + 0x01 * 2 ^ 56)))
      (fun t => decide (image t (.dfOffset 1) = [0xFF, 0xFF, 0xEF, 0x39, 0x08, 0x60])) = true ∧
    gives (step (State.reset.withFetchWord 8 0x02)) (fun t => decide (t.asic.req .ref = .read 1)) = true ∧
    decodeTableWord 8 0x43 = some (.peroutDisable 0) ∧ decodeTableWord 8 0x09 = some (.psCmdWrite 0 true) := by
  decide +kernel

/-- R28, R160: where `tod.get d1` stands after its check, after its command is written and while it is waited for. -/
theorem test_access_steps :
    gives (accessSteps 3 (waiting [.request 5 (req [0x10, 0x01])])) (fun t =>
      decide (t.ctl.seq = [⟨.todGet, 2⟩, ⟨.todRead, 1⟩]) && decide (t.ctl.phase = .busy 0x10) &&
      decide (t.ctl.tod = #v[.idle, .idle])) = true ∧
    gives (accessSteps 12 (waiting [.request 5 (req [0x10, 0x01])])) (fun t =>
      decide (t.ctl.seq = [⟨.todGet, 2⟩, ⟨.todRead, 3⟩, ⟨.pollClear, 2⟩]) && decide (t.ctl.tod = #v[.idle, .commandIssued]) &&
      decide (t.asic.ctrlByte (.todCtrl 1) = 0x11) && decide (t.resTo = none)) = true := by
  decide +kernel

/-- R28, R160, R164: after its command is written, TOD_SET is at the end of TodWrite, and then at its own return. -/
theorem test_position_tod_set :
    gives (accessSteps 17 (waiting [.request 5 (req [0x11, 0x01])])) (fun t =>
      decide (t.ctl.seq = [⟨.todSet, 5⟩, ⟨.todWrite, 5⟩]) && decide (t.ctl.tod = #v[.idle, .commandIssued]) &&
      decide (t.asic.ctrlByte (.todCtrl 1) = 0x13)) = true ∧
    gives (accessSteps 19 (waiting [.request 5 (req [0x11, 0x01])])) (fun t =>
      decide (t.ctl.seq = [⟨.todSet, 5⟩]) && decide (t.ctl.tod = #v[.idle, .idle])) = true := by
  decide +kernel

/-- R28, R231: after its command is written, PhaseStep is at its return. -/
theorem test_position_phase_step :
    gives (accessSteps 66 (waiting [.request 5 (req [0x12, 0x01])])) (fun t =>
      decide (t.ctl.seq = [⟨.steptime, 10⟩, ⟨.phaseStep, 9⟩]) && decide (t.asic.ctrlByte .psCtrl = 0x19)) = true := by
  decide +kernel

/-- R20: the access steps of an operation end where the whole step does. -/
theorem test_access_steps_end :
    gives (accessSteps 22 (waiting [.request 5 (req [0x10, 0x01])])) (fun t =>
      gives (step (waiting [.request 5 (req [0x10, 0x01])])) (fun u => decide (t = u))) = true := by
  decide +kernel

/-- R40: a latch whose flag bits are 0 is no request, and nanoseconds are below a second. -/
theorem test_attach_finds :
    gives (step { waiting [.attach { calmAsic with
        mbReq := .replicate 4 (.read 1), tiePend := some ⟨1, #v[some 5, none]⟩, psPend := some ⟨0, true, 4, 1, 1⟩
        tod := .replicate 2 ⟨5, 1000000007⟩, regs := [(0x0402, 2), (0x0170, 9)] }] with dev := .detached })
      (fun t => decide (t.asic.mbReq = #v[.none, .none, .read 1, .none]) && decide (t.asic.tiePend = none) &&
        decide (t.asic.psPend = some ⟨0, true, 4, 1, 1⟩) && decide (t.asic.tod = .replicate 2 ⟨5, 7⟩)) = true := by
  decide +kernel

/-! ### Witnesses: for each obligation with hypotheses, values that meet them

`calm` is `Prompt` and `lively` is `Ready`; indices are taken at the ends of their ranges. -/

/-- A quiet device under the responder that never moves. -/
def still : State := under Env.silent

/-- A quiet device under the prompt responder with an edge in every slot. -/
def ticking : State := under (Env.ticking 0)

/-- A quiet device under a responder and clocks that move in every slot. -/
def lively : State := under ⟨[], ⟨ackMoves, none⟩⟩

theorem witness_prompt : calm.Prompt := by decide +kernel

theorem witness_ready : lively.Ready := by
  refine ⟨by decide +kernel, by decide +kernel, by decide +kernel, fun mv h n => ⟨0, by decide, ?_⟩⟩
  exact h

theorem witness_WordsHaveOneMeaning :
    decode (.regWrite 0x0302 0x01) = .ok (.mbReqWrite .dpll) ∧
    decode (.regWrite 0x0170 0x29) = .ok (.psCmdWrite 2 true) ∧ (words [0x43, 0x19]).length = 18 ∧
    (words [0xFF]).length = 18 ∧ (0x43, .peroutDisable 0x19) ∈ operationsOf 0x19 7 8 ∧
    (0x42, .peroutEnable 0x19 7 8) ∈ operationsOf 0x19 7 8 := by
  decide +kernel

theorem witness_WordsHaveOneMeaning_reserved (i : Instr) : (0x44, i) ∉ operationsOf 0x19 7 8 := by
  intro h
  simp [operationsOf] at h

/-- R110, R111: where the fields of a request stand, and an operand that does not count. -/
theorem test_decode_fields :
    decode (.request [0x42, 0x19, 0x80, 1, 2, 3, 4, 5, 6, 7, 0xF0, 0xE1, 0xD2, 0xC3, 0xB4, 0xA5, 0x96, 0x87]) =
      .ok (.peroutEnable 0x19 0x8001020304050607 0xF0E1D2C3B4A59687) ∧
    decode (.request [0x10, 0x01, 1, 2, 3, 4, 5, 6, 7, 8, 9, 10, 11, 12, 13, 14, 15, 16]) = .ok (.todGet 1) := by
  decide +kernel

theorem witness_StepRunsDecodedInstruction_request :
    ∃ s : State, s.dev = .attached ∧ s.ctl.lock = .free ∧ s.port = .request 5 (req [0x40, 0x13]) :: [.detach] ∧
      decode (.request (req [0x40, 0x13]).toList) = .ok (.pinEnable 0x13) :=
  ⟨waiting [.request 5 (req [0x40, 0x13]), .detach], by decide +kernel⟩

theorem witness_StepRunsDecodedInstruction_script :
    ∃ s : State, s.dev = .booting ∧ s.boot = .write 0x0502 0x02 :: [.comment] ∧
      decode (.regWrite 0x0502 0x02) = .ok (.mbReqRead .out) :=
  ⟨booting [.write 0x0502 0x02, .comment], by decide +kernel⟩

/-- No operation has an opcode below 0x10 or above 0x43 (R111). -/
theorem reserved_of_range {b : Byte} (h : b.toNat < 0x10 ∨ 0x43 < b.toNat) (i : Instr) : i.opcode ≠ some b := by
  intro hi
  cases i <;> simp only [Instr.opcode, Option.some.injEq, reduceCtorEq] at hi <;> subst hi <;> revert h <;> decide

theorem witness_ReservedOpcodeIsInvalidArgument :
    ∃ s : State, s.dev = .attached ∧ s.ctl.lock = .free ∧ s.port = .request 5 (req [0x44]) :: [] ∧
      ∀ i : Instr, i.opcode ≠ some (reqOpcode (req [0x44]).toList) :=
  ⟨waiting [.request 5 (req [0x44])], rfl, rfl, rfl, reserved_of_range (by decide +kernel)⟩

/-- Each kind of script line, a line whose access fails, and the script's end. -/
theorem witness_BootstrapTakesNoRequest :
    (booting []).dev = .booting ∧ step (booting []) = .next (nextOf (step (booting []))) ∧
    (booting [.write 0x0172 1]).failure = none ∧
    step (booting [.write 0x0172 1]) = .next (nextOf (step (booting [.write 0x0172 1]))) ∧
    ({ failing [true] with dev := .booting, boot := [.write 0x0172 1] } : State).failure ≠ none ∧
    step { failing [true] with dev := .booting, boot := [.write 0x0172 1] } =
      .next (nextOf (step { failing [true] with dev := .booting, boot := [.write 0x0172 1] })) ∧
    step (booting [.wait 7]) = .next (nextOf (step (booting [.wait 7]))) ∧
    step (booting [.comment]) = .next (nextOf (step (booting [.comment]))) :=
  ⟨rfl, eq_next (by decide +kernel), by decide +kernel, eq_next (by decide +kernel), by decide +kernel,
    eq_next (by decide +kernel), eq_next (by decide +kernel), eq_next (by decide +kernel)⟩

/-- The last byte of the map, the last of the Dpll window, a write-only byte, a byte of CHIP_ID and an unmapped one. -/
theorem witness_ScriptLineStoresByte :
    (booting [.write 0x051D 0xAB]).dev = .booting ∧ (booting [.write 0x051D 0xAB]).boot = .write 0x051D 0xAB :: [] ∧
    (booting [.write 0x051D 0xAB]).failure = none ∧ calm.par.dpllWinLen.1 = 16 ∧
    accessAt calm.par (0x051D#16).toNat = some .rw ∧ regAt (0x051D#16).toNat = some .outPhaseComp ∧
    accessAt calm.par (0x031F#16).toNat = some .rw ∧ regAt (0x031F#16).toNat = none ∧
    accessAt calm.par (0x0140#16).toNat = some .wo ∧ regAt (0x0140#16).toNat = some (.dfOffset 0) ∧
    accessAt calm.par (0x0001#16).toNat = some .ro ∧ accessAt calm.par (0x0320#16).toNat = none := by
  decide +kernel

/-- An attach after a detach and after a failed bootstrap, of an ASIC side that R40 allows; a detach with the lock free
and with it held; an attach of an attached device; and a request to a device that is not attached. -/
theorem witness_AttachAndDetach :
    (∃ s : State, s.dev = .detached ∧ s.port = .attach calmAsic :: []) ∧
    (∃ s : State, s.dev = .bootFailed ∧ s.port = .attach calmAsic :: []) ∧
    (∃ s : State, s.dev = .attached ∧ s.port = .detach :: [] ∧ s.ctl.lock = .free) ∧
    (∃ s : State, s.dev = .attached ∧ s.port = .detach :: [] ∧ s.ctl.lock ≠ .free) ∧
    (∃ s : State, s.dev = .attached ∧ s.port = .attach calmAsic :: [] ∧ s.ctl.lock = .free) ∧ calmAsic.Attachable ∧
    ∃ s t : State, s.dev = .bootFailed ∧ s.port = .request 0 (req [0x10]) :: [] ∧ step s = .next t :=
  ⟨⟨{ waiting [.attach calmAsic] with dev := .detached }, rfl, rfl⟩,
    ⟨{ waiting [.attach calmAsic] with dev := .bootFailed }, rfl, rfl⟩, ⟨waiting [.detach], rfl, rfl, rfl⟩,
    ⟨{ calm with port := [.detach] }, rfl, rfl, by decide⟩, ⟨waiting [.attach calmAsic], rfl, rfl, rfl⟩,
    by decide +kernel,
    ⟨{ waiting [.request 0 (req [0x10])] with dev := .bootFailed }, _, rfl, rfl, eq_next (by decide +kernel)⟩⟩

/-- The bytes of a register that is no control byte and can be read are a data range. -/
theorem dataRange_of {addr n : Nat} {r : Reg} (p : Params) (h : ∀ k < n, regAt (addr + k) = some r) (ha : r.access = .rw)
    (hc : (∀ d, r ≠ .mbSem d) ∧ (∀ i, r ≠ .todCtrl i) ∧ r ≠ .tieCtrl ∧ r ≠ .psCtrl) : dataRange p addr n := by
  intro k hk
  refine ⟨by simp [accessAt, h k hk, ha], fun q hq => ?_⟩
  rw [h k hk] at hq
  cases hq
  exact hc

/-- The last data register of the map. -/
theorem lastRange (p : Params) : dataRange p 0x051A 4 :=
  dataRange_of p (r := .outPhaseComp) (by decide) rfl (by simp)

theorem witness_WritesAreBigEndian : dataRange calm.par 0x051A 4 ∧ calm.failure = none := ⟨lastRange _, by decide⟩

/-- The value a sequence returns, where it returns one. -/
def returned {α : Type} (r : EStateM.Result Stop State α) : Option α :=
  match r with
  | .ok v _ => some v
  | .error _ _ => none

theorem eq_ok {α : Type} {r : EStateM.Result Stop State α} {v : α} (h : returned r = some v) : r = .ok v (leaves r) := by
  cases r
  · cases h
    rfl
  · cases h

/-- A state after a write of the last data register. -/
def written : State := leaves (memWrite 0x051A 4 0xFFFFFFFD calm)

theorem witness_ReadAfterWriteReturnsValue :
    dataRange calm.par 0x051A 4 ∧ 0xFFFFFFFD < 256 ^ 4 ∧ memWrite 0x051A 4 0xFFFFFFFD calm = .ok () written ∧
    (∀ k < 4, (runMoves written.par written.env.next.1.moves written.asic).regs.get (0x051A + k) =
      written.asic.regs.get (0x051A + k)) ∧
    memRead 0x051A 4 written = .ok 0xFFFFFFFD (leaves (memRead 0x051A 4 written)) :=
  ⟨lastRange _, by decide, eq_ok (by decide +kernel), by decide +kernel, eq_ok (by decide +kernel)⟩

theorem witness_FailedAccessIsTransport :
    (failing [true, false, true]).failure = some ⟨[true, false, true], false⟩ ∧ dataRange (failing [true, false, true]).par 0x051A 4 :=
  ⟨by decide, lastRange _⟩

/-- A flag that is clear, and one that is set. -/
theorem witness_PollIsBounded :
    (under ⟨[Slot.silent], Slot.prompt⟩).env = ⟨[Slot.silent], Slot.prompt⟩ ∧
    (under ⟨List.replicate 7 Slot.silent, Slot.prompt⟩).env = ⟨List.replicate 7 Slot.silent, Slot.prompt⟩ ∧
    (Reg.mbSem .out).access = .rw ∧ (Reg.mbSem .out).width = 1 ∧ still.asic.ctrlByte (.mbSem .out) &&& semBoth = 0 ∧
    ({ still.asic with regs := [(0x0502, 2)] } : Asic).ctrlByte (.mbSem .out) &&& semBoth ≠ 0 := by
  decide +kernel

theorem witness_operations :
    (Instr.pinEnable 19).isOperation = true ∧ exec (.pinEnable 19) calm = .next (nextOf (exec (.pinEnable 19) calm)) ∧
    (Instr.peroutDisable 0x19).isOperation = true ∧
    exec (.peroutDisable 0x19) calm = .next (nextOf (exec (.peroutDisable 0x19) calm)) :=
  ⟨rfl, eq_next (by decide +kernel), rfl, eq_next (by decide +kernel)⟩

/-- An error of each kind is reported by some operation, `Transport` and `Timeout` among them. -/
theorem witness_ErrorsAreThoseOfTheTable :
    gives (exec (.todGet 0) { still with par := { still.par with mbPollLimit := 1 } }) (fun t => t.res.status == 1) ∧
    gives (exec (.todGet 0) (failing [])) (fun t => t.res.status == 2) ∧
    gives (exec (.todGet 2) calm) (fun t => t.res.status == 3) ∧
    gives (exec (.todSet 0 (2 ^ 48) 0) calm) (fun t => t.res.status == 4) ∧
    gives (exec (.refFreqSet 0 2) calm) (fun t => t.res.status == 5) ∧
    gives (exec (.pinEnable 0) (withOut 0 ⟨0, 4, 1, 1, 0⟩)) (fun t => t.res.status == 6) := by
  decide +kernel

/-- A mask changed by its operations alone, bits 10 to 15 being 0. -/
theorem witness_PeroutMaskOwnership :
    (Instr.peroutEnable 0x19 1000000000 0).isOperation = true ∧
    gives (exec (.peroutEnable 0x10 1000000000 0) calm) (fun t => decide (t.ctl.perout.get 1 ≠ calm.ctl.perout.get 1)) ∧
    ∀ d : Fin 2, (calm.ctl.perout.get d).toNat < 2 ^ 10 := by
  decide +kernel

/-- A byte outside what the instruction and the responder write, for an operation and for a command. -/
theorem witness_RegisterBytesFrame :
    exec (.pinEnable 19) calm = .next (nextOf (exec (.pinEnable 19) calm)) ∧
    inRegs (Instr.pinEnable 19).writes 0x0140 = false ∧ responderArea calm.par 0x0140 = false ∧
    exec .tieCmdWrite calm = .next (nextOf (exec .tieCmdWrite calm)) ∧
    inRegs Instr.tieCmdWrite.writes 0x0161 = false ∧ responderArea calm.par 0x0161 = false :=
  ⟨eq_next (by decide +kernel), by decide +kernel, by decide +kernel, eq_next (by decide +kernel), by decide +kernel,
    by decide +kernel⟩

theorem witness_BadOperandsReachNoRegister :
    (Instr.todGet 2).indexOk = false ∧ (Instr.synthFreqGet 5).indexOk = false ∧ (Instr.refFreqGet 10).indexOk = false ∧
    (Instr.pinEnable 20).indexOk = false ∧ (Instr.peroutDisable 0x20).indexOk = false ∧
    (Instr.peroutDisable 0x0A).indexOk = false ∧
    ((Instr.adjfine 0 (2 ^ 31)).s32Operand = some (2 ^ 31) ∧ ¬(2 ^ 31 : BitVec 64).toInt < 2 ^ 31) ∧
    ((Instr.outPhaseCompSet 19 (BitVec.ofInt 64 (-2 ^ 31 - 1))).s32Operand = some (BitVec.ofInt 64 (-2 ^ 31 - 1)) ∧
      ¬-2 ^ 31 ≤ (BitVec.ofInt 64 (-2 ^ 31 - 1)).toInt) := by
  decide +kernel

/-- One value for each of the eight clauses, at the edge of its range. -/
theorem witness_BadValuesReachNoRegister :
    ((1 : Byte).toNat < 2 ∧ ¬(0 ≤ (1000000000 : BitVec 64).toInt ∧ (1000000000 : BitVec 64).toInt < 1000000000)) ∧
    (0 ≤ (999999999 : BitVec 64).toInt ∧ (999999999 : BitVec 64).toInt < 1000000000 ∧
      ¬(0 ≤ (2 ^ 48 : BitVec 64).toInt ∧ (2 ^ 48 : BitVec 64).toInt < 2 ^ 48)) ∧
    ({ calm with ctl := Ctl.reset } : State).ctl.perout.get 1 = 0 ∧
    ((9 : Byte).toNat < 10 ∧ (0 : BitVec 64).toNat ∉ nineFrequencies) ∧
    ((19 : Byte).toNat < 20 ∧ ({ calm.par with fixedRatio := .replicate 10 true } : Params).pinFixedRatio 19 = true) ∧
    (calm.par.pinFixedRatio 19 = false ∧ (0 : BitVec 64).toNat = 0) ∧
    (BitVec.ofInt 64 (-2 ^ 31)).toInt = -2 ^ 31 ∧
    ((0x19 : Byte).toNat / 16 < 2 ∧ (0x19 : Byte).toNat % 16 < 10 ∧ (999999999 : BitVec 64).toInt ≠ 1000000000 ∧
      ¬(1000000000 : Int) ∣ (1 : BitVec 64).toInt) := by
  decide +kernel

theorem witness_NormalizeCarriesSeconds : 2 ^ 48 - 1 < 2 ^ 48 ∧ 2 ^ 32 - 1 < 2 ^ 32 := by decide

theorem witness_TodGetReturnsTime :
    calm.Prompt ∧ (1 : Byte).toNat = (1 : Fin 2).1 ∧ exec (.todGet 1) calm = .next (nextOf (exec (.todGet 1) calm)) :=
  ⟨by decide +kernel, rfl, eq_next (by decide +kernel)⟩

theorem witness_TodSetSchedulesTime :
    calm.Prompt ∧ (1 : Byte).toNat = (1 : Fin 2).1 ∧ 0 ≤ (999999999 : BitVec 64).toInt ∧
    (999999999 : BitVec 64).toInt < 1000000000 ∧ 0 ≤ (2 ^ 48 - 1 : BitVec 64).toInt ∧
    (2 ^ 48 - 1 : BitVec 64).toInt < 2 ^ 48 := by
  decide +kernel

theorem witness_TodSetThenGet :
    calm.Prompt ∧ exec (.todSet 1 (2 ^ 48 - 1) 999999999) calm =
      .next (nextOf (exec (.todSet 1 (2 ^ 48 - 1) 999999999) calm)) ∧
    (nextOf (exec (.todSet 1 (2 ^ 48 - 1) 999999999) calm)).res.status = 0 :=
  ⟨by decide +kernel, eq_next (by decide +kernel), by decide +kernel⟩

/-- Either command, the last second that has a next, and the one that has none. -/
theorem witness_TodCommandsAreAcknowledged :
    ({ calmAsic with regs := [(0x0101, 0x11)] } : Asic).ctrlByte (.todCtrl 1) = 0x11 ∧
    ({ calmAsic with regs := [(0x0101, 0x12)], tod := .replicate 2 ⟨2 ^ 48 - 2, 0⟩ } : Asic).ctrlByte (.todCtrl 1) = 0x12 ∧
    (({ calmAsic with regs := [(0x0101, 0x12)], tod := .replicate 2 ⟨2 ^ 48 - 2, 0⟩ } : Asic).tod.get 1).sec.toNat <
      2 ^ 48 - 1 ∧
    ({ calmAsic with regs := [(0x0101, 0x12)], tod := .replicate 2 ⟨2 ^ 48 - 1, 0⟩ } : Asic).ctrlByte (.todCtrl 1) = 0x12 ∧
    ({ calmAsic with tod := .replicate 2 ⟨2 ^ 48 - 1, 0⟩ } : Asic).todPend.get 1 = none := by
  decide +kernel

/-- With and without a pending time, and the last nanosecond of a second. -/
theorem witness_ClockSteps :
    ({ calmAsic with todPend := .replicate 2 (some ⟨5, 6⟩) } : Asic).todPend.get 1 = some ⟨5, 6⟩ ∧
    calmAsic.todPend.get 0 = none ∧ (calmAsic.tod.get 0).sec.toNat < 2 ^ 48 - 1 ∧
    (calmAsic.tod.get 0).ns.toNat < (999999999 : BitVec 32).toNat ∧ (999999999 : BitVec 32).toNat < 1000000000 := by
  decide +kernel

/-- A read of the last output pair, and a write of every one of them. -/
theorem witness_MailboxAcknowledge :
    (0x0200 : BitVec 16).toNat = 2 ^ (9 : Fin 10).1 ∧
    (calmAsic.setReq .out (.read 0x0200)).req .out = .read 0x0200 ∧
    (0x03FF : BitVec 16) ≠ 0 ∧ (0x03FF : BitVec 16).toNat < 2 ^ Domain.out.count ∧
    (calmAsic.setReq .out (.write 0x03FF)).req .out = .write 0x03FF := by
  decide +kernel

/-- A window, and a bank of each kind, that a move changes; a read and a write that succeed, and a write that fails. -/
theorem witness_BankStability :
    (applyMove calm.par (.mbAck .ref) (calmAsic.setReq .ref (.read 1))).window calm.par .ref ≠
      calmAsic.window calm.par .ref ∧
    (applyMove calm.par (.mbAck .ref) (calmAsic.setReq .ref (.write 1))).bankRef ≠ calmAsic.bankRef ∧
    (applyMove calm.par (.mbAck .dpll) { calmAsic.setReq .dpll (.write 1) with regs := [(0x0310, 1)] }).bankDpll ≠
      calmAsic.bankDpll ∧
    (applyMove calm.par (.mbAck .out) (calmAsic.setReq .out (.write 1))).bankOut ≠ calmAsic.bankOut ∧
    (applyMove calm.par (.mbAck .synth) (calmAsic.setReq .synth (.write 1))).bankSynth ≠ calmAsic.bankSynth ∧
    (applyMove calm.par (.reprogram 4 ⟨1, 1, 1, 1⟩) calmAsic).bankSynth ≠ calmAsic.bankSynth ∧
    (memRead 0x051A 4).Leaves written (leaves (memRead 0x051A 4 written)) ∧
    (memWrite 0x051A 4 0xFFFFFFFD).Leaves calm written ∧
    (memWrite 0x051A 4 5).Leaves (failing [true, false]) (leaves (memWrite 0x051A 4 5 (failing [true, false]))) :=
  ⟨by decide +kernel, by decide +kernel, by decide +kernel, by decide +kernel, by decide +kernel, by decide +kernel,
    leaves_leaves _ _, leaves_leaves _ _, leaves_leaves _ _⟩

/-- The ASIC side with an Output mask. -/
def masked (m : Nat) : Asic := { calmAsic with regs := calmAsic.regs.setValue (.mbMask .out) m }

/-- A mask that selects the last entry, one that selects every entry, one that selects none and one above the count. -/
theorem witness_MailboxCommandsLatch :
    calm.failure = none ∧
    (0x0200#16).toNat = (runMoves calm.par Slot.prompt.moves (masked 0x0200)).regVal (.mbMask .out) ∧
    (0x03FF#16).toNat = (runMoves calm.par Slot.prompt.moves (masked 0x03FF)).regVal (.mbMask .out) ∧
    (0x0000#16).toNat = (runMoves calm.par Slot.prompt.moves (masked 0x0000)).regVal (.mbMask .out) ∧
    (0x0400#16).toNat = (runMoves calm.par Slot.prompt.moves (masked 0x0400)).regVal (.mbMask .out) := by
  decide +kernel

theorem witness_MailboxCommandsLatch_masks :
    (0x0200#16).toNat = 2 ^ (9 : Fin 10).1 ∧ (∀ k : Fin 10, (0x03FF#16).toNat ≠ 2 ^ k.1) ∧
    (0x03FF#16 ≠ 0 ∧ (0x03FF#16).toNat < 2 ^ 10) ∧ ¬(0x0000#16 ≠ 0 ∧ (0x0000#16).toNat < 2 ^ 10) ∧
    ¬(0x0400#16 ≠ 0 ∧ (0x0400#16).toNat < 2 ^ 10) := by
  decide +kernel

theorem witness_commands : calm.failure = none := by decide +kernel

theorem witness_FailedCommandIsTransport :
    Instr.tieCmdWrite.isOperation = false ∧ (failing [true]).failure = some ⟨[true], false⟩ ∧
    (∀ j, Instr.tieCmdWrite ≠ .todCmdWriteNext1Hz j) ∧
    exec (.todCmdWriteNext1Hz 1) (failing [true]) = .next (nextOf (exec (.todCmdWriteNext1Hz 1) (failing [true]))) ∧
    exec .tieCmdWrite (failing [true]) = .next (nextOf (exec .tieCmdWrite (failing [true]))) ∧
    (failing [true]).dev ≠ .booting ∧
    exec .tieCmdWrite { failing [true] with dev := .booting } =
      .next (nextOf (exec .tieCmdWrite { failing [true] with dev := .booting })) :=
  ⟨rfl, by decide, by simp, eq_next (by decide +kernel), eq_next (by decide +kernel), by decide,
    eq_next (by decide +kernel)⟩

/-- A selected DPLL and one that is not, a phase step with and without its TOD flag, and the nibbles on either side of
the last DPLL. -/
theorem witness_PhaseAcknowledges :
    ({ calmAsic with tiePend := some ⟨1, #v[some 5, none]⟩ } : Asic).tiePend = some ⟨1, #v[some 5, none]⟩ ∧
    (#v[some 5, none] : Vector (Option (BitVec 48)) 2).get 0 = some 5 ∧
    (#v[some 5, none] : Vector (Option (BitVec 48)) 2).get 1 = none ∧
    ({ calmAsic with psPend := some ⟨1, true, 0x0208, 5, 1⟩ } : Asic).psPend = some ⟨1, true, 0x0208, 5, 1⟩ ∧
    ({ calmAsic with psPend := some ⟨2, false, 0x0208, 5, 1⟩ } : Asic).psPend = some ⟨2, false, 0x0208, 5, 1⟩ ∧
    (1#4).toNat = (1 : Fin 2).1 ∧ (0 : Fin 2) ≠ 1 ∧ 2 ≤ (2#4).toNat ∧
    (∃ q : Fin 10, (0x0208#16).getLsbD q.1 = true) ∧
    (∀ q : Fin 10, (0x0208#16).getLsbD q.1 = true → calmAsic.pairFreq q = .ok 100000000) := by
  decide +kernel

theorem witness_adjust :
    calm.Prompt ∧ (1 : Byte).toNat = (1 : Fin 2).1 ∧ calm.failure = none ∧
    -2 ^ 31 ≤ (BitVec.ofInt 64 (-2 ^ 31)).toInt ∧ (2 ^ 31 - 1 : BitVec 64).toInt < 2 ^ 31 ∧
    (BitVec.ofInt 64 (-2 ^ 31)).toInt < 2 ^ 31 ∧ BitVec.ofInt 64 (-2 ^ 31) ≠ 0 := by
  decide +kernel

/-- A step that fits, one that does not (SU11), and a synthesizer whose ratio is illegal. -/
theorem witness_SteptimeSubSecond :
    calm.Prompt ∧ (1 : Byte).toNat = (1 : Fin 2).1 ∧ |(BitVec.ofInt 64 (-999999999)).toInt| < 1000000000 ∧
    (calm.ctl.perout.get 1).getLsbD (9 : Fin 10).1 = true ∧
    (∀ q : Fin 10, q < 9 → (calm.ctl.perout.get 1).getLsbD q.1 = false) ∧
    calm.asic.pairFreq 9 = .ok 100000000 ∧
    (-2 ^ 31 ≤ ((-999999999 : Int) * (100000000 : Nat)).tdiv 1000000000 ∧
      ((-999999999 : Int) * (100000000 : Nat)).tdiv 1000000000 < 2 ^ 31) ∧
    ({ calmAsic with bankSynth := .replicate 5 ⟨65535, 65535, 1, 1⟩ } : Asic).pairFreq 9 = .ok 4294836225 ∧
    ¬(-2 ^ 31 ≤ ((-999999999 : Int) * (4294836225 : Nat)).tdiv 1000000000 ∧
      ((-999999999 : Int) * (4294836225 : Nat)).tdiv 1000000000 < 2 ^ 31) ∧
    ({ calmAsic with bankSynth := .replicate 5 ⟨1, 1, 1, 0⟩ } : Asic).pairFreq 9 = .error .malformed := by
  decide +kernel

/-- The schedules of a step on time, and of one that is late. -/
theorem witness_SteptimeWholeSeconds_schedules :
    (under (Env.onTime 0)).par.wf = true ∧ (under (Env.onTime 0)).asic.Quiet ∧ 2 ≤ calm.par.mbPollLimit ∧
    (under (Env.onTime 0)).env = Env.onTime 0 ∧ calm.env = Env.prompt ∧ ticking.env = Env.ticking 0 ∧
    (0 : Byte).toNat = (0 : Fin 2).1 ∧ (calm.ctl.perout.get 0).getLsbD (2 : Fin 10).1 = true ∧
    (∀ q : Fin 10, q < 2 → (calm.ctl.perout.get 0).getLsbD q.1 = false) ∧ calm.asic.pairFreq 2 = .ok 100000000 ∧
    (calm.asic.tod.get 0).sec.toNat = 1000 ∧ 1000 + 30 < 2 ^ 48 := by
  decide +kernel

/-- A step back to second 0 for each schedule, and one that goes a second beyond that. -/
theorem witness_SteptimeWholeSeconds_values :
    1000000000 ≤ |(BitVec.ofInt 64 (-1002000000001)).toInt| ∧
    0 ≤ (1000 : Int) + 2 + (BitVec.ofInt 64 (-1002000000001)).toInt.tdiv 1000000000 ∧
    ¬0 ≤ (1000 : Int) + 2 + (BitVec.ofInt 64 (-1003000000000)).toInt.tdiv 1000000000 ∧
    0 ≤ (1000 : Int) + 8 + (BitVec.ofInt 64 (-1008000000001)).toInt.tdiv 1000000000 ∧
    (1000 : Int) + 26 + (BitVec.ofInt 64 (-1002000000001)).toInt.tdiv 1000000000 < 2 ^ 48 ∧
    -2 ^ 31 ≤ ((BitVec.ofInt 64 (-1002000000001)).toInt.tmod 1000000000 * (100000000 : Nat)).tdiv 1000000000 ∧
    ((BitVec.ofInt 64 (-1002000000001)).toInt.tmod 1000000000 * (100000000 : Nat)).tdiv 1000000000 < 2 ^ 31 := by
  decide +kernel

/-- R234, R233, R165: the step on time, the step out of range, and the clock that does not move. -/
theorem test_steptime_ends :
    gives (exec (.steptime 0 (BitVec.ofInt 64 (-1002000000001))) (under (Env.onTime 0)))
      (fun t => decide (t.res = ⟨0, 0, 0⟩) && decide (t.asic.tod.get 0 = ⟨0, 0⟩)) = true ∧
    gives (exec (.steptime 0 (BitVec.ofInt 64 (-1003000000000))) (under (Env.onTime 0)))
      (fun t => decide (t.res = ⟨4, 0, 0⟩) && decide (t.asic.tod.get 0 = ⟨1001, 0⟩) &&
        decide (t.asic.todPend.get 0 = none)) = true ∧
    gives (exec (.steptime 0 2500000000) calm) (fun t => decide (t.res = ⟨1, 0, 0⟩)) = true := by
  decide +kernel

/-- A supported frequency and an unsupported one. -/
theorem witness_ReferenceTableIsExact : 100000000 ∈ nineFrequencies ∧ 12345 ∉ nineFrequencies := by decide +kernel

theorem witness_indices :
    calm.Prompt ∧ (4 : Byte).toNat = (4 : Fin 5).1 ∧ (9 : Byte).toNat = (9 : Fin 10).1 ∧
    (19 : Byte).toNat = (19 : Fin 20).1 := by
  decide +kernel

theorem witness_RefFreqSetWritesQuadruple :
    ((100000000 : BitVec 64).toNat, (⟨10000, 10000, 1, 1⟩ : Quad)) ∈ refTable := by
  decide +kernel

theorem witness_OutFreqGetReturnsPinFrequency : calm.par.pinFixedRatio 19 = false := by decide +kernel

/-- A frequency that is set, on a P half and on an N half, and one that is turned away. -/
theorem witness_OutFreqSetWritesDivider :
    calm.par.pinFixedRatio 19 = false ∧ (10000000 : BitVec 64) ≠ 0 ∧
    statusOf (calm.asic.setFreq calm.par 19 10000000) = 0 ∧
    statusOf (nDivided.asic.setFreq nDivided.par 19 5000000) = 0 ∧
    statusOf (nDivided.asic.setFreq nDivided.par 19 25000000) = 3 := by
  decide +kernel

theorem witness_OutFreqRoundTrip :
    calm.Prompt ∧ exec (.outFreqSet 19 10000000) calm = .next (nextOf (exec (.outFreqSet 19 10000000) calm)) ∧
    (nextOf (exec (.outFreqSet 19 10000000) calm)).res.status = 0 :=
  ⟨by decide +kernel, eq_next (by decide +kernel), by decide +kernel⟩

theorem witness_RefPhaseCompNegates :
    -2 ^ 31 < (BitVec.ofInt 64 (-2 ^ 31 + 1)).toInt ∧ (BitVec.ofInt 64 (-2 ^ 31 + 1)).toInt < 2 ^ 31 := by
  decide +kernel

/-- A value the half cycle divides, and one it does not. -/
theorem witness_OutPhaseCompScales :
    statusOf (calm.asic.setComp 19 15000) = 0 ∧ statusOf (calm.asic.setComp 19 15001) = 4 ∧
    -2 ^ 31 ≤ (BitVec.ofInt 64 (-2 ^ 31)).toInt ∧ (BitVec.ofInt 64 (-2 ^ 31)).toInt < 2 ^ 31 := by
  decide +kernel

/-- A reference, and the other pin of the same output pair. -/
theorem witness_PhaseCompRoundTrip :
    calm.Prompt ∧ exec (.refPhaseCompSet 9 (-250)) calm = .next (nextOf (exec (.refPhaseCompSet 9 (-250)) calm)) ∧
    (nextOf (exec (.refPhaseCompSet 9 (-250)) calm)).res.status = 0 ∧
    exec (.outPhaseCompSet 19 15000) calm = .next (nextOf (exec (.outPhaseCompSet 19 15000) calm)) ∧
    (nextOf (exec (.outPhaseCompSet 19 15000) calm)).res.status = 0 ∧ (18 : Byte).toNat / 2 = (19 : Byte).toNat / 2 :=
  ⟨by decide +kernel, eq_next (by decide +kernel), by decide +kernel, eq_next (by decide +kernel), by decide +kernel,
    by decide⟩

theorem witness_EnableLattice : 3 < 4 := by decide

theorem witness_PeroutEnableAddsPair :
    calm.Prompt ∧ (0x19 : Byte).toNat = 16 * (1 : Fin 2).1 + (9 : Fin 10).1 ∧
    (1000000000 : BitVec 64).toInt = 1000000000 ∧ (1000000000 : Int) ∣ (BitVec.ofInt 64 (-1000000000)).toInt ∧
    statusOf (calm.asic.pairFreq 9) = 0 ∧
    statusOf (({ calmAsic with bankSynth := .replicate 5 ⟨1, 1, 1, 0⟩ } : Asic).pairFreq 9) = 6 := by
  decide +kernel

theorem witness_SilentResponderTimesOut :
    still.par.wf = true ∧ still.asic.Quiet ∧ still.env = Env.silent ∧ (1 : Byte).toNat = (1 : Fin 2).1 ∧
    (9 : Byte).toNat = (9 : Fin 10).1 ∧ (4 : Byte).toNat = (4 : Fin 5).1 ∧ (19 : Byte).toNat = (19 : Fin 20).1 ∧
    (0x19 : Byte).toNat = 16 * (1 : Fin 2).1 + (9 : Fin 10).1 ∧ 100000000 ∈ nineFrequencies ∧
    still.par.pinFixedRatio 19 = false ∧ still.ctl.perout.get 1 ≠ 0 ∧
    1000000000 ≤ |(BitVec.ofInt 64 (-1000000000)).toInt| ∧ |(BitVec.ofInt 64 (-999999999)).toInt| < 1000000000 ∧
    (still.ctl.perout.get 1).getLsbD (9 : Fin 10).1 = true ∧
    (∀ q : Fin 10, q < 9 → (still.ctl.perout.get 1).getLsbD q.1 = false) := by
  decide +kernel

theorem witness_SilentResponderTimesOut_ready :
    lively.Ready ∧ (Instr.pinEnable 19).isOperation = true ∧
    exec (.pinEnable 19) lively = .next (nextOf (exec (.pinEnable 19) lively)) :=
  ⟨witness_ready, rfl, eq_next (by decide +kernel)⟩

/-- A device in the middle of an operation, its command written and its result still to come. -/
def middle : State := nextOf (accessSteps 11 (waiting [.request 5 (req [0x10, 0x01])]))

/-- A state with a request to run, one in the middle of an operation and one of an unattached device. -/
theorem witness_StepKeepsInvariant :
    (waiting [.request 5 (req [0x40, 0x13])]).Inv ∧ middle.Inv ∧
    ({ waiting [.attach calmAsic] with dev := .detached } : State).Inv ∧
    step (waiting [.request 5 (req [0x40, 0x13])]) =
      .next (nextOf (step (waiting [.request 5 (req [0x40, 0x13])]))) ∧
    accessStep middle = .next (nextOf (accessStep middle)) ∧ step middle = .next (nextOf (step middle)) :=
  ⟨by decide +kernel, by decide +kernel, by decide +kernel, eq_next (by decide +kernel), eq_next (by decide +kernel),
    eq_next (by decide +kernel)⟩

/-- `tod.set d1` after `n` steps. -/
def settingTod (n : Nat) : State := nextOf (accessSteps n (waiting [.request 5 (req [0x11, 0x01])]))

/-- `tod.get d1` after `n` steps. -/
def polling (n : Nat) : State := nextOf (accessSteps n (waiting [.request 5 (req [0x10, 0x01])]))

/-- What the next step of a running operation is. -/
def nextAct (s : State) : Option Act :=
  match s.residual with
  | .act a _ => some a
  | _ => none

/-- A line reached, a command written, a sub-state left at the end of `TodWrite` and at a read of a clear semaphore, and a
read of another register. -/
theorem witness_AccessStepsMakeUpOperations_steps :
    nextAct (settingTod 15) = some (.line [⟨.todSet, 5⟩, ⟨.todWrite, 4⟩]) ∧
    nextAct (settingTod 16) = some (.write (.todCtrl 1) 0x13) ∧ (0x13 : Nat) &&& 0x10 ≠ 0 ∧
    (settingTod 16).ctl.tod.get 1 = .idle ∧ (settingTod 17).ctl.tod.get 1 = .commandIssued ∧
    nextAct (settingTod 18) = some (.todDone 1) ∧ (settingTod 19).ctl.tod.get 1 = .idle ∧
    nextAct (polling 13) = some (.read (.todCtrl 1)) ∧ (polling 13).ctl.tod.get 1 = .commandIssued ∧
    (polling 14).ctl.tod.get 1 = .idle ∧ (polling 14).ctl.scratch.getLast? = some 0x01 ∧
    nextAct (polling 16) = some (.read (.todSec 1)) := by
  decide +kernel

/-- A request about to be accepted, and an operation that goes on. -/
theorem witness_AccessStepsMakeUpOperations :
    (waiting [.request 5 (req [0x40, 0x13])]).Inv ∧ (waiting [.request 5 (req [0x40, 0x13])]).dev = .attached ∧
    (waiting [.request 5 (req [0x40, 0x13])]).ctl.lock = .free ∧
    (∀ c bytes rest, (waiting [.request 5 (req [0x40, 0x13])]).port ≠ .request c bytes :: .detach :: rest) ∧
    accessStep (waiting [.request 5 (req [0x40, 0x13])]) =
      .next (nextOf (accessStep (waiting [.request 5 (req [0x40, 0x13])]))) ∧
    decode (.request (req [0x40, 0x13]).toList) = .ok (.pinEnable 0x13) ∧
    decode (.request (req [0x44]).toList) = .error (.reservedOpcode 0x44) ∧
    middle.Inv ∧ middle.ctl.lock = .held 5 ∧ accessStep middle = .next (nextOf (accessStep middle)) :=
  ⟨by decide +kernel, rfl, rfl, by simp [waiting], eq_next (by decide +kernel), by decide +kernel, by decide +kernel,
    by decide +kernel, by decide +kernel, eq_next (by decide +kernel)⟩

theorem witness_StepKeepsHandshake :
    (waiting [.request 5 (req [0x40, 0x13])]).Handshake ∧ calmAsic.Handshake ∧
    accessStep (waiting [.request 5 (req [0x40, 0x13])]) =
      .next (nextOf (accessStep (waiting [.request 5 (req [0x40, 0x13])]))) := by
  refine ⟨⟨by decide +kernel, ?_⟩, by decide +kernel, eq_next (by decide +kernel)⟩
  intro e he
  simp only [waiting, List.mem_singleton] at he
  subst he
  trivial

end Sys2Proof.Tests
end

section
/-! SUPPORT. What each operation's program can do in every state and under every schedule: the registers it writes, the
errors it raises, and that it never faults. -/

namespace Sys2Proof.Machine

/-! ### Programs without premises -/

theorem dpll_cases (i : Fin 2) : i = 0 ∨ i = 1 := by omega


/-- The program, run in any state, writes only registers of `W`, raises only errors of `E` and never faults. -/
abbrev Uses {α : Type} (W : List Reg) (E : List ErrKind) (m : Prog α) : Prop :=
  Runs W E (fun _ => True) m fun _ _ => True

section
variable {α β : Type} {W : List Reg} {E : List ErrKind}

theorem Uses.of_runs {W' : List Reg} {E' : List ErrKind} {m : Prog α} {Q : α → State → Prop}
    (h : Runs W' E' (fun _ => True) m Q) (hw : ∀ r ∈ W', r ∈ W) (he : ∀ e ∈ E', e ∈ E) : Uses W E m :=
  (h.mono hw he).post fun _ _ _ => trivial

theorem Uses.ret (a : α) : Uses W E (Prog.ret a) := Runs.pure fun _ _ => trivial

theorem Uses.load {r : Reg} (hr : r.access = .rw) (hE : .transport ∈ E) : Uses W E (load r) :=
  (Runs.load hr (stable_true W) hE).post fun _ _ _ => trivial

theorem Uses.store {r : Reg} {v : Nat} (hr : r ∈ W) (hc : isControl r = false) (ha : r.access ≠ .ro)
    (hE : .transport ∈ E) : Uses W E (store r v) :=
  (Runs.writeData hr hc ha (stable_true W) hE).post fun _ _ _ => trivial

theorem Uses.poll {r : Reg} {mask : Byte} (hr : r.access = .rw) (hE : .transport ∈ E) (hE' : .timeout ∈ E) :
    Uses W E (poll r mask) := Runs.poll hr mask (stable_true W) hE hE'

theorem Uses.checkIndex {n v : Nat} (h : .invalidArgument ∈ E) : Uses W E (checkIndex n v) := Runs.checkIndex h

theorem Uses.checkS32 {x : BitVec 64} (h : .invalidArgument ∈ E) : Uses W E (checkS32 x) :=
  (Runs.checkS32 h).post fun _ _ _ => trivial

theorem Uses.raiseIf {c : Bool} {e : ErrKind} (h : e ∈ E) : Uses W E (raiseIf c e) :=
  (Runs.raiseIf h).post fun _ _ _ => trivial

theorem Uses.orRaise {o : Option α} {e : ErrKind} (h : e ∈ E) : Uses W E (orRaise o e) :=
  (Runs.orRaise h).post fun _ _ _ => trivial

theorem Uses.params : Uses W E params := Runs.params.post fun _ _ _ => trivial

theorem Uses.perout {i : Fin 2} : Uses W E (perout i) := Runs.perout.post fun _ _ _ => trivial

/-- A mailbox read in a program that may write its domain's mask and semaphore. -/
theorem Uses.mbRead (d : Domain) (k : Fin d.count) (hm : .mbMask d ∈ W) (hs : .mbSem d ∈ W) (hE : .transport ∈ E)
    (hE' : .timeout ∈ E) : Uses W E (mbRead d k.1) :=
  .of_runs (mbRead_runs d k) (by simp [hm, hs]) (by simp [hE, hE'])

/-- A mailbox write in a program that may write its domain's mask, its semaphore and the fields. -/
theorem Uses.mbWrite (d : Domain) (k : Fin d.count) (fields : List (Reg × Nat))
    (hf : ∀ f ∈ fields, isControl f.1 = false ∧ f.1.access ≠ .ro ∧ f.1 ≠ .mbMask d) (hm : .mbMask d ∈ W)
    (hs : .mbSem d ∈ W) (hW : ∀ f ∈ fields, f.1 ∈ W) (hE : .transport ∈ E) (hE' : .timeout ∈ E) :
    Uses W E (mbWrite d k.1 fields) := by
  refine .of_runs (mbWrite_runs d k fields hf) (fun r hr => ?_) (by simp [hE, hE'])
  simp only [List.mem_cons, List.mem_map] at hr
  rcases hr with rfl | rfl | ⟨f, hfm, rfl⟩
  · exact hm
  · exact hs
  · exact hW f hfm

end

/-! ### Time of day -/

theorem todGet_uses (a : Byte) : Uses (Instr.todGet a).writes (Instr.todGet a).errors (todGet a) := by
  unfold todGet
  refine (Uses.checkIndex (by simp [Instr.errors])).on.bind fun (i : Fin 2) => ?_
  refine (Uses.of_runs (todRead_runs i _) (by simp [Instr.writes, dpll_cases i]) (by simp [Instr.errors])).on.bind
    fun _ => ?_
  exact (Uses.ret _).on

theorem todSet_uses (a : Byte) (x y : BitVec 64) :
    Uses (Instr.todSet a x y).writes (Instr.todSet a x y).errors (todSet a x y) := by
  unfold todSet
  refine (Uses.checkIndex (by simp [Instr.errors])).on.bind fun (i : Fin 2) => Runs.mark ?_
  refine (Uses.raiseIf (by simp [Instr.errors])).on.bind fun _ => ?_
  refine (Uses.raiseIf (by simp [Instr.errors])).on.bind fun _ => ?_
  refine (Uses.of_runs (todWrite_runs i _ _) (by simp [Instr.writes, dpll_cases i]) (by simp [Instr.errors])).on.bind
    fun _ => ?_
  exact (Uses.ret _).on

/-! ### Frequency trim, phase and time step -/

theorem adjfine_uses (a : Byte) (x : BitVec 64) :
    Uses (Instr.adjfine a x).writes (Instr.adjfine a x).errors (adjfine a x) := by
  unfold adjfine
  refine (Uses.checkIndex (by simp [Instr.errors])).on.bind fun (i : Fin 2) => ?_
  refine (Uses.checkS32 (by simp [Instr.errors])).on.bind fun ppm => Runs.mark ?_
  split
  · exact Uses.ret _
  · have hr : Reg.dfOffset i ∈ (Instr.adjfine a x).writes := by simp [Instr.writes, dpll_cases i]
    exact (Uses.store hr rfl (by simp [Reg.access]) (by simp [Instr.errors])).on.bind fun _ => (Uses.ret _).on

theorem adjphase_uses (a : Byte) (x : BitVec 64) :
    Uses (Instr.adjphase a x).writes (Instr.adjphase a x).errors (adjphase a x) := by
  have hE : .transport ∈ (Instr.adjphase a x).errors := by simp [Instr.errors]
  have hE' : .timeout ∈ (Instr.adjphase a x).errors := by simp [Instr.errors]
  unfold adjphase
  refine (Uses.checkIndex (by simp [Instr.errors])).on.bind fun (i : Fin 2) => ?_
  refine (Uses.checkS32 (by simp [Instr.errors])).on.bind fun _ => Runs.mark ?_
  refine (Uses.poll rfl hE hE').on.bind fun _ => ?_
  refine (Uses.store (by simp [Instr.writes]) rfl (by decide) hE).on.bind fun _ => ?_
  refine (Uses.store (by simp [Instr.writes, dpll_cases i]) rfl (by simp [Reg.access]) hE).on.bind fun _ => ?_
  refine (Runs.writeCtrl (Q := fun _ => True) (by simp [Instr.writes]) rfl (stable_true _) hE fun s _ =>
    ⟨_, storeByte_tieCtrl _ _ _, trivial⟩).on.bind fun _ => ?_
  exact (Uses.poll rfl hE hE').on.bind fun _ => (Uses.ret _).on

theorem steptime_uses (a : Byte) (x : BitVec 64) :
    Uses (Instr.steptime a x).writes (Instr.steptime a x).errors (steptime a x) := by
  unfold steptime
  refine (Uses.checkIndex (by simp [Instr.errors])).on.bind fun (i : Fin 2) => Uses.perout.on.bind fun m => ?_
  refine (Uses.raiseIf (by simp [Instr.errors])).bind fun _ => Runs.mark (Runs.mark ?_)
  refine Runs.bind (Q := fun _ _ => True) ?_ fun _ =>
    (Uses.of_runs (phaseStep_runs i _) (by simp [Instr.writes]) (by simp [Instr.errors])).on.bind fun _ =>
      (Uses.ret _).on
  unfold stepSeconds
  split
  · exact Uses.ret _
  · unfold stepWhole
    refine (Uses.of_runs (rolloverWait_runs i) (by simp [Instr.writes, dpll_cases i]) (by simp [Instr.errors])).on.bind
      fun t => Runs.mark ?_
    refine (Uses.raiseIf (by simp [Instr.errors])).on.bind fun _ => ?_
    refine (Uses.of_runs (todWrite_runs i _ _) (by simp [Instr.writes, dpll_cases i]) (by simp [Instr.errors])).on.bind
      fun _ => ?_
    exact Runs.on (Runs.on (Uses.poll rfl (by simp [Instr.errors]) (by simp [Instr.errors])))

/-! ### Frequency -/

theorem synthFreqGet_uses (a : Byte) :
    Uses (Instr.synthFreqGet a).writes (Instr.synthFreqGet a).errors (synthFreqGet a) := by
  unfold synthFreqGet
  refine (Uses.checkIndex (by simp [Instr.errors])).on.bind fun k => ?_
  exact (Uses.of_runs (synthFreq_runs k) (by simp [Instr.writes]) (by simp [Instr.errors])).on.bind fun _ =>
    (Uses.ret _).on

theorem refFreqGet_uses (a : Byte) : Uses (Instr.refFreqGet a).writes (Instr.refFreqGet a).errors (refFreqGet a) := by
  have hE : .transport ∈ (Instr.refFreqGet a).errors := by simp [Instr.errors]
  unfold refFreqGet
  refine (Uses.checkIndex (by simp [Instr.errors])).on.bind fun r => ?_
  refine (Uses.mbRead .ref r (by simp [Instr.writes]) (by simp [Instr.writes]) hE (by simp [Instr.errors])).on.bind
    fun _ => ?_
  refine (Uses.load rfl hE).on.bind fun _ => (Uses.load rfl hE).on.bind fun _ => ?_
  refine (Uses.load rfl hE).on.bind fun _ => (Uses.load rfl hE).on.bind fun _ => ?_
  exact (Uses.orRaise (by simp [Instr.errors])).on.bind fun _ => (Uses.orRaise (by simp [Instr.errors])).bind fun _ =>
    Uses.ret _

theorem refFreqSet_uses (a : Byte) (x : BitVec 64) :
    Uses (Instr.refFreqSet a x).writes (Instr.refFreqSet a x).errors (refFreqSet a x) := by
  unfold refFreqSet
  refine (Uses.checkIndex (by simp [Instr.errors])).on.bind fun r => ?_
  refine (Uses.orRaise (by simp [Instr.errors])).on.bind fun q => ?_
  exact (Uses.mbWrite .ref r q.fields (by simp [Quad.fields, isControl, Reg.access]) (by simp [Instr.writes])
    (by simp [Instr.writes]) (by simp [Quad.fields, Instr.writes]) (by simp [Instr.errors])
    (by simp [Instr.errors])).on.bind fun _ => (Uses.ret _).on

section
variable {W : List Reg} {E : List ErrKind}

theorem readDivider_uses {r : Reg} (hr : r.access = .rw) (hE : .transport ∈ E) (hM : .malformed ∈ E) :
    Uses W E (readDivider r) := by
  unfold readDivider
  exact (Uses.load hr hE).bind fun _ => (Uses.raiseIf hM).bind fun _ => Uses.ret _

theorem outFreq_uses (p : Params) (pin : Fin 20) (sf : Nat) (hE : .transport ∈ E) (hM : .malformed ∈ E) :
    Uses W E (outFreq p pin sf) := by
  unfold outFreq
  refine (readDivider_uses rfl hE hM).on.bind fun _ => Runs.mark (Runs.mark ?_)
  split
  · exact (readDivider_uses rfl hE hM).on.bind fun _ => (Uses.ret _).on
  · exact (Uses.ret _).on

end

theorem outFreqGet_uses (a : Byte) : Uses (Instr.outFreqGet a).writes (Instr.outFreqGet a).errors (outFreqGet a) := by
  unfold outFreqGet
  refine (Uses.checkIndex (by simp [Instr.errors])).on.bind fun pin => Uses.params.bind fun p => ?_
  refine (Uses.raiseIf (by simp [Instr.errors])).on.bind fun _ => ?_
  refine (Uses.of_runs (outSynthFreq_runs _) (by simp [Instr.writes]) (by simp [Instr.errors])).on.bind fun sf => ?_
  exact (outFreq_uses p pin sf (by simp [Instr.errors]) (by simp [Instr.errors])).on.bind fun _ => (Uses.ret _).on

/-- The write of OUT_FREQ_SET, on either side of the pair (R203). -/
theorem setOutFreq_uses (p : Params) (pin : Fin 20) (a : Byte) (x : BitVec 64) (f sf : Nat) :
    Uses (Instr.outFreqSet a x).writes (Instr.outFreqSet a x).errors (setOutFreq p pin f sf) := by
  have hw : ∀ r v, r = .outDiv ∨ r = .outNdiv → Uses (Instr.outFreqSet a x).writes (Instr.outFreqSet a x).errors
      (mbWrite .out (pairOf pin).1 [(r, v)]) := fun r v hr =>
    Uses.mbWrite .out (pairOf pin) _ (by rcases hr with rfl | rfl <;> simp [isControl, Reg.access])
      (by simp [Instr.writes]) (by simp [Instr.writes]) (by rcases hr with rfl | rfl <;> simp [Instr.writes])
      (by simp [Instr.errors]) (by simp [Instr.errors])
  unfold setOutFreq
  split
  · unfold setNSide
    refine (readDivider_uses rfl (by simp [Instr.errors]) (by simp [Instr.errors])).on.bind fun _ => Runs.mark ?_
    refine (Uses.raiseIf (by simp [Instr.errors])).on.bind fun _ => ?_
    refine (Uses.raiseIf (by simp [Instr.errors])).on.bind fun _ => ?_
    exact (Uses.raiseIf (by simp [Instr.errors])).on.bind fun _ => (hw _ _ (.inr rfl)).on
  · unfold setDivider
    refine (Uses.raiseIf (by simp [Instr.errors])).on.bind fun _ => ?_
    exact (Uses.raiseIf (by simp [Instr.errors])).on.bind fun _ => (hw _ _ (.inl rfl)).on

theorem outFreqSet_uses (a : Byte) (x : BitVec 64) :
    Uses (Instr.outFreqSet a x).writes (Instr.outFreqSet a x).errors (outFreqSet a x) := by
  unfold outFreqSet
  refine (Uses.checkIndex (by simp [Instr.errors])).on.bind fun pin => Uses.params.bind fun p => ?_
  refine (Uses.raiseIf (by simp [Instr.errors])).on.bind fun _ => ?_
  refine (Uses.raiseIf (by simp [Instr.errors])).on.bind fun _ => Runs.mark ?_
  refine (Uses.of_runs (outSynthFreq_runs _) (by simp [Instr.writes]) (by simp [Instr.errors])).on.bind fun sf => ?_
  exact Runs.mark ((setOutFreq_uses p pin a x _ sf).bind fun _ => (Uses.ret _).on)

/-! ### Phase compensation -/

theorem refPhaseCompGet_uses (a : Byte) :
    Uses (Instr.refPhaseCompGet a).writes (Instr.refPhaseCompGet a).errors (refPhaseCompGet a) := by
  have hE : .transport ∈ (Instr.refPhaseCompGet a).errors := by simp [Instr.errors]
  unfold refPhaseCompGet
  refine (Uses.checkIndex (by simp [Instr.errors])).on.bind fun r => ?_
  refine (Uses.mbRead .ref r (by simp [Instr.writes]) (by simp [Instr.writes]) hE (by simp [Instr.errors])).on.bind
    fun _ => ?_
  exact (Uses.load rfl hE).on.bind fun _ => (Uses.orRaise (by simp [Instr.errors])).on.bind fun _ => (Uses.ret _).on

theorem refPhaseCompSet_uses (a : Byte) (x : BitVec 64) :
    Uses (Instr.refPhaseCompSet a x).writes (Instr.refPhaseCompSet a x).errors (refPhaseCompSet a x) := by
  unfold refPhaseCompSet
  refine (Uses.checkIndex (by simp [Instr.errors])).on.bind fun r => ?_
  refine (Uses.checkS32 (by simp [Instr.errors])).on.bind fun v => ?_
  refine (Uses.raiseIf (by simp [Instr.errors])).on.bind fun _ => ?_
  exact (Uses.mbWrite .ref r _ (by simp [isControl, Reg.access]) (by simp [Instr.writes]) (by simp [Instr.writes])
    (by simp [Instr.writes]) (by simp [Instr.errors]) (by simp [Instr.errors])).on.bind fun _ => (Uses.ret _).on

theorem outPhaseCompGet_uses (a : Byte) :
    Uses (Instr.outPhaseCompGet a).writes (Instr.outPhaseCompGet a).errors (outPhaseCompGet a) := by
  unfold outPhaseCompGet
  refine (Uses.checkIndex (by simp [Instr.errors])).on.bind fun pin => Runs.mark ?_
  refine (Uses.of_runs (outSynthFreq_runs _) (by simp [Instr.writes]) (by simp [Instr.errors])).on.bind fun f => ?_
  refine (Uses.orRaise (by simp [Instr.errors])).on.bind fun h => ?_
  refine (Uses.load rfl (by simp [Instr.errors])).on.bind fun raw => ?_
  exact (Uses.orRaise (by simp [Instr.errors])).on.bind fun _ => (Uses.ret _).on

theorem outPhaseCompSet_uses (a : Byte) (x : BitVec 64) :
    Uses (Instr.outPhaseCompSet a x).writes (Instr.outPhaseCompSet a x).errors (outPhaseCompSet a x) := by
  unfold outPhaseCompSet
  refine (Uses.checkIndex (by simp [Instr.errors])).on.bind fun pin => ?_
  refine (Uses.checkS32 (by simp [Instr.errors])).on.bind fun v => Runs.mark ?_
  refine (Uses.of_runs (outSynthFreq_runs _) (by simp [Instr.writes]) (by simp [Instr.errors])).on.bind fun f => ?_
  refine (Uses.orRaise (by simp [Instr.errors])).on.bind fun h => ?_
  refine (Uses.raiseIf (by simp [Instr.errors])).on.bind fun _ => Runs.mark ?_
  refine (Uses.raiseIf (by simp [Instr.errors])).on.bind fun _ => ?_
  exact (Uses.mbWrite .out (pairOf pin) _ (by simp [isControl, Reg.access]) (by simp [Instr.writes])
    (by simp [Instr.writes]) (by simp [Instr.writes]) (by simp [Instr.errors]) (by simp [Instr.errors])).on.bind
    fun _ => (Uses.ret _).on

/-! ### Pins and periodic outputs -/

/-- PIN_ENABLE and PIN_DISABLE, whose rows of R316 and whose registers are the same. -/
theorem pinMove_uses (proc : Proc) (next : EnableState → Half → EnableState) (a : Byte) :
    Uses (Instr.pinEnable a).writes (Instr.pinEnable a).errors (pinMove proc next a) := by
  unfold pinMove
  refine (Uses.checkIndex (by simp [Instr.errors])).on.bind fun pin => Runs.mark ?_
  refine (Uses.mbRead .out (pairOf pin) (by simp [Instr.writes]) (by simp [Instr.writes]) (by simp [Instr.errors])
    (by simp [Instr.errors])).on.bind fun _ => ?_
  refine (Uses.load rfl (by simp [Instr.errors])).on.bind fun c => ?_
  refine (Uses.orRaise (by simp [Instr.errors])).bind fun st => ?_
  exact (Uses.mbWrite .out (pairOf pin) _ (by simp [isControl, Reg.access]) (by simp [Instr.writes])
    (by simp [Instr.writes]) (by simp [Instr.writes]) (by simp [Instr.errors]) (by simp [Instr.errors])).on.bind
    fun _ => (Uses.ret _).on

section
variable {W : List Reg} {E : List ErrKind}

theorem checkDpllPair_uses (a : Byte) (hI : .invalidArgument ∈ E) : Uses W E (checkDpllPair a) := by
  unfold checkDpllPair
  exact (Uses.checkIndex hI).bind fun _ => (Uses.checkIndex hI).bind fun _ => Uses.ret _

end

/-! ### Errors alone -/

/-- The program, run in any state, raises only errors of `E` and never faults; unlike `Uses` it may change a perout
mask. -/
def Ends {α : Type} (E : List ErrKind) (m : Prog α) : Prop :=
  ∀ s, match m.run s with
    | .ok _ _ => True
    | .error (.raise e) _ => e ∈ E
    | .error (.fault _) _ => False

section
variable {α β : Type} {W : List Reg} {E : List ErrKind}

theorem Uses.ends {m : Prog α} (h : Uses W E m) : Ends E m := by
  intro s
  have hs := h s trivial
  cases hm : m.run s with
  | ok a t => trivial
  | error e t =>
    rw [hm] at hs
    cases e with
    | raise e => exact hs.2
    | fault f => exact hs

theorem Ends.bind {m : Prog α} {f : α → Prog β} (hm : Ends E m) (hf : ∀ a, Ends E (f a)) :
    Ends E (letI := Prog.monad; m >>= f) := by
  intro s
  have hs := hm s
  rw [run_bind]
  cases h : m.run s with
  | ok a t => exact hf a t
  | error e t =>
    rw [h] at hs
    cases e with
    | raise e => exact hs
    | fault f => exact hs

theorem Ends.on {m : Prog α} {proc : Proc} {n : Nat} (h : Ends E m) : Ends E (m.on proc n) := by
  intro s
  rw [run_on]
  exact h s

theorem Ends.markPair (i : Fin 2) (p : Fin 10) (on : Bool) : Ends E (markPair i p on) := fun _ => trivial

end

theorem peroutEnable_ends (a : Byte) (x y : BitVec 64) :
    Ends (Instr.peroutEnable a x y).errors (peroutEnable a x y) := by
  unfold peroutEnable
  refine Ends.bind (Uses.ret (W := []) ()).ends.on fun _ => ?_
  refine (checkDpllPair_uses (W := []) a (by simp [Instr.errors])).ends.on.bind fun ip => ?_
  refine (Uses.raiseIf (W := []) (by simp [Instr.errors])).ends.on.bind fun _ => ?_
  refine (Uses.raiseIf (W := []) (by simp [Instr.errors])).ends.on.bind fun _ => ?_
  refine (Uses.of_runs (outSynthFreq_runs ip.2) (fun _ h => h) (by simp [Instr.errors])).ends.on.bind fun _ => ?_
  exact (Ends.markPair ip.1 ip.2 true).on.bind fun _ => (Uses.ret (W := []) _).ends.on

theorem peroutDisable_ends (a : Byte) : Ends (Instr.peroutDisable a).errors (peroutDisable a) := by
  unfold peroutDisable
  refine Ends.bind (Uses.ret (W := []) ()).ends.on fun _ => ?_
  refine (checkDpllPair_uses (W := []) a (by simp [Instr.errors])).ends.on.bind fun ip => ?_
  exact (Ends.markPair ip.1 ip.2 false).on.bind fun _ => (Uses.ret (W := []) _).ends.on

/-- Every operation returns or raises an error of its row of R316 (R308, R309). -/
theorem program_ends {i : Instr} {q : Prog Reply} (h : programOf i = some q) : Ends i.errors q := by
  cases i <;> simp only [programOf, Option.some.injEq, reduceCtorEq] at h <;> subst h
  case todGet a => exact (todGet_uses a).ends
  case todSet a x y => exact (todSet_uses a x y).ends
  case steptime a x => exact (steptime_uses a x).ends
  case adjfine a x => exact (adjfine_uses a x).ends
  case adjphase a x => exact (adjphase_uses a x).ends
  case synthFreqGet a => exact (synthFreqGet_uses a).ends
  case refFreqGet a => exact (refFreqGet_uses a).ends
  case refFreqSet a x => exact (refFreqSet_uses a x).ends
  case outFreqGet a => exact (outFreqGet_uses a).ends
  case outFreqSet a x => exact (outFreqSet_uses a x).ends
  case refPhaseCompGet a => exact (refPhaseCompGet_uses a).ends
  case refPhaseCompSet a x => exact (refPhaseCompSet_uses a x).ends
  case outPhaseCompGet a => exact (outPhaseCompGet_uses a).ends
  case outPhaseCompSet a x => exact (outPhaseCompSet_uses a x).ends
  case pinEnable a => exact (pinMove_uses .pinEnable enableNext a).ends
  case pinDisable a => exact (pinMove_uses .pinDisable disableNext a).ends
  case peroutEnable a x y => exact peroutEnable_ends a x y
  case peroutDisable a => exact peroutDisable_ends a

end Sys2Proof.Machine
end

section
/-! SUPPORT. What no program changes, however it ends, and so what a whole operation leaves. -/

namespace Sys2Proof.Machine

/-! ### What an access leaves -/

/-- A read changes the schedule and the ASIC side alone, and takes the moves of one slot. -/
theorem perform_read_left (r : Reg) (s : State) :
    left ((Act.read r).perform s) = { s.tick with asic := (left ((Act.read r).perform s)).asic } := by
  unfold Act.perform readReg memRead
  simp only
  rw [seq_bind, xferRead]
  cases s.failure with
  | some f => rfl
  | none => cases readsOpen s.par r.addr r.width <;> rfl

/-- So does a write, also one that fails or faults. -/
theorem xferWrite_left (addr : Nat) (buf : List Byte) (s : State) :
    left (xferWrite addr buf s) = { s.tick with asic := (left (xferWrite addr buf s)).asic } := by
  unfold xferWrite
  cases s.failure with
  | some f =>
    simp only [landFailed]
    cases storeCells s.tick.par s.tick.asic (landedCells (cellsFrom addr buf.reverse) f.landed) <;> rfl
  | none =>
    simp only [land]
    cases storeCells s.tick.par s.tick.asic (cellsFrom addr buf.reverse) <;> rfl

theorem perform_write_left (r : Reg) (v : Nat) (s : State) :
    left ((Act.write r v).perform s) = { s.tick with asic := (left ((Act.write r v).perform s)).asic } := by
  have e : left ((Act.write r v).perform s) = left (writeReg r v s) := by
    simp only [Act.perform]
    cases writeReg r v s <;> rfl
  rw [e]
  exact xferWrite_left _ _ s

/-! ### What every step keeps -/

/-- What every step of a program keeps, and so every operation: all but the lock, the phase, the controller's own
bookkeeping, the result and the schedule. -/
structure Ran (s t : State) : Prop where
  par : t.par = s.par
  dev : t.dev = s.dev
  boot : t.boot = s.boot
  op : t.op = s.op
  port : t.port = s.port
  perout : (∀ i : Fin 2, (s.ctl.perout.get i).toNat < 2 ^ 10) → ∀ i : Fin 2, (t.ctl.perout.get i).toNat < 2 ^ 10
  asic : ∀ I, Lasting I → I s.asic → I t.asic

theorem Ran.refl (s : State) : Ran s s := ⟨rfl, rfl, rfl, rfl, rfl, id, fun _ _ h => h⟩

theorem Ran.trans {s t u : State} (h : Ran s t) (h' : Ran t u) : Ran s u where
  par := h'.par.trans h.par
  dev := h'.dev.trans h.dev
  boot := h'.boot.trans h.boot
  op := h'.op.trans h.op
  port := h'.port.trans h.port
  perout := fun hs => h'.perout (h.perout hs)
  asic := fun I hI hs => h'.asic I hI (h.asic I hI hs)

theorem beginOp_ran (op : Byte) (s : State) : Ran s (beginOp op s) := ⟨rfl, rfl, rfl, rfl, rfl, id, fun _ _ h => h⟩

theorem endOp_ran (c : Byte) (r : Reply) (s : State) : Ran s (endOp c r s) :=
  ⟨rfl, rfl, rfl, rfl, rfl, id, fun _ _ h => h⟩

theorem startOp_ran (s : State) : Ran s (startOp s) := ⟨rfl, rfl, rfl, rfl, rfl, id, fun _ _ h => h⟩

theorem note_ran (s : State) (a : Act) (v : Nat) (q : Prog Reply) : Ran s (s.note a v q) :=
  ⟨rfl, rfl, rfl, rfl, rfl, id, fun _ _ h => h⟩

/-- A pair is one of the ten a mask has bits for (R29). -/
theorem markPair_lt : ∀ (p : Fin 10) (m : BitVec 16), m.toNat < 2 ^ 10 →
    (m ||| pairBit p).toNat < 2 ^ 10 ∧ (m &&& ~~~pairBit p).toNat < 2 ^ 10 := by
  have hp : ∀ p : Fin 10, (pairBit p).toNat < 2 ^ 10 := by decide
  intro p m hm
  rw [BitVec.toNat_or, BitVec.toNat_and]
  exact ⟨Nat.or_lt_two_pow hm (hp p), lt_of_le_of_lt Nat.and_le_left hm⟩

theorem perform_ran (a : Act) (s : State) : Ran s (left (a.perform s)) := by
  have hI : ∀ I, Lasting I → I s.asic → I (left (a.perform s)).asic := fun I h hs => h.perform a s hs
  cases a with
  | line _ => exact .refl s
  | read r =>
    rw [perform_read_left]
    exact ⟨rfl, rfl, rfl, rfl, rfl, id, hI⟩
  | write r v =>
    rw [perform_write_left]
    exact ⟨rfl, rfl, rfl, rfl, rfl, id, hI⟩
  | perout _ => exact .refl s
  | markPair i p on =>
    refine ⟨rfl, rfl, rfl, rfl, rfl, fun hs j => ?_, hI⟩
    show ((upd s.ctl.perout i _).get j).toNat < 2 ^ 10
    rw [upd_get]
    split
    · cases on
      · exact (markPair_lt p _ (hs i)).2
      · exact (markPair_lt p _ (hs i)).1
    · exact hs j
  | todDone _ => exact .refl s

theorem perform_lock (a : Act) (s : State) : (left (a.perform s)).ctl.lock = s.ctl.lock := by
  cases a with
  | read r => rw [perform_read_left]; rfl
  | write r v => rw [perform_write_left]; rfl
  | _ => rfl

/-- A step takes the moves of one slot, or of none. -/
theorem perform_env (a : Act) (s : State) :
    (left (a.perform s)).env = s.env ∨ (left (a.perform s)).env = s.env.next.2 := by
  cases a with
  | read r =>
    rw [perform_read_left]
    exact .inr rfl
  | write r v =>
    rw [perform_write_left]
    exact .inr rfl
  | _ => exact .inl rfl

/-! ### Programs and operations -/

/-- What holds of any state and itself, composes, and holds of every step, holds of every program, however it ends. -/
theorem run_left {α : Type} {R : State → State → Prop} (hrefl : ∀ s, R s s)
    (htrans : ∀ s t u, R s t → R t u → R s u) (hact : ∀ (a : Act) s, R s (left (a.perform s))) (q : Prog α)
    (s : State) : R s (left (q.run s)) := by
  induction q generalizing s with
  | ret x => exact hrefl s
  | raise e => exact hrefl s
  | act a k ih =>
    have h := hact a s
    simp only [Prog.run]
    cases hp : a.perform s with
    | ok v s' => rw [hp] at h; exact htrans _ _ _ h (ih v s')
    | error e s' => rw [hp] at h; exact h
  | params k ih => exact ih _ s

theorem run_ran {α : Type} (q : Prog α) (s : State) : Ran s (left (q.run s)) :=
  run_left .refl (fun _ _ _ => .trans) perform_ran q s

/-- The caller holds the lock as long as a program runs (R22). -/
theorem run_lock {α : Type} (q : Prog α) (s : State) : (left (q.run s)).ctl.lock = s.ctl.lock :=
  run_left (R := fun s t => t.ctl.lock = s.ctl.lock) (fun _ => rfl) (fun _ _ _ h h' => h'.trans h) perform_lock q s

/-- A sequence that does not fault ends the operation, by `return` or by `raise`. -/
theorem finish_next {r : EStateM.Result Stop State Reply} {t : State} (h : finish r = .next t) :
    ∃ c x, t = endOp c x (left r) := by
  unfold finish at h
  split at h <;> cases h
  · exact ⟨_, _, rfl⟩
  · exact ⟨_, _, rfl⟩

theorem finish_ran {r : EStateM.Result Stop State Reply} {s t : State} (hr : Ran s (left r)) (h : finish r = .next t) :
    Ran s t := by
  obtain ⟨c, x, rfl⟩ := finish_next h
  exact hr.trans (endOp_ran c x _)

theorem runOperation_ran {op : Byte} {q : Prog Reply} {s t : State} (h : runOperation op q s = .next t) : Ran s t :=
  finish_ran ((beginOp_ran op s).trans (run_ran q _)) h

/-- An operation whose program raises no fault ends (R308, R309). -/
theorem runOperation_ends {E : List ErrKind} {q : Prog Reply} (hq : Ends E q) (op : Byte) (s : State) :
    ∃ t, runOperation op q s = .next t := by
  have h := hq (beginOp op s)
  unfold runOperation
  cases hr : q.run (beginOp op s) with
  | ok x t => exact ⟨_, rfl⟩
  | error e t =>
    rw [hr] at h
    cases e with
    | raise e => exact ⟨_, rfl⟩
    | fault f => exact h.elim

/-- The controller is idle: the lock is free, the phase idle, and no position, scratch value or TOD sub-state left. -/
structure State.Rested (t : State) : Prop where
  lock : t.ctl.lock = .free
  phase : t.ctl.phase = .idle
  tod : t.ctl.tod = noCommand
  scratch : t.ctl.scratch = []
  seq : t.ctl.seq = []

theorem finish_rested {r : EStateM.Result Stop State Reply} {t : State} (h : finish r = .next t) : t.Rested := by
  obtain ⟨c, x, rfl⟩ := finish_next h
  exact ⟨rfl, rfl, rfl, rfl, rfl⟩

theorem isOperation_program {i : Instr} (h : i.isOperation = true) : ∃ q, programOf i = some q := by
  cases i <;> simp [Instr.isOperation, programOf] at h ⊢

/-- The result goes to the caller that held the lock (R22, R301). -/
theorem runOperation_resTo {op : Byte} {q : Prog Reply} {s t : State} (h : runOperation op q s = .next t) :
    t.resTo = s.ctl.lock.holder := by
  obtain ⟨c, x, rfl⟩ := finish_next h
  exact congrArg Lock.holder (run_lock q _)

end Sys2Proof.Machine

namespace Sys2Proof.Proofs

open Sys2Proof.Machine

/-- Settles O14: an operation is its program run under its opcode, and that program returns or raises, whatever the
schedule does. -/
theorem everyOperationEnds : Obligations.EveryOperationEnds := by
  intro i s hi
  obtain ⟨q, hq⟩ := isOperation_program hi
  obtain ⟨o, _, he⟩ := exec_program hq
  obtain ⟨t, ht⟩ := runOperation_ends (program_ends hq) o s
  have hr := finish_rested ht
  exact ⟨t, (he s).trans ht, hr.lock, hr.phase, runOperation_resTo ht⟩

/-- Settles O16: no step of a program touches what belongs to the operation port, the script or the device. -/
theorem operationsKeepControllerState : Obligations.OperationsKeepControllerState := by
  intro i s t hi h
  obtain ⟨q, hq⟩ := isOperation_program hi
  obtain ⟨o, _, he⟩ := exec_program hq
  have hr := runOperation_ran ((he s).symm.trans h)
  exact ⟨hr.par, hr.op, hr.port, hr.boot, hr.dev⟩

end Sys2Proof.Proofs
end

section
/-! SUPPORT. What a step of the machine is, at either grain, and what every step keeps. -/

namespace Sys2Proof.Machine

/-! ### The bootstrap -/

/-- What a step of the bootstrap keeps: all but the script, the device's life, the schedule and the ASIC side (R332). -/
structure Booted (s t : State) : Prop where
  par : t.par = s.par
  ctl : t.ctl = s.ctl
  op : t.op = s.op
  res : t.res = s.res
  resTo : t.resTo = s.resTo
  port : t.port = s.port
  env : t.env = s.env ∨ t.env = s.env.next.2
  asic : ∀ I, Lasting I → I s.asic → I t.asic

/-- A script line's write, and the device's life after it. -/
theorem booted_write (addr : Nat) (buf : List Byte) (s : State) (d : Dev) :
    Booted s { left (xferWrite addr buf s) with dev := d } := by
  have hI : ∀ I, Lasting I → I s.asic → I (left (xferWrite addr buf s)).asic := fun I h hs => h.xferWrite addr buf s hs
  rw [xferWrite_left]
  exact ⟨rfl, rfl, rfl, rfl, rfl, rfl, .inr rfl, hI⟩

/-- A control byte that is an instruction is a register-level command, which writes that byte (R100). -/
theorem decodeCtrl_command {addr : BitVec 16} {b : Byte} {i : Instr} (h : decodeCtrl addr b = .ok i) :
    ∃ r c, ∀ s, exec i s = runCommand r c s := by
  unfold decodeCtrl at h
  split at h
  · split_ifs at h <;> cases h <;> exact ⟨_, _, fun _ => rfl⟩
  · split_ifs at h <;> cases h <;> exact ⟨_, _, fun _ => rfl⟩
  · split_ifs at h; cases h; exact ⟨_, _, fun _ => rfl⟩
  · split_ifs at h; cases h; exact ⟨_, _, fun _ => rfl⟩
  · cases h

theorem runCommand_booted {r : Reg} {b : Byte} {s t : State} (hd : s.dev = .booting)
    (h : runCommand r b s = .next t) : Booted s t := by
  have hk := booted_write r.addr (leBytes r.width b.toNat) s
  have hdev : (left (xferWrite r.addr (leBytes r.width b.toNat) s)).dev = s.dev := by rw [xferWrite_left]; rfl
  unfold runCommand writeReg memWrite at h
  cases hw : xferWrite r.addr (leBytes r.width b.toNat) s with
  | ok _ u =>
    rw [hw] at h hk
    cases h
    exact hk t.dev
  | error e u =>
    rw [hw] at h hk hdev
    cases e with
    | raise e =>
      simp only [show u.dev = .booting from hdev.trans hd, if_true] at h
      cases h
      exact hk .bootFailed
    | fault f => cases h

theorem bootStore_booted {addr : BitVec 16} {b : Byte} {s t : State} (h : bootStore addr b s = .next t) :
    Booted s t := by
  have hk := booted_write addr.toNat [b] s
  unfold bootStore at h
  cases hw : xferWrite addr.toNat [b] s with
  | ok _ u =>
    rw [hw] at h hk
    cases h
    exact hk t.dev
  | error e u =>
    rw [hw] at h hk
    cases e with
    | raise e => cases h; exact hk .bootFailed
    | fault f => cases h

theorem bootLine_booted {l : ScriptLine} {s t : State} (hd : s.dev = .booting) (h : bootLine l s = .next t) :
    Booted s t := by
  cases l with
  | write addr b =>
    simp only [bootLine, bootWrite] at h
    split at h
    · next i hi =>
      obtain ⟨r, c, he⟩ := decodeCtrl_command hi
      exact runCommand_booted hd ((he s).symm.trans h)
    · exact bootStore_booted h
  | wait us => cases h; exact ⟨rfl, rfl, rfl, rfl, rfl, rfl, .inr rfl, fun _ hI hs => hI.tick hs⟩
  | comment => cases h; exact ⟨rfl, rfl, rfl, rfl, rfl, rfl, .inl rfl, fun _ _ hs => hs⟩

theorem bootStep_booted {s t : State} (hd : s.dev = .booting) (h : bootStep s = .next t) : Booted s t := by
  unfold bootStep at h
  split at h
  · cases h; exact ⟨rfl, rfl, rfl, rfl, rfl, rfl, .inl rfl, fun _ _ hs => hs⟩
  · next l ls _ =>
    have hk := bootLine_booted (s := { s with boot := ls }) hd h
    exact ⟨hk.par, hk.ctl, hk.op, hk.res, hk.resTo, hk.port, hk.env, hk.asic⟩

/-! ### The cases of a step -/

section
variable {start : List Byte → State → Host.Outcome State Fault Refusal}
  {go : State → Host.Outcome State Fault Refusal} {s t : State}

/-- An operation runs: the device is attached, a caller holds the lock, the phase is busy, and no detach is to be
refused. -/
structure State.Running (s : State) : Prop where
  dev : s.dev = .attached
  lock : ∃ c, s.ctl.lock = .held c
  phase : ∃ op, s.ctl.phase = .busy op
  port : ∀ rest, s.port ≠ .detach :: rest

/-- What a step can do, from what starts an accepted request and what goes on with a running operation. -/
inductive StepCase (start : List Byte → State → Host.Outcome State Fault Refusal)
    (go : State → Host.Outcome State Fault Refusal) (s t : State) : Prop where
  | boot (hd : s.dev = .booting) (h : bootStep s = .next t)
  | request (c : Nat) (bytes : Vector Byte 18) (rest : List PortEvent) (hd : s.dev = .attached)
      (hl : s.ctl.lock = .free) (hp : s.port = .request c bytes :: rest)
      (h : start bytes.toList (accept c bytes.toList { s with port := rest }) = .next t)
  | detach (rest : List PortEvent) (hl : s.ctl.lock = .free) (hp : s.port = .detach :: rest)
      (h : t = { s with dev := .detached, port := rest })
  | passAttach (a : Asic) (rest : List PortEvent) (hl : s.ctl.lock = .free) (hp : s.port = .attach a :: rest)
      (h : t = { s with port := rest })
  | running (hr : s.Running) (h : go s = .next t)
  | attach (a : Asic) (rest : List PortEvent) (hd : s.dev ≠ .attached) (hp : s.port = .attach a :: rest)
      (h : t = attach a { s with port := rest })
  | idle (hd : s.dev = .attached → s.ctl.lock = .free ∨ s.ctl.phase = .idle) (h : t = s.tick)

theorem takeArrival_cases (hd : s.dev = .attached) (hl : s.ctl.lock = .free) (h : takeArrival start s = .next t) :
    StepCase start go s t := by
  unfold takeArrival at h
  split at h
  · cases h; exact .idle (fun _ => .inl hl) rfl
  · next c bytes rest hp => exact .request c bytes rest hd hl hp h
  · next rest hp => cases h; exact .detach rest hl hp rfl
  · next a rest hp => cases h; exact .passAttach a rest hl hp rfl

theorem whileHeld_cases {c : Nat} (hd : s.dev = .attached) (hl : s.ctl.lock = .held c) (h : whileHeld go s = .next t) :
    StepCase start go s t := by
  unfold whileHeld at h
  split at h
  · cases h
  · next hp =>
    split at h
    · next op ho => exact .running ⟨hd, ⟨c, hl⟩, ⟨op, ho⟩, hp⟩ h
    · next ho => cases h; exact .idle (fun _ => .inr ho) rfl

theorem unattachedStep_cases (hd : s.dev ≠ .attached) (h : unattachedStep s = .next t) : StepCase start go s t := by
  unfold unattachedStep at h
  split at h
  · next a rest hp => cases h; exact .attach a rest hd hp rfl
  · cases h; exact .idle (fun e => absurd e hd) rfl

theorem stepWith_cases (h : stepWith start go s = .next t) : StepCase start go s t := by
  unfold stepWith at h
  split at h
  · next hd => exact .boot hd h
  · next hd =>
    unfold portStep at h
    split at h
    · next hl => exact takeArrival_cases hd hl h
    · next c hl => exact whileHeld_cases hd hl h
  · next hd => exact unattachedStep_cases (by simp [hd]) h
  · next hd => exact unattachedStep_cases (by simp [hd]) h

theorem stepWith_booting (hd : s.dev = .booting) : stepWith start go s = bootStep s := by
  unfold stepWith
  rw [hd]

theorem stepWith_free (hd : s.dev = .attached) (hl : s.ctl.lock = .free) :
    stepWith start go s = takeArrival start s := by
  unfold stepWith portStep
  rw [hd, hl]

theorem stepWith_held {c : Nat} (hd : s.dev = .attached) (hl : s.ctl.lock = .held c) :
    stepWith start go s = whileHeld go s := by
  unfold stepWith portStep
  rw [hd, hl]

theorem stepWith_unattached (hd : s.dev = .detached ∨ s.dev = .bootFailed) :
    stepWith start go s = unattachedStep s := by
  unfold stepWith
  rcases hd with hd | hd <;> rw [hd]

theorem stepWith_request {c : Nat} {bytes : Vector Byte 18} {rest : List PortEvent} (hd : s.dev = .attached)
    (hl : s.ctl.lock = .free) (hp : s.port = .request c bytes :: rest) :
    stepWith start go s = start bytes.toList (accept c bytes.toList { s with port := rest }) := by
  rw [stepWith_free hd hl, takeArrival, hp]

/-- A detach waits for no operation: it is refused (U23). -/
theorem stepWith_refused {c : Nat} {rest : List PortEvent} (hd : s.dev = .attached) (hl : s.ctl.lock = .held c)
    (hp : s.port = .detach :: rest) : stepWith start go s = .refused .detachWhileHeld := by
  rw [stepWith_held hd hl, whileHeld, hp]

theorem stepWith_running (hr : s.Running) : stepWith start go s = go s := by
  obtain ⟨hd, ⟨c, hl⟩, ⟨op, ho⟩, hp⟩ := hr
  rw [stepWith_held hd hl, whileHeld, ho]
  split
  · next rest e => exact absurd e (hp rest)
  · rfl

end

/-! ### The two grains -/

/-- The controller is idle, or a caller holds the lock and an operation runs (R22, R25). -/
def State.Settled (t : State) : Prop := t.Rested ∨ ∃ c op, t.ctl.lock = .held c ∧ t.ctl.phase = .busy op

/-- What both grains have in common: what starts an accepted request, and what goes on with a running operation, keeps
what every operation keeps, and leaves a state of which `E` holds. -/
structure Grain (start : List Byte → State → Host.Outcome State Fault Refusal)
    (go : State → Host.Outcome State Fault Refusal) (E : State → Prop) : Prop where
  start : ∀ (c : Nat) (bytes : Vector Byte 18) (s t : State),
    start bytes.toList (accept c bytes.toList s) = .next t → Ran (accept c bytes.toList s) t ∧ E t
  go : ∀ s t : State, s.Running → go s = .next t → Ran s t ∧ E t
  settled : ∀ t, E t → t.Settled

theorem resume_ran {s t : State} (h : resume s = .next t) : Ran s t := finish_ran (run_ran _ s) h

/-- A step that runs an operation to its end leaves the controller idle. -/
theorem whole_grain : Grain runRequest resume State.Rested where
  start c bytes s t h := by
    rw [runRequest_accept] at h
    exact ⟨runOperation_ran h, finish_rested h⟩
  go s t _ h := ⟨resume_ran h, finish_rested h⟩
  settled _ h := .inl h

/-- A step of one access leaves the operation running, or the controller idle. -/
theorem access_grain : Grain (fun _ s => .next (startOp s)) opStep State.Settled where
  start c bytes s t h := by
    cases h
    exact ⟨startOp_ran _, .inr ⟨c, _, rfl, rfl⟩⟩
  go s t hr h := by
    rcases opStep_cases h with h | ⟨a, k, v, s', _, hp, rfl, _⟩
    · exact ⟨resume_ran h, .inl (finish_rested h)⟩
    · obtain ⟨c, hl⟩ := hr.lock
      obtain ⟨op, ho⟩ := hr.phase
      have hk : Ran s s' := by
        have := perform_ran a s
        rwa [hp] at this
      have hs := perform_same hp
      exact ⟨hk.trans (note_ran s' a v _), .inr ⟨c, op, hs.lock.trans hl, hs.phase.trans ho⟩⟩
  settled _ h := h

/-- The controller's invariant from its parts. -/
theorem ctlInv_of_settled {t : State} (h : t.Settled) (hd : t.dev ≠ .attached → t.ctl.lock = .free)
    (hp : ∀ i : Fin 2, (t.ctl.perout.get i).toNat < 2 ^ 10) : t.CtlInv := by
  rcases h with h | ⟨c, op, hl, ho⟩
  · exact ⟨⟨fun _ => h.phase, fun _ => h.lock⟩, fun _ => ⟨h.tod, h.scratch, h.seq⟩, hd, hp⟩
  · exact ⟨by simp [hl, ho], by simp [ho], hd, hp⟩

section
variable {start : List Byte → State → Host.Outcome State Fault Refusal}
  {go : State → Host.Outcome State Fault Refusal} {E : State → Prop} {s t : State}

/-- A property of the ASIC side that every access keeps, and every attach to come, is kept by every step. -/
theorem Grain.asic (g : Grain start go E) {I : Asic → Prop} (hI : Lasting I) (hs : I s.asic)
    (ha : ∀ a, .attach a ∈ s.port → I a.found) (h : stepWith start go s = .next t) : I t.asic := by
  cases stepWith_cases h with
  | boot hd h => exact (bootStep_booted hd h).asic I hI hs
  | request c bytes rest _ _ _ h => exact (g.start c bytes _ t h).1.asic I hI hs
  | detach _ _ _ h => rw [h]; exact hs
  | passAttach _ _ _ _ h => rw [h]; exact hs
  | running hr h => exact (g.go s t hr h).1.asic I hI hs
  | attach a rest _ hp h => rw [h]; exact ha a (by simp [hp])
  | idle _ h => rw [h]; exact hI.tick hs

/-- A step takes the first arrival or none. -/
theorem Grain.port (g : Grain start go E) (h : stepWith start go s = .next t) : ∀ e ∈ t.port, e ∈ s.port := by
  cases stepWith_cases h with
  | boot hd h => rw [(bootStep_booted hd h).port]; exact fun _ h => h
  | request c bytes rest _ _ hp h => rw [(g.start c bytes _ t h).1.port, hp]; exact fun _ => List.mem_cons_of_mem _
  | detach rest _ hp h => rw [h, hp]; exact fun _ => List.mem_cons_of_mem _
  | passAttach a rest _ hp h => rw [h, hp]; exact fun _ => List.mem_cons_of_mem _
  | running hr h => rw [(g.go s t hr h).1.port]; exact fun _ h => h
  | attach a rest _ hp h => rw [h, hp]; exact fun _ => List.mem_cons_of_mem _
  | idle _ h => rw [h]; exact fun _ h => h

/-- A step keeps the controller's invariant, and one that is no step of an operation leaves the lock free. -/
theorem Grain.ctlInv (g : Grain start go E) (hs : s.CtlInv) (h : stepWith start go s = .next t) :
    t.CtlInv ∧ (t.ctl.lock = .free ∨ E t) := by
  obtain ⟨hlp, hi, hd, hp⟩ := hs
  cases stepWith_cases h with
  | boot hb h =>
    have hl := hd (by simp [hb])
    unfold State.CtlInv
    rw [(bootStep_booted hb h).ctl]
    exact ⟨⟨hlp, hi, fun _ => hl, hp⟩, .inl hl⟩
  | request c bytes rest ha _ _ h =>
    obtain ⟨hr, he⟩ := g.start c bytes _ t h
    exact ⟨ctlInv_of_settled (g.settled t he) (fun hn => absurd (hr.dev.trans ha) hn) (hr.perout hp), .inr he⟩
  | detach rest hl _ h => subst h; exact ⟨⟨hlp, hi, fun _ => hl, hp⟩, .inl hl⟩
  | passAttach a rest hl _ h => subst h; exact ⟨⟨hlp, hi, hd, hp⟩, .inl hl⟩
  | running hrun h =>
    obtain ⟨hr, he⟩ := g.go s t hrun h
    exact ⟨ctlInv_of_settled (g.settled t he) (fun hn => absurd (hr.dev.trans hrun.dev) hn) (hr.perout hp), .inr he⟩
  | attach a rest _ _ h =>
    subst h
    have hr : ∀ i : Fin 2, (Ctl.reset.perout.get i).toNat < 2 ^ 10 := by decide
    exact ⟨ctlInv_of_settled (.inl ⟨rfl, rfl, rfl, rfl, rfl⟩) (fun _ => rfl) hr, .inl rfl⟩
  | idle hf h =>
    subst h
    refine ⟨⟨hlp, hi, hd, hp⟩, .inl ?_⟩
    by_cases ha : s.dev = .attached
    · exact (hf ha).elim id hlp.mpr
    · exact hd ha

theorem Grain.inv (g : Grain start go E) (hs : s.Inv) (h : stepWith start go s = .next t) : t.Inv :=
  ⟨(g.ctlInv hs.1 h).1, g.asic lasting_wf hs.2 (fun _ _ => wf_canon _) h⟩

theorem Grain.handshake (g : Grain start go E) (hs : s.Handshake) (h : stepWith start go s = .next t) :
    t.Handshake :=
  ⟨g.asic lasting_handshake hs.1 (fun _ hm => found_handshake (hs.2 _ hm)) h, fun e he => hs.2 e (g.port h e he)⟩

end

end Sys2Proof.Machine

namespace Sys2Proof.Proofs

open Sys2Proof.Machine

/-- Settles O57: both grains are steps of `stepWith`, each of whose cases keeps the invariant. -/
theorem stepKeepsInvariant : Obligations.StepKeepsInvariant := by
  refine ⟨fun s t hs h => access_grain.inv hs h, fun s t hs h => ?_⟩
  have ht := whole_grain.inv hs h
  have hl : t.ctl.lock = .free := (whole_grain.ctlInv hs.1 h).2.elim id fun hr => hr.lock
  exact ⟨ht, hl, ht.1.1.mp hl⟩

/-- Settles O58: the agreement is kept by every move and every landing byte, and an attach installs only what agrees. -/
theorem stepKeepsHandshake : Obligations.StepKeepsHandshake :=
  fun _ _ hs => ⟨fun h => whole_grain.handshake hs h, fun h => access_grain.handshake hs h⟩

end Sys2Proof.Proofs
end

section
/-! SUPPORT. Steps of one access and the step of a whole operation. -/

namespace Sys2Proof.Machine

/-! ### Steps of one access -/

theorem accessSteps_next {s t : State} (h : accessStep s = .next t) (n : Nat) :
    accessSteps (n + 1) s = accessSteps n t := by
  rw [accessSteps, h]

theorem accessSteps_one (s : State) : accessSteps 1 s = accessStep s := by
  unfold accessSteps
  cases accessStep s <;> rfl

/-- What is left of a program has no parameter left to read. -/
theorem after_after {α : Type} (p : Params) (q : Prog α) (vs : List Nat) :
    (q.after p vs).after p [] = q.after p vs := by
  induction q generalizing vs with
  | ret x => simp
  | raise e => simp
  | act a k ih =>
    cases vs with
    | nil => rfl
    | cons v vs => exact ih v vs
  | params k ih =>
    rw [after_params]
    exact ih p vs

section
variable {s s' : State} {a : Act} {k : Nat → Prog Reply} (hr : s.residual = .act a k)
include hr

theorem opStep_ok {v : Nat} (hp : a.perform s = .ok v s') :
    opStep s = .next (s'.note a v ((k v).after s.par [])) := by
  unfold opStep
  rw [hr]
  simp only [hp]

theorem opStep_error {e : Stop} (hp : a.perform s = .error e s') : opStep s = finish (.error e s') := by
  unfold opStep
  rw [hr]
  simp only [hp]

end

/-- Where no step is left, the operation ends. -/
theorem opStep_end {s : State} (h : ∀ a k, s.residual ≠ .act a k) : opStep s = resume s := by
  unfold opStep resume
  split
  · next a k e => exact absurd e (h a k)
  · rfl

/-- A step takes the moves of one slot, or of none: it makes at most one access (R20). -/
theorem opStep_env {s t : State} (h : opStep s = .next t) : t.env = s.env ∨ t.env = s.env.next.2 := by
  cases hr : s.residual with
  | act a k =>
    have he := perform_env a s
    cases hp : a.perform s with
    | ok v s' =>
      rw [opStep_ok hr hp] at h
      rw [hp] at he
      cases h
      exact he
    | error e s' =>
      rw [opStep_error hr hp] at h
      rw [hp] at he
      obtain ⟨c, x, rfl⟩ := finish_next h
      exact he
  | ret x =>
    rw [opStep_end (by simp [hr]), resume, hr] at h
    cases h
    exact .inl rfl
  | raise e =>
    rw [opStep_end (by simp [hr]), resume, hr] at h
    cases h
    exact .inl rfl
  | params k => exact absurd hr (after_ne_params _ _ _ k)

theorem accessStep_env {s t : State} (h : accessStep s = .next t) : t.env = s.env ∨ t.env = s.env.next.2 := by
  cases stepWith_cases h with
  | boot hd h => exact (bootStep_booted hd h).env
  | request c bytes rest _ _ _ h => cases h; exact .inl rfl
  | detach _ _ _ h => subst h; exact .inl rfl
  | passAttach _ _ _ _ h => subst h; exact .inl rfl
  | running _ h => exact opStep_env h
  | attach _ _ _ _ h => subst h; exact .inl rfl
  | idle _ h => subst h; exact .inr rfl

/-! ### A running operation -/

theorem accessStep_running {s : State} (h : s.Running) : accessStep s = opStep s := stepWith_running h

theorem step_running {s : State} (h : s.Running) : step s = resume s := stepWith_running h

theorem running_note {s s' : State} {a : Act} {v : Nat} (hr : s.Running) (hp : a.perform s = .ok v s')
    (q : Prog Reply) : (s'.note a v q).Running := by
  have hs := perform_same hp
  obtain ⟨hd, ⟨c, hl⟩, ⟨op, ho⟩, hport⟩ := hr
  exact ⟨hs.dev.trans hd, ⟨c, hs.lock.trans hl⟩, ⟨op, hs.phase.trans ho⟩, fun rest => by
    rw [State.note_port, hs.port]; exact hport rest⟩

/-- Steps enough of a running operation come to its end: by induction on what is left of its program. -/
theorem accessSteps_resume (q : Prog Reply) (s : State) (hr : s.Running) (hq : s.residual = q.after s.par []) :
    ∃ n, accessSteps n s = resume s := by
  induction q generalizing s with
  | ret x =>
    refine ⟨1, ?_⟩
    rw [accessSteps_one, accessStep_running hr, opStep_end (by simp [hq])]
  | raise e =>
    refine ⟨1, ?_⟩
    rw [accessSteps_one, accessStep_running hr, opStep_end (by simp [hq])]
  | act a k ih =>
    rw [after_act_nil] at hq
    cases hp : a.perform s with
    | ok v s' =>
      have hstep := (accessStep_running hr).trans (opStep_ok hq hp)
      have hpar := (perform_same hp).par
      obtain ⟨n, hn⟩ := ih v (s'.note a v ((k v).after s.par [])) (running_note hr hp _) (by
        rw [residual_note hq hp, State.note_par, hpar])
      exact ⟨n + 1, by rw [accessSteps_next hstep, hn, resume_note hq hp]⟩
    | error e s' =>
      refine ⟨1, ?_⟩
      rw [accessSteps_one, accessStep_running hr, opStep_error hq hp, resume, hq, Prog.run, hp]
  | params k ih =>
    rw [after_params] at hq
    exact ih s.par s hr hq

/-- The running operation of a state whose lock is held. -/
theorem running_of_held {s t : State} {c : Nat} (hs : s.CtlInv) (hl : s.ctl.lock = .held c)
    (h : accessStep s = .next t) : s.Running := by
  have hne : s.ctl.lock ≠ .free := by simp [hl]
  have hatt : s.dev = .attached := by
    by_contra hd
    exact hne (hs.2.2.1 hd)
  cases stepWith_cases h with
  | boot hd _ => simp [hd] at hatt
  | request _ _ _ _ hf _ _ => exact absurd hf hne
  | detach _ hf _ _ => exact absurd hf hne
  | passAttach _ _ hf _ _ => exact absurd hf hne
  | running hr _ => exact hr
  | attach _ _ hd _ _ => exact absurd hatt hd
  | idle hf _ => exact absurd ((hf hatt).elim id hs.1.mpr) hne

/-- One step of a running operation: it ends, or goes on by that step and comes to the same end. -/
theorem accessStep_running_cases {s t : State} {c : Nat} (hr : s.Running) (hl : s.ctl.lock = .held c)
    (h : accessStep s = .next t) :
    (t.Rested ∧ step s = .next t) ∨
    (t.ctl.lock = .held c ∧ t.ctl.phase = s.ctl.phase ∧ t.port = s.port ∧ t.res = s.res ∧
      (∃ act k v, s.residual = .act act k ∧ s.GoesOn t act v) ∧ step t = step s) := by
  rw [accessStep_running hr] at h
  rw [step_running hr]
  rcases opStep_cases h with h | ⟨a, k, v, s', hq, hp, rfl, he⟩
  · exact .inl ⟨finish_rested h, h⟩
  · have hs := perform_same hp
    exact .inr ⟨hs.lock.trans hl, hs.phase, hs.port, hs.res, ⟨a, k, v, hq, note_goesOn hq hp⟩,
      (step_running (running_note hr hp _)).trans he⟩

/-! ### An accepted request -/

theorem decode_request (bytes : Vector Byte 18) : decode (.request bytes.toList) =
    decodeOp (reqOpcode bytes.toList) (reqA bytes.toList) (reqX bytes.toList) (reqY bytes.toList) := by
  show decodeRequest _ = _
  rw [decodeRequest, if_pos (by simp)]

/-- An accepted request stands at the first line of its operation's pseudocode (R28). -/
theorem startOp_seq_ok {c : Nat} {bytes : Vector Byte 18} {s : State} {i : Instr}
    (h : decode (.request bytes.toList) = .ok i) :
    ∃ p, i.proc = some p ∧ (startOp (accept c bytes.toList s)).ctl.seq = [⟨p, 1⟩] := by
  rw [decode_request] at h
  obtain ⟨q, hq⟩ := Option.isSome_iff_exists.mp (decodeOp_program h).2
  obtain ⟨p, hp, hfirst⟩ := program_first hq
  refine ⟨p, hp, ?_⟩
  rw [startOp_ctl, OpRegs.program, accept_op]
  simp only [h, hq, Option.getD_some]
  exact hfirst _

/-- One with a reserved opcode has no line. -/
theorem startOp_seq_error {c : Nat} {bytes : Vector Byte 18} {s : State} {e : DecodeError}
    (h : decode (.request bytes.toList) = .error e) : (startOp (accept c bytes.toList s)).ctl.seq = [] := by
  rw [decode_request] at h
  rw [startOp_ctl, OpRegs.program, accept_op]
  simp only [h]
  rfl

section
variable {s : State} {c : Nat} {bytes : Vector Byte 18} {rest : List PortEvent} (hd : s.dev = .attached)
  (hl : s.ctl.lock = .free) (hp : s.port = .request c bytes :: rest)
include hd

theorem startOp_running (hr : ∀ r, rest ≠ .detach :: r) :
    (startOp (accept c bytes.toList { s with port := rest })).Running := ⟨hd, ⟨c, rfl⟩, ⟨_, rfl⟩, hr⟩

include hl hp

theorem accessStep_request : accessStep s = .next (startOp (accept c bytes.toList { s with port := rest })) :=
  stepWith_request hd hl hp

theorem step_request : step s = resume (startOp (accept c bytes.toList { s with port := rest })) :=
  (stepWith_request hd hl hp).trans ((runRequest_accept bytes c _).trans (resume_startOp _).symm)

end

/-! ### Steps enough -/

/-- With the lock free, the two grains differ where a request is next alone. -/
theorem accessStep_eq_step_free {s : State} (hd : s.dev = .attached) (hl : s.ctl.lock = .free)
    (hp : ∀ c bytes rest, s.port ≠ .request c bytes :: rest) : accessStep s = step s := by
  unfold accessStep step stepMachine
  rw [stepWith_free hd hl, stepWith_free hd hl]
  unfold takeArrival
  cases hq : s.port with
  | nil => rfl
  | cons e rest =>
    cases e with
    | request c bytes => exact absurd hq (hp c bytes rest)
    | detach => rfl
    | attach a => rfl

theorem busy_of_held {s : State} {c : Nat} (hs : s.CtlInv) (hl : s.ctl.lock = .held c) :
    ∃ op, s.ctl.phase = .busy op := by
  cases ho : s.ctl.phase with
  | idle => exact absurd (hs.1.mpr ho) (by simp [hl])
  | busy op => exact ⟨op, rfl⟩

/-- Steps enough of one access come to a whole step (R20). -/
theorem accessSteps_step {s : State} (hs : s.CtlInv)
    (hreq : s.ctl.lock = .free → ∀ c bytes rest, s.port ≠ .request c bytes :: .detach :: rest) :
    ∃ n, accessSteps n s = step s := by
  have one : accessStep s = step s → ∃ n, accessSteps n s = step s := fun h => ⟨1, (accessSteps_one s).trans h⟩
  cases hd : s.dev with
  | booting => exact one ((stepWith_booting hd).trans (stepWith_booting hd).symm)
  | bootFailed => exact one ((stepWith_unattached (.inr hd)).trans (stepWith_unattached (.inr hd)).symm)
  | detached => exact one ((stepWith_unattached (.inl hd)).trans (stepWith_unattached (.inl hd)).symm)
  | attached =>
    cases hl : s.ctl.lock with
    | free =>
      by_cases hq : ∃ c bytes rest, s.port = .request c bytes :: rest
      · obtain ⟨c, bytes, rest, hp⟩ := hq
        have hr := startOp_running (c := c) (bytes := bytes) (rest := rest) hd
          fun r e => hreq hl c bytes r (by rw [hp, e])
        obtain ⟨n, hn⟩ := accessSteps_resume _ _ hr (after_after _ _ _).symm
        exact ⟨n + 1, by rw [accessSteps_next (accessStep_request hd hl hp), hn, step_request hd hl hp]⟩
      · exact one (accessStep_eq_step_free hd hl fun c bytes rest e => hq ⟨c, bytes, rest, e⟩)
    | held c =>
      by_cases hp : ∃ rest, s.port = .detach :: rest
      · obtain ⟨rest, hp⟩ := hp
        exact one ((stepWith_refused hd hl hp).trans (stepWith_refused hd hl hp).symm)
      · obtain ⟨op, ho⟩ := busy_of_held hs hl
        have hr : s.Running := ⟨hd, ⟨c, hl⟩, ⟨op, ho⟩, fun rest e => hp ⟨rest, e⟩⟩
        rw [step_running hr]
        exact accessSteps_resume s.residual s hr (after_after _ _ _).symm

end Sys2Proof.Machine

namespace Sys2Proof.Proofs

open Sys2Proof.Machine

/-- Settles O59: what a step leaves of the running program is the rest of it, so both grains come to the same end. -/
theorem accessStepsMakeUpOperations : Obligations.AccessStepsMakeUpOperations := by
  intro s hs hreq
  refine ⟨accessSteps_step hs.1 hreq, fun t h => ⟨accessStep_env h, fun c bytes rest hd hl hp => ?_, fun c hl => ?_⟩⟩
  · have ht := accessStep_request hd hl hp
    rw [h] at ht
    cases ht
    have hr := startOp_running (c := c) (bytes := bytes) (rest := rest) hd fun r e => hreq hl c bytes r (by rw [hp, e])
    exact ⟨rfl, rfl, rfl, rfl, rfl, rfl, fun i hi => startOp_seq_ok hi, fun e he => startOp_seq_error he,
      (step_running hr).trans (step_request hd hl hp).symm⟩
  · rcases accessStep_running_cases (running_of_held hs.1 hl h) hl h with ⟨hr, he⟩ | hgo
    · exact .inl ⟨hr.lock, hr.phase, hr.tod, hr.scratch, hr.seq, he⟩
    · exact .inr hgo

end Sys2Proof.Proofs
end

section
/-! SUPPORT. ADJFINE, the decoded instruction, attach and detach, and reset. -/

namespace Sys2Proof.Machine

/-! ### ADJFINE -/

/-- An N-bit pattern is below 2^N. -/
theorem twos_lt (n : Nat) (v : Int) : twos n v < 2 ^ n := by
  have hpos : (0 : Int) < 2 ^ n := by positivity
  have hlt := Int.emod_lt_of_pos v hpos
  have h0 := Int.emod_nonneg v hpos.ne'
  unfold twos
  zify
  rwa [Int.toNat_of_nonneg h0]

section
variable {a : Byte} {i : Fin 2} {x : BitVec 64} {s t : State} (ha : a.toNat = i.1) (hx : fitsS32 x.toInt = true)
include ha hx

/-- ADJFINE of 0 performs no step that reaches a register (R222). -/
theorem adjfine_run_zero (h0 : x.toInt = 0) : (adjfine a x).run s = .ok {} s := by
  have hi : a.toNat < nDpll := ha ▸ i.2
  unfold adjfine
  rw [run_on_ok (checkIndex_ok hi s), run_on_ok (checkS32_ok hx s), run_mark, if_pos h0]
  rfl

/-- ADJFINE of another offset is one write of its DPLL's register (R222). -/
theorem adjfine_run_write (hne : x.toInt ≠ 0) (hw : writeReg (.dfOffset i) (dcoImage x.toInt) s = .ok () t) :
    (adjfine a x).run s = .ok {} t := by
  have hi : a.toNat < nDpll := ha ▸ i.2
  obtain rfl : i = ⟨a.toNat, hi⟩ := Fin.ext ha.symm
  unfold adjfine
  rw [run_on_ok (checkIndex_ok hi s), run_on_ok (checkS32_ok hx s), run_mark, if_neg hne]
  exact run_on_ok ((store_run _ _ s).trans hw)

end

end Sys2Proof.Machine

namespace Sys2Proof.Proofs

open Sys2Proof.Machine

/-- Settles O36: past its checks ADJFINE is one write of a data register, or none. -/
theorem adjfineWritesOffset : Obligations.AdjfineWritesOffset := by
  intro s a i x ha hlo hhi
  have hx : fitsS32 x.toInt = true := by
    unfold fitsS32
    rw [decide_eq_true hlo, decide_eq_true hhi]
    rfl
  have hexec : exec (.adjfine a x) s = finish ((adjfine a x).run (beginOp Opcode.adjfine s)) := rfl
  refine ⟨fun hne hf => ?_, fun h0 => ?_⟩
  · have hnz : x.toInt ≠ 0 := fun e => hne (BitVec.toInt_inj.mp (by simpa using e))
    have hw := writeReg_data (r := .dfOffset i) (s := beginOp Opcode.adjfine s) (dcoImage x.toInt) rfl
      (by simp [Reg.access]) hf
    rw [hexec, adjfine_run_write ha hx hnz hw]
    refine ⟨_, rfl, rfl, rfl, rfl, rfl, value_setValue _ _ _ (twos_lt 48 _), sameBut_setReg _ _ _ _ fun addr h => ?_⟩
    simpa [inRegs] using h
  · rw [hexec, adjfine_run_zero ha hx (by rw [h0]; rfl)]
    exact ⟨_, rfl, ⟨⟨rfl, rfl, rfl, rfl, rfl, rfl, rfl, rfl, rfl, rfl⟩, rfl⟩, rfl⟩

/-- Settles O4: the step's own case of a request, and of a script line. -/
theorem stepRunsDecodedInstruction : Obligations.StepRunsDecodedInstruction := by
  refine ⟨fun s c bytes rest i hd hl hp hi => ?_, fun s addr b rest i hd hb hi => ?_⟩
  · refine (stepWith_request hd hl hp).trans ?_
    rw [runRequest, hi]
    rfl
  · refine (stepWith_booting hd).trans ?_
    have hc : decodeCtrl addr b = .ok i := hi
    rw [bootStep, hb]
    simp only [bootLine, bootWrite, hc]

/-- Settles O8: a device that is not attached takes an attach alone, and an attached one with its lock free the next
arrival. -/
theorem attachAndDetach : Obligations.AttachAndDetach := by
  refine ⟨fun s a rest hd hp => ?_, fun s rest => ⟨fun hd hp hl => ?_, fun hd hp hl => ?_, fun a hd hp hl => ?_,
    fun c bytes t hd hp h => ?_⟩⟩
  · refine ⟨attach a { s with port := rest }, (stepWith_unattached hd).trans ?_, rfl, rfl, rfl, rfl, ?_, rfl,
      found_attachable a, found_of_attachable, fun addr => get_canon _ _, rfl, rfl, rfl⟩
    · rw [unattachedStep, hp]
    · exact show ∀ i : Fin 2, Ctl.reset.perout.get i = 0 by decide
  · refine (stepWith_free hd hl).trans ?_
    rw [takeArrival, hp]
  · cases hc : s.ctl.lock with
    | free => exact absurd hc hl
    | held c => exact stepWith_refused hd hc hp
  · refine (stepWith_free hd hl).trans ?_
    rw [takeArrival, hp]
  · have hs : step s = .next s.tick := by
      refine (stepWith_unattached hd).trans ?_
      rw [unattachedStep, hp]
      rfl
    rw [h] at hs
    cases hs
    exact ⟨rfl, rfl, rfl, rfl, rfl⟩

/-- Settles O9: reset is `Ctl.reset` with an empty result. -/
theorem resetController : Obligations.ResetController := ⟨rfl, rfl, by decide, rfl⟩

/-- Settles O60: at reset the controller is idle, nothing is pending and no flag is set. -/
theorem resetSatisfiesInvariants : Obligations.ResetSatisfiesInvariants := by
  have hrest : State.reset.Rested := ⟨rfl, rfl, rfl, rfl, rfl⟩
  have hperout : ∀ i : Fin 2, (State.reset.ctl.perout.get i).toNat < 2 ^ 10 := by decide
  refine ⟨⟨ctlInv_of_settled (.inl hrest) (fun _ => rfl) hperout, rfl⟩, ⟨by decide, by decide, by decide⟩, ?_⟩
  exact fun e he => absurd he List.not_mem_nil

end Sys2Proof.Proofs
end

section
/-! SUPPORT. Which register bytes an instruction leaves alone, however it ends and whatever the schedule does. -/

namespace Sys2Proof.Machine

/-! ### Programs -/

/-- Every register byte outside the registers `W` and the responder's area reads as before. -/
structure Framed (W : List Reg) (s t : State) : Prop where
  par : t.par = s.par
  get : ∀ addr, inRegs W addr = false → responderArea s.par addr = false →
    t.asic.regs.get addr = s.asic.regs.get addr

theorem Framed.trans {W : List Reg} {s t u : State} (h : Framed W s t) (h' : Framed W t u) : Framed W s u where
  par := h'.par.trans h.par
  get := fun addr h1 h2 => (h'.get addr h1 (h.par ▸ h2)).trans (h.get addr h1 h2)

theorem Kept.framed {W : List Reg} {s t : State} (h : Kept W s t) : Framed W s t := ⟨h.par, h.get⟩

/-- The program writes only registers of `W`, however it ends; unlike `Uses` it may change a perout mask. -/
def Frames {α : Type} (W : List Reg) (m : Prog α) : Prop := ∀ s, Framed W s (left (m.run s))

section
variable {α β : Type} {W : List Reg} {E : List ErrKind}

theorem Uses.frames {m : Prog α} (h : Uses W E m) : Frames W m := by
  intro s
  have hs := h s trivial
  cases hm : m.run s with
  | ok a t => rw [hm] at hs; exact hs.1.framed
  | error e t =>
    rw [hm] at hs
    cases e with
    | raise e => exact hs.1.framed
    | fault f => exact hs.elim

theorem Frames.bind {m : Prog α} {f : α → Prog β} (hm : Frames W m) (hf : ∀ a, Frames W (f a)) :
    Frames W (letI := Prog.monad; m >>= f) := by
  intro s
  have hs := hm s
  rw [run_bind]
  cases h : m.run s with
  | ok a t => rw [h] at hs; exact hs.trans (hf a t)
  | error e t => rw [h] at hs; exact hs

theorem Frames.on {m : Prog α} {proc : Proc} {n : Nat} (h : Frames W m) : Frames W (m.on proc n) := by
  intro s
  rw [run_on]
  exact h s

theorem Frames.markPair (i : Fin 2) (p : Fin 10) (on : Bool) : Frames W (markPair i p on) :=
  fun _ => ⟨rfl, fun _ _ _ => rfl⟩

end

theorem peroutEnable_frames (a : Byte) (x y : BitVec 64) :
    Frames (Instr.peroutEnable a x y).writes (peroutEnable a x y) := by
  have hraise : ∀ c, Frames (Instr.peroutEnable a x y).writes (raiseIf c .invalidArgument) := fun _ =>
    (Uses.raiseIf (List.mem_singleton_self _)).frames
  have hcheck : Frames (Instr.peroutEnable a x y).writes (checkDpllPair a) :=
    (checkDpllPair_uses a (List.mem_singleton_self _)).frames
  have hsynth : ∀ p, Frames (Instr.peroutEnable a x y).writes (outSynthFreq p) := fun p =>
    (Uses.of_runs (outSynthFreq_runs p) (fun _ h => h) fun _ h => h).frames
  have hret : ∀ r : Reply, Frames (Instr.peroutEnable a x y).writes (Prog.ret r) := fun r =>
    (Uses.ret (E := []) r).frames
  unfold peroutEnable
  refine Frames.bind (Uses.ret (E := []) ()).frames.on fun _ => hcheck.on.bind fun ip => ?_
  refine (hraise _).on.bind fun _ => (hraise _).on.bind fun _ => (hsynth _).on.bind fun _ => ?_
  exact (Frames.markPair ip.1 ip.2 true).on.bind fun _ => (hret _).on

theorem peroutDisable_frames (a : Byte) : Frames (Instr.peroutDisable a).writes (peroutDisable a) := by
  unfold peroutDisable
  refine Frames.bind (Uses.ret (E := []) ()).frames.on fun _ => ?_
  refine (checkDpllPair_uses a (List.mem_singleton_self _)).frames.on.bind fun ip => ?_
  exact (Frames.markPair ip.1 ip.2 false).on.bind fun _ => (Uses.ret (E := []) _).frames.on

/-- Every operation writes only the registers `Instr.writes` names. -/
theorem program_frames {i : Instr} {q : Prog Reply} (h : programOf i = some q) : Frames i.writes q := by
  cases i <;> simp only [programOf, Option.some.injEq, reduceCtorEq] at h <;> subst h
  case todGet a => exact (todGet_uses a).frames
  case todSet a x y => exact (todSet_uses a x y).frames
  case steptime a x => exact (steptime_uses a x).frames
  case adjfine a x => exact (adjfine_uses a x).frames
  case adjphase a x => exact (adjphase_uses a x).frames
  case synthFreqGet a => exact (synthFreqGet_uses a).frames
  case refFreqGet a => exact (refFreqGet_uses a).frames
  case refFreqSet a x => exact (refFreqSet_uses a x).frames
  case outFreqGet a => exact (outFreqGet_uses a).frames
  case outFreqSet a x => exact (outFreqSet_uses a x).frames
  case refPhaseCompGet a => exact (refPhaseCompGet_uses a).frames
  case refPhaseCompSet a x => exact (refPhaseCompSet_uses a x).frames
  case outPhaseCompGet a => exact (outPhaseCompGet_uses a).frames
  case outPhaseCompSet a x => exact (outPhaseCompSet_uses a x).frames
  case pinEnable a => exact (pinMove_uses .pinEnable enableNext a).frames
  case pinDisable a => exact (pinMove_uses .pinDisable disableNext a).frames
  case peroutEnable a x y => exact peroutEnable_frames a x y
  case peroutDisable a => exact peroutDisable_frames a

/-- So does the whole operation, whose beginning and end reach no register. -/
theorem runOperation_framed {W : List Reg} {op : Byte} {q : Prog Reply} {s t : State} (hq : Frames W q)
    (h : runOperation op q s = .next t) : Framed W s t := by
  obtain ⟨c, x, rfl⟩ := finish_next h
  exact ⟨(hq (beginOp op s)).par, (hq (beginOp op s)).get⟩

/-! ### Register-level commands -/

/-- A register-level command is one write of its byte to a control register (R100), and the byte is WRITE_NEXT_1HZ only
where the command is. -/
theorem command_write {i : Instr} (h : i.isOperation = false) :
    ∃ r b, r ∈ i.writes ∧ isControl r = true ∧ (∀ s, exec i s = runCommand r b s) ∧
      ((∀ j, i ≠ .todCmdWriteNext1Hz j) → ∀ j, r = .todCtrl j → b ≠ TodCmd.writeNext1Hz.byte) := by
  cases i <;> simp only [Instr.isOperation, reduceCtorEq] at h
  case mbReqWrite d => exact ⟨.mbSem d, semWrite, by simp [Instr.writes], rfl, fun _ => rfl, by simp⟩
  case mbReqRead d => exact ⟨.mbSem d, semRead, by simp [Instr.writes], rfl, fun _ => rfl, by simp⟩
  case todCmdRead j =>
    exact ⟨.todCtrl j, TodCmd.read.byte, by simp [Instr.writes], rfl, fun _ => rfl, fun _ _ _ => by decide⟩
  case todCmdReadNext1Hz j =>
    exact ⟨.todCtrl j, TodCmd.readNext1Hz.byte, by simp [Instr.writes], rfl, fun _ => rfl, fun _ _ _ => by decide⟩
  case todCmdWriteNext1Hz j =>
    exact ⟨.todCtrl j, TodCmd.writeNext1Hz.byte, by simp [Instr.writes], rfl, fun _ => rfl, fun hn => absurd rfl (hn j)⟩
  case tieCmdWrite => exact ⟨.tieCtrl, tieWriteByte, by simp [Instr.writes], rfl, fun _ => rfl, by simp⟩
  case psCmdWrite d flag => exact ⟨.psCtrl, psCtrlByte d flag, by simp [Instr.writes], rfl, fun _ => rfl, by simp⟩

/-- A command that does not fault ends as its write did, or by the error its write raised. -/
theorem runCommand_next {r : Reg} {b : Byte} {s t : State} (h : runCommand r b s = .next t) :
    writeReg r b.toNat s = .ok () t ∨
    ∃ e u, writeReg r b.toNat s = .error (.raise e) u ∧
      t = if u.dev = .booting then { u with dev := .bootFailed } else raiseReturn e u := by
  unfold runCommand at h
  split at h
  · next hw => cases h; exact .inl hw
  · next e u hw => cases h; exact .inr ⟨e, u, hw, rfl⟩
  · cases h

/-- A write of a register, however it ends, writes that register alone. -/
theorem writeReg_kept {W : List Reg} {r : Reg} (hr : r ∈ W) (v : Nat) (s : State) :
    Kept W s (left (writeReg r v s)) := by
  have hk := access_kept W s
  unfold writeReg memWrite xferWrite land landFailed
  cases s.failure with
  | some f =>
    simp only
    split
    · exact hk
    · next a ha =>
      exact hk.trans ((stored_kept hr (fun c hc => cells_covered r v c (landedCells_mem hc)) ha).pend _)
  | none =>
    simp only
    split
    · exact hk
    · next a ha => exact hk.trans (stored_kept hr (cells_covered r v) ha)

theorem runCommand_framed {W : List Reg} {r : Reg} {b : Byte} {s t : State} (hr : r ∈ W)
    (h : runCommand r b s = .next t) : Framed W s t := by
  have hk := (writeReg_kept hr b.toNat s).framed
  rcases runCommand_next h with hw | ⟨e, u, hw, rfl⟩ <;> rw [hw] at hk
  · exact hk
  · split <;> exact ⟨hk.par, hk.get⟩

end Sys2Proof.Machine

namespace Sys2Proof.Proofs

open Sys2Proof.Machine

/-- Settles O18: an operation is a program that writes only its own registers, a command one write of its own register,
and between the accesses the responder and the clocks stay in their area. -/
theorem registerBytesFrame : Obligations.RegisterBytesFrame := by
  intro i s t h addr hW hR
  have hf : Framed i.writes s t := by
    cases hi : i.isOperation with
    | true =>
      obtain ⟨q, hq⟩ := isOperation_program hi
      obtain ⟨o, _, he⟩ := exec_program hq
      exact runOperation_framed (program_frames hq) ((he s).symm.trans h)
    | false =>
      obtain ⟨r, b, hr, _, he, _⟩ := command_write hi
      exact runCommand_framed hr ((he s).symm.trans h)
  exact hf.get addr hW hR

end Sys2Proof.Proofs
end

section
/-! SUPPORT. Transport accesses of data bytes, at any address of the map and of the Dpll window: what a byte does as it
lands, and what an access leaves that succeeds or fails. -/

namespace Sys2Proof.Machine

/-! ### Byte order -/

/-- The k-th byte of a big-endian image (R68). -/
theorem beBytes_getElem (n v k : Nat) (h : k < (beBytes n v).length) :
    (beBytes n v)[k] = BitVec.ofNat 8 (v / 256 ^ (n - 1 - k)) := by
  induction n generalizing k with
  | zero => exact absurd h (Nat.not_lt_zero k)
  | succ n ih =>
    cases k with
    | zero => rfl
    | succ k =>
      have hk := ih k (by simpa using h)
      rwa [show n - 1 - k = n + 1 - 1 - (k + 1) by omega] at hk

/-! ### One byte -/

/-- No control register stands at the address. -/
def plainAt (addr : Nat) : Prop :=
  ∀ r, regAt addr = some r → (∀ d, r ≠ .mbSem d) ∧ (∀ i, r ≠ .todCtrl i) ∧ r ≠ .tieCtrl ∧ r ≠ .psCtrl

/-- A data byte, one of the Dpll window's among them, is stored (R72, R90). -/
theorem storeByte_plain {p : Params} {addr : Nat} {acc : Access} (hacc : accessAt p addr = some acc) (hro : acc ≠ .ro)
    (hc : plainAt addr) (a : Asic) (b : Byte) : storeByte p a addr b = .ok (a.poke addr b) := by
  unfold accessAt at hacc
  unfold storeByte
  cases hr : regAt addr with
  | none =>
    simp only [hr] at hacc
    by_cases hw : inDpllWin p addr = true
    · exact if_pos hw
    · simp [hw] at hacc
  | some r =>
    obtain ⟨hsem, htod, htie, hps⟩ := hc r hr
    simp only [hr, Option.some.injEq] at hacc
    subst hacc
    cases r with
    | chipId => exact absurd rfl hro
    | mbSem d => exact absurd rfl (hsem d)
    | todCtrl i => exact absurd rfl (htod i)
    | tieCtrl => exact absurd rfl htie
    | psCtrl => exact absurd rfl hps
    | _ => rfl

theorem eq_chipId_of_access_ro {r : Reg} (h : r.access = .ro) : r = .chipId := by
  cases r with
  | chipId => rfl
  | _ => cases h

/-- A byte of CHIP_ID or of no register is ignored (R90; log entry 11). -/
theorem storeByte_ignored {p : Params} {addr : Nat} (h : accessAt p addr = some .ro ∨ accessAt p addr = none) (a : Asic)
    (b : Byte) : storeByte p a addr b = .ok a := by
  unfold accessAt at h
  unfold storeByte
  cases hr : regAt addr with
  | none =>
    simp only [hr] at h
    by_cases hw : inDpllWin p addr = true
    · simp [hw] at h
    · exact if_neg hw
  | some r =>
    simp only [hr, Option.some.injEq, reduceCtorEq, or_false] at h
    rw [eq_chipId_of_access_ro h]

theorem plainAt_of_ignored {p : Params} {addr : Nat} (h : accessAt p addr = some .ro ∨ accessAt p addr = none) :
    plainAt addr := by
  intro r hr
  unfold accessAt at h
  simp only [hr, Option.some.injEq, reduceCtorEq, or_false] at h
  rw [eq_chipId_of_access_ro h]
  simp

/-! ### A triggered TOD write -/

theorem pendCell_plain {c : Host.Cell} (h : plainAt c.1) (a : Asic) (v : Vector (Option Tod) 2) :
    pendCell a v c = v := by
  unfold pendCell
  split
  · next i hr => exact absurd rfl ((h _ hr).2.1 i)
  · rfl

/-- A failed write of data bytes triggers nothing (R66). -/
theorem pendAfter_plain {cells : List Host.Cell} (h : ∀ c ∈ cells, plainAt c.1) (a : Asic) (raised : Bool) :
    a.pendAfter cells raised = a.todPend := by
  have hfold : ∀ v, cells.foldl (pendCell a) v = v := by
    induction cells with
    | nil => exact fun _ => rfl
    | cons c cs ih =>
      intro v
      rw [List.foldl_cons, pendCell_plain (h c (by simp)), ih fun d hd => h d (by simp [hd])]
  unfold Asic.pendAfter
  rw [hfold, ite_self]

/-! ### Reads -/

theorem memRead_ok {s : State} {addr n : Nat} (h : ∀ k < n, accessAt s.par (addr + k) = some .rw)
    (hf : s.failure = none) : memRead addr n s = .ok (beVal (s.tick.asic.regs.bytes addr n)) s.tick := by
  unfold memRead
  rw [seq_bind, xferRead]
  simp only [hf, readsOpen_rw _ _ _ h, readBytes_rw _ _ _ _ h]
  rfl

theorem memRead_failed {s : State} {f : Failure} (hf : s.failure = some f) (addr n : Nat) :
    memRead addr n s = .error (.raise .transport) s.tick := by
  unfold memRead
  rw [seq_bind, xferRead]
  simp only [hf]

/-! ### Writes -/

section
variable {s : State} {addr n : Nat} (hd : dataRange s.par addr n)
include hd

theorem storeByte_dataRange {k : Nat} (hk : k < n) (a : Asic) (b : Byte) :
    storeByte s.par a (addr + k) b = .ok (a.poke (addr + k) b) :=
  storeByte_plain (hd k hk).1 (by decide) (hd k hk).2 a b

/-- A successful write of data bytes stores the value's big-endian image and nothing else (R62, R64, R72). -/
theorem memWrite_ok (hf : s.failure = none) (v : Nat) :
    memWrite addr n v s =
      .ok () { s.tick with asic := { s.tick.asic with regs := s.tick.asic.regs.setBytes addr (beBytes n v) } } := by
  unfold memWrite xferWrite land
  simp only [hf, leBytes_reverse, State.tick_par]
  rw [storeCells_data _ _ _ _ fun k hk => storeByte_dataRange hd (by simpa using hk)]

end

/-- A write that succeeds was not one that fails. -/
theorem failure_none_of_memWrite {s t : State} {addr n v : Nat} (h : memWrite addr n v s = .ok () t) :
    s.failure = none := by
  unfold memWrite xferWrite at h
  cases hf : s.failure with
  | none => rfl
  | some f =>
    simp only [hf, landFailed] at h
    split at h <;> cases h

/-- Of data bytes of which some land, each holds its old or its new value, and nothing else changes (R66). -/
theorem storeCells_landed {p : Params} (addr : Nat) (bs : List Byte) (ls : List Bool) (a : Asic)
    (h : ∀ k < bs.length, ∀ (a : Asic) (b : Byte), storeByte p a (addr + k) b = .ok (a.poke (addr + k) b)) :
    ∃ m, storeCells p a (landedCells (cellsFrom addr bs) ls) = .ok { a with regs := m } ∧
      (∀ k (hk : k < bs.length), m.get (addr + k) = bs[k] ∨ m.get (addr + k) = a.regs.get (addr + k)) ∧
      ∀ x, x < addr ∨ addr + bs.length ≤ x → m.get x = a.regs.get x := by
  induction bs generalizing addr ls a with
  | nil => exact ⟨a.regs, rfl, fun _ _ => .inr rfl, fun _ _ => rfl⟩
  | cons b bs ih =>
    cases ls with
    | nil => exact ⟨a.regs, rfl, fun _ _ => .inr rfl, fun _ _ => rfl⟩
    | cons l ls =>
      have h1 : ∀ k < bs.length, ∀ (a : Asic) (b : Byte),
          storeByte p a (addr + 1 + k) b = .ok (a.poke (addr + 1 + k) b) := fun k hk => by
        have := h (k + 1) (by simpa using hk)
        rwa [show addr + (k + 1) = addr + 1 + k by omega] at this
      have hlen : (b :: bs).length = bs.length + 1 := rfl
      obtain ⟨m₁, hs, h0, hne⟩ : ∃ m₁, storeCells p a (landedCells (cellsFrom addr (b :: bs)) (l :: ls)) =
            storeCells p { a with regs := m₁ } (landedCells (cellsFrom (addr + 1) bs) ls) ∧
          (m₁.get addr = b ∨ m₁.get addr = a.regs.get addr) ∧ ∀ x, addr ≠ x → m₁.get x = a.regs.get x := by
        cases l with
        | false => exact ⟨a.regs, rfl, .inr rfl, fun _ _ => rfl⟩
        | true =>
          have hb : storeByte p a addr b = .ok (a.poke addr b) := h 0 (by simp) a b
          refine ⟨a.regs.set addr b, ?_, .inl (get_set_same _ _ _), fun x hx => get_set_ne _ _ hx⟩
          simp only [cellsFrom, landedCells, if_true, storeCells, hb, Asic.poke]
      obtain ⟨m, hm, hin, hout⟩ := ih (addr + 1) ls { a with regs := m₁ } h1
      refine ⟨m, hs.trans hm, fun k hk => ?_, fun x hx => (hout x (by omega)).trans (hne x (by omega))⟩
      cases k with
      | zero =>
        rw [Nat.add_zero, hout addr (by omega)]
        exact h0
      | succ k =>
        rw [show addr + (k + 1) = addr + 1 + k by omega]
        exact (hin k (by simpa using hk)).imp_right fun e => e.trans (hne _ (by omega))

/-- A failed write of data bytes: `Transport`, and each byte old or new (R66). -/
theorem memWrite_failed {s : State} {addr n : Nat} {f : Failure} (hd : dataRange s.par addr n)
    (hf : s.failure = some f) (v : Nat) :
    ∃ m, memWrite addr n v s =
        .error (.raise .transport) { s.tick with asic := { s.tick.asic with regs := m } } ∧
      (∀ k < n, m.get (addr + k) = BitVec.ofNat 8 (v / 256 ^ (n - 1 - k)) ∨
        m.get (addr + k) = s.tick.asic.regs.get (addr + k)) ∧
      ∀ x, x < addr ∨ addr + n ≤ x → m.get x = s.tick.asic.regs.get x := by
  have hlen := beBytes_length n v
  obtain ⟨m, hm, hin, hout⟩ := storeCells_landed (p := s.par) addr (beBytes n v) f.landed s.tick.asic fun k hk =>
    storeByte_dataRange hd (by simpa using hk)
  have hplain : ∀ c ∈ cellsFrom addr (beBytes n v), plainAt c.1 := fun c hc => by
    have hr := cellsFrom_mem hc
    have hp := (hd (c.1 - addr) (by omega)).2
    rwa [show addr + (c.1 - addr) = c.1 by omega] at hp
  refine ⟨m, ?_, fun k hk => ?_, fun x hx => hout x (by omega)⟩
  · unfold memWrite xferWrite landFailed
    simp only [hf, leBytes_reverse, State.tick_par, hm, pendAfter_plain hplain]
  · have hkl : k < (beBytes n v).length := by omega
    exact beBytes_getElem n v k hkl ▸ hin k hkl

/-! ### Script lines -/

/-- A script line that writes no control byte is one access that stores its byte (R121, R332). -/
theorem bootStep_store {s : State} {addr : BitVec 16} {b : Byte} {rest : List ScriptLine} {a : Asic}
    (hb : s.boot = .write addr b :: rest) (hf : s.failure = none) (hc : plainAt addr.toNat)
    (hs : storeByte s.par s.tick.asic addr.toNat b = .ok a) :
    bootStep s = .next { s.tick with boot := rest, asic := a } := by
  have hdec : decodeCtrl addr b = .error (.notControlRegister addr) := by
    unfold decodeCtrl
    split
    · next d hr => exact absurd rfl ((hc _ hr).1 d)
    · next i hr => exact absurd rfl ((hc _ hr).2.1 i)
    · next hr => exact absurd rfl (hc _ hr).2.2.1
    · next hr => exact absurd rfl (hc _ hr).2.2.2
    · rfl
  have hfail : ({ s with boot := rest } : State).failure = none := hf
  have htick : ({ s with boot := rest } : State).tick = { s.tick with boot := rest } := rfl
  have hcells : cellsFrom addr.toNat [b].reverse = [(addr.toNat, b)] := rfl
  unfold bootStep
  rw [hb]
  simp only [bootLine, bootWrite, hdec, bootStore, xferWrite, hfail, land, hcells, htick, storeCells, State.tick_par, hs]

end Sys2Proof.Machine

namespace Sys2Proof.Proofs

open Sys2Proof.Machine

/-- Settles O7: the line is one access, and its byte is stored or ignored by the access of its address. -/
theorem scriptLineStoresByte : Obligations.ScriptLineStoresByte := by
  intro s addr b rest hd hb hf
  have hstep : step s = bootStep s := stepWith_booting hd
  refine ⟨fun acc hacc hro hc => ?_, fun hign => ?_⟩
  · refine ⟨_, hstep.trans (bootStep_store hb hf hc (storeByte_plain hacc hro hc _ b)), rfl, ?_, fun x hx => ?_⟩
    · exact get_set_same _ _ _
    · exact get_set_ne _ _ hx.symm
  · exact hstep.trans (bootStep_store hb hf (plainAt_of_ignored hign) (storeByte_ignored hign _ b))

/-- Settles O10: the reversed little-endian buffer is the value's big-endian image, and its bytes are stored. -/
theorem writesAreBigEndian : Obligations.WritesAreBigEndian := by
  intro s addr n v hd hf
  have hlen := beBytes_length n v
  refine ⟨_, memWrite_ok hd hf v, rfl, fun k hk => ?_, fun x hx => ?_⟩
  · have hkl : k < (beBytes n v).length := by omega
    exact (get_setBytes_in _ _ _ _ hkl).trans (beBytes_getElem n v k hkl)
  · exact get_setBytes_out _ _ _ _ (by omega)

/-- Settles O11: the bytes read are the big-endian image written, whose value is the value written. -/
theorem readAfterWriteReturnsValue : Obligations.ReadAfterWriteReturnsValue := by
  intro s t u addr n v w hd hv hw hsame hr
  rw [memWrite_ok hd (failure_none_of_memWrite hw) v] at hw
  have hdt : dataRange t.par addr n := by cases hw; exact hd
  have hregs : t.asic.regs = s.tick.asic.regs.setBytes addr (beBytes n v) := by cases hw; rfl
  cases hf : t.failure with
  | some f =>
    rw [memRead_failed hf] at hr
    cases hr
  | none =>
    rw [memRead_ok (fun k hk => (hdt k hk).1) hf] at hr
    cases hr
    rw [State.tick_asic, bytes_congr _ _ addr n hsame, hregs, bytes_setBytes_of_length _ _ _ _ (beBytes_length n v),
      beVal_beBytes_lt n v hv]

/-- Settles O12: a failed read delivers nothing, and a failed write lands some of its bytes. -/
theorem failedAccessIsTransport : Obligations.FailedAccessIsTransport := by
  intro s addr n v f hf
  refine ⟨memRead_failed hf addr n, fun hd => ?_⟩
  obtain ⟨m, hm, hin, hout⟩ := memWrite_failed hd hf v
  exact ⟨_, hm, rfl, hin, hout⟩

end Sys2Proof.Proofs
end

section
/-! SUPPORT. A register-level command whose access fails. -/

namespace Sys2Proof.Machine

/-! ### What one byte triggers -/

/-- A landed byte latches a TOD write exactly where its cell carries one (R173). -/
theorem storeByte_todPend {p : Params} {a a' : Asic} {addr : Nat} {b : Byte} (h : storeByte p a addr b = .ok a') :
    a'.todPend = pendCell a a.todPend (addr, b) := by
  unfold storeByte at h
  unfold pendCell
  cases hr : regAt addr with
  | none =>
    simp only [hr] at h ⊢
    split_ifs at h <;> cases h <;> rfl
  | some r =>
    simp only [hr] at h ⊢
    cases r with
    | mbSem d =>
      simp only [latchSem] at h
      split_ifs at h <;> cases h <;> rfl
    | todCtrl i =>
      simp only [latchTod] at h ⊢
      split_ifs at h with hread hnext hwrite <;> cases h
      · rw [if_neg (by rw [hread]; decide)]; rfl
      · rw [if_neg (by rw [hnext]; decide)]; rfl
      · rw [if_pos hwrite]
    | tieCtrl =>
      simp only [latchTie] at h
      split_ifs at h <;> cases h <;> rfl
    | psCtrl =>
      simp only [latchPs] at h
      split_ifs at h <;> cases h <;> rfl
    | _ => cases h; rfl

/-- No other command byte carries a TOD write. -/
theorem pendCell_of_ne {r : Reg} {b : Byte} (h : ∀ j, r = .todCtrl j → b ≠ TodCmd.writeNext1Hz.byte) (a : Asic)
    (v : Vector (Option Tod) 2) : pendCell a v (r.addr, b) = v := by
  unfold pendCell
  rw [regAt_first]
  simp only
  split
  · next j hj => exact if_neg (h j (Option.some.inj hj))
  · rfl

theorem pendCell_writeNext1Hz (j : Fin 2) (a : Asic) (v : Vector (Option Tod) 2) :
    pendCell a v ((Reg.todCtrl j).addr, TodCmd.writeNext1Hz.byte) = upd v j (some (a.todImage j)) := by
  unfold pendCell
  rw [regAt_first]
  exact if_pos rfl

/-- The nanoseconds a WRITE_NEXT_1HZ latches are bits 47 to 16 of the register (R95, R173). -/
theorem todImage_eq (a : Asic) (i : Fin 2) :
    a.todImage i = ⟨BitVec.ofNat 48 (a.regVal (.todSec i)), BitVec.ofNat 32 (a.regVal (.todNs i) / 65536)⟩ := by
  have hns : BitVec.ofNat 32 (nsOfImage (a.regVal (.todNs i))) = BitVec.ofNat 32 (a.regVal (.todNs i) / 65536) :=
    BitVec.eq_of_toNat_eq (by simp [nsOfImage])
  rw [Asic.todImage, hns]

/-! ### The failed access -/

/-- What of one byte's write has landed after it failed (R66). -/
theorem storeCells_landed_single {p : Params} {a a' : Asic} {c : Host.Cell} {ls : List Bool}
    (h : storeCells p a (landedCells [c] ls) = .ok a') :
    if ls.head? = some true then storeByte p a c.1 c.2 = .ok a' else a' = a := by
  cases ls with
  | nil => cases h; rfl
  | cons l ls =>
    cases l with
    | false => cases ls <;> cases h <;> rfl
    | true =>
      have hl : landedCells [c] (true :: ls) = [c] := by cases ls <;> rfl
      rw [hl, storeCells] at h
      split at h
      · next hb => cases h; exact hb
      · cases h

/-- A command whose access fails, and which does not fault: its byte landed or not, a TOD write it carries was triggered
or not, and the bootstrap is over or the operation port reports `Transport` (R66, R332). -/
structure FailedCommand (r : Reg) (b : Byte) (f : Failure) (s t : State) : Prop where
  asic : ∃ a, (if f.landed.head? = some true then storeByte s.par s.tick.asic r.addr b = .ok a else a = s.tick.asic) ∧
    t.asic = { a with
      todPend := if f.raised then pendCell s.tick.asic s.tick.asic.todPend (r.addr, b) else s.tick.asic.todPend }
  booting : s.dev = .booting → t.dev = .bootFailed ∧ t.res = s.res
  running : s.dev ≠ .booting → t.res = ⟨2, 0, 0⟩ ∧ t.dev = s.dev ∧ t.ctl.lock = .free

theorem runCommand_failed {r : Reg} {b : Byte} {f : Failure} {s t : State} (hw : r.width = 1)
    (hf : s.failure = some f) (h : runCommand r b s = .next t) : FailedCommand r b f s t := by
  have hwrite : writeReg r b.toNat s = landFailed [(r.addr, b)] f s.tick := by
    unfold writeReg memWrite xferWrite
    rw [hw, leBytes_one]
    simp [hf, cellsFrom]
  rcases runCommand_next h with hu | ⟨e, u, hu, rfl⟩ <;> rw [hwrite, landFailed] at hu
  · split at hu <;> cases hu
  · split at hu
    · cases hu
    · next a hs =>
      cases hu
      refine ⟨⟨a, storeCells_landed_single hs, ?_⟩, fun hd => ?_, fun hd => ?_⟩
      · split <;> rfl
      · rw [if_pos (show s.tick.dev = .booting from hd)]
        exact ⟨rfl, rfl⟩
      · rw [if_neg (show ¬s.tick.dev = .booting from hd)]
        exact ⟨rfl, rfl, rfl⟩

/-- Where the access succeeds instead, the command leaves what its byte does. -/
theorem runCommand_ok {r : Reg} {b : Byte} {s : State} {a : Asic} (hw : r.width = 1) (hf : s.failure = none)
    (hs : storeByte s.par s.tick.asic r.addr b = .ok a) : runCommand r b s = .next { s.tick with asic := a } := by
  unfold runCommand
  rw [writeReg_control b hw hf hs]

end Sys2Proof.Machine

namespace Sys2Proof.Proofs

open Sys2Proof.Machine

/-- Settles O33: a command is one byte's write, which lands or not; only WRITE_NEXT_1HZ's request does not follow its
byte. -/
theorem failedCommandIsTransport : Obligations.FailedCommandIsTransport := by
  intro s t i f hi hf h
  refine ⟨fun hn => ?_, ?_, ?_⟩
  · obtain ⟨r, b, _, hc, he, hb⟩ := command_write hi
    have hw := control_width hc
    obtain ⟨⟨a, ha, ht⟩, -, -⟩ := runCommand_failed hw hf ((he s).symm.trans h)
    rw [pendCell_of_ne (hb hn), ite_self] at ht
    split at ha
    · have hpend : a.todPend = s.tick.asic.todPend := (storeByte_todPend ha).trans (pendCell_of_ne (hb hn) _ _)
      rw [← hpend] at ht
      exact .inr ⟨_, (he _).trans (runCommand_ok hw rfl ha), ht⟩
    · subst ha
      exact .inl ht
  · rintro j a rfl rfl
    obtain ⟨⟨a, ha, ht⟩, -, -⟩ := runCommand_failed (r := .todCtrl j) (b := TodCmd.writeNext1Hz.byte) rfl hf h
    rw [pendCell_writeNext1Hz, todImage_eq] at ht
    split at ha
    · next hl =>
      rw [storeByte_todCtrl] at ha
      cases ha
      rw [if_pos hl]
      exact ht
    · next hl =>
      subst ha
      rw [if_neg hl]
      exact ht
  · obtain ⟨r, b, _, hc, he, _⟩ := command_write hi
    have hfc := runCommand_failed (control_width hc) hf ((he s).symm.trans h)
    exact ⟨hfc.booting, hfc.running⟩

end Sys2Proof.Proofs
end

section
/-! SUPPORT. Encoding: the fields of a request and the register a control byte is written to, read back from the words. -/

namespace Sys2Proof.Machine

/-! ### Byte order -/

/-- A value whose low bytes are `bs` has `bs` as its big-endian image, whatever stands above them. -/
theorem beBytes_beVal (bs : List Byte) (v : Nat) : beBytes bs.length (v * 256 ^ bs.length + beVal bs) = bs := by
  induction bs generalizing v with
  | nil => rfl
  | cons b bs ih =>
    have hpos : 0 < 256 ^ bs.length := by positivity
    have hval : v * 256 ^ (bs.length + 1) + (b.toNat * 256 ^ bs.length + beVal bs) =
        (v * 256 + b.toNat) * 256 ^ bs.length + beVal bs := by ring
    have hdiv : ((v * 256 + b.toNat) * 256 ^ bs.length + beVal bs) / 256 ^ bs.length = v * 256 + b.toNat := by
      rw [Nat.add_comm, Nat.add_mul_div_right _ _ hpos, Nat.div_eq_of_lt (beVal_lt bs), Nat.zero_add]
    have hhead : BitVec.ofNat 8 (v * 256 + b.toNat) = b := by
      apply BitVec.eq_of_toNat_eq
      rw [BitVec.toNat_ofNat]
      have := b.isLt
      omega
    rw [List.length_cons, beVal, beBytes, hval, hdiv, hhead, ih]

/-- A big-endian image, byte by byte. -/
theorem beBytes_eq_map (n v : Nat) :
    beBytes n v = (List.range n).map fun k => BitVec.ofNat 8 (v / 256 ^ (n - 1 - k)) := by
  apply List.ext_getElem
  · simp
  · intro k h _
    rw [beBytes_getElem n v k h, List.getElem_map, List.getElem_range]

/-- A 64-bit field read back (R110). -/
theorem field64_beBytes (x : BitVec 64) (bs : List Byte) : field64 (beBytes 8 x.toNat ++ bs) = x := by
  rw [field64, List.take_left' (beBytes_length 8 _), beVal_beBytes_lt 8 _ x.isLt, BitVec.ofNat_toNat, BitVec.setWidth_eq]

/-- The bytes of a 64-bit field (R110). -/
theorem beBytes_field64 {bs : List Byte} (h : bs.length = 8) (tail : List Byte) :
    beBytes 8 (field64 (bs ++ tail)).toNat = bs := by
  have hlt : beVal bs < 2 ^ 64 := by simpa [h] using beVal_lt bs
  have hbytes := beBytes_beVal bs 0
  rw [h, Nat.zero_mul, Nat.zero_add] at hbytes
  rw [field64, List.take_left' h, BitVec.toNat_ofNat, Nat.mod_eq_of_lt hlt, hbytes]

/-! ### Requests (R110) -/

section
variable (op a : Byte) (x y : BitVec 64)

@[simp] theorem reqOpcode_requestBytes : reqOpcode (requestBytes op a x y) = op := rfl

@[simp] theorem reqA_requestBytes : reqA (requestBytes op a x y) = a := rfl

@[simp] theorem reqX_requestBytes : reqX (requestBytes op a x y) = x := field64_beBytes x _

@[simp] theorem reqY_requestBytes : reqY (requestBytes op a x y) = y := by
  have hdrop : (requestBytes op a x y).drop 10 = beBytes 8 y.toNat ++ [] := by
    rw [List.append_nil]
    exact List.drop_left' (beBytes_length 8 _)
  rw [reqY, hdrop, field64_beBytes]

/-- A request decodes to what the table has for its opcode and fields. -/
theorem decode_requestBytes : decode (.request (requestBytes op a x y)) = decodeOp op a x y := by
  show decodeRequest _ = _
  rw [decodeRequest, if_pos (Laws.EncodedForm.length_requestBytes op a x y), reqOpcode_requestBytes, reqA_requestBytes,
    reqX_requestBytes, reqY_requestBytes]

theorem fieldBytes_eq_requestBytes : fieldBytes op a x y = requestBytes op a x y := by
  rw [requestBytes, beBytes_eq_map, beBytes_eq_map]
  rfl

end

/-- Eighteen bytes are the request of their own fields. -/
theorem requestBytes_fields {bs : List Byte} (h : bs.length = 18) :
    requestBytes (reqOpcode bs) (reqA bs) (reqX bs) (reqY bs) = bs := by
  have hx : beBytes 8 (reqX bs).toNat = (bs.drop 2).take 8 := by
    have hb := beBytes_field64 (bs := (bs.drop 2).take 8) (by simp [h]) ((bs.drop 2).drop 8)
    rwa [List.take_append_drop] at hb
  have hy : beBytes 8 (reqY bs).toNat = bs.drop 10 := by
    have hb := beBytes_field64 (bs := bs.drop 10) (by simp [h]) []
    rwa [List.append_nil] at hb
  have hfields : (bs.drop 2).take 8 ++ bs.drop 10 = bs.drop 2 := by
    rw [show bs.drop 10 = (bs.drop 2).drop 8 by rw [List.drop_drop], List.take_append_drop]
  rw [requestBytes, hx, hy, hfields]
  match bs, h with
  | op :: a :: fields, _ => rfl

/-! ### The opcode table (R111) -/

/-- The opcodes of the table. -/
def opcodes : List Byte := (operationsOf 0 0 0).map Prod.fst

theorem map_fst_operationsOf (a : Byte) (x y : BitVec 64) : (operationsOf a x y).map Prod.fst = opcodes := rfl

/-- Which opcodes are listed does not depend on the fields. -/
theorem mem_opcodes_iff {op : Byte} (a : Byte) (x y : BitVec 64) :
    op ∈ opcodes ↔ ∃ i, (op, i) ∈ operationsOf a x y := by
  rw [← map_fst_operationsOf a x y, List.mem_map]
  exact ⟨fun ⟨r, hr, he⟩ => ⟨r.2, he ▸ hr⟩, fun ⟨i, hi⟩ => ⟨_, hi, rfl⟩⟩

theorem mem_opcodes_of_opcode {i : Instr} {op : Byte} (h : i.opcode = some op) : op ∈ opcodes := by
  cases i <;> simp only [Instr.opcode, Option.some.injEq, reduceCtorEq] at h <;> subst h <;> decide

/-- An operation of the table is the one its opcode decodes to. -/
theorem decodeOp_of_mem {op a : Byte} {x y : BitVec 64} {i : Instr} (h : (op, i) ∈ operationsOf a x y) :
    decodeOp op a x y = .ok i := by
  have hrows : ∀ r ∈ operationsOf a x y, decodeOp r.1 a x y = .ok r.2 := by
    simp only [operationsOf, List.forall_mem_cons]
    exact ⟨rfl, rfl, rfl, rfl, rfl, rfl, rfl, rfl, rfl, rfl, rfl, rfl, rfl, rfl, rfl, rfl, rfl, rfl,
      List.forall_mem_nil _⟩
  exact hrows _ h

/-- An opcode the table does not list is reserved (R112). -/
theorem decodeOp_of_not_mem {op : Byte} (h : op ∉ opcodes) (a : Byte) (x y : BitVec 64) :
    decodeOp op a x y = .error (.reservedOpcode op) := by
  unfold decodeOp
  iterate 18 rw [if_neg fun e => h (by rw [e]; decide)]

/-- The words of an operation are a request that decodes to it. -/
theorem encode_operation {i : Instr} (h : i.isOperation = true) :
    ∃ op a x y, encode i = .request (requestBytes op a x y) ∧ decodeOp op a x y = .ok i := by
  cases i <;> simp [Instr.isOperation] at h <;> exact ⟨_, _, _, _, rfl, rfl⟩

/-! ### Control bytes (R100) -/

theorem addr_lt (r : Reg) : r.addr < 2 ^ 16 := by
  have h : ∀ r ∈ Reg.all, r.addr < 2 ^ 16 := by decide
  exact h r (mem_all r)

/-- A byte written to a register's address is written to that register. -/
theorem regAt_ofNat_addr (r : Reg) : regAt (BitVec.ofNat 16 r.addr).toNat = some r := by
  rw [BitVec.toNat_ofNat, Nat.mod_eq_of_lt (addr_lt r), regAt_first]

/-- A byte written to the address of a one-byte register is that register's write. -/
theorem regWrite_eq_ctrlWrite {addr : BitVec 16} {r : Reg} (h : regAt addr.toNat = some r) (hw : r.width = 1) (b : Byte) :
    .regWrite addr b = ctrlWrite r b := by
  rw [ctrlWrite, ← covers_control hw (regAt_covers h), BitVec.ofNat_toNat, BitVec.setWidth_eq]

theorem decode_ctrlWrite (r : Reg) (b : Byte) : decode (ctrlWrite r b) = decodeCtrl (BitVec.ofNat 16 r.addr) b := rfl

section
variable (b : Byte)

theorem decode_mbSem (d : Domain) : decode (ctrlWrite (.mbSem d) b) =
    if b = 0x01 then .ok (.mbReqWrite d)
    else if b = 0x02 then .ok (.mbReqRead d)
    else .error (.noCommand (BitVec.ofNat 16 (Reg.mbSem d).addr) b) := by
  rw [decode_ctrlWrite, decodeCtrl, regAt_ofNat_addr]

theorem decode_todCtrl (i : Fin 2) : decode (ctrlWrite (.todCtrl i) b) =
    if b = 0x11 then .ok (.todCmdRead i)
    else if b = 0x12 then .ok (.todCmdReadNext1Hz i)
    else if b = 0x13 then .ok (.todCmdWriteNext1Hz i)
    else .error (.noCommand (BitVec.ofNat 16 (Reg.todCtrl i).addr) b) := by
  rw [decode_ctrlWrite, decodeCtrl, regAt_ofNat_addr]

theorem decode_tieCtrl : decode (ctrlWrite .tieCtrl b) =
    if b = 0x01 then .ok .tieCmdWrite else .error (.noCommand (BitVec.ofNat 16 Reg.tieCtrl.addr) b) := by
  rw [decode_ctrlWrite, decodeCtrl, regAt_ofNat_addr]

theorem decode_psCtrl : decode (ctrlWrite .psCtrl b) =
    if b &&& 0x07 = 0x01 then .ok (.psCmdWrite (psDpllField b) (b.getLsbD 3))
    else .error (.noCommand (BitVec.ofNat 16 Reg.psCtrl.addr) b) := by
  rw [decode_ctrlWrite, decodeCtrl, regAt_ofNat_addr]

end

/-- The op-code, the DPLL nibble and the TOD flag of a phase-step control byte (R98). -/
theorem psCtrlByte_fields : ∀ (d : BitVec 4) (t : Bool),
    psCtrlByte d t &&& 0x07 = 0x01 ∧ psDpllField (psCtrlByte d t) = d ∧ (psCtrlByte d t).getLsbD 3 = t := by
  decide

/-- A phase-step command byte is made of its fields. -/
theorem psCtrlByte_of_fields :
    ∀ b : Byte, b &&& 0x07 = 0x01 → psCtrlByte (psDpllField b) (b.getLsbD 3) = b := by
  decide +kernel

/-- The words of a command decode to it. -/
theorem decode_encode_command {i : Instr} (h : i.isOperation = false) : decode (encode i) = .ok i := by
  cases i <;> simp only [Instr.isOperation, reduceCtorEq] at h
  case mbReqWrite d => exact decode_mbSem 0x01 d
  case mbReqRead d => exact decode_mbSem 0x02 d
  case todCmdRead j => exact decode_todCtrl 0x11 j
  case todCmdReadNext1Hz j => exact decode_todCtrl 0x12 j
  case todCmdWriteNext1Hz j => exact decode_todCtrl 0x13 j
  case tieCmdWrite => exact decode_tieCtrl 0x01
  case psCmdWrite d t =>
    obtain ⟨hop, hd, ht⟩ := psCtrlByte_fields d t
    rw [encode, decode_psCtrl, if_pos hop, hd, ht]

/-- A register write that is a command is the write of a control register. -/
theorem decode_regWrite_control {addr : BitVec 16} {b : Byte} {i : Instr} (h : decode (.regWrite addr b) = .ok i) :
    ∃ r, isControl r = true ∧ .regWrite addr b = ctrlWrite r b := by
  have hc : decodeCtrl addr b = .ok i := h
  unfold decodeCtrl at hc
  split at hc
  · next d hr => exact ⟨_, rfl, regWrite_eq_ctrlWrite hr rfl b⟩
  · next j hr => exact ⟨_, rfl, regWrite_eq_ctrlWrite hr rfl b⟩
  · next hr => exact ⟨_, rfl, regWrite_eq_ctrlWrite hr rfl b⟩
  · next hr => exact ⟨_, rfl, regWrite_eq_ctrlWrite hr rfl b⟩
  · cases hc

/-- A control byte that is a command is the command's own word. -/
theorem encode_of_decode_ctrlWrite {r : Reg} {b : Byte} {i : Instr} (hc : isControl r = true)
    (h : decode (ctrlWrite r b) = .ok i) : encode i = ctrlWrite r b := by
  cases r <;> simp only [isControl, Bool.false_eq_true] at hc
  case mbSem d =>
    rw [decode_mbSem] at h
    split_ifs at h with hb hb <;> cases h <;> rw [hb] <;> rfl
  case todCtrl j =>
    rw [decode_todCtrl] at h
    split_ifs at h with hb hb hb <;> cases h <;> rw [hb] <;> rfl
  case tieCtrl =>
    rw [decode_tieCtrl] at h
    split_ifs at h with hb
    cases h
    rw [hb]
    rfl
  case psCtrl =>
    rw [decode_psCtrl] at h
    split_ifs at h with hb
    cases h
    rw [encode, psCtrlByte_of_fields b hb]

/-- The one instruction that can name nothing is the phase step (R98; log entry 25). -/
theorem wf_or_psCmdWrite (i : Instr) : i.wf = true ∨ ∃ d t, i = .psCmdWrite d t ∧ 2 ≤ d.toNat := by
  cases i
  case psCmdWrite d t => exact (lt_or_ge d.toNat 2).imp (fun h => decide_eq_true h) fun h => ⟨d, t, rfl, h⟩
  all_goals exact .inl rfl

end Sys2Proof.Machine

namespace Sys2Proof.Proofs

open Sys2Proof.Machine

/-- Settles O2: a request's fields and a control byte's register and fields read back as they were written. -/
theorem decodeInvertsEncode : Obligations.DecodeInvertsEncode := by
  intro i
  cases hi : i.isOperation with
  | false => exact decode_encode_command hi
  | true =>
    obtain ⟨op, a, x, y, he, hd⟩ := encode_operation hi
    rw [he, decode_requestBytes, hd]

/-- Settles O3: a control byte is made of the fields it decodes to, a request of its opcode and fields, and the decoder's
rows are the table's. -/
theorem wordsHaveOneMeaning : Obligations.WordsHaveOneMeaning := by
  refine ⟨fun addr b i h => ⟨?_, wf_or_psCmdWrite i⟩, fun bs hbs => ?_, fun op a x y => ?_⟩
  · obtain ⟨r, hc, hr⟩ := decode_regWrite_control h
    rw [hr] at h ⊢
    exact encode_of_decode_ctrlWrite hc h
  · exact ⟨_, _, _, _, ((fieldBytes_eq_requestBytes _ _ _ _).trans (requestBytes_fields hbs)).symm⟩
  · rw [fieldBytes_eq_requestBytes, decode_requestBytes]
    refine ⟨fun i hi => ?_, fun hnone => ?_, reqOpcode_requestBytes op a x y, reqA_requestBytes op a x y,
      reqX_requestBytes op a x y, reqY_requestBytes op a x y⟩
    · have hd := decodeOp_of_mem hi
      exact ⟨hd, (decodeOp_program hd).1⟩
    · have hop : op ∉ opcodes := fun hm => (mem_opcodes_iff a x y).mp hm |>.elim hnone
      exact ⟨decodeOp_of_not_mem hop a x y, fun i hi => hop (mem_opcodes_of_opcode hi)⟩

/-- Settles O1: the decoder run on each word. -/
theorem knownWordsDecode : Obligations.KnownWordsDecode := by
  unfold Obligations.KnownWordsDecode
  decide

end Sys2Proof.Proofs
end

section
/-! SUPPORT. The register-level commands: the byte stored, and what the responder latches with it. -/

namespace Sys2Proof.Machine

/-! ### Mailbox masks (R92, R140) -/

/-- A mask value fits the 16 bits a request latches. -/
theorem mask_eq {a : Asic} {d : Domain} {m : BitVec 16} (h : m.toNat = a.regVal (.mbMask d)) : a.mask d = m := by
  rw [Asic.mask, ← h, BitVec.ofNat_toNat, BitVec.setWidth_eq]

/-- A read's mask selects exactly one entry. -/
theorem readMaskOk_iff (d : Domain) (m : BitVec 16) :
    readMaskOk d m = true ↔ ∃ k : Fin d.count, m.toNat = 2 ^ k.1 := by
  simp [readMaskOk, oneHot, List.find?_isSome]

/-- A write's mask selects one entry or more, and none beyond the count. -/
theorem writeMaskOk_iff (d : Domain) (m : BitVec 16) :
    writeMaskOk d m = true ↔ m ≠ 0 ∧ m.toNat < 2 ^ d.count := by
  have hz : m.toNat ≠ 0 ↔ m ≠ 0 := not_congr (BitVec.toNat_inj (y := 0))
  rw [writeMaskOk, Bool.and_eq_true, bne_iff_ne, decide_eq_true_iff, hz]

section
variable {a : Asic} {d : Domain} {m : BitVec 16} (hm : m.toNat = a.regVal (.mbMask d))
include hm

theorem latchSem_semRead : latchSem a d semRead =
    if readMaskOk d m then .ok ((a.poke (Reg.mbSem d).addr semRead).setReq d (.read m)) else .error .mailboxMask := by
  rw [latchSem, if_pos rfl, mask_eq hm]

theorem latchSem_semWrite : latchSem a d semWrite =
    if writeMaskOk d m then .ok ((a.poke (Reg.mbSem d).addr semWrite).setReq d (.write m)) else .error .mailboxMask := by
  rw [latchSem, if_neg (by decide), if_pos rfl, mask_eq hm]

end

/-! ### TIE and phase step (R240, R241) -/

/-- The TIE mask is one byte, so that its latch holds all of it. -/
theorem tieImage_m_toNat (a : Asic) : a.tieImage.m.toNat = a.regVal .tieMask := by
  have hlt : a.regVal .tieMask < 2 ^ 8 := value_lt a.regs .tieMask
  exact (BitVec.toNat_ofNat _ _).trans (Nat.mod_eq_of_lt hlt)

theorem tieImage_v_get (a : Asic) (d : Fin 2) : a.tieImage.v.get d =
    if (a.regVal .tieMask).testBit d.1 then some (BitVec.ofNat 48 (a.regVal (.tieData d))) else none := by
  rw [Asic.tieImage, get_eq_getElem, Vector.getElem_ofFn]

/-- The phase-step control byte as a number (R98). -/
theorem psCtrlByte_eq :
    ∀ (d : BitVec 4) (t : Bool), psCtrlByte d t = BitVec.ofNat 8 (16 * d.toNat + (if t then 9 else 1)) := by
  decide

/-- A phase-step command latches the request of its fields. -/
theorem latchPs_command (a : Asic) (d : BitVec 4) (t : Bool) : latchPs a (psCtrlByte d t) =
    .ok { a.poke Reg.psCtrl.addr (psCtrlByte d t) with psPend := some (a.psImage d t) } := by
  obtain ⟨hop, hd, ht⟩ := psCtrlByte_fields d t
  rw [latchPs, if_pos hop, hd, ht]

/-! ### Commands -/

/-- A command whose byte the responder refuses is a fault. -/
theorem runCommand_fault {r : Reg} {b : Byte} {s : State} {f : Fault} (hw : r.width = 1) (hf : s.failure = none)
    (hs : storeByte s.par s.tick.asic r.addr b = .error f) : runCommand r b s = .fault f := by
  rw [runCommand, writeReg_control_fault b hw hf hs]

end Sys2Proof.Machine

namespace Sys2Proof.Proofs

open Sys2Proof.Machine

/-- Settles O30: the command's byte lands, and the responder latches it where the mask means something. -/
theorem mailboxCommandsLatch : Obligations.MailboxCommandsLatch := by
  rintro s d a m hf rfl hm
  have hread := (storeByte_mbSem s.par s.tick.asic d semRead).trans (latchSem_semRead hm)
  have hwrite := (storeByte_mbSem s.par s.tick.asic d semWrite).trans (latchSem_semWrite hm)
  refine ⟨fun h => ?_, fun h => ?_, fun h => ?_, fun h => ?_⟩
  · rw [if_pos ((readMaskOk_iff d m).mpr h)] at hread
    exact runCommand_ok rfl hf hread
  · rw [if_neg fun hok => ((readMaskOk_iff d m).mp hok).elim h] at hread
    exact runCommand_fault rfl hf hread
  · rw [if_pos ((writeMaskOk_iff d m).mpr h)] at hwrite
    exact runCommand_ok rfl hf hwrite
  · rw [if_neg fun hok => h ((writeMaskOk_iff d m).mp hok)] at hwrite
    exact runCommand_fault rfl hf hwrite

/-- Settles O31: each command's byte lands, and only WRITE_NEXT_1HZ latches a time with it. -/
theorem todCommandsLatch : Obligations.TodCommandsLatch := by
  rintro s i a hf rfl
  refine ⟨runCommand_ok rfl hf (storeByte_todCtrl ..), runCommand_ok rfl hf (storeByte_todCtrl ..), ?_⟩
  rw [← todImage_eq]
  exact runCommand_ok rfl hf (storeByte_todCtrl ..)

/-- Settles O32: each command's byte lands and latches the request of the registers and of its own fields. -/
theorem phaseCommandsLatch : Obligations.PhaseCommandsLatch := by
  rintro s a hf rfl
  refine ⟨⟨s.tick.asic.tieImage, runCommand_ok rfl hf (storeByte_tieCtrl ..), tieImage_m_toNat _, tieImage_v_get _⟩,
    fun d flag => ?_⟩
  rw [← psCtrlByte_eq]
  exact runCommand_ok rfl hf ((storeByte_psCtrl ..).trans (latchPs_command _ d flag))

end Sys2Proof.Proofs
end

section
/-! SUPPORT. The operand checks an operation makes before it reaches a register. -/

namespace Sys2Proof.Machine

/-! ### Checks -/

theorem dpllNibble_eq (a : Byte) : dpllNibble a = a.toNat / 16 := by
  have h := a.isLt
  rw [dpllNibble, BitVec.extractLsb'_toNat, Nat.shiftRight_eq_div_pow]
  omega

theorem pairNibble_eq (a : Byte) : pairNibble a = a.toNat % 16 := by
  rw [pairNibble, BitVec.extractLsb'_toNat, Nat.shiftRight_zero]

/-- An index `{dpll, pair}` of which one is out of range (R113). -/
theorem checkDpllPair_bad {a : Byte} (h : ¬(a.toNat / 16 < 2 ∧ a.toNat % 16 < 10)) (s : State) :
    (checkDpllPair a).run s = .error (.raise .invalidArgument) s := by
  rw [← dpllNibble_eq, ← pairNibble_eq] at h
  by_cases hd : dpllNibble a < nDpll
  · have hp : ¬pairNibble a < nPair := fun hp => h ⟨hd, hp⟩
    exact (run_bind_ok (checkIndex_ok hd s)).trans (run_bind_error (checkIndex_bad hp s))
  · exact run_bind_error (checkIndex_bad hd s)

/-- An operand beyond s32 after an index, whether or not the index is in range (R113). -/
theorem checkIndex_checkS32_bad {α : Type} {x : BitVec 64} (hx : fitsS32 x.toInt = false) (n v : Nat) (proc : Proc)
    (j k : Nat) (f : Fin n → Int → Prog α) (s : State) :
    (letI := Prog.monad; (checkIndex n v).on proc j >>= fun i => (checkS32 x).on proc k >>= f i).run s =
      .error (.raise .invalidArgument) s := by
  by_cases hv : v < n
  · exact (run_on_ok (checkIndex_ok hv s)).trans (run_on_error (checkS32_bad hx s))
  · exact run_on_error (checkIndex_bad hv s)

theorem fitsS32_eq_false {v : Int} (h : ¬(-2 ^ 31 ≤ v ∧ v < 2 ^ 31)) : fitsS32 v = false := by
  rw [← Bool.not_eq_true, fitsS32, Bool.and_eq_true, decide_eq_true_iff, decide_eq_true_iff]
  exact h

/-! ### Operations -/

section
variable {i : Instr} {q : Prog Reply} (hq : programOf i = some q)
include hq

/-- An operation whose index is out of range raises `InvalidArgument` at once (R113). -/
theorem program_bad_index (h : i.indexOk = false) (s : State) : q.run s = .error (.raise .invalidArgument) s := by
  cases i <;> simp only [programOf, Option.some.injEq, reduceCtorEq] at hq <;> subst hq
  case peroutEnable a x y =>
    have hbad := checkDpllPair_bad (a := a) (by simpa [Instr.indexOk] using h) s
    exact (run_mark ..).trans (run_on_error hbad)
  case peroutDisable a =>
    have hbad := checkDpllPair_bad (a := a) (by simpa [Instr.indexOk] using h) s
    exact (run_mark ..).trans (run_on_error hbad)
  all_goals exact run_on_error (checkIndex_bad (of_decide_eq_false h) s)

/-- So does one whose operand must fit s32 and does not (R113). -/
theorem program_bad_s32 {x : BitVec 64} (h : i.s32Operand = some x) (hx : fitsS32 x.toInt = false) (s : State) :
    q.run s = .error (.raise .invalidArgument) s := by
  cases i <;> simp only [Instr.s32Operand, Option.some.injEq, reduceCtorEq] at h <;> subst h <;> cases hq <;>
    exact checkIndex_checkS32_bad hx _ _ _ _ _ _ s

/-- An operation that raises an error before any step leaves the state as it was, but for its result. -/
theorem rejects_of_run {e : ErrKind} (h : ∀ s, q.run s = .error (.raise e) s) (s : State) : Rejects i s e := by
  obtain ⟨o, _, he⟩ := exec_program hq
  refine ⟨raiseReturn e (beginOp o s), ?_, ⟨⟨rfl, rfl, rfl, rfl, rfl, rfl, rfl, rfl, rfl, rfl⟩, rfl⟩, rfl⟩
  rw [he, runOperation, h]
  rfl

end

end Sys2Proof.Machine

namespace Sys2Proof.Proofs

open Sys2Proof.Machine

/-- Settles O19: the checks of R113 are an operation's first steps, and none of them is an access. -/
theorem badOperandsReachNoRegister : Obligations.BadOperandsReachNoRegister := by
  intro i s hi hbad
  obtain ⟨q, hq⟩ := isOperation_program hi
  refine rejects_of_run hq ?_ s
  rcases hbad with hindex | ⟨x, hx, hrange⟩
  · exact program_bad_index hq hindex
  · exact program_bad_s32 hq hx (fitsS32_eq_false hrange)

end Sys2Proof.Proofs
end

section
/-! SUPPORT. A request with a reserved opcode, and the script lines of the bootstrap. -/

namespace Sys2Proof.Machine

/-! ### A reserved opcode -/

/-- An opcode no operation has decodes to none (R112). -/
theorem decode_reserved {bytes : Vector Byte 18} (h : ∀ i : Instr, i.opcode ≠ some (reqOpcode bytes.toList)) :
    ∃ e, decode (.request bytes.toList) = .error e := by
  cases hdec : decode (.request bytes.toList) with
  | error e => exact ⟨e, rfl⟩
  | ok i =>
    rw [decode_request] at hdec
    exact absurd (decodeOp_program hdec).1 (h i)

/-- Such a request ends with `InvalidArgument` at once (R112). -/
theorem runRequest_reserved {bytes : Vector Byte 18} (h : ∀ i : Instr, i.opcode ≠ some (reqOpcode bytes.toList))
    (s : State) :
    runRequest bytes.toList s = .next (raiseReturn .invalidArgument (beginOp (reqOpcode bytes.toList) s)) := by
  obtain ⟨e, he⟩ := decode_reserved h
  rw [runRequest, he]
  rfl

/-! ### A script line's access -/

/-- A write raises an error where its access fails, and only there (R66). -/
theorem failure_of_xferWrite_raise {addr : Nat} {buf : List Byte} {s u : State} {e : ErrKind}
    (h : xferWrite addr buf s = .error (.raise e) u) : s.failure ≠ none := by
  intro hf
  unfold xferWrite at h
  simp only [hf, land] at h
  split at h <;> cases h

theorem failure_of_xferWrite_ok {addr : Nat} {buf : List Byte} {s u : State} (h : xferWrite addr buf s = .ok () u) :
    s.failure = none := by
  unfold xferWrite at h
  cases hf : s.failure with
  | none => rfl
  | some f =>
    simp only [hf, landFailed] at h
    split at h <;> cases h

theorem xferWrite_boot (addr : Nat) (buf : List Byte) (s : State) : (left (xferWrite addr buf s)).boot = s.boot := by
  rw [xferWrite_left]
  rfl

theorem xferWrite_dev (addr : Nat) (buf : List Byte) (s : State) : (left (xferWrite addr buf s)).dev = s.dev := by
  rw [xferWrite_left]
  rfl

/-- What a script line's write does to the script and to the device's life: the script is as it was, and the device goes
on booting exactly where the access succeeds (R332, U22). -/
structure LineWritten (s t : State) : Prop where
  boot : t.boot = s.boot
  dev : (s.failure = none ∧ t.dev = .booting) ∨ (s.failure ≠ none ∧ t.dev = .bootFailed)

theorem lineWritten_ok {addr : Nat} {buf : List Byte} {s t : State} (hd : s.dev = .booting)
    (h : xferWrite addr buf s = .ok () t) : LineWritten s t := by
  have hboot := xferWrite_boot addr buf s
  have hdev := xferWrite_dev addr buf s
  rw [h] at hboot hdev
  exact ⟨hboot, .inl ⟨failure_of_xferWrite_ok h, hdev.trans hd⟩⟩

theorem lineWritten_raise {addr : Nat} {buf : List Byte} {s u : State} {e : ErrKind}
    (h : xferWrite addr buf s = .error (.raise e) u) : LineWritten s { u with dev := .bootFailed } := by
  have hboot := xferWrite_boot addr buf s
  rw [h] at hboot
  exact ⟨hboot, .inr ⟨failure_of_xferWrite_raise h, rfl⟩⟩

section
variable {s t : State} (hd : s.dev = .booting)
include hd

theorem runCommand_lineWritten {r : Reg} {b : Byte} (h : runCommand r b s = .next t) : LineWritten s t := by
  rcases runCommand_next h with hw | ⟨e, u, hw, rfl⟩
  · exact lineWritten_ok hd hw
  · have hdev := xferWrite_dev r.addr (leBytes r.width b.toNat) s
    rw [show xferWrite r.addr (leBytes r.width b.toNat) s = .error (.raise e) u from hw] at hdev
    rw [if_pos (show u.dev = .booting from hdev.trans hd)]
    exact lineWritten_raise hw

theorem bootStore_lineWritten {addr : BitVec 16} {b : Byte} (h : bootStore addr b s = .next t) : LineWritten s t := by
  unfold bootStore at h
  split at h
  · next hw => cases h; exact lineWritten_ok hd hw
  · next hw => cases h; exact lineWritten_raise hw
  · cases h

/-- A line that writes a byte is one access, whether the byte is a command or plain data. -/
theorem bootWrite_lineWritten {addr : BitVec 16} {b : Byte} (h : bootWrite addr b s = .next t) : LineWritten s t := by
  unfold bootWrite at h
  split at h
  · next i hi =>
    obtain ⟨r, c, he⟩ := decodeCtrl_command hi
    exact runCommand_lineWritten hd ((he s).symm.trans h)
  · exact bootStore_lineWritten hd h

/-- A step of the bootstrap takes the script's next line, or ends the bootstrap where there is none (R332, R334). -/
inductive BootCase (s t : State) : Prop where
  | done (hb : s.boot = []) (h : t = { s with dev := .attached })
  | write (addr : BitVec 16) (b : Byte) (rest : List ScriptLine) (hb : s.boot = .write addr b :: rest)
      (h : LineWritten { s with boot := rest } t)
  | wait (us : Nat) (rest : List ScriptLine) (hb : s.boot = .wait us :: rest) (h : t = { s.tick with boot := rest })
  | comment (rest : List ScriptLine) (hb : s.boot = .comment :: rest) (h : t = { s with boot := rest })

theorem bootStep_cases (h : bootStep s = .next t) : BootCase s t := by
  unfold bootStep at h
  split at h
  · next hb => cases h; exact .done hb rfl
  · next l rest hb =>
    cases l with
    | write addr b => exact .write addr b rest hb (bootWrite_lineWritten (s := { s with boot := rest }) hd h)
    | wait us => cases h; exact .wait us rest hb rfl
    | comment => cases h; exact .comment rest hb rfl

end

/-- The script after a step is what stood behind the line taken. -/
theorem BootCase.boot {s t : State} (h : BootCase s t) : t.boot = s.boot.tail := by
  cases h with
  | done hb h => rw [h, hb]; rfl
  | write addr b rest hb h => rw [hb]; exact h.boot
  | wait us rest hb h => rw [h, hb]; rfl
  | comment rest hb h => rw [h, hb]; rfl

/-- The device goes on booting after a write exactly where its access succeeds, and else is left unattached (U22). -/
theorem LineWritten.dev_iff {s t : State} (h : LineWritten s t) :
    (t.dev = .booting ↔ s.failure = none) ∧ (t.dev = .bootFailed ↔ s.failure ≠ none) := by
  rcases h.dev with ⟨hf, hd⟩ | ⟨hf, hd⟩ <;> simp [hf, hd]

end Sys2Proof.Machine

namespace Sys2Proof.Proofs

open Sys2Proof.Machine

/-- Settles O5: the request is accepted and its operation raises before any step. -/
theorem reservedOpcodeIsInvalidArgument : Obligations.ReservedOpcodeIsInvalidArgument := by
  intro s c bytes rest hd hl hp hop
  exact ⟨_, (stepWith_request hd hl hp).trans (runRequest_reserved hop _), rfl, rfl, rfl, rfl, rfl, rfl, rfl, rfl, rfl,
    rfl⟩

/-- Settles O6: a step of the bootstrap is one of its cases by the line it takes, and none of them reaches the operation
port or the controller's registers. -/
theorem bootstrapTakesNoRequest : Obligations.BootstrapTakesNoRequest := by
  intro s t hd h
  rw [step, stepMachine, stepWith_booting hd] at h
  have hk := bootStep_booted hd h
  have hcase := bootStep_cases hd h
  refine ⟨hk.port, hk.res, hk.resTo, hk.op, hk.par, ?_, ?_, ?_, hcase.boot, ?_⟩
  · rw [hk.ctl]
  · rw [hk.ctl]
  · rw [hk.ctl]
  · cases hcase with
    | done hb h => simp [hb, h]
    | write addr b rest hb h =>
      have hdev : (t.dev = .booting ↔ s.failure = none) ∧ (t.dev = .bootFailed ↔ s.failure ≠ none) := h.dev_iff
      simpa [hb] using hdev
    | wait us rest hb h => simp [hb, h]
    | comment rest hb h => simp [hb, h]

end Sys2Proof.Proofs
end

section
/-! SUPPORT. Accesses at which nothing moves and none fails, and the polls made of them. -/

namespace Sys2Proof.Machine

section
variable {s : State} (hs : s.env.next.1 = Slot.silent)
include hs

theorem failure_silent : s.failure = none := by rw [State.failure, hs]; rfl

theorem tick_silent : s.tick = { s with env := s.env.next.2 } := by rw [State.tick, hs]; rfl

/-- One sample of a poll (R130). -/
theorem pollClear_silent {r : Reg} (ha : r.access = .rw) (hw : r.width = 1) (mask : Byte) (limit : Nat) :
    (pollClear r mask (limit + 1)).run s =
      if s.asic.ctrlByte r &&& mask = 0 then .ok () { s with env := s.env.next.2 }
      else (pollClear r mask limit).run { s with env := s.env.next.2 } := by
  have hval : s.asic.regVal r = (s.asic.ctrlByte r).toNat := by
    simp [Asic.regVal, Memory.value, hw, Memory.bytes, beVal, Asic.ctrlByte]
  rw [pollClear_succ, readReg_ok ha (failure_silent hs), tick_silent hs]
  simp only [hval, and_toNat_eq_zero]

end

/-- A flag that stays set takes the whole budget of samples (R130). -/
theorem pollClear_exhausts {r : Reg} (ha : r.access = .rw) (hw : r.width = 1) {mask : Byte} (limit : Nat) {sl : Slot}
    (s : State) (hset : s.asic.ctrlByte r &&& mask ≠ 0) (he : s.env = ⟨List.replicate limit Slot.silent, sl⟩) :
    (pollClear r mask limit).run s = .error (.raise .timeout) { s with env := ⟨[], sl⟩ } := by
  induction limit generalizing s with
  | zero => rw [pollClear_zero, ← show s.env = ⟨[], sl⟩ from he]
  | succ limit ih =>
    rw [pollClear_silent (by rw [he]; rfl) ha hw, if_neg hset, ih { s with env := s.env.next.2 } hset (by rw [he]; rfl)]

end Sys2Proof.Machine

namespace Sys2Proof.Proofs

open Sys2Proof.Machine

/-- Settles O13: by induction on the budget, each sample of a set flag taking one slot. -/
theorem pollIsBounded : Obligations.PollIsBounded := by
  intro s r mask limit sl ha hw
  refine ⟨fun hclear he => ?_, fun hset he => pollClear_exhausts ha hw limit s hset he⟩
  rw [pollClear_silent (by rw [he]; rfl) ha hw, if_pos hclear, he]
  rfl

end Sys2Proof.Proofs
end

section
/-! SUPPORT. The mailbox acknowledge, and what the responder's steps and the controller's accesses do to windows and
banks. -/

namespace Sys2Proof.Machine

/-! ### Images and fields (R140) -/

theorem take_drop_append {α : Type} (l : List α) (off n k : Nat) :
    (l.drop off).take n ++ (l.drop (off + n)).take k = (l.drop off).take (n + k) := by
  rw [List.take_add, List.drop_drop]

/-- A field of a window image, written out again. -/
theorem beBytes_fieldAt {w n off : Nat} {bs : List Byte} (hw : 2 ^ w = 256 ^ n) (h : off + n ≤ bs.length) :
    beBytes n (BitVec.ofNat w (fieldAt bs off n)).toNat = (bs.drop off).take n := by
  have hl : ((bs.drop off).take n).length = n := by simp; omega
  have hlt := beVal_lt ((bs.drop off).take n)
  have hb := beBytes_beVal ((bs.drop off).take n) 0
  rw [hl] at hlt
  rw [hl, Nat.zero_mul, Nat.zero_add] at hb
  rw [BitVec.toNat_ofNat, hw, fieldAt, Nat.mod_eq_of_lt hlt, hb]

theorem image_ofImage_ref {bs : List Byte} (h : bs.length = 16) : (RefBank.ofImage bs).image = bs := by
  unfold RefBank.image RefBank.ofImage
  rw [beBytes_fieldAt rfl (by omega), beBytes_fieldAt rfl (by omega), beBytes_fieldAt rfl (by omega),
    beBytes_fieldAt rfl (by omega), beBytes_fieldAt rfl (by omega), take_drop_append bs 0 2 4,
    take_drop_append bs 0 6 2, take_drop_append bs 0 8 2, take_drop_append bs 0 10 6]
  exact List.take_of_length_le h.le

theorem image_ofImage_synth {bs : List Byte} (h : bs.length = 10) : (SynthBank.ofImage bs).image = bs := by
  unfold SynthBank.image SynthBank.ofImage
  rw [beBytes_fieldAt rfl (by omega), beBytes_fieldAt rfl (by omega), beBytes_fieldAt rfl (by omega),
    beBytes_fieldAt rfl (by omega), take_drop_append bs 0 2 4, take_drop_append bs 0 6 2, take_drop_append bs 0 8 2]
  exact List.take_of_length_le h.le

theorem image_ofImage_out {bs : List Byte} (h : bs.length = 14) : (OutBank.ofImage bs).image = bs := by
  unfold OutBank.image OutBank.ofImage
  rw [beBytes_fieldAt rfl (by omega), beBytes_fieldAt rfl (by omega), beBytes_fieldAt rfl (by omega),
    beBytes_fieldAt rfl (by omega), beBytes_fieldAt rfl (by omega), take_drop_append bs 0 1 1,
    take_drop_append bs 0 2 4, take_drop_append bs 0 6 4, take_drop_append bs 0 10 4]
  exact List.take_of_length_le h.le

theorem padTo_of_length {n : Nat} {bs : List Byte} (h : bs.length = n) : padTo n bs = bs := by
  rw [padTo, ← h, List.take_left]

/-! ### Entries committed -/

/-- The bank of a domain is as it was. -/
def Asic.BankKept (a b : Asic) : Domain → Prop
  | .ref => b.bankRef = a.bankRef
  | .dpll => b.bankDpll = a.bankDpll
  | .synth => b.bankSynth = a.bankSynth
  | .out => b.bankOut = a.bankOut

/-- `b` is `a` but for its banks. -/
def Asic.SameButBanks (a b : Asic) : Prop :=
  b = { a with bankRef := b.bankRef, bankDpll := b.bankDpll, bankSynth := b.bankSynth, bankOut := b.bankOut }

section
variable {p : Params} {a b : Asic} {d e : Domain} {m : BitVec 16} {bs : List Byte}

theorem Asic.BankKept.of_eq (h : b.bankRef = a.bankRef ∧ b.bankDpll = a.bankDpll ∧ b.bankSynth = a.bankSynth ∧
    b.bankOut = a.bankOut) (d : Domain) : a.BankKept b d := by
  obtain ⟨href, hdpll, hsynth, hout⟩ := h
  cases d <;> assumption

theorem Asic.BankKept.trans {c : Asic} (h : a.BankKept b d) (h' : b.BankKept c d) : a.BankKept c d := by
  cases d <;> exact Eq.trans h' h

theorem image_of_bankKept (h : a.BankKept b e) (k : Fin e.count) : b.image p e k = a.image p e k := by
  cases e
  case ref => exact congrArg (fun v => (v.get k).image) h
  case dpll => exact congrArg (fun v => padTo p.dpllWinLen.1 (v.get k)) h
  case synth => exact congrArg (fun v => (v.get k).image) h
  case out => exact congrArg (fun v => (v.get k).image) h

theorem image_commit_same (a : Asic) (k : Fin d.count) (h : bs.length = winLen p d) :
    (a.commit d k bs).image p d k = bs := by
  cases d
  case ref => exact (congrArg RefBank.image (upd_get_same ..)).trans (image_ofImage_ref h)
  case dpll => exact (congrArg (padTo _) (upd_get_same ..)).trans (padTo_of_length h)
  case synth => exact (congrArg SynthBank.image (upd_get_same ..)).trans (image_ofImage_synth h)
  case out => exact (congrArg OutBank.image (upd_get_same ..)).trans (image_ofImage_out h)

theorem image_commit_ne (a : Asic) {j k : Fin d.count} (h : j ≠ k) : (a.commit d j bs).image p d k = a.image p d k := by
  cases d
  case ref => exact congrArg RefBank.image (upd_get_ne _ _ h)
  case dpll => exact congrArg (padTo _) (upd_get_ne _ _ h)
  case synth => exact congrArg SynthBank.image (upd_get_ne _ _ h)
  case out => exact congrArg OutBank.image (upd_get_ne _ _ h)

theorem commit_bankKept (a : Asic) (k : Fin d.count) (h : e ≠ d) : a.BankKept (a.commit d k bs) e := by
  cases d <;> cases e
  case ref.ref | dpll.dpll | synth.synth | out.out => exact absurd rfl h
  all_goals rfl

theorem commit_sameButBanks (a : Asic) (k : Fin d.count) : a.SameButBanks (a.commit d k bs) := by cases d <;> rfl

/-- What holds of the ASIC side and is kept by the commit of each selected entry holds after a write's commits. -/
theorem commitMask_induction {P : Asic → Prop} (h0 : P a)
    (hk : ∀ b k, m.getLsbD k.1 = true → P b → P (b.commit d k bs)) : P (a.commitMask d m bs) := by
  refine List.foldlRecOn _ _ h0 fun b hb k _ => ?_
  split
  · next hm => exact hk b k hm hb
  · exact hb

theorem commitMask_bankKept (h : e ≠ d) : a.BankKept (a.commitMask d m bs) e := by
  refine commitMask_induction (P := fun b => a.BankKept b e) (by cases e <;> rfl) fun b k _ hb => ?_
  exact hb.trans (commit_bankKept b k h)

theorem Asic.SameButBanks.trans {c : Asic} (h : a.SameButBanks b) (h' : b.SameButBanks c) : a.SameButBanks c := by
  rw [Asic.SameButBanks, h', h]

theorem commitMask_sameButBanks : a.SameButBanks (a.commitMask d m bs) :=
  commitMask_induction (P := a.SameButBanks) rfl fun b k _ hb => hb.trans (commit_sameButBanks b k)

/-- An entry the mask does not select is as it was. -/
theorem image_commitMask_other {k : Fin d.count} (h : m.getLsbD k.1 = false) :
    (a.commitMask d m bs).image p d k = a.image p d k := by
  refine commitMask_induction (P := fun b => b.image p d k = a.image p d k) rfl fun b j hj hb => ?_
  rw [image_commit_ne b (fun e => by rw [e, h] at hj; exact Bool.false_ne_true hj), hb]

/-- An entry that holds the committed image goes on holding it. -/
theorem image_commit_keeps {k : Fin d.count} (hl : bs.length = winLen p d) (j : Fin d.count)
    (h : a.image p d k = bs) : (a.commit d j bs).image p d k = bs := by
  by_cases hj : j = k
  · rw [hj, image_commit_same a k hl]
  · rw [image_commit_ne a hj, h]

/-- A selected entry holds the committed image. -/
theorem image_commitMask_selected {k : Fin d.count} (hl : bs.length = winLen p d) (h : m.getLsbD k.1 = true) :
    (a.commitMask d m bs).image p d k = bs := by
  unfold Asic.commitMask
  have hmem := List.mem_finRange k
  generalize List.finRange d.count = l at hmem
  induction l generalizing a with
  | nil => cases hmem
  | cons j l ih =>
    rcases List.mem_cons.mp hmem with rfl | hmem
    · rw [List.foldl_cons, if_pos h]
      refine List.foldlRecOn (motive := fun b : Asic => b.image p d k = bs) _ _ (image_commit_same a k hl)
        fun b hb i _ => ?_
      split
      · exact image_commit_keeps hl i hb
      · exact hb
    · exact ih hmem

/-! ### The acknowledge (R140) -/

/-- The ASIC side after the acknowledge of a read of an entry. -/
def Asic.readDone (p : Params) (a : Asic) (d : Domain) (k : Fin d.count) : Asic :=
  ((a.setWindow d (a.image p d k)).clearFlag (.mbSem d) semRead).setReq d .none

/-- The ASIC side after the acknowledge of a write of the entries a mask selects. -/
def Asic.writeDone (p : Params) (a : Asic) (d : Domain) (m : BitVec 16) : Asic :=
  ((a.commitMask d m (a.window p d)).clearFlag (.mbSem d) semWrite).setReq d .none

theorem mbAck_read {k : Fin d.count} (hm : m.toNat = 2 ^ k.1) (h : a.req d = .read m) :
    mbAck p d a = a.readDone p d k := by
  have hone : oneHot d.count m = some k := by
    rw [← oneHot_pow d k, ← hm, BitVec.ofNat_toNat, BitVec.setWidth_eq]
  unfold mbAck
  rw [h]
  simp only [ackRead, hone]
  rfl

theorem mbAck_write (hm : writeMaskOk d m = true) (h : a.req d = .write m) : mbAck p d a = a.writeDone p d m := by
  unfold mbAck
  rw [h]
  exact if_pos hm

/-- What an acknowledge can do. -/
theorem mbAck_cases (p : Params) (d : Domain) (a : Asic) :
    mbAck p d a = a ∨ (∃ m k, a.req d = .read m ∧ mbAck p d a = a.readDone p d k) ∨
    ∃ m, a.req d = .write m ∧ mbAck p d a = a.writeDone p d m := by
  unfold mbAck
  split
  · exact .inl rfl
  · next m hm =>
    unfold ackRead
    split
    · next k _ => exact .inr (.inl ⟨m, k, hm, rfl⟩)
    · exact .inl rfl
  · next m hm =>
    unfold ackWrite
    split
    · exact .inr (.inr ⟨m, hm, rfl⟩)
    · exact .inl rfl

/-! ### Windows -/

theorem winBases_apart {d e : Domain} (h : e ≠ d) :
    d.winBase + winMax d ≤ e.winBase ∨ e.winBase + winMax e ≤ d.winBase := by
  revert h
  cases d <;> cases e <;> decide

/-- A byte at a register outside a domain's window is not in the window. -/
theorem window_set {r : Reg} {v : Byte} (hr : windowOf r ≠ some d) (h : b.regs = a.regs.set r.addr v) :
    b.window p d = a.window p d := by
  have hw := window_apart p hr
  have hpos := width_pos r
  rw [Asic.window, h, bytes_set_out _ _ _ _ _ (by omega)]
  rfl

theorem window_setValue {r : Reg} {v : Nat} (hr : windowOf r ≠ some d) (h : b.regs = a.regs.setValue r v) :
    b.window p d = a.window p d := by
  have hw := window_apart p hr
  rw [Asic.window, h, Memory.setValue, bytes_setBytes_out _ _ _ _ _ (by rw [beBytes_length]; omega)]
  rfl

theorem window_clearFlag (a : Asic) {r : Reg} (m : Byte) (hr : windowOf r ≠ some d) :
    (a.clearFlag r m).window p d = a.window p d := window_set hr rfl

theorem window_of_regs (h : b.regs = a.regs) : b.window p d = a.window p d := by rw [Asic.window, h]; rfl

theorem readDone_window_same (k : Fin d.count) : (a.readDone p d k).window p d = a.image p d k :=
  (window_clearFlag (d := d) _ _ (by simp [windowOf])).trans (bytes_setBytes_of_length _ _ _ _ (image_length p a d k))

theorem readDone_window_ne (k : Fin e.count) (h : e ≠ d) : (a.readDone p e k).window p d = a.window p d := by
  refine (window_clearFlag (d := d) _ _ (by simp [windowOf])).trans (bytes_setBytes_out _ _ _ _ _ ?_)
  have hw := winBases_apart h
  have hd := winLen_le p d
  have he := winLen_le p e
  rw [image_length]
  omega

theorem writeDone_window : (a.writeDone p e m).window p d = a.window p d :=
  (window_clearFlag (d := d) _ _ (by simp [windowOf])).trans (window_of_regs (commitMask_regs ..))

end

/-- The acknowledge of a write changes nothing but register bytes, the domain's request and banks. -/
theorem writeDone_eq (p : Params) (a : Asic) (d : Domain) (m : BitVec 16) : a.writeDone p d m = { a with
    regs := (a.writeDone p d m).regs
    mbReq := (a.writeDone p d m).mbReq
    bankRef := (a.writeDone p d m).bankRef
    bankDpll := (a.writeDone p d m).bankDpll
    bankSynth := (a.writeDone p d m).bankSynth
    bankOut := (a.writeDone p d m).bankOut } := by
  have hc : a.SameButBanks (a.commitMask d m (a.window p d)) := commitMask_sameButBanks
  unfold Asic.writeDone
  rw [hc]
  rfl

theorem req_writeDone_ne {p : Params} {a : Asic} {d e : Domain} {m : BitVec 16} (h : e ≠ d) :
    (a.writeDone p d m).req e = a.req e :=
  (req_setReq_ne _ _ h.symm).trans (congrArg (fun v => v.get e.idx) (commit_fold_pend d m _ _ a).1)

/-! ### Steps of the responder and the clocks (R141) -/

section
variable {p : Params}

/-- Steps of TOD counters change no register byte and no bank. -/
theorem tieFold_banks (l : TieLatch) (ds : List (Fin 2)) (a : Asic) (d : Domain) :
    a.BankKept (ds.foldl (tieStep l) a) d := by
  refine List.foldlRecOn (motive := fun b => a.BankKept b d) _ _ (.of_eq ⟨rfl, rfl, rfl, rfl⟩ d) fun b hb i _ => ?_
  unfold tieStep
  split
  · exact hb.trans (.of_eq ⟨rfl, rfl, rfl, rfl⟩ d)
  · exact hb

theorem psStep_banks (l : PsLatch) (a : Asic) (d : Domain) : a.BankKept (psStep l a) d := by
  unfold psStep
  refine .of_eq ?_ d
  split
  · split <;> exact ⟨rfl, rfl, rfl, rfl⟩
  · exact ⟨rfl, rfl, rfl, rfl⟩

theorem writeDone_bankKept {a : Asic} {d e : Domain} {m : BitVec 16} (h : e ≠ d) : a.BankKept (a.writeDone p d m) e :=
  (commitMask_bankKept h).trans (.of_eq ⟨rfl, rfl, rfl, rfl⟩ e)

/-- A step changes a bank only where it is the acknowledge of a write of its domain, or reprograms a synthesizer while
no Synth request is outstanding (R141). -/
theorem applyMove_bank (mv : Move) (a : Asic) (d : Domain) :
    a.BankKept (applyMove p mv a) d ∨ (mv = .mbAck d ∧ ∃ m, a.req d = .write m) ∨
    (d = .synth ∧ (∃ k b, mv = .reprogram k b) ∧ a.req .synth = .none) := by
  have hkept : ∀ {b : Asic}, b = a → a.BankKept b d := fun h => .of_eq (h ▸ ⟨rfl, rfl, rfl, rfl⟩) d
  cases mv with
  | mbAck e =>
    show a.BankKept (mbAck p e a) d ∨ _
    rcases mbAck_cases p e a with h | ⟨m, k, _, h⟩ | ⟨m, hm, h⟩
    · exact .inl (hkept h)
    · exact .inl (h ▸ .of_eq ⟨rfl, rfl, rfl, rfl⟩ d)
    · by_cases hd : d = e
      · subst hd; exact .inr (.inl ⟨rfl, m, hm⟩)
      · exact .inl (h ▸ writeDone_bankKept hd)
  | todAck i =>
    left
    show a.BankKept (todAck i a) d
    unfold todAck
    split <;> exact .of_eq ⟨rfl, rfl, rfl, rfl⟩ d
  | tieAck =>
    left
    show a.BankKept (tieAck a) d
    unfold tieAck
    split
    · next l _ => exact (tieFold_banks l (List.finRange 2) a d).trans (.of_eq ⟨rfl, rfl, rfl, rfl⟩ d)
    · exact hkept rfl
  | psAck =>
    left
    show a.BankKept (psAck a) d
    unfold psAck
    split
    · next l _ => exact (psStep_banks l a d).trans (.of_eq ⟨rfl, rfl, rfl, rfl⟩ d)
    · exact hkept rfl
  | advance i ns =>
    left
    show a.BankKept (clockAdvance i ns a) d
    unfold clockAdvance
    split <;> exact .of_eq ⟨rfl, rfl, rfl, rfl⟩ d
  | edge i =>
    left
    show a.BankKept (clockEdge i a) d
    unfold clockEdge
    split <;> exact .of_eq ⟨rfl, rfl, rfl, rfl⟩ d
  | reprogram k b =>
    show a.BankKept (reprogram k b a) d ∨ _
    unfold reprogram
    split
    · next hr =>
      by_cases hd : d = .synth
      · exact .inr (.inr ⟨hd, ⟨k, b, rfl⟩, hr⟩)
      · left
        cases d
        case synth => exact absurd rfl hd
        all_goals rfl
    · exact .inl (hkept rfl)

theorem window_latchTime (a : Asic) (i : Fin 2) (sec ns : Nat) (d : Domain) :
    (a.latchTime i sec ns).window p d = a.window p d := by
  have hs : Asic.window p { a with regs := a.regs.setValue (.todSec i) sec } d = a.window p d :=
    window_setValue (by simp [windowOf]) rfl
  refine (window_clearFlag _ _ (by simp [windowOf])).trans (Eq.trans ?_ hs)
  exact window_setValue (by simp [windowOf]) rfl

/-- A step changes a domain's window only where it is the acknowledge of a read of the domain (R141). -/
theorem applyMove_window (mv : Move) (a : Asic) (d : Domain) :
    (applyMove p mv a).window p d = a.window p d ∨ (mv = .mbAck d ∧ ∃ m, a.req d = .read m) := by
  cases mv with
  | mbAck e =>
    show (mbAck p e a).window p d = _ ∨ _
    rcases mbAck_cases p e a with h | ⟨m, k, hm, h⟩ | ⟨m, _, h⟩ <;> rw [h]
    · exact .inl rfl
    · by_cases hd : e = d
      · subst hd; exact .inr ⟨rfl, m, hm⟩
      · exact .inl (readDone_window_ne k hd)
    · exact .inl writeDone_window
  | todAck i =>
    left
    show (todAck i a).window p d = _
    unfold todAck
    split
    · exact window_latchTime ..
    · exact window_latchTime ..
    · rfl
    · rfl
  | tieAck =>
    left
    show (tieAck a).window p d = _
    unfold tieAck
    split
    · exact (window_clearFlag _ _ (by simp [windowOf])).trans (window_of_regs (tieFold_regs ..))
    · rfl
  | psAck =>
    left
    show (psAck a).window p d = _
    unfold psAck
    split
    · exact (window_clearFlag _ _ (by simp [windowOf])).trans (window_of_regs (psStep_regs ..))
    · rfl
  | advance i ns =>
    left
    show (clockAdvance i ns a).window p d = _
    unfold clockAdvance
    split <;> rfl
  | edge i =>
    left
    show (clockEdge i a).window p d = _
    unfold clockEdge
    split
    · exact window_clearFlag _ _ (by simp [windowOf])
    · rfl
  | reprogram k b =>
    left
    show (reprogram k b a).window p d = _
    unfold reprogram
    split <;> rfl

end

/-! ### Accesses (R72) -/

theorem Asic.SameBanks.banks {a b : Asic} (h : a.SameBanks b) :
    b.bankRef = a.bankRef ∧ b.bankDpll = a.bankDpll ∧ b.bankSynth = a.bankSynth ∧ b.bankOut = a.bankOut := by
  rw [h]
  exact ⟨rfl, rfl, rfl, rfl⟩

section
variable {s t : State} {addr n v : Nat}

theorem Seq.Leaves.eq_left {α : Type} {q : Seq α} (h : q.Leaves s t) : t = left (q s) := by
  rcases h with ⟨_, h⟩ | ⟨_, h⟩ <;> rw [h] <;> rfl

/-- A read, however it ends, leaves the ASIC side as the moves at it do, but for the draw counter. -/
theorem memRead_asic (h : (memRead addr n).Leaves s t) : t.asic = { s.tick.asic with draws := t.asic.draws } := by
  rw [h.eq_left, memRead, seq_bind, xferRead]
  cases s.failure with
  | some f => rfl
  | none =>
    show (if readsOpen s.par addr n then _ else s.tick).asic = _
    split <;> rfl

/-- A write, however it ends, leaves the ASIC side with some of its bytes landed, or with none, and perhaps a TOD write
triggered. -/
theorem memWrite_asic (h : (memWrite addr n v).Leaves s t) :
    ∃ a cells, storeCells s.par s.tick.asic cells = .ok a ∧ (∀ c ∈ cells, addr ≤ c.1 ∧ c.1 < addr + n) ∧
      t.asic = { a with todPend := t.asic.todPend } := by
  have hmem : ∀ c ∈ cellsFrom addr (leBytes n v).reverse, addr ≤ c.1 ∧ c.1 < addr + n := fun c hc => by
    simpa using cellsFrom_mem hc
  rw [h.eq_left, memWrite, xferWrite]
  cases s.failure with
  | some f =>
    simp only [landFailed, State.tick_par]
    cases hst : storeCells s.par s.tick.asic (landedCells (cellsFrom addr (leBytes n v).reverse) f.landed) with
    | ok a => exact ⟨a, _, hst, fun c hc => hmem c (landedCells_mem hc), rfl⟩
    | error g => exact ⟨s.tick.asic, [], rfl, by simp, rfl⟩
  | none =>
    simp only [land, State.tick_par]
    cases hst : storeCells s.par s.tick.asic (cellsFrom addr (leBytes n v).reverse) with
    | ok a => exact ⟨a, _, hst, hmem, rfl⟩
    | error g => exact ⟨s.tick.asic, [], rfl, by simp, rfl⟩

end

end Sys2Proof.Machine

namespace Sys2Proof.Proofs

open Sys2Proof.Machine

/-- Settles O27: an acknowledge loads a window or commits entries, and each says what it leaves alone. -/
theorem mailboxAcknowledge : Obligations.MailboxAcknowledge := by
  intro p a d m
  refine ⟨fun k hm hreq => ?_, fun hne hlt hreq => ?_⟩
  · rw [mbAck_read hm hreq]
    refine ⟨readDone_window_same k, ?_, req_setReq_same .., rfl, fun e he => req_setReq_ne _ _ he.symm,
      fun addr hsem hwin => ?_⟩
    · exact (ctrl_clearFlag _ _ _ _ rfl rfl).trans ((if_pos rfl).trans (by rw [ctrl_setWindow p a d k rfl]; rfl))
    · refine (get_set_ne _ _ hsem.symm).trans (get_setBytes_out _ _ _ _ ?_)
      rw [image_length]
      omega
  · rw [mbAck_write ((writeMaskOk_iff d m).mpr ⟨hne, hlt⟩) hreq]
    have hkept : ∀ e, e ≠ d → a.BankKept (a.writeDone p d m) e := fun e he => writeDone_bankKept he
    have himage : ∀ (e : Domain) (k : Fin e.count),
        (a.writeDone p d m).image p e k = (a.commitMask d m (a.window p d)).image p e k :=
      image_congr p rfl rfl rfl rfl
    refine ⟨fun k hk => ?_, fun e k hk => ?_, ?_, req_setReq_same .., writeDone_eq p a d m, fun h => hkept .ref h.symm,
      fun h => hkept .dpll h.symm, fun h => hkept .synth h.symm, fun h => hkept .out h.symm,
      fun e he => req_writeDone_ne he, fun addr hsem => ?_⟩
    · exact (himage d k).trans (image_commitMask_selected (bytes_length ..) hk)
    · by_cases he : e = d
      · subst he
        exact (himage e k).trans (image_commitMask_other (hk rfl))
      · exact image_of_bankKept (hkept e he) k
    · exact (ctrl_clearFlag _ _ _ _ rfl rfl).trans ((if_pos rfl).trans (by rw [ctrl_commitMask]; rfl))
    · refine (get_set_ne _ _ hsem.symm).trans ?_
      rw [commitMask_regs]

/-- Settles O28: a move changes a window or a bank in one case alone, and an access lands its own bytes. -/
theorem bankStability : Obligations.BankStability := by
  refine ⟨fun p mv a => ?_, fun s t addr n v a ha => ?_⟩
  · have hbank := fun d => applyMove_bank (p := p) mv a d
    refine ⟨fun d h => (applyMove_window mv a d).resolve_left h, fun h => ?_, fun h => ?_, fun h => ?_, fun h => ?_,
      fun k b h => if_pos h⟩
    · exact ((hbank .ref).resolve_left h).resolve_right (by simp)
    · exact ((hbank .dpll).resolve_left h).resolve_right (by simp)
    · exact ((hbank .out).resolve_left h).resolve_right (by simp)
    · exact ((hbank .synth).resolve_left h).imp_right And.right
  · subst ha
    refine ⟨memRead_asic, fun h => ?_⟩
    obtain ⟨a, cells, ha, hcells, ht⟩ := memWrite_asic h
    obtain ⟨href, hdpll, hsynth, hout⟩ := (storeCells_banks ha).banks
    rw [ht]
    refine ⟨href, hdpll, hsynth, hout, fun x hx => (storeCells_regs ha).2 x fun c hc => ?_⟩
    have hin := hcells c hc
    omega

end Sys2Proof.Proofs
end

section
/-! SUPPORT. Reads of a data window, whatever their offset and width. -/

namespace Sys2Proof.Machine

theorem accessAt_window_table : ∀ d ∈ allDomains, d ≠ .dpll → ∀ k < winMax d,
    (regAt (d.winBase + k)).map Reg.access = some .rw := by decide +kernel

theorem regAt_dpllWindow_table : ∀ k < winMax .dpll, regAt (dpllWinBase + k) = none := by decide +kernel

/-- Every byte of a data window can be read and written (R90). -/
theorem accessAt_window (p : Params) (d : Domain) {k : Nat} (hk : k < winLen p d) :
    accessAt p (d.winBase + k) = some .rw := by
  have hmax := hk.trans_le (winLen_le p d)
  unfold accessAt
  by_cases hd : d = .dpll
  · subst hd
    have hin : inDpllWin p (dpllWinBase + k) = true := by simpa [inDpllWin, winLen] using hk
    rw [show Domain.dpll.winBase = dpllWinBase from rfl, regAt_dpllWindow_table k hmax]
    exact if_pos hin
  · obtain ⟨r, hr, hrw⟩ := Option.map_eq_some_iff.mp (accessAt_window_table d (mem_allDomains d) hd k hmax)
    rw [hr]
    exact congrArg some hrw

/-- A window field read under the prompt responder is the field of the window (R134). -/
theorem memRead_window {s : State} (he : s.env = Env.prompt) (hq : s.asic.Quiet) (d : Domain) {off n : Nat}
    (h : off + n ≤ winLen s.par d) :
    memRead (d.winBase + off) n s = .ok (fieldAt (s.asic.window s.par d) off n) s := by
  have hrw : ∀ k < n, accessAt s.par (d.winBase + off + k) = some .rw := fun k hk => by
    rw [Nat.add_assoc]
    exact accessAt_window s.par d (by omega)
  rw [memRead_ok hrw (failure_prompt he), access_quiet he hq, State.after_self, fieldAt, Asic.window,
    bytes_drop_take _ _ _ _ _ h]

end Sys2Proof.Machine

namespace Sys2Proof.Proofs

open Sys2Proof.Machine

/-- Settles O29: the read leaves the entry's image in the window, and a field of the window is one of the image. -/
theorem mailboxReadLoadsWindow : Obligations.MailboxReadLoadsWindow := by
  intro s d k ⟨hl, hq, he⟩
  have hwin := loaded_window s.par s.asic d k
  have hquiet := loaded_quiet s.par hq d k
  refine ⟨_, mbRead_prompt hl he hq d k, hwin, loaded_mask s.par s.asic d k, hquiet, rfl, rfl,
    loaded_sameBut s.par s.asic d k, fun off n hoff => ?_⟩
  rw [memRead_window (s := s.after (s.asic.loaded s.par d k)) he hquiet d hoff, State.after_asic, State.after_par, hwin]

end Sys2Proof.Proofs
end

section
/-! SUPPORT. Operations that wait for a responder that never moves (`Env.silent`): each times out at its first wait, its
request still pending. -/

namespace Sys2Proof.Machine

/-! ### Nothing pending -/

theorem Asic.Quiet.clear {a : Asic} (h : a.Quiet) {r : Reg} (hc : isControl r = true) : a.Clear r := by
  obtain ⟨hmailbox, htod, ⟨htie, _⟩, hps, _⟩ := h
  cases r
  case mbSem d => exact (hmailbox d (mem_allDomains d)).1
  case todCtrl i => exact (htod i).1
  case tieCtrl => exact htie
  case psCtrl => exact hps
  all_goals exact absurd hc Bool.false_ne_true

/-- Nothing is pending, and the responder never moves. -/
structure State.Silent (s : State) : Prop where
  wf : s.par.wf = true
  quiet : s.asic.Quiet
  env : s.env = Env.silent

/-! ### One access -/

section
variable {s : State} (he : s.env = Env.silent)
include he

theorem next_slot_silent : s.env.next.1 = Slot.silent := by rw [he]; rfl

theorem env_next_silent : { s with env := s.env.next.2 } = s := by
  rw [show s.env.next.2 = s.env by rw [he]; rfl]

theorem tick_silent_env : s.tick = s := (tick_silent (next_slot_silent he)).trans (env_next_silent he)

theorem silent_write {r : Reg} (v : Nat) (hc : isControl r = false) (ha : r.access ≠ .ro) :
    (store r v).run s = .ok () (s.after (s.asic.setReg r v)) := by
  rw [store_run, writeReg_data v hc ha (failure_silent (next_slot_silent he)), tick_silent_env he]
  rfl

theorem silent_latch {r : Reg} (b : Byte) (hw : r.width = 1) {a : Asic}
    (h : storeByte s.par s.asic r.addr b = .ok a) : (store r b.toNat).run s = .ok () (s.after a) := by
  have hs : storeByte s.par s.tick.asic r.addr b = .ok a := by rw [tick_silent_env he]; exact h
  rw [store_run, writeReg_control b hw (failure_silent (next_slot_silent he)) hs, tick_silent_env he]
  rfl

/-- A flag that is clear is seen at once. -/
theorem silent_poll_clear (hl : s.par.wf = true) {r : Reg} (hr : isControl r = true) (ha : r.access = .rw) {mask : Byte}
    (hc : s.asic.ctrlByte r &&& mask = 0) : (poll r mask).run s = .ok () s := by
  have hval : s.tick.asic.regVal r &&& mask.toNat = 0 := by
    rw [tick_silent_env he, regVal_control _ hr, and_toNat_eq_zero, hc]
  rw [poll_clear ha hl (failure_silent (next_slot_silent he)) hval, tick_silent_env he]

/-- A flag that is set stays set (R130). -/
theorem silent_poll_set {r : Reg} (hr : isControl r = true) (ha : r.access = .rw) {mask : Byte}
    (hset : s.asic.ctrlByte r &&& mask ≠ 0) : (poll r mask).run s = .error (.raise .timeout) s := by
  rw [poll_run]
  induction s.par.mbPollLimit with
  | zero => rfl
  | succ limit ih =>
    rw [pollClear_silent (next_slot_silent he) ha (control_width hr), if_neg hset, env_next_silent he, ih]

end

theorem silent_poll_idle {s : State} (hs : s.Silent) {r : Reg} (hr : isControl r = true) (ha : r.access = .rw)
    {mask : Byte} (hm : flagMask r = mask) : (poll r mask).run s = .ok () s :=
  silent_poll_clear hs.env hs.wf hr ha (hm ▸ hs.quiet.clear hr)

/-! ### Mailbox read (R132, R346) -/

/-- The ASIC side with a read of an entry requested. -/
def Asic.requested (a : Asic) (d : Domain) (k : Fin d.count) : Asic :=
  ((a.setReg (.mbMask d) (2 ^ k.1)).poke (Reg.mbSem d).addr semRead).setReq d (.read (BitVec.ofNat 16 (2 ^ k.1)))

section
variable (a : Asic) (d : Domain) (k : Fin d.count)

theorem regVal_mask_setReg : (a.setReg (.mbMask d) (2 ^ k.1)).regVal (.mbMask d) = 2 ^ k.1 := by
  have hlt : ∀ d : Domain, ∀ k : Fin d.count, 2 ^ k.1 < 256 ^ (Reg.mbMask d).width := by
    intro d
    cases d <;> decide
  exact value_setValue _ _ _ (hlt d k)

theorem storeByte_requested (p : Params) :
    storeByte p (a.setReg (.mbMask d) (2 ^ k.1)) (Reg.mbSem d).addr semRead = .ok (a.requested d k) := by
  have hm : (a.setReg (.mbMask d) (2 ^ k.1)).mask d = BitVec.ofNat 16 (2 ^ k.1) :=
    congrArg (BitVec.ofNat 16) (regVal_mask_setReg a d k)
  rw [storeByte_mbSem, latchSem, if_pos rfl, hm, readMaskOk_pow, if_pos rfl]
  rfl

theorem requested_sem : (a.requested d k).ctrlByte (.mbSem d) = semRead := get_set_same ..

theorem requested_mask : (a.requested d k).regVal (.mbMask d) = 2 ^ k.1 :=
  (value_set_ne (r := .mbMask d) (r' := .mbSem d) _ rfl (by simp) _).trans (regVal_mask_setReg a d k)

theorem requested_sameBut : Asic.SameBut (inRegs [.mbMask d, .mbSem d])
    (a.setReq d (.read (BitVec.ofNat 16 (2 ^ k.1)))) (a.requested d k) := by
  refine ⟨rfl, fun addr h => ?_⟩
  have hmask := not_covers_of_mem (r := .mbMask d) (by simp) h
  have hsem := not_covers_of_mem (r := .mbSem d) (by simp) h
  exact (get_set_ne _ _ (addr_ne_of_not_covers hsem)).trans (get_setValue_out _ _ _ _ hmask)

/-- Where the step count is written first, too (R231). -/
theorem requested_setReg_sameBut (v : Nat) : Asic.SameBut (inRegs [.psCount, .mbMask d, .mbSem d])
    (a.setReq d (.read (BitVec.ofNat 16 (2 ^ k.1)))) ((a.setReg .psCount v).requested d k) := by
  have hcount : Asic.SameBut (inRegs [.psCount, .mbMask d, .mbSem d]) (a.setReq d (.read (BitVec.ofNat 16 (2 ^ k.1))))
      ((a.setReg .psCount v).setReq d (.read (BitVec.ofNat 16 (2 ^ k.1)))) :=
    sameBut_setReg _ _ _ _ fun _ => not_covers_of_mem (by simp)
  exact hcount.trans ((requested_sameBut _ d k).mono fun _ h => (Bool.or_eq_false_iff.mp h).2)

end

section
variable {s : State}

/-- A data register written leaves nothing pending. -/
theorem State.Silent.setReg (hs : s.Silent) {r : Reg} (v : Nat) (hc : isControl r = false) :
    (s.after (s.asic.setReg r v)).Silent := ⟨hs.wf, hs.quiet.setReg v hc, hs.env⟩

variable (hs : s.Silent)
include hs

theorem silent_mbRead (d : Domain) (k : Fin d.count) :
    (mbRead d k.1).run s = .error (.raise .timeout) (s.after (s.asic.requested d k)) := by
  have hset : (s.asic.requested d k).ctrlByte (.mbSem d) &&& semRead ≠ 0 := by rw [requested_sem]; decide
  unfold mbRead
  rw [run_on_ok (silent_poll_idle hs (r := .mbSem d) (mask := semBoth) rfl rfl rfl),
    run_on_ok (silent_write hs.env _ rfl (by simp [Reg.access])),
    run_on_ok (silent_latch (s := s.after (s.asic.setReg (.mbMask d) (2 ^ k.1))) hs.env semRead rfl
      (storeByte_requested s.asic d k s.par))]
  exact (run_on ..).trans (silent_poll_set (s := s.after (s.asic.requested d k)) hs.env rfl rfl hset)

theorem silent_mbWrite (d : Domain) (k : Fin d.count) (fields : List (Reg × Nat)) :
    (mbWrite d k.1 fields).run s = .error (.raise .timeout) (s.after (s.asic.requested d k)) :=
  run_on_error (silent_mbRead hs d k)

theorem silent_outSynthFreq (p : Fin 10) :
    (outSynthFreq p).run s = .error (.raise .timeout) (s.after (s.asic.requested .out p)) :=
  run_on_error (silent_mbRead hs .out p)

end

/-! ### Checks that are passed -/

theorem checkIndex_eq {n v : Nat} (k : Fin n) (h : v = k.1) (s : State) : (checkIndex n v).run s = .ok k s := by
  subst h
  exact checkIndex_ok k.2 s

theorem raiseIf_of_false {c : Bool} (h : c = false) (e : ErrKind) (s : State) : (raiseIf c e).run s = .ok () s := by
  rw [h]
  rfl

theorem checkDpllPair_ok {a : Byte} {i : Fin 2} {q : Fin 10} (h : a.toNat = 16 * i.1 + q.1) (s : State) :
    (checkDpllPair a).run s = .ok (i, q) s := by
  have hi : dpllNibble a = i.1 := by rw [dpllNibble_eq]; omega
  have hq : pairNibble a = q.1 := by rw [pairNibble_eq]; omega
  unfold checkDpllPair
  rw [run_bind_ok (checkIndex_eq (n := nDpll) i hi s), run_bind_ok (checkIndex_eq (n := nPair) q hq s)]
  rfl

theorem fitsS32_of_bounds {v : Int} (hlo : -2 ^ 31 ≤ v) (hhi : v < 2 ^ 31) : fitsS32 v = true := by
  rw [fitsS32, Bool.and_eq_true, decide_eq_true_iff, decide_eq_true_iff]
  exact ⟨hlo, hhi⟩

theorem refEncode_of_nine : ∀ f ∈ nineFrequencies, ∃ q, refEncode f = some q := by
  simp only [← Option.isSome_iff_exists]
  decide

theorem lowestPair_eq {m : BitVec 16} {q : Fin 10} (hq : m.getLsbD q.1 = true)
    (hlow : ∀ r : Fin 10, r < q → m.getLsbD r.1 = false) : lowestPair m = some q := by
  refine List.find?_eq_some_iff_getElem.mpr ⟨hq, q.1, by simp, by simp, fun j hj => ?_⟩
  simpa using hlow ⟨j, by omega⟩ hj

/-- An offset has whole seconds where it is a second or more (R227). -/
theorem split_whole_eq_zero_iff (v : Int) : (split v).1 = 0 ↔ |v| < 1000000000 := by
  have hdiv : (split v).1.natAbs = v.natAbs / 1000000000 := Int.natAbs_tdiv v 1000000000
  rw [Int.abs_eq_natAbs]
  omega

/-! ### Mailbox operations -/

section
variable {s : State} (hs : s.Silent) {a : Byte}
include hs

section
variable {r : Fin 10} (hr : a.toNat = r.1)
include hr

theorem refFreqGet_silent :
    (refFreqGet a).run s = .error (.raise .timeout) (s.after (s.asic.requested .ref r)) :=
  (run_on_ok (checkIndex_eq (n := nRef) r hr s)).trans (run_on_error (silent_mbRead hs .ref r))

theorem refPhaseCompGet_silent :
    (refPhaseCompGet a).run s = .error (.raise .timeout) (s.after (s.asic.requested .ref r)) :=
  (run_on_ok (checkIndex_eq (n := nRef) r hr s)).trans (run_on_error (silent_mbRead hs .ref r))

theorem refFreqSet_silent {x : BitVec 64} (hx : x.toNat ∈ nineFrequencies) :
    (refFreqSet a x).run s = .error (.raise .timeout) (s.after (s.asic.requested .ref r)) := by
  obtain ⟨q, hq⟩ := refEncode_of_nine _ hx
  unfold refFreqSet
  rw [run_on_ok (checkIndex_eq (n := nRef) r hr s), hq, run_on_ok (orRaise_some ..)]
  exact run_on_error (silent_mbWrite hs .ref r q.fields)

theorem refPhaseCompSet_silent {x : BitVec 64} (hlo : -2 ^ 31 < x.toInt) (hhi : x.toInt < 2 ^ 31) :
    (refPhaseCompSet a x).run s = .error (.raise .timeout) (s.after (s.asic.requested .ref r)) := by
  unfold refPhaseCompSet
  rw [run_on_ok (checkIndex_eq (n := nRef) r hr s), run_on_ok (checkS32_ok (fitsS32_of_bounds hlo.le hhi) s),
    run_on_ok (raiseIf_of_false (beq_eq_false_iff_ne.mpr hlo.ne') _ s)]
  exact run_on_error (silent_mbWrite hs .ref r _)

end

theorem synthFreqGet_silent {k : Fin 5} (hk : a.toNat = k.1) :
    (synthFreqGet a).run s = .error (.raise .timeout) (s.after (s.asic.requested .synth k)) :=
  (run_on_ok (checkIndex_eq (n := nSynth) k hk s)).trans (run_on_error (run_on_error (silent_mbRead hs .synth k)))

section
variable {pin : Fin 20} (hpin : a.toNat = pin.1)
include hpin

theorem outPhaseCompGet_silent :
    (outPhaseCompGet a).run s = .error (.raise .timeout) (s.after (s.asic.requested .out (pairOf pin))) :=
  (run_on_ok (checkIndex_eq (n := nOut) pin hpin s)).trans <|
    (run_mark ..).trans (run_on_error (silent_outSynthFreq hs (pairOf pin)))

theorem outPhaseCompSet_silent {x : BitVec 64} (hlo : -2 ^ 31 ≤ x.toInt) (hhi : x.toInt < 2 ^ 31) :
    (outPhaseCompSet a x).run s = .error (.raise .timeout) (s.after (s.asic.requested .out (pairOf pin))) := by
  unfold outPhaseCompSet
  rw [run_on_ok (checkIndex_eq (n := nOut) pin hpin s), run_on_ok (checkS32_ok (fitsS32_of_bounds hlo hhi) s), run_mark]
  exact run_on_error (silent_outSynthFreq hs (pairOf pin))

theorem pinMove_silent (proc : Proc) (next : EnableState → Half → EnableState) :
    (pinMove proc next a).run s = .error (.raise .timeout) (s.after (s.asic.requested .out (pairOf pin))) :=
  (run_on_ok (checkIndex_eq (n := nOut) pin hpin s)).trans <|
    (run_mark ..).trans (run_on_error (silent_mbRead hs .out (pairOf pin)))

theorem outFreqGet_silent (hfix : s.par.pinFixedRatio pin = false) :
    (outFreqGet a).run s = .error (.raise .timeout) (s.after (s.asic.requested .out (pairOf pin))) := by
  unfold outFreqGet
  rw [run_on_ok (checkIndex_eq (n := nOut) pin hpin s), run_bind_ok (params_run s),
    run_on_ok (raiseIf_of_false hfix _ s)]
  exact run_on_error (silent_outSynthFreq hs (pairOf pin))

theorem outFreqSet_silent (hfix : s.par.pinFixedRatio pin = false) {x : BitVec 64} (hx : x ≠ 0) :
    (outFreqSet a x).run s = .error (.raise .timeout) (s.after (s.asic.requested .out (pairOf pin))) := by
  have hx0 : (x.toNat == 0) = false := beq_eq_false_iff_ne.mpr fun h => hx (BitVec.eq_of_toNat_eq h)
  unfold outFreqSet
  rw [run_on_ok (checkIndex_eq (n := nOut) pin hpin s), run_bind_ok (params_run s),
    run_on_ok (raiseIf_of_false hfix _ s), run_on_ok (raiseIf_of_false hx0 _ s), run_mark]
  exact run_on_error (silent_outSynthFreq hs (pairOf pin))

end

theorem peroutEnable_silent {i : Fin 2} {q : Fin 10} {x y : BitVec 64} (ha : a.toNat = 16 * i.1 + q.1)
    (hx : x.toInt = 1000000000) (hy : (1000000000 : Int) ∣ y.toInt) :
    (peroutEnable a x y).run s = .error (.raise .timeout) (s.after (s.asic.requested .out q)) := by
  have hx0 : (x.toInt != nsPerS) = false := by rw [hx]; rfl
  have hy0 : (trem y.toInt nsPerS != 0) = false := bne_eq_false_iff_eq.mpr (Int.tmod_eq_zero_of_dvd hy)
  unfold peroutEnable
  rw [run_mark, run_on_ok (checkDpllPair_ok ha s), run_on_ok (raiseIf_of_false hx0 _ s),
    run_on_ok (raiseIf_of_false hy0 _ s)]
  exact run_on_error (silent_outSynthFreq hs q)

end

/-! ### Time of day and phase step -/

theorem storeByte_todRead (p : Params) (a : Asic) (i : Fin 2) {cmd : TodCmd} (h : cmd ≠ .writeNext1Hz) :
    storeByte p a (Reg.todCtrl i).addr cmd.byte = .ok (a.poke (Reg.todCtrl i).addr cmd.byte) := by
  rw [storeByte_todCtrl]
  cases cmd with
  | read => rfl
  | readNext1Hz => rfl
  | writeNext1Hz => exact absurd rfl h

theorem poke_sameBut (a : Asic) {r : Reg} {rs : List Reg} (hr : r ∈ rs) (v : Byte) :
    Asic.SameBut (inRegs rs) a (a.poke r.addr v) :=
  ⟨rfl, fun _ h => get_set_ne _ _ (addr_ne_of_not_covers (not_covers_of_mem hr h))⟩

section
variable {s : State} (hs : s.Silent) {a : Byte} {i : Fin 2}

/-- STEPTIME up to its choice between whole seconds and the phase step (R233). -/
theorem steptime_run {x : BitVec 64} (hi : a.toNat = i.1) (hm : s.ctl.perout.get i ≠ 0) :
    (steptime a x).run s = (letI := Prog.monad; stepSeconds i (split x.toInt).1 >>= fun _ =>
      (phaseStep i (split x.toInt).2).on .steptime 10 >>= fun _ => (Prog.ret {}).on .steptime 11).run s := by
  unfold steptime
  rw [run_on_ok (checkIndex_eq (n := nDpll) i hi s), run_on_ok (perout_run i s),
    run_bind_ok (raiseIf_of_false (beq_eq_false_iff_ne.mpr hm) _ s), run_mark, run_mark]

include hs

theorem todRead_silent {cmd : TodCmd} (h : cmd ≠ .writeNext1Hz) :
    (todRead i cmd).run s = .error (.raise .timeout) (s.after (s.asic.poke (Reg.todCtrl i).addr cmd.byte)) := by
  have hset : (s.asic.poke (Reg.todCtrl i).addr cmd.byte).ctrlByte (.todCtrl i) &&& todSem ≠ 0 := by
    have hbyte : (s.asic.poke (Reg.todCtrl i).addr cmd.byte).ctrlByte (.todCtrl i) = cmd.byte := get_set_same ..
    rw [hbyte]
    cases cmd <;> decide
  unfold todRead
  rw [run_on_ok (silent_poll_idle hs (r := .todCtrl i) (mask := todSem) rfl rfl rfl),
    run_on_ok (silent_latch hs.env cmd.byte rfl (storeByte_todRead s.par s.asic i h))]
  exact run_on_error (silent_poll_set (s := s.after (s.asic.poke (Reg.todCtrl i).addr cmd.byte)) hs.env rfl rfl hset)

theorem todGet_silent (hi : a.toNat = i.1) :
    (todGet a).run s = .error (.raise .timeout) (s.after (s.asic.poke (Reg.todCtrl i).addr 0x11)) :=
  (run_on_ok (checkIndex_eq (n := nDpll) i hi s)).trans (run_on_error (todRead_silent hs (cmd := .read) (by decide)))

theorem steptime_whole_silent {x : BitVec 64} (hi : a.toNat = i.1) (hm : s.ctl.perout.get i ≠ 0)
    (hx : (split x.toInt).1 ≠ 0) :
    (steptime a x).run s = .error (.raise .timeout) (s.after (s.asic.poke (Reg.todCtrl i).addr 0x12)) := by
  rw [steptime_run hi hm, stepSeconds, if_neg hx]
  exact run_bind_error (run_on_error (run_on_error (todRead_silent hs (cmd := .readNext1Hz) (by decide))))

/-- The phase step's first mailbox read times out after the step count is written (R231). -/
theorem phaseStep_silent {q : Fin 10} (hq : lowestPair (s.ctl.perout.get i) = some q) (rem : Int) :
    (phaseStep i rem).run s =
      .error (.raise .timeout) (s.after ((s.asic.setReg .psCount 1).requested .out q)) := by
  unfold phaseStep
  rw [run_on_ok (silent_poll_idle hs (r := .psCtrl) (mask := psOp) rfl rfl rfl),
    run_on_ok (silent_write hs.env 1 rfl (by decide)), run_on_ok (perout_run i _), State.after_ctl, hq,
    run_bind_ok (orRaise_some ..)]
  exact run_on_error (silent_outSynthFreq (hs.setReg 1 rfl) q)

theorem steptime_phase_silent {x : BitVec 64} {q : Fin 10} (hi : a.toNat = i.1) (hm : s.ctl.perout.get i ≠ 0)
    (hx : (split x.toInt).1 = 0) (hq : lowestPair (s.ctl.perout.get i) = some q) :
    (steptime a x).run s =
      .error (.raise .timeout) (s.after ((s.asic.setReg .psCount 1).requested .out q)) := by
  rw [steptime_run hi hm, stepSeconds, if_pos hx, run_bind_ok (run_ret () s)]
  exact run_on_error (phaseStep_silent hs hq _)

end

/-! ### TIE write (R226, R240) -/

/-- The ASIC side with the mask and the data of a TIE write of one DPLL in their registers. -/
def Asic.tieLoaded (a : Asic) (i : Fin 2) (delta : Int) : Asic :=
  (a.setReg .tieMask (2 ^ i.1)).setReg (.tieData i) (Machine.tieImage delta)

/-- The ASIC side with a TIE write of one DPLL requested. -/
def Asic.tieRequested (a : Asic) (i : Fin 2) (delta : Int) : Asic :=
  { a with
    regs := (a.tieLoaded i delta).regs.set Reg.tieCtrl.addr tieWriteByte
    tiePend := some (a.tieLoaded i delta).tieImage }

section
variable (a : Asic) (i : Fin 2) (delta : Int)

theorem storeByte_tieRequested (p : Params) :
    storeByte p (a.tieLoaded i delta) Reg.tieCtrl.addr tieWriteByte = .ok (a.tieRequested i delta) := by
  rw [storeByte_tieCtrl]
  rfl

theorem tieRequested_regs :
    (a.tieRequested i delta).regs = (a.tieLoaded i delta).regs.set Reg.tieCtrl.addr tieWriteByte := rfl

theorem tieRequested_ctrl : (a.tieRequested i delta).ctrlByte .tieCtrl = tieWriteByte := by
  rw [Asic.ctrlByte, tieRequested_regs, get_set_same]

theorem tieRequested_sameBut : Asic.SameBut (inRegs [.tieCtrl, .tieMask, .tieData i])
    { a with tiePend := some (a.tieLoaded i delta).tieImage } (a.tieRequested i delta) := by
  refine ⟨rfl, fun addr h => ?_⟩
  rw [tieRequested_regs, get_set_ne _ _ (addr_ne_of_not_covers (not_covers_of_mem (r := .tieCtrl) (by simp) h))]
  refine (get_setValue_out _ _ _ _ (not_covers_of_mem (r := .tieData i) (by simp) h)).trans ?_
  exact get_setValue_out _ _ _ _ (not_covers_of_mem (r := .tieMask) (by simp) h)

theorem ofNat_twos (n : Nat) (v : Int) : BitVec.ofNat n (twos n v) = BitVec.ofInt n v := by
  apply BitVec.eq_of_toNat_eq
  rw [BitVec.toNat_ofNat, Nat.mod_eq_of_lt (twos_lt n v), BitVec.toNat_ofInt, twos]
  norm_cast

/-- The TIE latch holds the units of the DPLL stepped, and nothing of the other (R240). -/
theorem tieLoaded_latch (d : Fin 2) : (a.tieLoaded i delta).tieImage.v.get d =
    if d = i then some (BitVec.ofInt 48 (tieUnits delta)) else none := by
  have hmask : (a.tieLoaded i delta).regVal .tieMask = 2 ^ i.1 := by
    refine (value_setValue_ne _ _ (by simp)).trans (value_setValue _ _ _ ?_)
    revert i
    decide
  have hdata : (a.tieLoaded i delta).regVal (.tieData i) = Machine.tieImage delta :=
    value_setValue _ _ _ (twos_lt 48 _)
  rw [tieImage_v_get, hmask, Nat.testBit_two_pow]
  by_cases hd : d = i
  · subst hd
    rw [if_pos rfl, hdata]
    simpa [Machine.tieImage] using ofNat_twos 48 (tieUnits delta)
  · simp [hd, Fin.val_inj, Ne.symm hd]

end

theorem adjphase_silent {s : State} (hs : s.Silent) {a : Byte} {i : Fin 2} {x : BitVec 64} (hi : a.toNat = i.1)
    (hlo : -2 ^ 31 ≤ x.toInt) (hhi : x.toInt < 2 ^ 31) :
    (adjphase a x).run s = .error (.raise .timeout) (s.after (s.asic.tieRequested i x.toInt)) := by
  have hset : (s.asic.tieRequested i x.toInt).ctrlByte .tieCtrl &&& tieOp ≠ 0 := by
    rw [tieRequested_ctrl]
    decide
  unfold adjphase
  rw [run_on_ok (checkIndex_eq (n := nDpll) i hi s), run_on_ok (checkS32_ok (fitsS32_of_bounds hlo hhi) s), run_mark,
    run_on_ok (silent_poll_idle hs (r := .tieCtrl) (mask := tieOp) rfl rfl rfl),
    run_on_ok (silent_write hs.env _ rfl (by decide)),
    run_on_ok (silent_write (s := s.after (s.asic.setReg .tieMask (2 ^ i.1))) hs.env _ rfl (by simp [Reg.access])),
    State.after_after, State.after_asic, ← Asic.tieLoaded,
    run_on_ok (silent_latch (s := s.after (s.asic.tieLoaded i x.toInt)) hs.env tieWriteByte rfl
      (storeByte_tieRequested s.asic i x.toInt s.par))]
  exact run_on_error (silent_poll_set (s := s.after (s.asic.tieRequested i x.toInt)) hs.env rfl rfl hset)

/-! ### Operations -/

section
variable {i : Instr} {q : Prog Reply} (hq : programOf i = some q) {s : State}
include hq

/-- An operation whose program times out ends with `Timeout`, and what its accesses left stays. -/
theorem timesOut_of_run {a : Asic}
    (h : ∀ o, q.run (beginOp o s) = .error (.raise .timeout) ((beginOp o s).after a)) :
    ∃ t, exec i s = .next t ∧ s.Finished t 1 0 0 ∧ t.asic = a := by
  obtain ⟨o, _, he⟩ := exec_program hq
  refine ⟨raiseReturn .timeout ((beginOp o s).after a), ?_, ⟨⟨rfl, rfl, rfl, rfl, rfl, rfl, rfl, rfl, rfl, rfl⟩, rfl⟩,
    rfl⟩
  rw [he, runOperation, h]
  rfl

theorem mailboxTimesOut_of_run {d : Domain} {k : Fin d.count}
    (h : ∀ o, q.run (beginOp o s) = .error (.raise .timeout) ((beginOp o s).after (s.asic.requested d k))) :
    s.MailboxTimesOut i d k := by
  obtain ⟨t, ht, hfin, ha⟩ := timesOut_of_run hq h
  exact ⟨t, ht, hfin, ha ▸ requested_sem s.asic d k, ha ▸ requested_mask s.asic d k,
    ha ▸ requested_sameBut s.asic d k⟩

end

end Sys2Proof.Machine
end

section
/-! SUPPORT. Operations under a responder that acknowledges within the poll budget (R142): none ends with `Timeout`, but
for a STEPTIME of whole seconds. -/

namespace Sys2Proof.Machine

/-! ### Programs -/

/-- The program does not end with `Timeout` where no flag is set and the responder acknowledges in time. -/
abbrev EndsInTime {α : Type} (q : Prog α) : Prop := Timely Idle q fun _ => True

theorem Timely.done {α : Type} {P : State → Prop} (v : α) : Timely P (Prog.ret v) fun _ => True := fun _ _ => trivial

section
variable {a : Byte} {x y : BitVec 64}

theorem todGet_timely : EndsInTime (todGet a) :=
  (Timely.checkIndex _ _).on.bind fun i => (todRead_timely i .read (by decide)).on.bind fun _ => (Timely.done _).on

/-- TOD_SET leaves its own command waiting for the edge (R164). -/
theorem todWrite_timely (i : Fin 2) (sec ns : Nat) : EndsInTime (todWrite i sec ns) := by
  unfold todWrite
  refine (Timely.pollTod i).on.bind fun _ => (Timely.store _ rfl (by simp [Reg.access])).on.bind fun _ => ?_
  refine (Timely.store _ rfl (by simp [Reg.access])).on.bind fun _ => ?_
  exact (Timely.last _).on.bind fun _ => (Timely.todDone i).on

theorem todSet_timely : EndsInTime (todSet a x y) := by
  unfold todSet
  refine (Timely.checkIndex _ _).on.bind fun i => Timely.mark ?_
  refine (Timely.raiseIf _ (by decide)).on.bind fun _ => (Timely.raiseIf _ (by decide)).on.bind fun _ => ?_
  exact (todWrite_timely i _ _).on.bind fun _ => (Timely.done _).on

/-- A STEPTIME of less than a second makes no rollover wait (R227, R233). -/
theorem steptime_timely (hx : |x.toInt| < 1000000000) : EndsInTime (steptime a x) := by
  have hskip : ∀ i, Timely Idle (stepSeconds i (split x.toInt).1) Idle := fun i => by
    rw [stepSeconds, if_pos ((split_whole_eq_zero_iff _).mpr hx)]
    exact .ret ()
  unfold steptime
  refine (Timely.checkIndex _ _).on.bind fun i => (Timely.perout i).on.bind fun m => ?_
  refine (Timely.raiseIf _ (by decide)).bind fun _ => Timely.mark (Timely.mark ?_)
  exact (hskip i).bind fun _ => (phaseStep_timely i _).on.bind fun _ => (Timely.done _).on

theorem adjfine_timely : EndsInTime (adjfine a x) := by
  unfold adjfine
  refine (Timely.checkIndex _ _).on.bind fun i => (Timely.checkS32 x).on.bind fun ppm => Timely.mark ?_
  split
  · exact Timely.done _
  · exact (Timely.store _ rfl (by simp [Reg.access])).on.bind fun _ => (Timely.done _).on

theorem adjphase_timely : EndsInTime (adjphase a x) := by
  unfold adjphase
  refine (Timely.checkIndex _ _).on.bind fun i => (Timely.checkS32 x).on.bind fun d => Timely.mark ?_
  refine (Timely.pollIdle (r := .tieCtrl) rfl rfl (by decide) (by decide)).on.bind fun _ => ?_
  refine (Timely.store _ rfl (by decide)).on.bind fun _ => ?_
  refine (Timely.store _ rfl (by simp [Reg.access])).on.bind fun _ => ?_
  refine Timely.tieCommand.on.bind fun _ => ?_
  exact (Timely.poll (r := .tieCtrl) rfl rfl (by decide) (by decide) fun _ h => h).on.bind fun _ => (Timely.done _).on

theorem synthFreqGet_timely : EndsInTime (synthFreqGet a) :=
  (Timely.checkIndex _ _).on.bind fun k => (synthFreq_timely k).on.bind fun _ => (Timely.done _).on

theorem refFreqGet_timely : EndsInTime (refFreqGet a) := by
  unfold refFreqGet
  refine (Timely.checkIndex _ _).on.bind fun r => (mbRead_timely .ref r.1).on.bind fun _ => ?_
  refine (Timely.load rfl).on.bind fun _ => (Timely.load rfl).on.bind fun _ => (Timely.load rfl).on.bind fun _ => ?_
  refine (Timely.load rfl).on.bind fun _ => (Timely.orRaise _ (by decide)).on.bind fun _ => ?_
  exact (Timely.orRaise _ (by decide)).bind fun _ => Timely.done _

theorem quad_fields_data (q : Quad) : ∀ f ∈ q.fields, isControl f.1 = false ∧ f.1.access ≠ .ro := by
  simp [Quad.fields, isControl, Reg.access]

theorem refFreqSet_timely : EndsInTime (refFreqSet a x) := by
  unfold refFreqSet
  refine (Timely.checkIndex _ _).on.bind fun r => (Timely.orRaise _ (by decide)).on.bind fun q => ?_
  exact (mbWrite_timely .ref r.1 q.fields (quad_fields_data q)).on.bind fun _ => (Timely.done _).on

/-- A mailbox write of one field that is no control byte. -/
theorem mbWrite_one_timely (d : Domain) (k : Nat) {r : Reg} (v : Nat) (hc : isControl r = false)
    (ha : r.access ≠ .ro) : Timely Idle (mbWrite d k [(r, v)]) Idle :=
  mbWrite_timely d k _ (by simpa using ⟨hc, ha⟩)

theorem readDivider_timely {r : Reg} (hr : r.access = .rw) : Timely Idle (readDivider r) Idle :=
  (Timely.load hr).bind fun _ => (Timely.raiseIf _ (by decide)).bind fun _ => Timely.ret _

theorem outFreq_timely (p : Params) (pin : Fin 20) (sf : Nat) : Timely Idle (outFreq p pin sf) Idle := by
  unfold outFreq
  refine (readDivider_timely rfl).on.bind fun div => Timely.mark (Timely.mark ?_)
  split
  · exact (readDivider_timely rfl).on.bind fun _ => (Timely.ret _).on
  · exact (Timely.ret _).on

theorem outFreqGet_timely : EndsInTime (outFreqGet a) := by
  unfold outFreqGet
  refine (Timely.checkIndex _ _).on.bind fun pin => Timely.params.bind fun p => ?_
  refine (Timely.raiseIf _ (by decide)).on.bind fun _ => (outSynthFreq_timely _).on.bind fun sf => ?_
  exact (outFreq_timely p pin sf).on.bind fun _ => (Timely.done _).on

theorem setNSide_timely (p : Fin 10) (f sf : Nat) : Timely Idle (setNSide p f sf) Idle := by
  unfold setNSide
  refine (readDivider_timely rfl).on.bind fun div => Timely.mark ?_
  refine (Timely.raiseIf _ (by decide)).on.bind fun _ => (Timely.raiseIf _ (by decide)).on.bind fun _ => ?_
  exact (Timely.raiseIf _ (by decide)).on.bind fun _ => (mbWrite_one_timely .out p.1 _ rfl (by decide)).on

theorem setDivider_timely (p : Fin 10) (f sf : Nat) : Timely Idle (setDivider p f sf) Idle := by
  unfold setDivider
  refine (Timely.raiseIf _ (by decide)).on.bind fun _ => (Timely.raiseIf _ (by decide)).on.bind fun _ => ?_
  exact (mbWrite_one_timely .out p.1 _ rfl (by decide)).on

theorem outFreqSet_timely : EndsInTime (outFreqSet a x) := by
  unfold outFreqSet
  refine (Timely.checkIndex _ _).on.bind fun pin => Timely.params.bind fun p => ?_
  refine (Timely.raiseIf _ (by decide)).on.bind fun _ => (Timely.raiseIf _ (by decide)).on.bind fun _ => ?_
  refine Timely.mark ((outSynthFreq_timely _).on.bind fun sf => Timely.mark ?_)
  have hset : Timely Idle (setOutFreq p pin x.toNat sf) Idle := by
    unfold setOutFreq
    split
    · exact setNSide_timely _ _ _
    · exact setDivider_timely _ _ _
  exact hset.bind fun _ => (Timely.done _).on

theorem refPhaseCompGet_timely : EndsInTime (refPhaseCompGet a) := by
  unfold refPhaseCompGet
  refine (Timely.checkIndex _ _).on.bind fun n => (mbRead_timely .ref n.1).on.bind fun _ => ?_
  exact (Timely.load rfl).on.bind fun _ => (Timely.orRaise _ (by decide)).on.bind fun _ => (Timely.done _).on

theorem refPhaseCompSet_timely : EndsInTime (refPhaseCompSet a x) := by
  unfold refPhaseCompSet
  refine (Timely.checkIndex _ _).on.bind fun n => (Timely.checkS32 x).on.bind fun v => ?_
  refine (Timely.raiseIf _ (by decide)).on.bind fun _ => ?_
  exact (mbWrite_one_timely .ref n.1 _ rfl (by decide)).on.bind fun _ => (Timely.done _).on

theorem outPhaseCompGet_timely : EndsInTime (outPhaseCompGet a) := by
  unfold outPhaseCompGet
  refine (Timely.checkIndex _ _).on.bind fun pin => Timely.mark ((outSynthFreq_timely _).on.bind fun f => ?_)
  refine (Timely.orRaise _ (by decide)).on.bind fun h => (Timely.load rfl).on.bind fun raw => ?_
  exact (Timely.orRaise _ (by decide)).on.bind fun _ => (Timely.done _).on

theorem outPhaseCompSet_timely : EndsInTime (outPhaseCompSet a x) := by
  unfold outPhaseCompSet
  refine (Timely.checkIndex _ _).on.bind fun pin => (Timely.checkS32 x).on.bind fun v => Timely.mark ?_
  refine (outSynthFreq_timely _).on.bind fun f => (Timely.orRaise _ (by decide)).on.bind fun h => ?_
  refine (Timely.raiseIf _ (by decide)).on.bind fun _ => Timely.mark ?_
  refine (Timely.raiseIf _ (by decide)).on.bind fun _ => ?_
  exact (mbWrite_one_timely .out _ _ rfl (by decide)).on.bind fun _ => (Timely.done _).on

theorem pinMove_timely (proc : Proc) (next : EnableState → Half → EnableState) : EndsInTime (pinMove proc next a) := by
  unfold pinMove
  refine (Timely.checkIndex _ _).on.bind fun pin => Timely.mark ((mbRead_timely .out _).on.bind fun _ => ?_)
  refine (Timely.load rfl).on.bind fun c => (Timely.orRaise _ (by decide)).bind fun st => ?_
  exact (mbWrite_one_timely .out _ _ rfl (by decide)).on.bind fun _ => (Timely.done _).on

theorem checkDpllPair_timely : Timely Idle (checkDpllPair a) Idle :=
  (Timely.checkIndex _ _).bind fun _ => (Timely.checkIndex _ _).bind fun _ => Timely.ret _

theorem peroutEnable_timely : EndsInTime (peroutEnable a x y) := by
  unfold peroutEnable
  refine Timely.mark (checkDpllPair_timely.on.bind fun ip => (Timely.raiseIf _ (by decide)).on.bind fun _ => ?_)
  refine (Timely.raiseIf _ (by decide)).on.bind fun _ => (outSynthFreq_timely _).on.bind fun _ => ?_
  exact (Timely.markPair _ _ _).on.bind fun _ => (Timely.done _).on

theorem peroutDisable_timely : EndsInTime (peroutDisable a) :=
  Timely.mark (checkDpllPair_timely.on.bind fun _ => (Timely.markPair _ _ _).on.bind fun _ => (Timely.done _).on)

end

/-! ### Operations -/

theorem code_ne_one {e : ErrKind} (h : e ≠ .timeout) : e.code ≠ 1 := by
  revert h
  cases e <;> decide

section
variable {i : Instr} {q : Prog Reply} (hq : programOf i = some q)
  (hx : ∀ a x, i = .steptime a x → |x.toInt| < 1000000000)
include hq hx

/-- No operation but a STEPTIME of whole seconds ends with `Timeout` under a responder that acknowledges in time. -/
theorem program_timely : EndsInTime q := by
  cases i <;> simp only [programOf, Option.some.injEq, reduceCtorEq] at hq <;> subst hq
  case todGet => exact todGet_timely
  case todSet => exact todSet_timely
  case steptime a x => exact steptime_timely (hx a x rfl)
  case adjfine => exact adjfine_timely
  case adjphase => exact adjphase_timely
  case synthFreqGet => exact synthFreqGet_timely
  case refFreqGet => exact refFreqGet_timely
  case refFreqSet => exact refFreqSet_timely
  case outFreqGet => exact outFreqGet_timely
  case outFreqSet => exact outFreqSet_timely
  case refPhaseCompGet => exact refPhaseCompGet_timely
  case refPhaseCompSet => exact refPhaseCompSet_timely
  case outPhaseCompGet => exact outPhaseCompGet_timely
  case outPhaseCompSet => exact outPhaseCompSet_timely
  case pinEnable => exact pinMove_timely _ _
  case pinDisable => exact pinMove_timely _ _
  case peroutEnable => exact peroutEnable_timely
  case peroutDisable => exact peroutDisable_timely

/-- Such an operation's result code is not that of `Timeout`. -/
theorem status_ne_timeout {s t : State} (hs : Idle s) (h : exec i s = .next t) : t.res.status ≠ 1 := by
  obtain ⟨o, _, he⟩ := exec_program hq
  have htime := program_timely hq hx (beginOp o s) hs
  rw [he, runOperation] at h
  cases hr : q.run (beginOp o s) with
  | ok r u =>
    rw [hr] at h
    cases h
    exact (by decide : (0 : Byte) ≠ 1)
  | error e u =>
    rw [hr] at h htime
    cases e with
    | fault f => cases h
    | raise e =>
      cases h
      exact code_ne_one fun he => htime (he ▸ rfl)

end

theorem idle_of_ready {s : State} (h : s.Ready) : Idle s := by
  obtain ⟨_, hq, _, hack⟩ := h
  exact ⟨hack, fun r hc => Asic.Quiet.clear hq hc⟩

end Sys2Proof.Machine

namespace Sys2Proof.Proofs

open Sys2Proof.Machine

/-- Settles O56: under the silent responder each operation's program is run up to its first wait, where its request
stands; under one that acknowledges in time every program is made of polls that do not time out. -/
theorem silentResponderTimesOut : Obligations.SilentResponderTimesOut := by
  refine ⟨fun s a hl hq he => ?_, fun i s t hop hready hx h => ?_⟩
  · have hs : ∀ o, (beginOp o s).Silent := fun o => ⟨hl, hq, he⟩
    refine ⟨fun r hr => ⟨?_, ?_, fun x hx => ?_, fun x hlo hhi => ?_⟩, fun k hk => ?_,
      fun pin hpin => ⟨?_, ?_, ?_, fun hfix => ⟨?_, fun x hx => ?_⟩, fun x hlo hhi => ?_⟩, fun i q x y ha hx hy => ?_,
      fun i hi => ⟨?_, fun x hx hm => ?_, fun x q hx hbit hlow => ?_, fun x hlo hhi => ?_⟩⟩
    · exact mailboxTimesOut_of_run rfl fun o => refFreqGet_silent (hs o) hr
    · exact mailboxTimesOut_of_run rfl fun o => refPhaseCompGet_silent (hs o) hr
    · exact mailboxTimesOut_of_run rfl fun o => refFreqSet_silent (hs o) hr hx
    · exact mailboxTimesOut_of_run rfl fun o => refPhaseCompSet_silent (hs o) hr hlo hhi
    · exact mailboxTimesOut_of_run rfl fun o => synthFreqGet_silent (hs o) hk
    · exact mailboxTimesOut_of_run rfl fun o => outPhaseCompGet_silent (hs o) hpin
    · exact mailboxTimesOut_of_run rfl fun o => pinMove_silent (hs o) hpin _ _
    · exact mailboxTimesOut_of_run rfl fun o => pinMove_silent (hs o) hpin _ _
    · exact mailboxTimesOut_of_run rfl fun o => outFreqGet_silent (hs o) hpin hfix
    · exact mailboxTimesOut_of_run rfl fun o => outFreqSet_silent (hs o) hpin hfix hx
    · exact mailboxTimesOut_of_run rfl fun o => outPhaseCompSet_silent (hs o) hpin hlo hhi
    · exact mailboxTimesOut_of_run rfl fun o => peroutEnable_silent (hs o) ha hx hy
    · obtain ⟨t, ht, hfin, hasic⟩ := timesOut_of_run (s := s) (i := .todGet a)
        (a := s.asic.poke (Reg.todCtrl i).addr 0x11) rfl fun o => todGet_silent (hs o) hi
      exact ⟨t, ht, hfin, hasic ▸ get_set_same .., hasic ▸ poke_sameBut s.asic (by simp) _⟩
    · obtain ⟨t, ht, hfin, hasic⟩ := timesOut_of_run (s := s) (i := .steptime a x)
        (a := s.asic.poke (Reg.todCtrl i).addr 0x12) rfl
        fun o => steptime_whole_silent (hs o) hi hm ((split_whole_eq_zero_iff _).not.mpr hx.not_gt)
      exact ⟨t, ht, hfin, hasic ▸ get_set_same .., hasic ▸ poke_sameBut s.asic (by simp) _⟩
    · have hm : s.ctl.perout.get i ≠ 0 := fun h0 => by simp [h0] at hbit
      obtain ⟨t, ht, hfin, hasic⟩ := timesOut_of_run (s := s) (i := .steptime a x)
        (a := (s.asic.setReg .psCount 1).requested .out q) rfl
        fun o => steptime_phase_silent (hs o) hi hm ((split_whole_eq_zero_iff _).mpr hx) (lowestPair_eq hbit hlow)
      exact ⟨t, ht, hfin, hasic ▸ requested_sem .., hasic ▸ requested_setReg_sameBut ..⟩
    · obtain ⟨t, ht, hfin, hasic⟩ := timesOut_of_run (s := s) (i := .adjphase a x)
        (a := s.asic.tieRequested i x.toInt) rfl fun o => adjphase_silent (hs o) hi hlo hhi
      refine ⟨t, ht, hfin, hasic ▸ tieRequested_ctrl .., _, ?_, fun d hd => ?_, hasic ▸ tieRequested_sameBut ..⟩
      · exact (tieLoaded_latch ..).trans (if_pos rfl)
      · exact (tieLoaded_latch ..).trans (if_neg hd)
  · obtain ⟨q, hq⟩ := isOperation_program hop
    exact status_ne_timeout hq hx (idle_of_ready hready) h

end Sys2Proof.Proofs
end

section
/-! SUPPORT. What an operation leaves, from a run of its program, and the argument values an operation turns away. -/

namespace Sys2Proof.Machine

/-! ### Operations -/

/-- `s` some accesses later: the schedule and the ASIC side have moved on. -/
def State.reach (s : State) (e : Env) (a : Asic) : State := { s with env := e, asic := a }

section
variable {i : Instr} {q : Prog Reply} (hq : programOf i = some q) {s : State}
include hq

/-- An operation whose program returns `r`, its accesses having changed the schedule and the ASIC side alone. -/
theorem reached_of_ok {r : Reply} {e : Env} {P : Asic → Prop}
    (h : ∀ o, ∃ a, q.run (beginOp o s) = .ok r ((beginOp o s).reach e a) ∧ P a) :
    ∃ t, exec i s = .next t ∧ ({ s with env := e } : State).Finished t 0 r.x r.y ∧ P t.asic := by
  obtain ⟨o, _, he⟩ := exec_program hq
  obtain ⟨a, hrun, ha⟩ := h o
  refine ⟨endOp 0 r ((beginOp o s).reach e a), ?_, ⟨⟨rfl, rfl, rfl, rfl, rfl, rfl, rfl, rfl, rfl, rfl⟩, rfl⟩, ha⟩
  rw [he, runOperation, hrun]
  rfl

/-- An operation whose program raises `k`, its accesses having changed the schedule and the ASIC side alone. -/
theorem reached_of_raise {k : ErrKind} {e : Env} {P : Asic → Prop}
    (h : ∀ o, ∃ a, q.run (beginOp o s) = .error (.raise k) ((beginOp o s).reach e a) ∧ P a) :
    ∃ t, exec i s = .next t ∧ ({ s with env := e } : State).Finished t k.code 0 0 ∧ P t.asic := by
  obtain ⟨o, _, he⟩ := exec_program hq
  obtain ⟨a, hrun, ha⟩ := h o
  refine ⟨raiseReturn k ((beginOp o s).reach e a), ?_, ⟨⟨rfl, rfl, rfl, rfl, rfl, rfl, rfl, rfl, rfl, rfl⟩, rfl⟩, ha⟩
  rw [he, runOperation, hrun]
  rfl

/-- As `reached_of_ok`, where the schedule is as it was and the ASIC side is known. -/
theorem finished_of_ok {r : Reply} {a : Asic} (h : ∀ o, q.run (beginOp o s) = .ok r ((beginOp o s).after a)) :
    ∃ t, exec i s = .next t ∧ s.Finished t 0 r.x r.y ∧ t.asic = a :=
  reached_of_ok hq (e := s.env) (P := (· = a)) fun o => ⟨a, h o, rfl⟩

/-- As `reached_of_raise`, where the schedule is as it was and the ASIC side is known. -/
theorem finished_of_raise {k : ErrKind} {a : Asic}
    (h : ∀ o, q.run (beginOp o s) = .error (.raise k) ((beginOp o s).after a)) :
    ∃ t, exec i s = .next t ∧ s.Finished t k.code 0 0 ∧ t.asic = a :=
  reached_of_raise hq (e := s.env) (P := (· = a)) fun o => ⟨a, h o, rfl⟩

/-- As `rejects_of_run`, of an error that depends on the state. -/
theorem rejects_of_run_here {e : ErrKind} (h : ∀ o, q.run (beginOp o s) = .error (.raise e) (beginOp o s)) :
    Rejects i s e := finished_of_raise hq h

end

/-! ### Argument values -/

theorem raiseIf_of_true {c : Bool} (h : c = true) (e : ErrKind) (s : State) :
    (raiseIf c e).run s = .error (.raise e) s := by
  rw [h]
  rfl

theorem refEncode_of_not_nine {f : Nat} (h : f ∉ nineFrequencies) : refEncode f = none := by
  have hkeys : nineFrequencies = refTable.map Prod.fst := rfl
  rw [hkeys, List.mem_map] at h
  rw [refEncode, Option.map_eq_none_iff, List.find?_eq_none]
  intro row hrow heq
  exact h ⟨row, hrow, beq_iff_eq.mp heq⟩

theorem fitsU48_iff (v : Int) : fitsU48 v = true ↔ 0 ≤ v ∧ v < 2 ^ 48 := by
  rw [fitsU48, Bool.and_eq_true, decide_eq_true_iff, decide_eq_true_iff]

/-- The check TOD_SET makes of its nanoseconds (R167). -/
theorem nsCheck_eq_false_iff (v : Int) :
    (decide (v < 0) || decide (v ≥ nsPerS)) = false ↔ 0 ≤ v ∧ v < 1000000000 := by
  rw [Bool.or_eq_false_iff, decide_eq_false_iff_not, decide_eq_false_iff_not, not_lt, ge_iff_le, not_le]
  rfl

section
variable {a : Byte} {x y : BitVec 64} {s : State}

theorem todSet_bad_ns (ha : a.toNat < 2) (hy : ¬(0 ≤ y.toInt ∧ y.toInt < 1000000000)) :
    (todSet a x y).run s = .error (.raise .invalidArgument) s := by
  unfold todSet
  rw [run_on_ok (checkIndex_ok (n := nDpll) ha s), run_mark]
  exact run_on_error (raiseIf_of_true (Bool.of_not_eq_false ((nsCheck_eq_false_iff _).not.mpr hy)) _ s)

theorem todSet_bad_sec (ha : a.toNat < 2) (hy : 0 ≤ y.toInt ∧ y.toInt < 1000000000)
    (hx : ¬(0 ≤ x.toInt ∧ x.toInt < 2 ^ 48)) : (todSet a x y).run s = .error (.raise .range) s := by
  have hfit : (!fitsU48 x.toInt) = true := by simpa using (fitsU48_iff _).not.mpr hx
  unfold todSet
  rw [run_on_ok (checkIndex_ok (n := nDpll) ha s), run_mark,
    run_on_ok (raiseIf_of_false ((nsCheck_eq_false_iff _).mpr hy) _ s)]
  exact run_on_error (raiseIf_of_true hfit _ s)

theorem steptime_no_pair {i : Fin 2} (hi : a.toNat = i.1) (hm : s.ctl.perout.get i = 0) :
    (steptime a x).run s = .error (.raise .unsupported) s := by
  unfold steptime
  rw [run_on_ok (checkIndex_eq (n := nDpll) i hi s), run_on_ok (perout_run _ s)]
  exact run_bind_error (raiseIf_of_true (beq_iff_eq.mpr hm) _ s)

theorem refFreqSet_unsupported (ha : a.toNat < 10) (hx : x.toNat ∉ nineFrequencies) :
    (refFreqSet a x).run s = .error (.raise .unsupported) s := by
  unfold refFreqSet
  rw [run_on_ok (checkIndex_ok (n := nRef) ha s), refEncode_of_not_nine hx]
  exact run_on_error (orRaise_none _ s)

section
variable {pin : Fin 20} (hpin : a.toNat = pin.1)
include hpin

theorem outFreqGet_fixed (hfix : s.par.pinFixedRatio pin = true) :
    (outFreqGet a).run s = .error (.raise .unsupported) s := by
  unfold outFreqGet
  rw [run_on_ok (checkIndex_eq (n := nOut) pin hpin s), run_bind_ok (params_run s)]
  exact run_on_error (raiseIf_of_true hfix _ s)

theorem outFreqSet_fixed (hfix : s.par.pinFixedRatio pin = true) :
    (outFreqSet a x).run s = .error (.raise .unsupported) s := by
  unfold outFreqSet
  rw [run_on_ok (checkIndex_eq (n := nOut) pin hpin s), run_bind_ok (params_run s)]
  exact run_on_error (raiseIf_of_true hfix _ s)

theorem outFreqSet_zero (hfix : s.par.pinFixedRatio pin = false) (hx : x.toNat = 0) :
    (outFreqSet a x).run s = .error (.raise .invalidArgument) s := by
  unfold outFreqSet
  rw [run_on_ok (checkIndex_eq (n := nOut) pin hpin s), run_bind_ok (params_run s),
    run_on_ok (raiseIf_of_false hfix _ s)]
  exact run_on_error (raiseIf_of_true (beq_iff_eq.mpr hx) _ s)

end

theorem refPhaseCompSet_lowest (ha : a.toNat < 10) (hx : x.toInt = -2 ^ 31) :
    (refPhaseCompSet a x).run s = .error (.raise .range) s := by
  have hfit : fitsS32 x.toInt = true := by rw [hx]; decide
  unfold refPhaseCompSet
  rw [run_on_ok (checkIndex_ok (n := nRef) ha s), run_on_ok (checkS32_ok hfit s)]
  exact run_on_error (raiseIf_of_true (beq_iff_eq.mpr hx) _ s)

/-- PEROUT_ENABLE takes a period of one second, and a start at a whole second (R280). -/
theorem peroutEnable_bad_period (hi : a.toNat / 16 < 2) (hp : a.toNat % 16 < 10)
    (hxy : x.toInt ≠ 1000000000 ∨ ¬(1000000000 : Int) ∣ y.toInt) :
    (peroutEnable a x y).run s = .error (.raise .invalidArgument) s := by
  have hpair : (checkDpllPair a).run s = .ok (⟨a.toNat / 16, hi⟩, ⟨a.toNat % 16, hp⟩) s :=
    checkDpllPair_ok (by simp only; omega) s
  unfold peroutEnable
  rw [run_mark, run_on_ok hpair]
  by_cases hx : x.toInt = 1000000000
  · have hy : ¬(1000000000 : Int) ∣ y.toInt := hxy.resolve_left (not_not_intro hx)
    have hx0 : (x.toInt != nsPerS) = false := bne_eq_false_iff_eq.mpr hx
    rw [run_on_ok (raiseIf_of_false hx0 _ s)]
    exact run_on_error (raiseIf_of_true (bne_iff_ne.mpr fun h => hy (Int.dvd_of_tmod_eq_zero h)) _ s)
  · exact run_on_error (raiseIf_of_true (bne_iff_ne.mpr hx) _ s)

end

end Sys2Proof.Machine

namespace Sys2Proof.Proofs

open Sys2Proof.Machine

/-- Settles O20: each check is made before the operation's first access, and the program ends there. -/
theorem badValuesReachNoRegister : Obligations.BadValuesReachNoRegister := by
  refine fun s a x y => ⟨fun ha hy => ?_, fun ha hy hx => ?_, fun ha hm => ?_, fun ha hx => ?_,
    fun ha hfix => ⟨?_, ?_⟩, fun ha hfix hx => ?_, fun ha hx => ?_, fun hi hp hxy => ?_⟩
  · exact rejects_of_run_here rfl fun o => todSet_bad_ns ha hy
  · exact rejects_of_run_here rfl fun o => todSet_bad_sec ha hy hx
  · exact rejects_of_run_here rfl fun o => steptime_no_pair (i := ⟨a.toNat, ha⟩) rfl hm
  · exact rejects_of_run_here rfl fun o => refFreqSet_unsupported ha hx
  · exact rejects_of_run_here rfl fun o => outFreqGet_fixed (pin := ⟨a.toNat, ha⟩) rfl hfix
  · exact rejects_of_run_here rfl fun o => outFreqSet_fixed (pin := ⟨a.toNat, ha⟩) rfl hfix
  · exact rejects_of_run_here rfl fun o => outFreqSet_zero (pin := ⟨a.toNat, ha⟩) rfl hfix hx
  · exact rejects_of_run_here rfl fun o => refPhaseCompSet_lowest ha hx
  · exact rejects_of_run_here rfl fun o => peroutEnable_bad_period hi hp hxy

end Sys2Proof.Proofs
end

section
/-! SUPPORT. Time of day: normalisation, the clock's edge and advance, and the acknowledges of the two read commands. -/

namespace Sys2Proof.Machine

/-! ### The clock (R170) -/

/-- The ASIC side after an edge of DPLL `i` with no time pending: its next second starts. -/
def Asic.nextSecond (a : Asic) (i : Fin 2) : Asic :=
  (a.setTod i ⟨nextSec (a.tod.get i).sec a.draws, 0⟩).drawIf (!hasNextSec (a.tod.get i).sec)

/-- The ASIC side after an edge of DPLL `i` with `time` pending: it is loaded and the semaphore cleared. -/
def Asic.loadTime (a : Asic) (i : Fin 2) (time : Tod) : Asic :=
  Asic.clearFlag { a.setTod i time with todPend := upd a.todPend i none } (.todCtrl i) todSem

theorem clockEdge_none {a : Asic} {i : Fin 2} (h : a.todPend.get i = none) : clockEdge i a = a.nextSecond i := by
  unfold clockEdge
  rw [h]
  rfl

theorem clockEdge_some {a : Asic} {i : Fin 2} {time : Tod} (h : a.todPend.get i = some time) :
    clockEdge i a = a.loadTime i time := by
  unfold clockEdge
  rw [h]
  rfl

theorem nextSec_of_lt {sec : BitVec 48} (h : sec.toNat < 2 ^ 48 - 1) (draws : Nat) : nextSec sec draws = sec + 1 :=
  if_pos (decide_eq_true h)

theorem nextSecond_of_lt {a : Asic} {i : Fin 2} (h : (a.tod.get i).sec.toNat < 2 ^ 48 - 1) :
    a.nextSecond i = a.setTod i ⟨(a.tod.get i).sec + 1, 0⟩ := by
  have hnext : hasNextSec (a.tod.get i).sec = true := decide_eq_true h
  rw [Asic.nextSecond, nextSec_of_lt h, hnext]
  rfl

theorem nextSecond_eq (a : Asic) (i : Fin 2) :
    a.nextSecond i = { a with
      tod := upd a.tod i ⟨((a.nextSecond i).tod.get i).sec, 0⟩, draws := (a.nextSecond i).draws } := by
  simp [Asic.nextSecond, Asic.setTod, Asic.drawIf]

theorem loadTime_ctrl (a : Asic) (i : Fin 2) (time : Tod) :
    (a.loadTime i time).ctrlByte (.todCtrl i) = clearBits (a.ctrlByte (.todCtrl i)) todSem := get_set_same ..

theorem clockAdvance_of_later {a : Asic} {i : Fin 2} {ns : BitVec 32} (h : (a.tod.get i).ns.toNat < ns.toNat)
    (h' : ns.toNat < nsPerS) : clockAdvance i ns a = a.setTod i ⟨(a.tod.get i).sec, ns⟩ := if_pos ⟨h, h'⟩

/-! ### Acknowledges (R171, R172) -/

theorem todAck_read {a : Asic} {i : Fin 2} (h : a.ctrlByte (.todCtrl i) = 0x11) :
    todAck i a = a.latchTime i (a.tod.get i).sec.toNat (a.tod.get i).ns.toNat := by
  unfold todAck
  rw [h]
  rfl

theorem todAck_readNext {a : Asic} {i : Fin 2} (h : a.ctrlByte (.todCtrl i) = 0x12) :
    todAck i a = (a.latchTime i (nextSec (a.tod.get i).sec a.draws).toNat 0).drawIf
      (!hasNextSec (a.tod.get i).sec) := by
  unfold todAck
  rw [h]
  rfl

section
variable (a : Asic) (i : Fin 2)

theorem latchTime_sec {sec : Nat} (h : sec < 2 ^ 48) (ns : Nat) : (a.latchTime i sec ns).regVal (.todSec i) = sec := by
  show Memory.value (Memory.set _ _ _) _ = _
  rw [value_set_ne _ rfl (by simp), value_setValue_ne _ _ (by simp),
    value_setValue _ _ _ (by simpa [Reg.width] using h)]

theorem latchTime_ns (sec : Nat) {ns : Nat} (h : ns < 2 ^ 32) :
    (a.latchTime i sec ns).regVal (.todNs i) = imageOfNs ns := by
  show Memory.value (Memory.set _ _ _) _ = _
  rw [value_set_ne _ rfl (by simp), value_setValue _ _ _ (by simp only [imageOfNs, Reg.width]; omega)]

theorem latchTime_todCtrl (sec ns : Nat) :
    (a.latchTime i sec ns).ctrlByte (.todCtrl i) = clearBits (a.ctrlByte (.todCtrl i)) todSem :=
  (ctrl_latchTime' a i sec ns rfl).trans (if_pos rfl)

theorem latchTime_sameBut (sec ns : Nat) : Asic.SameBut (todArea i) a (a.latchTime i sec ns) := by
  refine ⟨rfl, fun x hx => ?_⟩
  have hcov : ∀ r ∈ [Reg.todCtrl i, .todSec i, .todNs i], r.covers x = false := fun r hr => not_covers_of_mem hr hx
  show Memory.get (Memory.set _ _ _) x = _
  rw [get_set_ne _ _ (addr_ne_of_not_covers (hcov (.todCtrl i) (by simp))),
    get_setValue_out _ _ _ _ (hcov (.todNs i) (by simp)), get_setValue_out _ _ _ _ (hcov (.todSec i) (by simp))]

end

/-! ### TOD_GET (R166) -/

theorem toNat_ofNat_of_lt_nsPerS {n : Nat} (h : n < nsPerS) : (BitVec.ofNat 64 n).toNat < 1000000000 := by
  rw [BitVec.toNat_ofNat]
  exact (Nat.mod_le ..).trans_lt h

/-- The nanoseconds TOD_GET returns are below a second, whatever the schedule (R169). -/
theorem todGet_runs (a : Byte) :
    Runs (Instr.todGet a).writes (Instr.todGet a).errors (fun _ => True) (todGet a)
      fun r _ => r.y.toNat < 1000000000 := by
  have hread : ∀ i, Runs (Instr.todGet a).writes (Instr.todGet a).errors (fun _ => True) (todRead i .read)
      fun t _ => t.2 < nsPerS := fun i =>
    (todRead_runs i .read).mono (by rcases dpll_cases i with rfl | rfl <;> simp [Instr.writes]) (by simp [Instr.errors])
  exact (Uses.checkIndex (by simp [Instr.errors])).on.bind fun i => (hread i).on.bind fun t =>
    (Runs.pure fun _ ht => toNat_ofNat_of_lt_nsPerS ht).on

theorem todGet_prompt {s : State} (hs : s.Prompt) {a : Byte} {i : Fin 2} (hi : a.toNat = i.1) (o : Byte) :
    (todGet a).run (beginOp o s) = .ok
      { x := BitVec.ofNat 64 ((s.asic.tod.get i).sec.toNat + (s.asic.tod.get i).ns.toNat / 1000000000)
        y := BitVec.ofNat 64 ((s.asic.tod.get i).ns.toNat % 1000000000) }
      ((beginOp o s).after
        (s.asic.timed i .read (s.asic.tod.get i).sec.toNat (s.asic.tod.get i).ns.toNat)) := by
  obtain ⟨hwf, hquiet, henv⟩ := hs
  exact (run_on_ok (checkIndex_eq (n := nDpll) i hi _)).trans
    (run_on_ok (todRead_read (s := beginOp o s) hwf henv hquiet i))

end Sys2Proof.Machine

namespace Sys2Proof.Proofs

open Sys2Proof.Machine

/-- Settles O21: the seconds are the quotient and the nanoseconds the remainder by a second. -/
theorem normalizeCarriesSeconds : Obligations.NormalizeCarriesSeconds := by
  intro sec ns
  simp only [Machine.normalize, nsPerS]
  omega

/-- Settles O26: an edge is `Asic.loadTime` or `Asic.nextSecond`, as a time is pending or not. -/
theorem clockSteps : Obligations.ClockSteps := by
  refine fun a i => ⟨fun time h => ?_, fun h => ?_, fun ns hlt hns => clockAdvance_of_later hlt hns⟩
  · rw [clockEdge_some h]
    exact ⟨rfl, loadTime_ctrl a i time, fun addr haddr => get_set_ne _ _ haddr.symm⟩
  · rw [clockEdge_none h]
    refine ⟨nextSecond_eq a i, fun hlt => ?_⟩
    rw [nextSecond_of_lt hlt]
    exact ⟨congrArg Tod.sec (upd_get_same ..), rfl⟩

/-- Settles O25: either acknowledge is `Asic.latchTime` of the time its command asks for. -/
theorem todCommandsAreAcknowledged : Obligations.TodCommandsAreAcknowledged := by
  refine fun a i => ⟨fun h => ?_, fun h => ?_⟩
  · rw [todAck_read h]
    exact ⟨latchTime_sec a i (BitVec.isLt _) _, latchTime_ns a i _ (BitVec.isLt _),
      (latchTime_todCtrl ..).trans (by rw [h]; rfl), latchTime_sameBut ..⟩
  · rw [todAck_readNext h]
    refine ⟨latchTime_ns a i _ (by decide), (latchTime_todCtrl ..).trans (by rw [h]; rfl),
      ⟨rfl, (latchTime_sameBut a i _ _).2⟩, fun hlt => ?_⟩
    have hnext : hasNextSec (a.tod.get i).sec = true := decide_eq_true hlt
    refine ⟨(latchTime_sec a i (BitVec.isLt _) _).trans ?_, by rw [hnext]; rfl⟩
    rw [nextSec_of_lt hlt, BitVec.toNat_add_of_lt (by simp; omega)]
    rfl

/-- Settles O22: under the prompt responder the READ answers with the counter; under any schedule the result is
normalised, or an error's 0. -/
theorem todGetReturnsTime : Obligations.TodGetReturnsTime := by
  refine ⟨fun s a i hs hi => ?_, fun s t a h => ?_⟩
  · obtain ⟨t, ht, hfin, hasic⟩ := finished_of_ok (i := .todGet a) rfl (todGet_prompt hs hi)
    exact ⟨t, ht, hfin, hasic ▸ timed_sameBut ..⟩
  · have hrun := todGet_runs a (beginOp Opcode.todGet s) trivial
    change finish ((todGet a).run (beginOp Opcode.todGet s)) = .next t at h
    cases hr : (todGet a).run (beginOp Opcode.todGet s) with
    | ok r u =>
      rw [hr] at h hrun
      cases h
      exact hrun.2
    | error e u =>
      rw [hr] at h
      cases e with
      | fault f => cases h
      | raise e =>
        cases h
        exact (by decide : (0 : BitVec 64).toNat < 1000000000)

end Sys2Proof.Proofs
end

section
/-! SUPPORT. A prompt responder beside a clock whose edges fall before some of the accesses (`Env.prompt`,
`Env.ticking`, `Env.onTime` alike): a sequence that leaves the clocks alone does what it does without the edges, and the seconds have
begun beside it. -/

namespace Sys2Proof.Machine

/-! ### The clocks (R170) -/

/-- The counters of both DPLLs, and the draws made so far. -/
structure Clock where
  tod : Vector Tod 2
  draws : Nat

/-- The ASIC side with its clocks at `c`. -/
def Asic.retimed (a : Asic) (c : Clock) : Asic := { a with tod := c.tod, draws := c.draws }

/-- The clocks of an ASIC side. -/
def Asic.clock (a : Asic) : Clock := ⟨a.tod, a.draws⟩

/-- The clocks after an edge of DPLL `i` with no time pending. -/
def Clock.next (i : Fin 2) (c : Clock) : Clock where
  tod := upd c.tod i ⟨nextSec (c.tod.get i).sec c.draws, 0⟩
  draws := c.draws + (!hasNextSec (c.tod.get i).sec).toNat

/-- The clocks after some accesses, `true` where an edge of DPLL `i` comes before one. -/
def Clock.pulsed (i : Fin 2) (bs : List Bool) (c : Clock) : Clock :=
  bs.foldl (fun c b => if b then c.next i else c) c

theorem Clock.pulsed_append (i : Fin 2) (bs cs : List Bool) (c : Clock) :
    c.pulsed i (bs ++ cs) = (c.pulsed i bs).pulsed i cs := List.foldl_append

theorem Clock.pulsed_false (i : Fin 2) (n : Nat) (c : Clock) : c.pulsed i (List.replicate n false) = c := by
  induction n with
  | zero => rfl
  | succ n ih => exact ih

theorem Clock.next_of_lt {i : Fin 2} {c : Clock} (h : (c.tod.get i).sec.toNat < 2 ^ 48 - 1) :
    c.next i = ⟨upd c.tod i ⟨BitVec.ofNat 48 ((c.tod.get i).sec.toNat + 1), 0⟩, c.draws⟩ := by
  have hnext : hasNextSec (c.tod.get i).sec = true := decide_eq_true h
  have hsec : (c.tod.get i).sec + 1 = BitVec.ofNat 48 ((c.tod.get i).sec.toNat + 1) :=
    BitVec.eq_of_toNat_eq (by simp)
  rw [Clock.next, hnext, nextSec_of_lt h, hsec]
  rfl

/-- A second for each of the edges, below 2^48 (R170). -/
theorem Clock.pulsed_true (i : Fin 2) (n : Nat) (c : Clock) (h : (c.tod.get i).sec.toNat + (n + 1) < 2 ^ 48) :
    c.pulsed i (List.replicate (n + 1) true) =
      ⟨upd c.tod i ⟨BitVec.ofNat 48 ((c.tod.get i).sec.toNat + (n + 1)), 0⟩, c.draws⟩ := by
  induction n generalizing c with
  | zero => exact Clock.next_of_lt (by omega)
  | succ n ih =>
    have hnext := Clock.next_of_lt (i := i) (c := c) (by omega)
    have hsec : ((c.next i).tod.get i).sec.toNat = (c.tod.get i).sec.toNat + 1 := by
      rw [hnext, upd_get_same, BitVec.toNat_ofNat, Nat.mod_eq_of_lt (by omega)]
    have hrest := ih (c.next i) (by omega)
    rw [hsec, hnext, upd_upd] at hrest
    refine Eq.trans ?_ (hrest.trans ?_)
    · rw [← hnext]
      rfl
    · rw [show (c.tod.get i).sec.toNat + 1 + (n + 1) = (c.tod.get i).sec.toNat + (n + 1 + 1) by omega]

theorem Clock.pulsed_true_sec (i : Fin 2) (n : Nat) (c : Clock) (h : (c.tod.get i).sec.toNat + (n + 1) < 2 ^ 48) :
    ((c.pulsed i (List.replicate (n + 1) true)).tod.get i).sec.toNat = (c.tod.get i).sec.toNat + (n + 1) := by
  rw [Clock.pulsed_true i n c h, upd_get_same, BitVec.toNat_ofNat, Nat.mod_eq_of_lt h]

/-! ### The schedule -/

/-- The prompt responder's slot, with an edge of DPLL `i` or without. -/
def Slot.beat (i : Fin 2) (b : Bool) : Slot := ⟨Slot.prompt.moves ++ (if b then [.edge i] else []), none⟩

/-- The coming slots of `e` are such slots, with an edge where `bs` says so, and leave `e'`. -/
def Env.Beats (i : Fin 2) : List Bool → Env → Env → Prop
  | [], e, e' => e = e'
  | b :: bs, e, e' => e.next.1 = Slot.beat i b ∧ Env.Beats i bs e.next.2 e'

theorem beats_append {i : Fin 2} {bs cs : List Bool} {e e' : Env} :
    Env.Beats i (bs ++ cs) e e' ↔ ∃ d, Env.Beats i bs e d ∧ Env.Beats i cs d e' := by
  induction bs generalizing e with
  | nil => exact ⟨fun h => ⟨e, rfl, h⟩, fun ⟨d, h, h'⟩ => h ▸ h'⟩
  | cons b bs ih =>
    constructor
    · intro ⟨hb, h⟩
      obtain ⟨d, h, h'⟩ := ih.mp h
      exact ⟨d, ⟨hb, h⟩, h'⟩
    · intro ⟨d, ⟨hb, h⟩, h'⟩
      exact ⟨hb, ih.mpr ⟨d, h, h'⟩⟩

theorem beats_prompt (i : Fin 2) (n : Nat) : Env.Beats i (List.replicate n false) Env.prompt Env.prompt := by
  induction n with
  | zero => rfl
  | succ n ih => exact ⟨rfl, ih⟩

theorem beats_ticking (i : Fin 2) (n : Nat) : Env.Beats i (List.replicate n true) (Env.ticking i) (Env.ticking i) := by
  induction n with
  | zero => rfl
  | succ n ih => exact ⟨rfl, ih⟩

/-! ### One access -/

theorem runMoves_append (p : Params) (ms ns : List Move) (a : Asic) :
    runMoves p (ms ++ ns) a = runMoves p ns (runMoves p ms a) := List.foldl_append

section
variable {i : Fin 2} {s : State} {b : Bool} {e e' : Env} {a a' : Asic} {c : Clock} (hb : Env.Beats i [b] e e')
include hb

theorem failure_beat : (s.reach e a).failure = none := by
  show e.next.1.fail = none
  rw [hb.1]
  rfl

theorem tick_slot (hm : runMoves s.par Slot.prompt.moves a = a') :
    (s.reach e a).tick = s.reach e' (if b then clockEdge i a' else a') := by
  have hmoves : runMoves s.par e.next.1.moves a = if b then clockEdge i a' else a' := by
    rw [hb.1, Slot.beat, runMoves_append, hm]
    cases b <;> rfl
  show ({ s with env := e.next.2, asic := runMoves s.par e.next.1.moves a } : State) = _
  rw [hmoves, hb.2]
  rfl

theorem tick_beat (hm : runMoves s.par Slot.prompt.moves (a.retimed c) = a'.retimed c)
    (hp : a'.todPend.get i = none) : (s.reach e (a.retimed c)).tick = s.reach e' (a'.retimed (c.pulsed i [b])) := by
  rw [tick_slot hb hm]
  cases b with
  | false => rfl
  | true => exact congrArg (s.reach e') (clockEdge_none hp)

/-- A poll whose first sample shows the flag clear. -/
theorem poll_beat (hl : s.par.wf = true) {r : Reg} (hr : isControl r = true) (hrw : r.access = .rw) {mask : Byte}
    (hm : runMoves s.par Slot.prompt.moves (a.retimed c) = a'.retimed c) (hp : a'.todPend.get i = none)
    (hc : a'.ctrlByte r &&& mask = 0) :
    (poll r mask).run (s.reach e (a.retimed c)) = .ok () (s.reach e' (a'.retimed (c.pulsed i [b]))) := by
  have ht := tick_beat (s := s) hb hm hp
  have hclear : (s.reach e (a.retimed c)).tick.asic.regVal r &&& mask.toNat = 0 := by
    rw [ht, regVal_control _ hr]
    exact (and_toNat_eq_zero _ _).mpr hc
  rw [← ht]
  exact poll_clear hrw hl (failure_beat hb) hclear

end

/-! ### Sequences that leave the clocks alone -/

/-- From the ASIC side `a` the program makes `n` accesses, returns `v` and leaves `a'`, whatever the clocks show and
whichever of the accesses an edge of DPLL `i` comes before: those edges alone move the clocks. -/
def Steady {α : Type} (i : Fin 2) (s : State) (n : Nat) (m : Prog α) (a : Asic) (v : α) (a' : Asic) : Prop :=
  ∀ (c : Clock) (bs : List Bool) (e e' : Env), bs.length = n → Env.Beats i bs e e' →
    m.run (s.reach e (a.retimed c)) = .ok v (s.reach e' (a'.retimed (c.pulsed i bs)))

section
variable {α β : Type} {i : Fin 2} {s : State} {n k : Nat} {a a' a'' : Asic}

theorem Steady.bind {m : Prog α} {f : α → Prog β} {v : α} {w : β} (hm : Steady i s n m a v a')
    (hf : Steady i s k (f v) a' w a'') : Steady i s (n + k) (letI := Prog.monad; m >>= f) a w a'' := by
  intro c bs e e' hlen hb
  rw [← List.take_append_drop n bs] at hb ⊢
  obtain ⟨d, hb1, hb2⟩ := beats_append.mp hb
  rw [run_bind_ok (hm c _ e d (by rw [List.length_take]; omega) hb1), Clock.pulsed_append]
  exact hf _ _ d e' (by rw [List.length_drop]; omega) hb2

theorem Steady.on {m : Prog α} {v : α} (h : Steady i s n m a v a') {proc : Proc} {l : Nat} :
    Steady i s n (m.on proc l) a v a' := fun c bs e e' hlen hb => (run_on ..).trans (h c bs e e' hlen hb)

/-- As `Steady.bind`, of a line of the pseudocode. -/
theorem Steady.line {m : Prog α} {f : α → Prog β} {v : α} {w : β} {proc : Proc} {l : Nat} (hm : Steady i s n m a v a')
    (hf : Steady i s k (f v) a' w a'') : Steady i s (n + k) (letI := Prog.monad; m.on proc l >>= f) a w a'' :=
  hm.on.bind hf

/-- A program without accesses. -/
theorem Steady.still {m : Prog α} {v : α} (h : ∀ e a, m.run (s.reach e a) = .ok v (s.reach e a)) :
    Steady i s 0 m a v a := by
  intro c bs e e' hlen hb
  obtain rfl := List.length_eq_zero_iff.mp hlen
  cases hb
  exact h e _

theorem Steady.access {m : Prog α} {v : α}
    (h : ∀ (c : Clock) (b : Bool) (e e' : Env), Env.Beats i [b] e e' →
      m.run (s.reach e (a.retimed c)) = .ok v (s.reach e' (a'.retimed (c.pulsed i [b])))) :
    Steady i s 1 m a v a' := by
  intro c bs e e' hlen hb
  obtain ⟨b, rfl⟩ := List.length_eq_one_iff.mp hlen
  exact h c b e e' hb

theorem tick_quiet {b : Bool} {e e' : Env} (hb : Env.Beats i [b] e e') (hq : a.Quiet) (c : Clock) :
    (s.reach e (a.retimed c)).tick = s.reach e' (a.retimed (c.pulsed i [b])) :=
  tick_beat hb (runMoves_prompt_quiet _ (a := a.retimed c) hq) (hq.2.1 i).2

theorem Steady.load (hq : a.Quiet) {r : Reg} (hr : r.access = .rw) : Steady i s 1 (load r) a (a.regVal r) a :=
  .access fun c b e e' hb => by
    rw [load_run, readReg_ok hr (failure_beat hb), tick_quiet hb hq]
    rfl

theorem Steady.store (hq : a.Quiet) {r : Reg} (v : Nat) (hc : isControl r = false) (ha : r.access ≠ .ro) :
    Steady i s 1 (store r v) a () (a.setReg r v) :=
  .access fun c b e e' hb => by
    rw [store_run, writeReg_data v hc ha (failure_beat hb), tick_quiet hb hq]
    rfl

theorem Steady.latch (hq : a.Quiet) {r : Reg} (b : Byte) (hw : r.width = 1)
    (h : ∀ c, storeByte s.par (a.retimed c) r.addr b = .ok (a'.retimed c)) :
    Steady i s 1 (Machine.store r b.toNat) a () a' :=
  .access fun c x e e' hb => by
    have ht := tick_quiet (s := s) hb hq c
    have hs : storeByte (s.reach e (a.retimed c)).par (s.reach e (a.retimed c)).tick.asic r.addr b =
        .ok (a'.retimed (c.pulsed i [x])) := by
      rw [ht]
      exact h _
    rw [store_run, writeReg_control b hw (failure_beat hb) hs, ht]
    rfl

/-- A poll whose first sample shows the flag clear, the responder's moves just before it having made `a'`. -/
theorem Steady.poll (hl : s.par.wf = true) {r : Reg} (hr : isControl r = true) (hrw : r.access = .rw) {mask : Byte}
    (hm : ∀ c, runMoves s.par Slot.prompt.moves (a.retimed c) = a'.retimed c) (hp : a'.todPend.get i = none)
    (hc : a'.ctrlByte r &&& mask = 0) : Steady i s 1 (poll r mask) a () a' :=
  .access fun c _ _ _ hb => poll_beat hb hl hr hrw (hm c) hp hc

theorem Steady.pollQuiet (hl : s.par.wf = true) (hq : a.Quiet) {r : Reg} (hr : isControl r = true)
    (hrw : r.access = .rw) {mask : Byte} (hc : a.ctrlByte r &&& mask = 0) : Steady i s 1 (Machine.poll r mask) a () a :=
  .poll hl hr hrw (fun c => runMoves_prompt_quiet _ (a := a.retimed c) hq) (hq.2.1 i).2 hc

theorem Steady.accesses {m : Prog α} {v : α} (h : Steady i s n m a v a') (hn : n = k) : Steady i s k m a v a' := hn ▸ h

end

/-! ### Setting the time (R164) -/

/-- The ASIC side with a time of day written and pending for the next edge of DPLL `i`. -/
def Asic.scheduled (a : Asic) (i : Fin 2) (sec ns : Nat) : Asic :=
  { ((a.setReg (.todSec i) sec).setReg (.todNs i) (imageOfNs ns)).poke (Reg.todCtrl i).addr
      TodCmd.writeNext1Hz.byte with
    todPend := upd a.todPend i (some ⟨BitVec.ofNat 48 sec, BitVec.ofNat 32 ns⟩) }

section
variable (a : Asic) (i : Fin 2)

theorem scheduled_sec {sec : Nat} (h : sec < 2 ^ 48) (ns : Nat) : (a.scheduled i sec ns).regVal (.todSec i) = sec := by
  show Memory.value (Memory.set _ _ _) _ = _
  rw [value_set_ne _ rfl (by simp)]
  show Memory.value (Memory.setValue (Memory.setValue _ _ _) _ _) _ = _
  rw [value_setValue_ne _ _ (by simp), value_setValue _ _ _ (by simpa [Reg.width] using h)]

theorem scheduled_ns (sec : Nat) {ns : Nat} (h : ns < 2 ^ 32) :
    (a.scheduled i sec ns).regVal (.todNs i) = imageOfNs ns := by
  show Memory.value (Memory.set _ _ _) _ = _
  rw [value_set_ne _ rfl (by simp)]
  exact value_setValue _ _ _ (by simp only [imageOfNs, Reg.width]; omega)

theorem scheduled_ctrl (sec ns : Nat) : (a.scheduled i sec ns).ctrlByte (.todCtrl i) = 0x13 := get_set_same ..

theorem scheduled_todPend (sec ns : Nat) : (a.scheduled i sec ns).todPend.get i =
    some ⟨BitVec.ofNat 48 sec, BitVec.ofNat 32 ns⟩ := upd_get_same ..

/-- Nothing else changes, and no register outside the DPLL's own. -/
theorem scheduled_sameBut (sec ns : Nat) : Asic.SameBut (todArea i)
    { a with todPend := upd a.todPend i (some ⟨BitVec.ofNat 48 sec, BitVec.ofNat 32 ns⟩) } (a.scheduled i sec ns) := by
  refine ⟨rfl, fun x hx => ?_⟩
  have hcov : ∀ r ∈ [Reg.todCtrl i, .todSec i, .todNs i], r.covers x = false := fun r hr => not_covers_of_mem hr hx
  show Memory.get (Memory.set (Memory.setValue (Memory.setValue _ _ _) _ _) _ _) x = _
  rw [get_set_ne _ _ (addr_ne_of_not_covers (hcov (.todCtrl i) (by simp))),
    get_setValue_out _ _ _ _ (hcov (.todNs i) (by simp)), get_setValue_out _ _ _ _ (hcov (.todSec i) (by simp))]

/-- The WRITE_NEXT_1HZ command latches the time the data registers have just been given (R173). -/
theorem storeByte_scheduled (p : Params) {sec ns : Nat} (hsec : sec < 2 ^ 48) (hns : ns < 2 ^ 32) :
    storeByte p ((a.setReg (.todSec i) sec).setReg (.todNs i) (imageOfNs ns)) (Reg.todCtrl i).addr
      TodCmd.writeNext1Hz.byte = .ok (a.scheduled i sec ns) := by
  have himage : ((a.setReg (.todSec i) sec).setReg (.todNs i) (imageOfNs ns)).todImage i =
      ⟨BitVec.ofNat 48 sec, BitVec.ofNat 32 ns⟩ := by
    have h1 : ((a.setReg (.todSec i) sec).setReg (.todNs i) (imageOfNs ns)).regVal (.todSec i) = sec :=
      (value_setValue_ne _ _ (by simp)).trans (value_setValue _ _ _ (by simpa [Reg.width] using hsec))
    have h2 : ((a.setReg (.todSec i) sec).setReg (.todNs i) (imageOfNs ns)).regVal (.todNs i) = imageOfNs ns :=
      value_setValue _ _ _ (by simp only [imageOfNs, Reg.width]; omega)
    rw [Asic.todImage, h1, h2, nsOfImage_imageOfNs hns]
  rw [storeByte_todCtrl, latchTod, if_neg (by decide), if_neg (by decide), if_pos rfl, himage]
  rfl

end

/-- `TodWrite` returns with its command pending (R164, R173). -/
theorem todWrite_steady {i : Fin 2} {s : State} {a : Asic} (hl : s.par.wf = true) (hq : a.Quiet) {sec ns : Nat}
    (hsec : sec < 2 ^ 48) (hns : ns < 2 ^ 32) : Steady i s 4 (todWrite i sec ns) a () (a.scheduled i sec ns) := by
  have hq1 : (a.setReg (.todSec i) sec).Quiet := hq.setReg sec rfl
  have hq2 : ((a.setReg (.todSec i) sec).setReg (.todNs i) (imageOfNs ns)).Quiet := hq1.setReg _ rfl
  have hdone : Steady i s 0 ((todDone i).on .todWrite 5) (a.scheduled i sec ns) () (a.scheduled i sec ns) :=
    .still fun _ _ => rfl
  unfold todWrite
  exact .accesses (.line (.pollQuiet hl hq rfl rfl (hq.2.1 i).1) <|
    .line (.store hq sec rfl (by simp [Reg.access])) <|
    .line (.store hq1 (imageOfNs ns) rfl (by simp [Reg.access])) <|
    .line (.latch (a' := a.scheduled i sec ns) hq2 _ rfl
      fun c => storeByte_scheduled (a.retimed c) i s.par hsec hns) hdone) rfl

/-! ### TOD_SET (R167) -/

section
variable {s : State} {a : Byte} {i : Fin 2} {x y : BitVec 64}

theorem toInt_toNat_of_nonneg {v : BitVec 64} (h : 0 ≤ v.toInt) : v.toInt.toNat = v.toNat := by
  rw [BitVec.toInt_eq_toNat_of_msb (BitVec.msb_eq_false_iff_two_mul_lt.mpr ?_), Int.toNat_natCast]
  rw [BitVec.toInt_eq_toNat_cond] at h
  split at h <;> omega

theorem todSet_prompt (hs : s.Prompt) (hi : a.toNat = i.1) (hy : 0 ≤ y.toInt ∧ y.toInt < 1000000000)
    (hx : 0 ≤ x.toInt ∧ x.toInt < 2 ^ 48) (o : Byte) :
    (todSet a x y).run (beginOp o s) = .ok {} ((beginOp o s).after (s.asic.scheduled i x.toNat y.toNat)) := by
  obtain ⟨hwf, hquiet, henv⟩ := hs
  have hxn := toInt_toNat_of_nonneg hx.1
  have hyn := toInt_toNat_of_nonneg hy.1
  have hwrite : (todWrite i x.toNat y.toNat).run (beginOp o s) =
      .ok () ((beginOp o s).after (s.asic.scheduled i x.toNat y.toNat)) := by
    have hrun := todWrite_steady (i := i) (s := beginOp o s) hwf hquiet (sec := x.toNat) (ns := y.toNat) (by omega)
      (by omega) s.asic.clock (List.replicate 4 false) Env.prompt Env.prompt rfl (beats_prompt i 4)
    rw [← henv] at hrun
    exact hrun
  unfold todSet
  rw [run_on_ok (checkIndex_eq (n := nDpll) i hi _), run_mark,
    run_on_ok (raiseIf_of_false ((nsCheck_eq_false_iff _).mpr hy) _ _),
    run_on_ok (raiseIf_of_false (by rw [(fitsU48_iff _).mpr hx]; rfl) _ _), hxn, hyn, run_on_ok hwrite]
  rfl

end

/-- An operation that succeeded was not turned away. -/
theorem not_rejects_of_status_zero {i : Instr} {s t : State} {e : ErrKind} (h : exec i s = .next t)
    (h0 : t.res.status = 0) : ¬Rejects i s e := by
  rintro ⟨u, hu, ⟨⟨hres, _⟩, _⟩, _⟩
  obtain rfl : u = t := by simpa using hu.symm.trans h
  rw [hres] at h0
  cases e <;> exact absurd h0 (by decide)

/-! ### The edge that applies a time (R170) -/

section
variable {a : Asic} {i : Fin 2} (hq : a.Quiet) (sec ns : Nat) (time : Tod)
include hq

/-- The counter alone changes, and registers of the DPLL's own. -/
theorem loadTime_scheduled_sameBut :
    Asic.SameBut (todArea i) (a.setTod i time) ((a.scheduled i sec ns).loadTime i time) := by
  have hpend : upd (a.scheduled i sec ns).todPend i none = a.todPend :=
    (upd_upd ..).trans ((congrArg (upd a.todPend i) (hq.2.1 i).2.symm).trans (upd_self ..))
  refine ⟨?_, fun x hx => ?_⟩
  · rw [Asic.loadTime, hpend]
    rfl
  · have hctrl : (Reg.todCtrl i).covers x = false := not_covers_of_mem (by simp) hx
    exact (get_set_ne _ _ (addr_ne_of_not_covers hctrl)).trans ((scheduled_sameBut a i sec ns).2 x hx)

theorem loadTime_scheduled_quiet : ((a.scheduled i sec ns).loadTime i time).Quiet := by
  have hset : (a.setTod i time).Quiet := hq
  refine hset.todArea (loadTime_scheduled_sameBut hq sec ns time) ?_
  rw [loadTime_ctrl, scheduled_ctrl]
  decide

end

end Sys2Proof.Machine

namespace Sys2Proof.Proofs

open Sys2Proof.Machine

/-- Settles O23: the operation leaves `Asic.scheduled`. -/
theorem todSetSchedulesTime : Obligations.TodSetSchedulesTime := by
  intro s a i x y hs hi hy0 hy1 hx0 hx1
  have hsec : x.toNat < 2 ^ 48 := by
    have := toInt_toNat_of_nonneg hx0
    omega
  have hns : y.toNat < 2 ^ 32 := by
    have := toInt_toNat_of_nonneg hy0
    omega
  obtain ⟨t, ht, hfin, hasic⟩ := finished_of_ok (i := .todSet a x y) rfl (todSet_prompt hs hi ⟨hy0, hy1⟩ ⟨hx0, hx1⟩)
  refine ⟨t, ht, hfin, ?_⟩
  rw [hasic]
  exact ⟨rfl, scheduled_ctrl .., scheduled_sec _ _ hsec _, scheduled_ns _ _ _ hns, (scheduled_sameBut ..).2⟩

/-- Settles O24: a set that succeeds passed its checks, the edge makes its time the counter, and the READ answers with
the counter. -/
theorem todSetThenGet : Obligations.TodSetThenGet := by
  intro s t a i x y hs hi hset hstatus
  have ha : a.toNat < 2 := hi ▸ i.isLt
  obtain ⟨hbadNs, hbadSec, -⟩ := badValuesReachNoRegister s a x y
  have hy : 0 ≤ y.toInt ∧ y.toInt < 1000000000 :=
    not_not.mp fun hy => not_rejects_of_status_zero hset hstatus (hbadNs ha hy)
  have hx : 0 ≤ x.toInt ∧ x.toInt < 2 ^ 48 :=
    not_not.mp fun hx => not_rejects_of_status_zero hset hstatus (hbadSec ha hy hx)
  have hxn := toInt_toNat_of_nonneg hx.1
  have hyn := toInt_toNat_of_nonneg hy.1
  obtain ⟨u, hu, hfin, hasic⟩ := finished_of_ok (i := .todSet a x y) rfl (todSet_prompt hs hi hy hx)
  obtain rfl : u = t := by simpa using hu.symm.trans hset
  obtain ⟨⟨_, _, _, _, hpar, _, _, _, _, henv⟩, _⟩ := hfin
  have hedge : clockEdge i u.asic = (s.asic.scheduled i x.toNat y.toNat).loadTime i
      ⟨BitVec.ofNat 48 x.toNat, BitVec.ofNat 32 y.toNat⟩ := by
    rw [hasic]
    exact clockEdge_some (scheduled_todPend ..)
  have hprompt : State.Prompt { u with asic := clockEdge i u.asic } :=
    ⟨hpar ▸ hs.1, hedge ▸ loadTime_scheduled_quiet hs.2.1 .., henv.trans hs.2.2⟩
  have hsec : ((clockEdge i u.asic).tod.get i).sec.toNat = x.toNat := by
    rw [hedge]
    exact (congrArg (fun time : Tod => time.sec.toNat) (upd_get_same ..)).trans (Nat.mod_eq_of_lt (by omega))
  have hns : ((clockEdge i u.asic).tod.get i).ns.toNat = y.toNat := by
    rw [hedge]
    exact (congrArg (fun time : Tod => time.ns.toNat) (upd_get_same ..)).trans (Nat.mod_eq_of_lt (by omega))
  obtain ⟨v, hv, ⟨⟨hres, _⟩, _⟩, _⟩ := finished_of_ok (i := .todGet a) rfl (todGet_prompt hprompt hi)
  have hdiv : y.toNat / 1000000000 = 0 := Nat.div_eq_of_lt (by omega)
  have hmod : y.toNat % 1000000000 = y.toNat := Nat.mod_eq_of_lt (by omega)
  refine ⟨v, hv, hres.trans ?_⟩
  simp only [hsec, hns, hdiv, hmod, Nat.add_zero, BitVec.ofNat_toNat, BitVec.setWidth_eq]

end Sys2Proof.Proofs
end

section
/-! SUPPORT. The phase step beside a ticking clock: what each of its sequences does, and how many accesses it makes. -/

namespace Sys2Proof.Machine

/-! ### Mailbox read (R132) -/

theorem loaded_retimed (p : Params) (a : Asic) (d : Domain) (k : Fin d.count) (c : Clock) :
    (a.retimed c).loaded p d k = (a.loaded p d k).retimed c := by cases d <;> rfl

/-- The acknowledge of the read just requested. -/
theorem readDone_requested (p : Params) {a : Asic} (hq : a.Quiet) (d : Domain) (k : Fin d.count) :
    (a.requested d k).readDone p d k = a.loaded p d k := by
  have himage : (a.requested d k).image p d k = a.image p d k := image_congr p rfl rfl rfl rfl d k
  have hsem : ((a.requested d k).setWindow d (a.image p d k)).ctrlByte (.mbSem d) = semRead :=
    himage ▸ (ctrl_setWindow p (a.requested d k) d k (r := .mbSem d) rfl).trans (requested_sem a d k)
  have hreq : upd (a.requested d k).mbReq d.idx .none = a.mbReq :=
    (upd_upd ..).trans ((congrArg (upd a.mbReq d.idx) (hq.req d).symm).trans (upd_self ..))
  rw [Asic.readDone, himage, Asic.clearFlag, hsem, Asic.setReq, show clearBits semRead semRead = 0 by decide]
  show ({ a with regs := _, mbReq := upd (a.requested d k).mbReq d.idx .none } : Asic) = _
  rw [hreq]
  rfl

theorem runMoves_requested (p : Params) {a : Asic} (hq : a.Quiet) (d : Domain) (k : Fin d.count) :
    runMoves p Slot.prompt.moves (a.requested d k) = a.loaded p d k := by
  have hmask : (BitVec.ofNat 16 (2 ^ k.1)).toNat = 2 ^ k.1 := by
    have hall : ∀ d : Domain, ∀ k : Fin d.count, (BitVec.ofNat 16 (2 ^ k.1)).toNat = 2 ^ k.1 := by
      intro d
      cases d <;> decide
    exact hall d k
  refine runMoves_prompt_req p (d := d) (fun e he => (req_setReq_ne _ _ he.symm).trans (hq.req e)) ?_
    (loaded_quiet p hq d k)
  exact (mbAck_read hmask (req_setReq_same ..)).trans (readDone_requested p hq d k)

theorem product_of_answer {b : SynthBank} {f : Nat} (h : b.answer = .ok f) :
    product b.base.toNat b.mult.toNat b.m.toNat b.n.toNat = some f := by
  unfold SynthBank.answer at h
  split at h
  · cases h
  · next hn =>
    cases h
    exact if_neg fun h0 => hn (BitVec.eq_of_toNat_eq h0)

section
variable {i : Fin 2} {s : State} {a : Asic} (hl : s.par.wf = true) (hq : a.Quiet)
include hl hq

theorem mbRead_steady (d : Domain) (k : Fin d.count) : Steady i s 4 (mbRead d k.1) a () (a.loaded s.par d k) := by
  have hq1 : (a.setReg (.mbMask d) (2 ^ k.1)).Quiet := hq.setReg _ rfl
  have hack : Steady i s 1 (poll (.mbSem d) semRead) (a.requested d k) () (a.loaded s.par d k) :=
    .poll hl rfl rfl (fun c => (runMoves_requested s.par (a := a.retimed c) hq d k).trans (loaded_retimed ..))
      (hq.2.1 i).2 (by rw [loaded_sem]; decide)
  unfold mbRead
  exact .accesses (.line (.pollQuiet hl hq rfl rfl (hq.sem d)) <|
    .line (.store hq _ rfl (by simp [Reg.access])) <|
    .line (.latch (a' := a.requested d k) hq1 _ rfl fun c => storeByte_requested (a.retimed c) d k s.par) <|
    hack.on) rfl

/-! ### Frequency (R191, R199) -/

theorem synthFreq_steady {k : Fin 5} {f : Nat} (hf : (a.bankSynth.get k).answer = .ok f) :
    Steady i s 8 (synthFreq k) a f (a.loaded s.par .synth k) := by
  have hq1 := loaded_quiet s.par hq .synth k
  obtain ⟨hbase, hmult, hm, hn⟩ := window_synth (loaded_window s.par a .synth k)
  have hlast : Steady i s 0 ((orRaise (product ((a.loaded s.par .synth k).regVal .synthFreqBase)
      ((a.loaded s.par .synth k).regVal .synthFreqMult) ((a.loaded s.par .synth k).regVal .synthRatioM)
      ((a.loaded s.par .synth k).regVal .synthRatioN)) .malformed).on .synthFreq 6)
      (a.loaded s.par .synth k) f (a.loaded s.par .synth k) := by
    rw [hbase, hmult, hm, hn, product_of_answer hf]
    exact .still fun _ _ => rfl
  unfold synthFreq
  exact .accesses (.line (mbRead_steady hl hq .synth k) <| .line (.load hq1 rfl) <| .line (.load hq1 rfl) <|
    .line (.load hq1 rfl) <| .line (.load hq1 rfl) hlast) rfl

/-- The synthesizer that drives a pair, read after the pair (R199). -/
theorem outSynthFreq_steady {p : Fin 10} {f : Nat} (hf : a.pairFreq p = .ok f) :
    ∃ k, Steady i s 13 (outSynthFreq p) a f ((a.loaded s.par .out p).loaded s.par .synth k) := by
  have hq1 := loaded_quiet s.par hq .out p
  obtain ⟨hsel, _⟩ := window_out (loaded_window s.par a .out p)
  unfold Asic.pairFreq at hf
  split at hf
  · next k hk =>
    refine ⟨k, ?_⟩
    have hchoice : Steady i s 0 (orRaise (synthIndex ((a.loaded s.par .out p).regVal .outSynthSel)) .malformed)
        (a.loaded s.par .out p) k (a.loaded s.par .out p) := by
      rw [hsel, hk]
      exact .still fun _ _ => rfl
    unfold outSynthFreq
    exact .accesses (.line (mbRead_steady hl hq .out p) <| .line (.load hq1 rfl) <|
      .bind hchoice ((synthFreq_steady hl hq1 hf).on)) rfl
  · cases hf

end

/-! ### Frames -/

/-- A change of the fields beside register storage goes through. -/
theorem Asic.SameBut.through {f : Nat → Bool} {a b : Asic} (h : Asic.SameBut f a b) {F : Asic → Asic}
    (hF : ∀ (a : Asic) (m : Memory), F { a with regs := m } = { F a with regs := m }) :
    Asic.SameBut f (F a) (F b) := by
  have hregs : ∀ a, (F a).regs = a.regs := fun a => (congrArg Asic.regs (hF a a.regs) :)
  have hb : F b = { F a with regs := b.regs } := (congrArg F h.1).trans (hF a b.regs)
  refine ⟨by rw [hregs, ← hb], fun x hx => ?_⟩
  rw [hregs, hregs]
  exact h.2 x hx

/-! ### Phase step (R231, R241) -/

/-- The ASIC side with a phase step's value and mask written and its command latched. -/
def Asic.phaseRequested (a : Asic) (i : Fin 2) (u : Int) (m : BitVec 16) : Asic :=
  { ((a.setReg .psData (twos 32 u)).setReg .psMask m.toNat).poke Reg.psCtrl.addr (phaseStepByte i) with
    psPend := some (((a.setReg .psData (twos 32 u)).setReg .psMask m.toNat).psImage (BitVec.ofNat 4 i.1) true) }

theorem storeByte_phaseRequested (p : Params) (a : Asic) (i : Fin 2) (u : Int) (m : BitVec 16) :
    storeByte p ((a.setReg .psData (twos 32 u)).setReg .psMask m.toNat) Reg.psCtrl.addr (phaseStepByte i) =
      .ok (a.phaseRequested i u m) := (storeByte_psCtrl ..).trans (latchPs_command ..)

/-- The latch of a phase step of `u` at the pairs of `m` (R231, R241). -/
def stepLatch (i : Fin 2) (m : BitVec 16) (u : Int) : PsLatch := ⟨BitVec.ofNat 4 i.1, true, m, BitVec.ofInt 32 u, 1⟩

/-- The latch holds what was written (R241). -/
theorem psImage_written {a : Asic} (h : a.regVal .psCount = 1) (d : BitVec 4) (u : Int) (m : BitVec 16) :
    ((a.setReg .psData (twos 32 u)).setReg .psMask m.toNat).psImage d true = ⟨d, true, m, BitVec.ofInt 32 u, 1⟩ := by
  have hmask : ((a.setReg .psData (twos 32 u)).setReg .psMask m.toNat).regVal .psMask = m.toNat :=
    value_setValue _ _ _ m.isLt
  have hdata : ((a.setReg .psData (twos 32 u)).setReg .psMask m.toNat).regVal .psData = twos 32 u :=
    (value_setValue_ne _ _ (by simp)).trans (value_setValue _ _ _ (twos_lt 32 u))
  have hcount : ((a.setReg .psData (twos 32 u)).setReg .psMask m.toNat).regVal .psCount = 1 :=
    (value_setValue_ne _ _ (by simp)).trans ((value_setValue_ne _ _ (by simp)).trans h)
  rw [Asic.psImage, hmask, hdata, hcount, ofNat_twos, BitVec.ofNat_toNat, BitVec.setWidth_eq]
  rfl

theorem phaseRequested_sameBut {a : Asic} (h : a.regVal .psCount = 1) (i : Fin 2) (u : Int) (m : BitVec 16) :
    Asic.SameBut psArea { a with psPend := some (stepLatch i m u) }
      (a.phaseRequested i u m) := by
  refine ⟨?_, fun x hx => ?_⟩
  · rw [Asic.phaseRequested, psImage_written h]
    rfl
  · have hcov : ∀ r ∈ [Reg.psCtrl, .psCount, .psMask, .psData], r.covers x = false :=
      fun r hr => not_covers_of_mem hr hx
    exact (get_set_ne _ _ (addr_ne_of_not_covers (hcov .psCtrl (by simp)))).trans <|
      (get_setValue_out _ _ _ _ (hcov .psMask (by simp))).trans (get_setValue_out _ _ _ _ (hcov .psData (by simp)))

/-- The registers STEPTIME's phase step touches. -/
def phaseArea (p : Params) : Nat → Bool := either psArea (either (mailboxArea p .out) (mailboxArea p .synth))

theorem phaseArea_eq_false {p : Params} {x : Nat} (h : phaseArea p x = false) :
    psArea x = false ∧ mailboxArea p .out x = false ∧ mailboxArea p .synth x = false := by
  simpa [phaseArea, either] using h

section
variable (p : Params) (a : Asic) (q : Fin 10) (k : Fin 5)

/-- The ASIC side with the step count written and the pair and its synthesizer read. -/
def Asic.phaseLoaded : Asic := (((a.setReg .psCount 1).loaded p .out q).loaded p .synth k)

theorem phaseLoaded_count : (a.phaseLoaded p q k).regVal .psCount = 1 := by
  have hkeep : ∀ (b : Asic) (d : Domain) (j : Fin d.count), (b.loaded p d j).regVal .psCount = b.regVal .psCount :=
    fun b d j => regVal_congr fun n hn => (loaded_sameBut p b d j).2 _
      (mailboxArea_reg p (by simp) (by simp) (by cases d <;> decide) hn)
  exact (hkeep ..).trans ((hkeep ..).trans (value_setValue _ _ _ (by decide)))

theorem phaseLoaded_sameBut : Asic.SameBut (phaseArea p) a (a.phaseLoaded p q k) := by
  have hcount : Asic.SameBut (phaseArea p) a (a.setReg .psCount 1) :=
    sameBut_setReg _ _ _ _ fun x hx => not_covers_of_mem (by simp) (phaseArea_eq_false hx).1
  exact (hcount.trans ((loaded_sameBut ..).mono fun x hx => (phaseArea_eq_false hx).2.1)).trans
    ((loaded_sameBut ..).mono fun x hx => (phaseArea_eq_false hx).2.2)

/-- A phase step changes nothing but its latch, and registers of its own and of the mailboxes it reads. -/
theorem phaseStep_sameBut (i : Fin 2) (u : Int) (m : BitVec 16) : Asic.SameBut (phaseArea p)
    { a with psPend := some (stepLatch i m u) }
    ((a.phaseLoaded p q k).phaseRequested i u m) :=
  ((phaseLoaded_sameBut p a q k).through
    (F := fun a => { a with psPend := some (stepLatch i m u) }) fun _ _ => rfl).trans
    ((phaseRequested_sameBut (phaseLoaded_count p a q k) i u m).mono fun _ hx => (phaseArea_eq_false hx).1)

end

/-- `PhaseStep` returns with its command pending (R231). -/
theorem phaseStep_steady {i : Fin 2} {s : State} {a : Asic} (hl : s.par.wf = true) (hq : a.Quiet) {q : Fin 10} {f : Nat}
    {u rem : Int} (hpair : lowestPair (s.ctl.perout.get i) = some q) (hf : a.pairFreq q = .ok f)
    (hu : stepUnits rem f = some u) :
    ∃ k, Steady i s 18 (phaseStep i rem) a () ((a.phaseLoaded s.par q k).phaseRequested i u (s.ctl.perout.get i)) := by
  have hq1 : (a.setReg .psCount 1).Quiet := hq.setReg 1 rfl
  obtain ⟨k, hfreq⟩ := outSynthFreq_steady (i := i) (s := s) hl hq1 (p := q) (f := f) hf
  have hq2 : (a.phaseLoaded s.par q k).Quiet := loaded_quiet s.par (loaded_quiet s.par hq1 .out q) .synth k
  have hq3 : ((a.phaseLoaded s.par q k).setReg .psData (twos 32 u)).Quiet := hq2.setReg _ rfl
  have hq4 : (((a.phaseLoaded s.par q k).setReg .psData (twos 32 u)).setReg .psMask
    (s.ctl.perout.get i).toNat).Quiet := hq3.setReg _ rfl
  have hperout : ∀ a : Asic, Steady i s 0 (perout i) a (s.ctl.perout.get i) a :=
    fun a => .still fun _ _ => perout_run ..
  have hchoice : ∀ a : Asic, Steady i s 0 (orRaise (lowestPair (s.ctl.perout.get i)) .unsupported) a q a :=
    fun a => hpair ▸ .still fun _ _ => rfl
  have hunits : ∀ a : Asic, Steady i s 0 (orRaise (stepUnits rem f) .range) a u a := fun a => hu ▸ .still fun _ _ => rfl
  have hend : ∀ a : Asic, Steady i s 0 (mark .phaseStep 9) a () a := fun a => .still fun _ _ => rfl
  refine ⟨k, ?_⟩
  unfold phaseStep
  exact .accesses (.line (.pollQuiet hl hq rfl rfl hq.2.2.2.1) <| .line (.store hq 1 rfl (by decide)) <|
    .line (hperout _) <| .bind (hchoice _) <| .line hfreq <| .line (hunits _) <|
    .line (.store hq2 _ rfl (by decide)) <| .line (.store hq3 _ rfl (by decide)) <|
    .line (.latch (a' := (a.phaseLoaded s.par q k).phaseRequested i u (s.ctl.perout.get i)) hq4 _ rfl
      fun c => storeByte_phaseRequested s.par ((a.phaseLoaded s.par q k).retimed c) i u _) (hend _)) rfl

end Sys2Proof.Machine
end

section
/-! SUPPORT. STEPTIME of whole seconds: the rollover wait beside a ticking clock, read by read. -/

namespace Sys2Proof.Machine

/-! ### The rollover wait (R161, R165, R172) -/

/-- The acknowledge of a READ_NEXT_1HZ in second `n` latches second `n + 1`. -/
theorem runMoves_readNext (p : Params) {a : Asic} (hq : a.Quiet) {i : Fin 2} {n : Nat}
    (hn : (a.tod.get i).sec.toNat = n) (hlt : n < 2 ^ 48 - 1) :
    runMoves p Slot.prompt.moves (a.poke (Reg.todCtrl i).addr TodCmd.readNext1Hz.byte) =
      a.timed i .readNext1Hz (n + 1) 0 := by
  have hnext : hasNextSec (a.tod.get i).sec = true := decide_eq_true (by omega)
  have hsec : ((a.tod.get i).sec + 1).toNat = n + 1 := by
    rw [BitVec.toNat_add_of_lt (by simp; omega), hn]
    rfl
  have hbyte : (a.poke (Reg.todCtrl i).addr TodCmd.readNext1Hz.byte).ctrlByte (.todCtrl i) = 0x12 := todAck_of
  refine runMoves_prompt_tod p (i := i) hq.req (fun j hj => ?_) ?_ (timed_quiet hq ..)
  · have hne : (Reg.todCtrl i).addr ≠ (Reg.todCtrl j).addr := ctrl_addr_inj rfl rfl (by simpa using hj)
    exact (congrArg (· &&& todSem) (get_set_ne _ _ hne)).trans (hq.2.1 j).1
  · rw [todAck_readNext hbyte, Asic.poke_tod, Asic.poke_draws, nextSec_of_lt (hn.symm ▸ hlt), hsec, hnext]
    rfl

theorem normalize_zero (sec : Nat) : Machine.normalize sec 0 = (sec, 0) := by simp [Machine.normalize]

section
variable {i : Fin 2} {s : State} {a : Asic} (hl : s.par.wf = true) (hq : a.Quiet)
include hl hq

/-- A READ_NEXT_1HZ whose command is written in second `n`: two accesses, the acknowledge, two more. -/
theorem todRead_beats {bs ds : List Bool} {e d e' : Env} (hb : Env.Beats i bs e d) (hlen : bs.length = 2)
    (hd : Env.Beats i ds d e') (hlen' : ds.length = 3) {c : Clock} {n : Nat}
    (hn : ((c.pulsed i bs).tod.get i).sec.toNat = n) (hlt : n < 2 ^ 48 - 1) :
    (todRead i .readNext1Hz).run (s.reach e (a.retimed c)) =
      .ok (n + 1, 0) (s.reach e' ((a.timed i .readNext1Hz (n + 1) 0).retimed ((c.pulsed i bs).pulsed i ds))) := by
  obtain ⟨b1, b2, rfl⟩ := List.length_eq_two.mp hlen
  obtain ⟨b3, b4, b5, rfl⟩ := List.length_eq_three.mp hlen'
  obtain ⟨d1, h1, h2⟩ := beats_append (bs := [b1]).mp hb
  obtain ⟨d3, h3, h4⟩ := beats_append (bs := [b3]).mp hd
  have hq' : (a.timed i .readNext1Hz (n + 1) 0).Quiet := timed_quiet hq ..
  obtain ⟨hsec, hns⟩ := timed_values a i .readNext1Hz (sec := n + 1) (ns := 0) (by omega) (by decide)
  have hpoll : Steady i s 1 (poll (.todCtrl i) todSem) a () a := .pollQuiet hl hq rfl rfl (hq.2.1 i).1
  have hcommand : Steady i s 1 (store (.todCtrl i) TodCmd.readNext1Hz.byte.toNat) a ()
      (a.poke (Reg.todCtrl i).addr TodCmd.readNext1Hz.byte) :=
    .latch hq _ rfl fun c => storeByte_todRead s.par (a.retimed c) i (by decide)
  have hack : (poll (.todCtrl i) todSem).run
      (s.reach d ((a.poke (Reg.todCtrl i).addr TodCmd.readNext1Hz.byte).retimed (c.pulsed i [b1, b2]))) =
      .ok () (s.reach d3 ((a.timed i .readNext1Hz (n + 1) 0).retimed ((c.pulsed i [b1, b2]).pulsed i [b3]))) :=
    poll_beat h3 hl rfl rfl (runMoves_readNext s.par (a := a.retimed (c.pulsed i [b1, b2])) hq hn hlt)
      (hq'.2.1 i).2 (hq'.2.1 i).1
  have hvalue : Steady i s 2 (letI := Prog.monad; (load (.todSec i)).on .todRead 4 >>= fun sec =>
      (load (.todNs i)).on .todRead 5 >>= fun b => (Prog.ret (Machine.normalize sec (nsOfImage b))).on .todRead 6)
      (a.timed i .readNext1Hz (n + 1) 0) (n + 1, 0) (a.timed i .readNext1Hz (n + 1) 0) := by
    refine .line (k := 1) (.load hq' rfl) (.line (k := 0) (.load hq' rfl) ?_)
    rw [hsec, hns, nsOfImage_imageOfNs (by decide), normalize_zero]
    exact .still fun _ _ => rfl
  unfold todRead
  rw [run_on_ok (hpoll c [b1] e d1 rfl h1), run_on_ok (hcommand _ [b2] d1 d rfl h2), ← Clock.pulsed_append,
    List.singleton_append, run_on_ok hack, hvalue _ [b4, b5] d3 e' rfl h4, ← Clock.pulsed_append, List.singleton_append]

/-- A rollover wait whose second sample is the first to show a new second. -/
theorem rolloverWait_beats {bs ds bs' ds' : List Bool} {e d e' d' e'' : Env} (hb : Env.Beats i bs e d)
    (hblen : bs.length = 2) (hd : Env.Beats i ds d e') (hdlen : ds.length = 3) (hb' : Env.Beats i bs' e' d')
    (hblen' : bs'.length = 2) (hd' : Env.Beats i ds' d' e'') (hdlen' : ds'.length = 3) {c : Clock} {n m : Nat}
    (hn : ((c.pulsed i bs).tod.get i).sec.toNat = n)
    (hm : ((((c.pulsed i bs).pulsed i ds).pulsed i bs').tod.get i).sec.toNat = m) (hnm : n < m)
    (hlt : m < 2 ^ 48 - 1) :
    ∃ a', (rolloverWait i).run (s.reach e (a.retimed c)) = .ok (m + 1, 0)
        (s.reach e'' (a'.retimed ((((c.pulsed i bs).pulsed i ds).pulsed i bs').pulsed i ds'))) ∧
      Asic.SameBut (todArea i) a a' ∧ a'.Quiet := by
  have hq1 : (a.timed i .readNext1Hz (n + 1) 0).Quiet := timed_quiet hq ..
  obtain ⟨limit, hlimit⟩ : ∃ limit, s.par.rolloverLimit = limit + 1 := by
    refine Nat.exists_eq_succ_of_ne_zero fun h0 => ?_
    simp [Params.wf, h0] at hl
  refine ⟨(a.timed i .readNext1Hz (n + 1) 0).timed i .readNext1Hz (m + 1) 0, ?_,
    (timed_sameBut ..).trans (timed_sameBut ..), timed_quiet hq1 ..⟩
  unfold rolloverWait
  rw [run_on_ok (todRead_beats hl hq hb hblen hd hdlen hn (by omega)), run_bind_ok (params_run _),
    show (s.reach e' _).par.rolloverLimit = limit + 1 from hlimit, rolloverSamples, run_mark, run_mark,
    run_on_ok (todRead_beats hl hq1 hb' hblen' hd' hdlen' hm hlt), run_mark, if_pos (by simp only; omega)]
  rfl

end

end Sys2Proof.Machine
end

section
/-! SUPPORT. STEPTIME beside a ticking clock: the write applied at an edge, and the three ways the operation ends. -/

namespace Sys2Proof.Machine

/-! ### The wait for the applied write (R168, R173) -/

section
variable {i : Fin 2} {s : State} {a : Asic} (hq : a.Quiet) (sec ns : Nat)
include hq

/-- The responder's own moves leave a pending time to the edge (R173). -/
theorem runMoves_scheduled (p : Params) :
    runMoves p Slot.prompt.moves (a.scheduled i sec ns) = a.scheduled i sec ns := by
  have htod : ∀ j, todAck j (a.scheduled i sec ns) = a.scheduled i sec ns := by
    intro j
    by_cases hj : j = i
    · subst hj
      unfold todAck
      rw [scheduled_ctrl]
      rfl
    · have hne : (Reg.todCtrl i).addr ≠ (Reg.todCtrl j).addr := ctrl_addr_inj rfl rfl (by simpa using hj)
      have hkeep : (a.scheduled i sec ns).ctrlByte (.todCtrl j) = a.ctrlByte (.todCtrl j) :=
        (get_set_ne _ _ hne).trans
          ((get_setValue_ctrl _ _ (by simp)).trans (get_setValue_ctrl _ _ (by simp)))
      exact todAck_clear (hkeep ▸ (hq.2.1 j).1)
  have hmb : ∀ d, mbAck p d (a.scheduled i sec ns) = a.scheduled i sec ns := fun d => mbAck_none p (hq.req d)
  rw [runMoves_prompt, hmb, hmb, hmb, hmb, htod, htod,
    tieAck_none (a := a.scheduled i sec ns) hq.2.2.1.2, psAck_none (a := a.scheduled i sec ns) hq.2.2.2.2]

/-- A poll that samples `m` times before the edge and once after it. -/
theorem pollClear_applied {m limit : Nat} (hm : m < limit) {e e' : Env}
    (hb : Env.Beats i (List.replicate m false ++ [true]) e e') :
    (pollClear (.todCtrl i) todSem limit).run (s.reach e (a.scheduled i sec ns)) =
      .ok () (s.reach e' ((a.scheduled i sec ns).loadTime i ⟨BitVec.ofNat 48 sec, BitVec.ofNat 32 ns⟩)) := by
  obtain ⟨l, rfl⟩ : ∃ l, limit = l + 1 := ⟨limit - 1, by omega⟩
  have hmoves := runMoves_scheduled (i := i) hq sec ns s.par
  rw [pollClear_succ]
  induction m generalizing e l with
  | zero =>
    have htick := tick_slot (s := s) hb hmoves
    rw [if_pos rfl, clockEdge_some (scheduled_todPend ..)] at htick
    have hclear := (loadTime_scheduled_quiet hq sec ns ⟨BitVec.ofNat 48 sec, BitVec.ofNat 32 ns⟩ (i := i)).2.1 i
    rw [readReg_ok rfl (failure_beat hb), htick]
    exact if_pos ((congrArg (· &&& todSem.toNat) (regVal_control _ rfl)).trans ((and_toNat_eq_zero _ _).mpr hclear.1))
  | succ m ih =>
    obtain ⟨d, hfirst, hrest⟩ := beats_append (bs := [false]) (cs := List.replicate m false ++ [true]) |>.mp hb
    have htick : (s.reach e (a.scheduled i sec ns)).tick = s.reach d (a.scheduled i sec ns) := tick_slot hfirst hmoves
    have hset : ¬(a.scheduled i sec ns).regVal (.todCtrl i) &&& todSem.toNat = 0 := by
      rw [regVal_control _ rfl, scheduled_ctrl]
      decide
    obtain ⟨l, rfl⟩ : ∃ k, l = k + 1 := ⟨l - 1, by omega⟩
    rw [readReg_ok rfl (failure_beat hfirst), htick]
    refine (if_neg hset).trans ?_
    rw [pollClear_succ]
    exact ih hrest l (by omega)

end

/-! ### Whole seconds (R233) -/

/-- The time of the stepped seconds, at their start. -/
def Tod.ofSec (sec : Int) : Tod := ⟨BitVec.ofInt 48 sec, 0⟩

theorem ofNat_toNat_eq_ofSec {sec : Int} (h : 0 ≤ sec) :
    (⟨BitVec.ofNat 48 sec.toNat, BitVec.ofNat 32 0⟩ : Tod) = Tod.ofSec sec := by
  rw [Tod.ofSec, ← BitVec.ofInt_natCast, Int.toNat_of_nonneg h]
  rfl

/-- STEPTIME's whole seconds, once the rollover is seen: the write four accesses later, its edge within the budget. The
counter is left at the stepped seconds. -/
theorem stepWhole_beats {i : Fin 2} {s : State} {a : Asic} (hl : s.par.wf = true) (hq : a.Quiet)
    (hsame : Asic.SameBut (todArea i) s.asic a) {c : Clock} {sec : Nat} {whole : Int} {bs : List Bool} {m : Nat}
    {e d e' : Env} {time : Tod} (hroll : (rolloverWait i).run s = .ok (sec, 0) (s.reach e (a.retimed c)))
    (hsec : 0 ≤ sec + whole ∧ sec + whole < 2 ^ 48) (hwrite : Env.Beats i bs e d) (hlen : bs.length = 4)
    (hwait : Env.Beats i (List.replicate m false ++ [true]) d e') (hm : m < s.par.mbPollLimit)
    (hclock : c.pulsed i bs = ⟨upd s.asic.tod i time, s.asic.draws⟩) :
    ∃ b, (stepWhole i whole).run s = .ok () (s.reach e' b) ∧ b.Quiet ∧
      Asic.SameBut (todArea i) (s.asic.setTod i (Tod.ofSec (sec + whole))) b := by
  have hq' : (a.retimed (c.pulsed i bs)).Quiet := hq
  have hfit : (!fitsU48 (sec + whole)) = false := by rw [(fitsU48_iff _).mpr hsec]; rfl
  have happlied := pollClear_applied (s := s) hq' (sec + whole).toNat 0 hm hwait
  have hset : (s.asic.retimed (c.pulsed i bs)).setTod i (Tod.ofSec (sec + whole)) =
      s.asic.setTod i (Tod.ofSec (sec + whole)) := by
    rw [hclock, Asic.setTod, Asic.retimed, upd_upd]
    rfl
  rw [ofNat_toNat_eq_ofSec hsec.1] at happlied
  refine ⟨_, ?_, loadTime_scheduled_quiet hq' (sec + whole).toNat 0 _,
    hset ▸ (hsame.through (F := fun a => (a.retimed (c.pulsed i bs)).setTod i (Tod.ofSec (sec + whole)))
      fun _ _ => rfl).trans (loadTime_scheduled_sameBut hq' ..)⟩
  unfold stepWhole
  rw [run_on_ok hroll, run_mark, run_on_ok (raiseIf_of_false hfit _ _),
    run_on_ok (todWrite_steady (s := s) hl hq (by omega) (by simp) c bs e d hlen hwrite)]
  exact (run_on ..).trans ((run_on ..).trans happlied)

/-! ### The schedules -/

/-- What is left of `Env.onTime` once the rollover is seen: an edge before the sixth access. -/
def Env.onTimeWrite (i : Fin 2) : Env :=
  ⟨List.replicate 5 Slot.prompt ++ [⟨Slot.prompt.moves ++ [.edge i], none⟩], Slot.prompt⟩

theorem beats_onTime (i : Fin 2) : Env.Beats i
    ([false, false] ++ ([false, false, false] ++ ([true, false] ++ [false, false, false]))) (Env.onTime i)
    (Env.onTimeWrite i) :=
  ⟨rfl, rfl, rfl, rfl, rfl, rfl, rfl, rfl, rfl, rfl, rfl⟩

theorem beats_onTimeWrite (i : Fin 2) :
    Env.Beats i (List.replicate 4 false ++ (List.replicate 1 false ++ [true])) (Env.onTimeWrite i) Env.prompt :=
  ⟨rfl, rfl, rfl, rfl, rfl, rfl, rfl⟩

section
variable {i : Fin 2} {s : State} (hl : s.par.wf = true) (hq : s.asic.Quiet) {n : Nat}
  (hn : (s.asic.tod.get i).sec.toNat = n) (hlt : n + 30 < 2 ^ 48)
include hl hq hn hlt

/-- On time, the rollover is seen in second `n + 1`, whose next is the time the write is for. -/
theorem rolloverWait_onTime (he : s.env = Env.onTime i) :
    ∃ a', (rolloverWait i).run s = .ok (n + 2, 0)
        (s.reach (Env.onTimeWrite i) (a'.retimed (s.asic.clock.next i))) ∧
      Asic.SameBut (todArea i) s.asic a' ∧ a'.Quiet := by
  obtain ⟨e1, h1, hrest⟩ := beats_append.mp (beats_onTime i)
  obtain ⟨e2, h2, hrest⟩ := beats_append.mp hrest
  obtain ⟨e3, h3, h4⟩ := beats_append.mp hrest
  have hedge : ((s.asic.clock.next i).tod.get i).sec.toNat = n + 1 :=
    hn ▸ Clock.pulsed_true_sec i 0 s.asic.clock (by simp only [Asic.clock]; omega)
  obtain ⟨a', hrun, hsame, hq'⟩ := rolloverWait_beats (s := s) hl hq h1 rfl h2 rfl h3 rfl h4 rfl (c := s.asic.clock)
    (n := n) (m := n + 1) hn hedge (by omega) (by omega)
  rw [← he] at hrun
  exact ⟨a', hrun, hsame, hq'⟩

/-- With an edge before every access, the sample that shows the rollover is commanded in second `n + 7`. -/
theorem rolloverWait_ticking (he : s.env = Env.ticking i) :
    ∃ a', (rolloverWait i).run s = .ok (n + 8, 0)
        (s.reach (Env.ticking i) (a'.retimed (s.asic.clock.pulsed i (List.replicate 10 true)))) ∧
      Asic.SameBut (todArea i) s.asic a' ∧ a'.Quiet := by
  have hsec : ∀ k < 20, ((s.asic.clock.pulsed i (List.replicate (k + 1) true)).tod.get i).sec.toNat = n + (k + 1) := by
    intro k hk
    exact hn ▸ Clock.pulsed_true_sec i k s.asic.clock (by simp only [Asic.clock]; omega)
  have hb := beats_ticking i
  obtain ⟨a', hrun, hsame, hq'⟩ := rolloverWait_beats (s := s) hl hq (hb 2) rfl (hb 3) rfl (hb 2) rfl (hb 3) rfl
    (c := s.asic.clock) (n := n + 2) (m := n + 7) (hsec 1 (by omega)) (hsec 6 (by omega)) (by omega) (by omega)
  rw [← he] at hrun
  exact ⟨a', he ▸ hrun, hsame, hq'⟩

end

/-! ### The operation (R233) -/

/-- A STEPTIME of whole seconds raises what its whole seconds raise. -/
theorem steptime_whole_error {s t : State} {a : Byte} {i : Fin 2} {x : BitVec 64} (hi : a.toNat = i.1)
    (hm : s.ctl.perout.get i ≠ 0) (hx : (split x.toInt).1 ≠ 0) {e : Stop}
    (h : (stepWhole i (split x.toInt).1).run s = .error e t) : (steptime a x).run s = .error e t := by
  rw [steptime_run hi hm, stepSeconds, if_neg hx]
  exact run_bind_error h

/-- Stepped seconds beyond a u48. -/
theorem stepWhole_range {s t : State} {i : Fin 2} {whole : Int} {sec ns : Nat}
    (hroll : (rolloverWait i).run s = .ok (sec, ns) t) (h : ¬(0 ≤ sec + whole ∧ sec + whole < 2 ^ 48)) :
    (stepWhole i whole).run s = .error (.raise .range) t := by
  have hfit : (!fitsU48 (sec + whole)) = true := by simpa using (fitsU48_iff _).not.mpr h
  unfold stepWhole
  rw [run_on_ok hroll, run_mark]
  exact run_on_error (raiseIf_of_true hfit _ t)

/-- Samples of a clock that stands still use up their budget (R165). -/
theorem rolloverSamples_timeout {s : State} (hl : s.par.wf = true) (he : s.env = Env.prompt) {i : Fin 2} {n : Nat}
    (hlt : n < 2 ^ 48 - 1) (limit : Nat) {a : Asic} (hq : a.Quiet) (hn : (a.tod.get i).sec.toNat = n) :
    ∃ a', (rolloverSamples i (n + 1) limit).run (s.after a) = .error (.raise .timeout) (s.after a') ∧
      Asic.SameBut (todArea i) a a' := by
  induction limit generalizing a with
  | zero => exact ⟨a, rfl, .refl ..⟩
  | succ limit ih =>
    obtain ⟨a', hrun, hsame⟩ := ih (timed_quiet hq i .readNext1Hz (n + 1) 0) hn
    have hread := todRead_next (s := s.after a) hl he hq i (hn ▸ hlt)
    rw [State.after_asic, hn] at hread
    refine ⟨a', ?_, (timed_sameBut ..).trans hsame⟩
    rw [rolloverSamples, run_mark, run_mark, run_on_ok hread, run_mark, if_neg (Nat.lt_irrefl _)]
    exact hrun

theorem stepWhole_timeout {s : State} (hl : s.par.wf = true) (he : s.env = Env.prompt) (hq : s.asic.Quiet) {i : Fin 2}
    (hlt : (s.asic.tod.get i).sec.toNat < 2 ^ 48 - 1) (whole : Int) :
    ∃ a', (stepWhole i whole).run s = .error (.raise .timeout) (s.after a') ∧ Asic.SameBut (todArea i) s.asic a' := by
  obtain ⟨a', hrun, hsame⟩ := rolloverSamples_timeout hl he hlt s.par.rolloverLimit
    (timed_quiet hq i .readNext1Hz ((s.asic.tod.get i).sec.toNat + 1) 0) rfl
  refine ⟨a', run_on_error ?_, (timed_sameBut ..).trans hsame⟩
  unfold rolloverWait
  rw [run_on_ok (todRead_next hl he hq i hlt), run_bind_ok (params_run _)]
  exact hrun

/-- The ASIC side with the counter of `i` at the start of a second, and STEPTIME's phase step latched (R231, R241). -/
def Asic.stepped (a : Asic) (i : Fin 2) (sec : Int) (m : BitVec 16) (u : Int) : Asic :=
  { a.setTod i (Tod.ofSec sec) with psPend := some (stepLatch i m u) }

/-- A STEPTIME whose whole seconds are applied: the phase step follows, eighteen accesses, and is left pending. -/
theorem steptime_applied {s : State} {a : Byte} {i : Fin 2} {x : BitVec 64} (hl : s.par.wf = true) (hi : a.toNat = i.1)
    (hx : (split x.toInt).1 ≠ 0) {b : Asic} {e e' : Env} {time : Tod} {sec : Int}
    (hstep : (stepWhole i (split x.toInt).1).run s = .ok () (s.reach e b)) (hq : b.Quiet)
    (hsame : Asic.SameBut (todArea i) (s.asic.setTod i time) b) {q : Fin 10} {f : Nat} {u : Int}
    (hpair : lowestPair (s.ctl.perout.get i) = some q) (hf : s.asic.pairFreq q = .ok f)
    (hu : stepUnits (split x.toInt).2 f = some u) {bs : List Bool} (hb : Env.Beats i bs e e') (hlen : bs.length = 18)
    (hclock : Clock.pulsed i bs ⟨upd s.asic.tod i time, s.asic.draws⟩ =
      ⟨upd s.asic.tod i (Tod.ofSec sec), s.asic.draws⟩) :
    ∃ a', (steptime a x).run s = .ok {} (s.reach e' a') ∧
      Asic.SameBut (either (todArea i) (phaseArea s.par)) (s.asic.stepped i sec (s.ctl.perout.get i) u) a' := by
  have hm : s.ctl.perout.get i ≠ 0 := fun h0 => by
    have hbit := List.find?_some hpair
    simp [h0] at hbit
  have hfreq : b.pairFreq q = .ok f := by
    rw [hsame.1]
    exact hf
  have hbclock : b.clock = ⟨upd s.asic.tod i time, s.asic.draws⟩ := by
    rw [hsame.1]
    rfl
  obtain ⟨k, hphase⟩ := phaseStep_steady (i := i) (s := s) hl hq hpair hfreq hu
  have hrun : (phaseStep i (split x.toInt).2).run (s.reach e b) = .ok () (s.reach e'
      (((b.phaseLoaded s.par q k).phaseRequested i u (s.ctl.perout.get i)).retimed (b.clock.pulsed i bs))) :=
    hphase b.clock bs e e' hlen hb
  rw [hbclock, hclock] at hrun
  refine ⟨((b.phaseLoaded s.par q k).phaseRequested i u (s.ctl.perout.get i)).retimed
    ⟨upd s.asic.tod i (Tod.ofSec sec), s.asic.draws⟩, ?_, ?_⟩
  · rw [steptime_run hi hm, stepSeconds, if_neg hx, run_bind_ok hstep]
    exact run_on_ok hrun
  · have hstepped := hsame.through (F := fun a =>
      { a.retimed ⟨upd s.asic.tod i (Tod.ofSec sec), s.asic.draws⟩ with
        psPend := some (stepLatch i (s.ctl.perout.get i) u) }) fun _ _ => rfl
    have hdone := (phaseStep_sameBut s.par b q k i u (s.ctl.perout.get i)).through
      (F := fun a => a.retimed ⟨upd s.asic.tod i (Tod.ofSec sec), s.asic.draws⟩) fun _ _ => rfl
    exact (hstepped.mono fun _ h => (Bool.or_eq_false_iff.mp h).1).trans
      (hdone.mono fun _ h => (Bool.or_eq_false_iff.mp h).2)

end Sys2Proof.Machine
end

section
/-! SUPPORT. STEPTIME of whole seconds, on each of the schedules (R233, R342). -/

namespace Sys2Proof.Machine

/-- A second for each of the edges, from stepped seconds. -/
theorem Clock.pulsed_true_ofSec (i : Fin 2) (n : Nat) (v : Vector Tod 2) (draws : Nat) {sec : Int} (h0 : 0 ≤ sec)
    (h : sec + (n + 1) < 2 ^ 48) :
    Clock.pulsed i (List.replicate (n + 1) true) ⟨upd v i (Tod.ofSec sec), draws⟩ =
      ⟨upd v i (Tod.ofSec (sec + (n + 1))), draws⟩ := by
  obtain ⟨k, rfl⟩ := Int.eq_ofNat_of_zero_le h0
  have hsec : ((upd v i (Tod.ofSec k)).get i).sec.toNat = k := by
    rw [upd_get_same, Tod.ofSec, BitVec.ofInt_natCast, BitVec.toNat_ofNat, Nat.mod_eq_of_lt (by omega)]
  have hrun := Clock.pulsed_true i n ⟨upd v i (Tod.ofSec k), draws⟩ (by simp only [hsec]; omega)
  simp only [hsec, upd_upd] at hrun
  exact hrun.trans (by rw [Tod.ofSec, ← BitVec.ofInt_natCast]; rfl)

section
variable {s : State} {a : Byte} {i : Fin 2} {x : BitVec 64} (hl : s.par.wf = true) (hq : s.asic.Quiet)
  (hi : a.toNat = i.1) (hx : (split x.toInt).1 ≠ 0) {n : Nat} (hn : (s.asic.tod.get i).sec.toNat = n)
  (hlt : n + 30 < 2 ^ 48)
include hl hq hi hx hn hlt

section
variable {q : Fin 10} {f : Nat} {u : Int} (hpair : lowestPair (s.ctl.perout.get i) = some q)
  (hf : s.asic.pairFreq q = .ok f) (hu : stepUnits (split x.toInt).2 f = some u)
include hpair hf hu

theorem steptime_onTime (he : s.env = Env.onTime i) (hlimit : 2 ≤ s.par.mbPollLimit)
    (hsec : 0 ≤ n + 2 + (split x.toInt).1 ∧ n + 2 + (split x.toInt).1 < 2 ^ 48) :
    ∃ a', (steptime a x).run s = .ok {} (s.reach Env.prompt a') ∧
      Asic.SameBut (either (todArea i) (phaseArea s.par))
        (s.asic.stepped i (n + 2 + (split x.toInt).1) (s.ctl.perout.get i) u) a' := by
  obtain ⟨b, hroll, hsame, hqb⟩ := rolloverWait_onTime hl hq hn hlt he
  obtain ⟨d, hwrite, hwait⟩ := beats_append.mp (beats_onTimeWrite i)
  have hclock : (s.asic.clock.next i).pulsed i (List.replicate 4 false) =
      ⟨upd s.asic.tod i ⟨BitVec.ofNat 48 (n + 1), 0⟩, s.asic.draws⟩ :=
    (Clock.pulsed_false ..).trans (hn ▸ Clock.pulsed_true i 0 s.asic.clock (by simp only [Asic.clock]; omega))
  obtain ⟨c, hstep, hqc, hsamec⟩ := stepWhole_beats hl hqb hsame hroll hsec hwrite rfl hwait hlimit hclock
  exact steptime_applied hl hi hx hstep hqc hsamec hpair hf hu (beats_prompt i 18) rfl (Clock.pulsed_false ..)

/-- The seconds of the eighteen accesses of the phase step begin after the stepped ones (R342). -/
theorem steptime_ticking (he : s.env = Env.ticking i)
    (hsec : 0 ≤ n + 8 + (split x.toInt).1 ∧ n + 26 + (split x.toInt).1 < 2 ^ 48) :
    ∃ a', (steptime a x).run s = .ok {} (s.reach (Env.ticking i) a') ∧
      Asic.SameBut (either (todArea i) (phaseArea s.par))
        (s.asic.stepped i (n + 26 + (split x.toInt).1) (s.ctl.perout.get i) u) a' := by
  have hlimit : 0 < s.par.mbPollLimit := by
    have := hl
    simp only [Params.wf, Bool.and_eq_true, decide_eq_true_iff] at this
    omega
  have hlast : (n : Int) + 26 + (split x.toInt).1 = n + 8 + (split x.toInt).1 + (17 + 1) := by ring
  obtain ⟨b, hroll, hsame, hqb⟩ := rolloverWait_ticking hl hq hn hlt he
  have hclock : (s.asic.clock.pulsed i (List.replicate 10 true)).pulsed i (List.replicate 4 true) =
      ⟨upd s.asic.tod i ⟨BitVec.ofNat 48 (n + 14), 0⟩, s.asic.draws⟩ :=
    (Clock.pulsed_append ..).symm.trans
      (hn ▸ Clock.pulsed_true i 13 s.asic.clock (by simp only [Asic.clock]; omega))
  obtain ⟨c, hstep, hqc, hsamec⟩ := stepWhole_beats (m := 0) hl hqb hsame hroll ⟨hsec.1, by push_cast; omega⟩
    (beats_ticking i 4) rfl (beats_ticking i 1) hlimit hclock
  exact hlast ▸ steptime_applied hl hi hx hstep hqc hsamec hpair hf hu (beats_ticking i 18) rfl
    (Clock.pulsed_true_ofSec i 17 s.asic.tod s.asic.draws hsec.1 (by push_cast; omega))

end

variable (hm : s.ctl.perout.get i ≠ 0)
include hm

theorem steptime_onTime_range (he : s.env = Env.onTime i)
    (hsec : ¬(0 ≤ n + 2 + (split x.toInt).1 ∧ n + 2 + (split x.toInt).1 < 2 ^ 48)) :
    ∃ a', (steptime a x).run s = .error (.raise .range) (s.reach (Env.onTimeWrite i) a') ∧
      Asic.SameBut (todArea i) (s.asic.setTod i ⟨BitVec.ofNat 48 (n + 1), 0⟩) a' := by
  obtain ⟨b, hroll, hsame, -⟩ := rolloverWait_onTime hl hq hn hlt he
  have hclock : s.asic.clock.next i = ⟨upd s.asic.tod i ⟨BitVec.ofNat 48 (n + 1), 0⟩, s.asic.draws⟩ :=
    hn ▸ Clock.pulsed_true i 0 s.asic.clock (by simp only [Asic.clock]; omega)
  refine ⟨_, steptime_whole_error hi hm hx (stepWhole_range hroll hsec), ?_⟩
  rw [hclock]
  exact hsame.through (F := fun a => a.retimed ⟨upd s.asic.tod i ⟨BitVec.ofNat 48 (n + 1), 0⟩, s.asic.draws⟩)
    fun _ _ => rfl

theorem steptime_still (he : s.env = Env.prompt) :
    ∃ a', (steptime a x).run s = .error (.raise .timeout) (s.after a') ∧ Asic.SameBut (todArea i) s.asic a' := by
  obtain ⟨a', hrun, hsame⟩ := stepWhole_timeout hl he hq (i := i) (by omega) (split x.toInt).1
  exact ⟨a', steptime_whole_error hi hm hx hrun, hsame⟩

end
end Sys2Proof.Machine

namespace Sys2Proof.Proofs
open Sys2Proof.Machine

/-- Settles O41: the rollover wait, the write and its edge, and the phase step, counted access by access beside the
clock. -/
theorem steptimeWholeSeconds : Obligations.SteptimeWholeSeconds := by
  intro s a i x p f n hl hq hi habs hbit hn hlt
  have hx : (split x.toInt).1 ≠ 0 := (split_whole_eq_zero_iff _).not.mpr habs.not_gt
  have hm : s.ctl.perout.get i ≠ 0 := fun h0 => by simp [h0] at hbit
  have hunits : -2 ^ 31 ≤ (x.toInt.tmod 1000000000 * f).tdiv 1000000000 →
      (x.toInt.tmod 1000000000 * f).tdiv 1000000000 < 2 ^ 31 →
      stepUnits (split x.toInt).2 f = some ((x.toInt.tmod 1000000000 * f).tdiv 1000000000) :=
    fun hlo hhi => if_pos (fitsS32_of_bounds hlo hhi)
  refine ⟨fun he hlimit h0 h48 hlow hf hlo hhi => ?_, fun he hsec => ?_, fun he => ?_,
    fun he h0 h48 hlow hf hlo hhi => ?_⟩
  · obtain ⟨t, ht, ⟨⟨hres, hto, hlock, _⟩, hperout⟩, hsame⟩ := reached_of_ok (i := .steptime a x) rfl
      (P := Asic.SameBut (either (todArea i) (phaseArea s.par)) (s.asic.stepped i (n + 2 + (split x.toInt).1)
        (s.ctl.perout.get i) _))
      fun o => steptime_onTime (s := beginOp o s) hl hq hi hx hn.symm hlt (lowestPair_eq hbit hlow) hf
        (hunits hlo hhi) he hlimit ⟨h0, h48⟩
    exact ⟨t, ht, hres, hto, hlock, hperout, hsame⟩
  · obtain ⟨t, ht, ⟨⟨hres, hto, hlock, _⟩, hperout⟩, hsame⟩ := reached_of_raise (i := .steptime a x) rfl
      (P := Asic.SameBut (todArea i) (s.asic.setTod i ⟨BitVec.ofNat 48 (n + 1), 0⟩))
      fun o => steptime_onTime_range (s := beginOp o s) hl hq hi hx hn.symm hlt hm he hsec
    exact ⟨t, ht, hres, hto, hlock, hperout, hsame⟩
  · exact reached_of_raise (i := .steptime a x) (e := s.env) rfl (P := Asic.SameBut (todArea i) s.asic)
      fun o => steptime_still (s := beginOp o s) hl hq hi hx hn.symm hlt hm he
  · obtain ⟨t, ht, hfin, hsame⟩ := reached_of_ok (i := .steptime a x) rfl (e := Env.ticking i)
      (P := Asic.SameBut (either (todArea i) (phaseArea s.par)) (s.asic.stepped i (n + 26 + (split x.toInt).1)
        (s.ctl.perout.get i) _))
      fun o => steptime_ticking (s := beginOp o s) hl hq hi hx hn.symm hlt (lowestPair_eq hbit hlow) hf
        (hunits hlo hhi) he ⟨h0, h48⟩
    rw [← he] at hfin
    exact ⟨t, ht, hfin, hsame⟩

end Sys2Proof.Proofs
end

section
/-! SUPPORT. Programs that answer a value or an error under the prompt responder (`Env.prompt`), as a function of the
banks: how they are put together, and what an operation made of one leaves. -/

namespace Sys2Proof.Machine

/-! ### Answers -/

/-- How a program that answers `e` ends, in the state `s`. -/
def answered {α : Type} (e : Except ErrKind α) (s : State) : EStateM.Result Stop State α :=
  match e with
  | .ok v => .ok v s
  | .error k => .error (.raise k) s

@[simp] theorem answered_ok {α : Type} (v : α) (s : State) : answered (.ok v) s = .ok v s := rfl

/-- One line after another, where what follows leaves the state as it was. -/
theorem run_on_answered {α β : Type} {m : Prog α} {f : α → Prog β} {g : α → Except ErrKind β} {proc : Proc} {n : Nat}
    {e : Except ErrKind α} {s s' : State} (hm : m.run s = answered e s')
    (hf : ∀ v, (f v).run s' = answered (g v) s') :
    (letI := Prog.monad; m.on proc n >>= f).run s = answered (e.bind g) s' := by
  cases e with
  | ok v => exact (run_on_ok hm).trans (hf v)
  | error k => exact run_on_error hm

/-- A result of one unsigned value (R26). -/
def natReply (v : Nat) : Reply := { x := BitVec.ofNat 64 v }

/-- An operation that answers an unsigned value, having changed registers alone. -/
theorem finished_of_nat {i : Instr} {q : Prog Reply} (hq : programOf i = some q) {s : State} {area : Nat → Bool}
    {a : Asic} (ha : Asic.SameBut area s.asic a) {e : Except ErrKind Nat}
    (h : ∀ o, q.run (beginOp o s) = answered (e.map natReply) ((beginOp o s).after a)) :
    ∃ t, exec i s = .next t ∧ s.Finished t (statusOf e) (natOf e) 0 ∧ Asic.SameBut area s.asic t.asic := by
  cases e with
  | ok v => exact reached_of_ok hq (e := s.env) (r := natReply v) fun o => ⟨a, h o, ha⟩
  | error k => exact reached_of_raise hq (e := s.env) fun o => ⟨a, h o, ha⟩

/-! ### Windows and banks -/

section
variable {s : State} (hs : s.Prompt)
include hs

theorem State.Prompt.wf : s.par.wf = true := hs.1

theorem State.Prompt.quiet : s.asic.Quiet := hs.2.1

theorem State.Prompt.schedule : s.env = Env.prompt := hs.2.2

theorem State.Prompt.after {a : Asic} (ha : a.Quiet) : (s.after a).Prompt := ⟨hs.wf, ha, hs.schedule⟩

theorem State.Prompt.load {r : Reg} (hr : r.access = .rw) : (load r).run s = .ok (s.asic.regVal r) s :=
  prompt_read hs.schedule hs.quiet hr

theorem State.Prompt.mbRead (d : Domain) (k : Fin d.count) :
    (mbRead d k.1).run s = .ok () (s.after (s.asic.loaded s.par d k)) := mbRead_prompt hs.wf hs.schedule hs.quiet d k

theorem State.Prompt.mbWrite {d : Domain} (k : Fin d.count) {fields : List (Reg × Nat)}
    (hf : ∀ f ∈ fields, windowOf f.1 = some d) :
    (mbWrite d k.1 fields).run s = .ok () (s.after (s.asic.written s.par d k fields)) :=
  mbWrite_prompt hs.wf hs.schedule hs.quiet d k fields hf

end

theorem regVal_setReg_same (a : Asic) {r : Reg} {v : Nat} (h : v < 256 ^ r.width) : (a.setReg r v).regVal r = v :=
  value_setValue _ _ _ h

theorem regVal_setReg_ne (a : Asic) {r r' : Reg} (v : Nat) (h : r ≠ r') : (a.setReg r v).regVal r' = a.regVal r' :=
  value_setValue_ne _ _ h

/-- A mailbox write changes registers, and the bank entry it commits (R133, R140). -/
theorem written_eq (p : Params) (a : Asic) (d : Domain) (k : Fin d.count) (fields : List (Reg × Nat)) :
    a.written p d k fields = { a.commit d k (((a.loaded p d k).populate fields).window p d) with
      regs := (a.written p d k fields).regs } := by
  have hpop := populate_pend (a.loaded p d k) fields
  rw [Asic.written]
  conv_lhs => rw [hpop]
  cases d <;> rfl

theorem Asic.SameButOut.refl (area : Nat → Bool) (a : Asic) : Asic.SameButOut area a.bankOut a a :=
  ⟨rfl, fun _ _ => rfl⟩

/-- A change of registers, then one of registers and output banks. -/
theorem Asic.SameBut.trans_out {f : Nat → Bool} {a b c : Asic} {banks : Vector OutBank 10} (h : Asic.SameBut f a b)
    (h' : Asic.SameButOut f banks b c) : Asic.SameButOut f banks a c := by
  refine ⟨?_, fun x hx => (h'.2 x hx).trans (h.2 x hx)⟩
  rw [h'.1, h.1]

theorem outBanks_congr {a b : Asic} (h : b.bankOut = a.bankOut) (k : Fin 10) (e : Except ErrKind OutBank) :
    b.outBanks k e = a.outBanks k e := by
  unfold Asic.outBanks
  rw [h]

/-! ### Programs that set a pair's entry -/

/-- `q` makes a pair's entry what `e` says and returns `r`, or answers the error of `e` and changes no bank (R133). -/
def State.Sets {α : Type} (s : State) (area : Nat → Bool) (k : Fin 10) (q : Prog α) (e : Except ErrKind OutBank)
    (r : α) : Prop :=
  ∃ a, q.run s = answered (e.map fun _ => r) (s.after a) ∧ a.Quiet ∧
    Asic.SameButOut area (s.asic.outBanks k e) s.asic a

section
variable {α β : Type} {s : State} {area : Nat → Bool} {k : Fin 10} {e : Except ErrKind OutBank} {r : β} {proc : Proc}
  {n : Nat}

theorem State.Sets.line {m : Prog α} {v : α} {f : α → Prog β} (hm : m.run s = .ok v s) (h : s.Sets area k (f v) e r) :
    s.Sets area k (letI := Prog.monad; m.on proc n >>= f) e r := by
  unfold State.Sets
  rw [run_on_ok hm]
  exact h

theorem State.Sets.raise (hs : s.Prompt) {m : Prog α} {f : α → Prog β} {err : ErrKind}
    (hm : m.run s = .error (.raise err) s) :
    s.Sets area k (letI := Prog.monad; m.on proc n >>= f) (.error err) r :=
  ⟨s.asic, run_on_error hm, hs.quiet, .refl ..⟩

/-- A check before what it guards (R13). -/
theorem State.Sets.check (hs : s.Prompt) {c : Bool} {P : Prop} [Decidable P] (hc : c = true ↔ P) {err : ErrKind}
    {f : Unit → Prog β} (h : ¬P → s.Sets area k (f ()) e r) :
    s.Sets area k (letI := Prog.monad; (raiseIf c err).on proc n >>= f) (if P then .error err else e) r := by
  split
  · next hp => exact .raise hs (raiseIf_of_true (hc.mpr hp) err s)
  · next hp => exact .line (raiseIf_of_false (Bool.eq_false_iff.mpr (hc.not.mpr hp)) err s) (h hp)

/-- The return after the entry is set. -/
theorem State.Sets.done {m : Prog Unit} (h : s.Sets area k m e ()) :
    s.Sets area k (letI := Prog.monad; m >>= fun _ => (Prog.ret r).on proc n) e r := by
  obtain ⟨a, hrun, hq, hsame⟩ := h
  refine ⟨a, ?_, hq, hsame⟩
  cases e with
  | ok b => exact run_bind_ok hrun
  | error err => exact run_bind_error hrun

/-- A mailbox write of one field. -/
theorem State.Sets.write (hs : s.Prompt) (harea : ∀ x, area x = false → mailboxArea s.par .out x = false) {g : Reg}
    {v : Nat} {b : OutBank} (hg : windowOf g = some .out)
    (hb : OutBank.ofImage (((s.asic.loaded s.par .out k).setReg g v).window s.par .out) = b) :
    s.Sets area k ((mbWrite .out k.1 [(g, v)]).on proc n) (.ok b) () := by
  have hf : ∀ f ∈ [(g, v)], windowOf f.1 = some .out := by simpa using hg
  exact ⟨_, (run_on ..).trans (hs.mbWrite (d := .out) k hf), written_quiet s.par hs.quiet .out k _ hf,
    hb ▸ written_eq s.par s.asic .out k _, fun x hx => written_get s.par s.asic .out k _ hf (harea x hx)⟩

end

/-- An operation that sets a pair's entry. -/
theorem finished_of_sets {i : Instr} {q : Prog Reply} (hq : programOf i = some q) {s : State} {area : Nat → Bool}
    {k : Fin 10} {e : Except ErrKind OutBank} (h : ∀ o, (beginOp o s).Sets area k q e {}) :
    ∃ t, exec i s = .next t ∧ s.Finished t (statusOf e) 0 0 ∧ t.asic.Quiet ∧
      Asic.SameButOut area (s.asic.outBanks k e) s.asic t.asic := by
  cases e with
  | ok b =>
    exact reached_of_ok hq (s := s) (e := s.env) (r := {})
      (P := fun a => a.Quiet ∧ Asic.SameButOut area (s.asic.outBanks k (.ok b)) s.asic a) h
  | error err =>
    exact reached_of_raise hq (s := s) (e := s.env)
      (P := fun a => a.Quiet ∧ Asic.SameButOut area (s.asic.outBanks k (.error err)) s.asic a) h

/-! ### The frequency of a pair (R191, R199) -/

/-- The product a check of `N` guards (R190). -/
theorem orRaise_product {w : Nat} (base mult m : Nat) (n : BitVec w) (s : State) :
    (orRaise (product base mult m n.toNat) .malformed).run s =
      answered (if n = 0 then .error .malformed else .ok (base * mult * m / n.toNat)) s := by
  have hzero : n.toNat = 0 ↔ n = 0 := by simp [BitVec.toNat_eq]
  unfold product
  by_cases h : n = 0
  · rw [if_pos h, if_pos (hzero.mpr h)]
    rfl
  · rw [if_neg h, if_neg (hzero.not.mpr h)]
    rfl

/-- `SynthFreq` under the prompt responder (R191). -/
theorem synthFreq_answers {s : State} (hs : s.Prompt) (k : Fin 5) :
    (synthFreq k).run s = answered (s.asic.bankSynth.get k).answer (s.after (s.asic.loaded s.par .synth k)) := by
  rw [synthFreq_prompt hs.wf hs.schedule hs.quiet k]
  have hrun := orRaise_product (s.asic.bankSynth.get k).base.toNat (s.asic.bankSynth.get k).mult.toNat
    (s.asic.bankSynth.get k).m.toNat (s.asic.bankSynth.get k).n (s.after (s.asic.loaded s.par .synth k))
  refine Eq.trans ?_ hrun
  unfold SynthBank.freq
  cases product (s.asic.bankSynth.get k).base.toNat (s.asic.bankSynth.get k).mult.toNat
    (s.asic.bankSynth.get k).m.toNat (s.asic.bankSynth.get k).n.toNat <;> rfl

/-- The registers `OutSynthFreq` touches. -/
def pairArea (p : Params) : Nat → Bool := either (mailboxArea p .out) (mailboxArea p .synth)

theorem pairArea_eq_false {p : Params} {x : Nat} (h : pairArea p x = false) :
    mailboxArea p .out x = false ∧ mailboxArea p .synth x = false := Bool.or_eq_false_iff.mp h

/-- The ASIC side after `OutSynthFreq`: the pair read and, where it selects one, its synthesizer. -/
def Asic.pairRead (p : Params) (a : Asic) (q : Fin 10) : Asic :=
  match synthIndex (a.bankOut.get q).synthSel.toNat with
  | some k => (a.loaded p .out q).loaded p .synth k
  | none => a.loaded p .out q

/-- What holds of a pair read, and of a synthesizer read after it, holds after `OutSynthFreq`. -/
theorem pairRead_ind {p : Params} {a : Asic} {q : Fin 10} {P : Asic → Prop} (h : P (a.loaded p .out q))
    (hk : ∀ k, P ((a.loaded p .out q).loaded p .synth k)) : P (a.pairRead p q) := by
  unfold Asic.pairRead
  split
  · exact hk _
  · exact h

section
variable (p : Params) {a : Asic} (q : Fin 10)

theorem pairRead_sameBut : Asic.SameBut (pairArea p) a (a.pairRead p q) := by
  have hout : Asic.SameBut (pairArea p) a (a.loaded p .out q) :=
    (loaded_sameBut ..).mono fun _ hx => (pairArea_eq_false hx).1
  exact pairRead_ind hout fun k => hout.trans ((loaded_sameBut ..).mono fun _ hx => (pairArea_eq_false hx).2)

theorem pairRead_quiet (h : a.Quiet) : (a.pairRead p q).Quiet :=
  pairRead_ind (loaded_quiet p h .out q) fun k => loaded_quiet p (loaded_quiet p h .out q) .synth k

/-- The pair's fields stay loaded in the Output window (R199). -/
theorem pairRead_window : (a.pairRead p q).window p .out = (a.bankOut.get q).image :=
  pairRead_ind (P := fun b => b.window p .out = (a.bankOut.get q).image) (loaded_window p a .out q) fun k =>
    (loaded_window_other p _ (d := .synth) (e := .out) k (by decide)).trans (loaded_window p a .out q)

theorem pairRead_bankOut : (a.pairRead p q).bankOut = a.bankOut :=
  pairRead_ind (P := fun b => b.bankOut = a.bankOut) rfl fun _ => rfl

end

/-- `OutSynthFreq` under the prompt responder (R199). -/
theorem outSynthFreq_answers {s : State} (hs : s.Prompt) (q : Fin 10) :
    (outSynthFreq q).run s = answered (s.asic.pairFreq q) (s.after (s.asic.pairRead s.par q)) := by
  have hs1 : (s.after (s.asic.loaded s.par .out q)).Prompt := hs.after (loaded_quiet s.par hs.quiet .out q)
  obtain ⟨hsel, _⟩ := window_out (loaded_window s.par s.asic .out q)
  unfold outSynthFreq Asic.pairFreq Asic.pairRead
  rw [run_on_ok (hs.mbRead .out q), run_on_ok (hs1.load rfl), State.after_asic, hsel]
  cases synthIndex (s.asic.bankOut.get q).synthSel.toNat with
  | some k => exact (run_on ..).trans (synthFreq_answers hs1 k)
  | none => rfl

/-- A pair's entry set after its synthesizer is read (R203, R258). -/
theorem State.Sets.afterRead {β : Type} {s : State} (hs : s.Prompt) {k : Fin 10} {f : Nat → Prog β}
    {g : Nat → Except ErrKind OutBank} {r : β} {proc : Proc} {n : Nat}
    (h : ∀ sf, (s.after (s.asic.pairRead s.par k)).Sets (pairArea s.par) k (f sf) (g sf) r) :
    s.Sets (pairArea s.par) k (letI := Prog.monad; (outSynthFreq k).on proc n >>= f) ((s.asic.pairFreq k).bind g)
      r := by
  have hread := outSynthFreq_answers hs k
  have hsame := pairRead_sameBut s.par (a := s.asic) k
  cases hfreq : s.asic.pairFreq k with
  | error err =>
    rw [hfreq] at hread
    exact ⟨_, run_on_error hread, pairRead_quiet s.par k hs.quiet, hsame⟩
  | ok sf =>
    rw [hfreq] at hread
    obtain ⟨a, hrun, hq, hset⟩ := h sf
    rw [State.after_asic, outBanks_congr (pairRead_bankOut s.par k)] at hset
    exact ⟨a, (run_on_ok hread).trans hrun, hq, hsame.trans_out hset⟩

end Sys2Proof.Machine
end

section
/-! SUPPORT. The frequency operations (42_freq_synth.md): the reference table, and what each operation answers and
writes under the prompt responder. -/

namespace Sys2Proof.Machine

/-! ### Reference frequencies (R193 to R195) -/

/-- A row of the table is its frequency's only one. -/
theorem refEncode_row : ∀ r ∈ refTable, refEncode r.1 = some r.2 := by decide

/-- The fields of a row fit their registers. -/
theorem refTable_fits : ∀ r ∈ refTable, ∀ f ∈ r.2.fields, f.2 < 256 ^ f.1.width := by decide

theorem Quad.fields_window (q : Quad) : ∀ f ∈ q.fields, windowOf f.1 = some .ref := by simp [Quad.fields, windowOf]

theorem exists_row_of_nine {f : Nat} (h : f ∈ nineFrequencies) : ∃ q, (f, q) ∈ refTable := by
  obtain ⟨row, hrow, rfl⟩ := List.mem_map.mp (show f ∈ refTable.map Prod.fst from h)
  exact ⟨row.2, hrow⟩

theorem refDecode_eq (f : Nat) : refDecode f = if f ∈ nineFrequencies then some f else none := by
  have hany : refTable.any (fun r => r.1 == f) = true ↔ f ∈ nineFrequencies := by
    rw [show nineFrequencies = refTable.map Prod.fst from rfl]
    simp
  exact if_congr hany rfl rfl

/-! ### Reference and synthesizer -/

section
variable {s : State} (hs : s.Prompt) {a : Byte}
include hs

theorem synthFreqGet_answers {k : Fin 5} (hk : a.toNat = k.1) :
    (synthFreqGet a).run s =
      answered ((s.asic.bankSynth.get k).answer.map natReply) (s.after (s.asic.loaded s.par .synth k)) := by
  unfold synthFreqGet
  rw [run_on_ok (checkIndex_eq (n := nSynth) k hk s)]
  exact run_on_answered (g := fun f => .ok (natReply f)) (synthFreq_answers hs k) fun _ => rfl

theorem refFreqGet_answers {r : Fin 10} (hr : a.toNat = r.1) :
    (refFreqGet a).run s =
      answered ((s.asic.bankRef.get r).answer.map natReply) (s.after (s.asic.loaded s.par .ref r)) := by
  have hs1 : (s.after (s.asic.loaded s.par .ref r)).Prompt := hs.after (loaded_quiet s.par hs.quiet .ref r)
  obtain ⟨hbase, hmult, hm, hn, _⟩ := window_ref (loaded_window s.par s.asic .ref r)
  unfold refFreqGet
  rw [run_on_ok (checkIndex_eq (n := nRef) r hr s), run_on_ok (hs.mbRead .ref r),
    run_on_ok (hs1.load rfl), run_on_ok (hs1.load rfl), run_on_ok (hs1.load rfl), run_on_ok (hs1.load rfl),
    State.after_asic, hbase, hmult, hm, hn, run_bind, run_on, orRaise_product]
  unfold RefBank.answer
  by_cases hn0 : (s.asic.bankRef.get r).n = 0
  · rw [if_pos hn0, if_pos hn0]
    rfl
  · rw [if_neg hn0, if_neg hn0, answered_ok]
    dsimp only
    rw [refDecode_eq]
    split <;> rfl

theorem refFreqSet_answers {r : Fin 10} (hr : a.toNat = r.1) {x : BitVec 64} {q : Quad} (hq : (x.toNat, q) ∈ refTable) :
    (refFreqSet a x).run s = .ok {} (s.after (s.asic.written s.par .ref r q.fields)) := by
  unfold refFreqSet
  rw [run_on_ok (checkIndex_eq (n := nRef) r hr s), refEncode_row _ hq, run_on_ok (orRaise_some q _ s),
    run_on_ok (hs.mbWrite (d := .ref) r q.fields_window)]
  rfl

end

/-- The entry the Ref window holds after a quadruple is written beside a reference's compensation (R197). -/
theorem ofImage_quad (p : Params) (a : Asic) (r : Fin 10) {f : Nat} {q : Quad} (hq : (f, q) ∈ refTable) :
    RefBank.ofImage (((a.loaded p .ref r).populate q.fields).window p .ref) =
      { base := BitVec.ofNat 16 q.base
        mult := BitVec.ofNat 32 q.mult
        m := BitVec.ofNat 16 q.m
        n := BitVec.ofNat 16 q.n
        phaseComp := (a.bankRef.get r).phaseComp } := by
  obtain ⟨hbase, hmult, hm, hn⟩ : q.base < 256 ^ Reg.refFreqBase.width ∧ q.mult < 256 ^ Reg.refFreqMult.width ∧
      q.m < 256 ^ Reg.refRatioM.width ∧ q.n < 256 ^ Reg.refRatioN.width := by
    simpa [Quad.fields] using refTable_fits _ hq
  obtain ⟨_, _, _, _, hcomp⟩ := window_ref (loaded_window p a .ref r)
  simp [ofImage_ref, Quad.fields, Asic.populate, regVal_setReg_ne, regVal_setReg_same _ hbase,
    regVal_setReg_same _ hmult, regVal_setReg_same _ hm, regVal_setReg_same _ hn, hcomp]

/-! ### Output frequencies (R201, R203) -/

/-- The Output window after the divider is written beside a pair's other fields. -/
theorem ofImage_div (p : Params) (a : Asic) (k : Fin 10) {v : Nat} (hv : v < 256 ^ Reg.outDiv.width) :
    OutBank.ofImage (((a.loaded p .out k).setReg .outDiv v).window p .out) =
      { a.bankOut.get k with div := BitVec.ofNat 32 v } := by
  obtain ⟨hsel, hfmt, _, hndiv, hcomp⟩ := window_out (loaded_window p a .out k)
  simp [ofImage_out, regVal_setReg_same _ hv, regVal_setReg_ne, hsel, hfmt, hndiv, hcomp]

/-- The Output window after the P/N ratio is written beside a pair's other fields. -/
theorem ofImage_ndiv (p : Params) (a : Asic) (k : Fin 10) {v : Nat} (hv : v < 256 ^ Reg.outNdiv.width) :
    OutBank.ofImage (((a.loaded p .out k).setReg .outNdiv v).window p .out) =
      { a.bankOut.get k with ndiv := BitVec.ofNat 32 v } := by
  obtain ⟨hsel, hfmt, hdiv, _, hcomp⟩ := window_out (loaded_window p a .out k)
  simp [ofImage_out, regVal_setReg_same _ hv, regVal_setReg_ne, hsel, hfmt, hdiv, hcomp]

/-- A divider field, which must not be 0 (R201). -/
def divider (v : BitVec 32) : Except ErrKind Nat := if v = 0 then .error .malformed else .ok v.toNat

theorem readDivider_answers {s : State} (hs : s.Prompt) {r : Reg} (hr : r.access = .rw) {v : BitVec 32}
    (hv : s.asic.regVal r = v.toNat) : (readDivider r).run s = answered (divider v) s := by
  have hzero : (v.toNat == 0) = decide (v = 0) := by
    rw [Bool.eq_iff_iff, beq_iff_eq, decide_eq_true_iff, ← BitVec.toNat_inj]
    rfl
  unfold readDivider divider
  rw [run_bind_ok (hs.load hr), hv, hzero]
  by_cases h : v = 0
  · rw [if_pos h, decide_eq_true h]
    rfl
  · rw [if_neg h, decide_eq_false h]
    rfl

theorem pinFreq_eq (b : OutBank) (nSide : Bool) (sf : Nat) :
    b.pinFreq nSide sf = (divider b.div).bind fun d =>
      if nSide then (divider b.ndiv).bind fun nd => .ok (sf / d / nd) else .ok (sf / d) := by
  unfold OutBank.pinFreq divider
  by_cases hd : b.div = 0
  · rw [if_pos hd, if_pos hd]
    rfl
  · rw [if_neg hd, if_neg hd]
    cases nSide with
    | false => rfl
    | true =>
      simp only [Except.bind, if_true]
      split <;> rfl

section
variable {s : State} (hs : s.Prompt)
include hs

section
variable {b : OutBank} (hb : s.asic.window s.par .out = b.image)
include hb

theorem outFreq_answers (pin : Fin 20) (sf : Nat) :
    (outFreq s.par pin sf).run s = answered (b.pinFreq (isNSide s.par pin) sf) s := by
  obtain ⟨_, _, hdiv, hndiv, _⟩ := window_out hb
  rw [pinFreq_eq]
  unfold outFreq
  refine run_on_answered (readDivider_answers hs rfl hdiv) fun d => ?_
  rw [run_mark, run_mark]
  split
  · exact run_on_answered (readDivider_answers hs rfl hndiv) fun _ => rfl
  · rfl

end

theorem outFreqGet_answers {a : Byte} {pin : Fin 20} (hpin : a.toNat = pin.1) (hfix : s.par.pinFixedRatio pin = false) :
    (outFreqGet a).run s = answered ((s.asic.pinFreq s.par pin).map natReply)
      (s.after (s.asic.pairRead s.par (pairOf pin))) := by
  have hs1 := hs.after (pairRead_quiet s.par (pairOf pin) hs.quiet)
  have hout := outFreq_answers hs1 (pairRead_window s.par (pairOf pin)) pin
  have hbind : (s.asic.pinFreq s.par pin).map natReply = (s.asic.pairFreq (pairOf pin)).bind fun sf =>
      ((s.asic.bankOut.get (pairOf pin)).pinFreq (isNSide s.par pin) sf).map natReply := by
    unfold Asic.pinFreq
    cases s.asic.pairFreq (pairOf pin) <;> rfl
  unfold outFreqGet
  rw [run_on_ok (checkIndex_eq (n := nOut) pin hpin s), run_bind_ok (params_run s),
    run_on_ok (raiseIf_of_false hfix _ s), hbind]
  exact run_on_answered (outSynthFreq_answers hs (pairOf pin)) fun sf =>
    run_on_answered (g := fun f => .ok (natReply f)) (hout sf) fun _ => rfl

/-! ### Output frequencies set (R203) -/

section
variable {area : Nat → Bool} (harea : ∀ x, area x = false → mailboxArea s.par .out x = false)
include harea

theorem setDivider_sets (k : Fin 10) (f sf : Nat) :
    s.Sets area k (setDivider k f sf) ((s.asic.bankOut.get k).setDivider f sf) () := by
  have hdivides : (sf % f != 0 || decide (sf < f)) = true ↔ sf % f ≠ 0 ∨ sf < f := by simp
  unfold setDivider OutBank.setDivider
  exact .check hs hdivides fun _ => .check hs decide_eq_true_iff fun hlt =>
    .write hs harea rfl (ofImage_div s.par s.asic k (not_le.mp hlt))

theorem setNSide_sets {k : Fin 10} (hw : s.asic.window s.par .out = (s.asic.bankOut.get k).image) (f sf : Nat) :
    s.Sets area k (setNSide k f sf) ((s.asic.bankOut.get k).setNSide f sf) () := by
  obtain ⟨_, _, hdiv, _⟩ := window_out hw
  have hread := readDivider_answers hs (r := .outDiv) rfl hdiv
  have hgreater : (!decide (sf / (s.asic.bankOut.get k).div.toNat > f)) = true ↔
      sf / (s.asic.bankOut.get k).div.toNat ≤ f := by simp
  unfold setNSide OutBank.setNSide
  unfold divider at hread
  split
  · next hzero =>
    rw [if_pos hzero] at hread
    exact .raise hs hread
  · next hzero =>
    rw [if_neg hzero] at hread
    exact .line hread <| .check hs hgreater fun _ => .check hs bne_iff_ne fun _ =>
      .check hs decide_eq_true_iff fun hlt => .write hs harea rfl (ofImage_ndiv s.par s.asic k (not_le.mp hlt))

theorem setOutFreq_sets (pin : Fin 20) (hw : s.asic.window s.par .out = (s.asic.bankOut.get (pairOf pin)).image)
    (f sf : Nat) : s.Sets area (pairOf pin) (setOutFreq s.par pin f sf)
      (if isNSide s.par pin then (s.asic.bankOut.get (pairOf pin)).setNSide f sf
        else (s.asic.bankOut.get (pairOf pin)).setDivider f sf) () := by
  unfold setOutFreq
  split
  · exact setNSide_sets hs harea hw f sf
  · exact setDivider_sets hs harea _ f sf

end

theorem outFreqSet_sets {a : Byte} {pin : Fin 20} {x : BitVec 64} (hpin : a.toNat = pin.1)
    (hfix : s.par.pinFixedRatio pin = false) (hx : x ≠ 0) :
    s.Sets (pairArea s.par) (pairOf pin) (outFreqSet a x) (s.asic.setFreq s.par pin x.toNat) {} := by
  have hx0 : (x.toNat == 0) = false := beq_eq_false_iff_ne.mpr fun h => hx (BitVec.eq_of_toNat_eq h)
  have hs1 := hs.after (pairRead_quiet s.par (pairOf pin) hs.quiet)
  have hbank := pairRead_bankOut s.par (a := s.asic) (pairOf pin)
  unfold outFreqSet Asic.setFreq
  refine .line (checkIndex_eq (n := nOut) pin hpin s) ?_
  refine .line (raiseIf_of_false hfix _ s) ?_
  refine .line (raiseIf_of_false hx0 _ s) ?_
  refine .afterRead hs fun sf => ?_
  have hset := setOutFreq_sets hs1 (fun _ hx => (pairArea_eq_false hx).1) pin
    (by rw [State.after_asic, hbank]; exact pairRead_window ..) x.toNat sf
  rw [State.after_asic, hbank] at hset
  exact .done hset

end

/-! ### The frequency set is the frequency read (R204) -/

/-- A ratio that divides evenly is no 0, and dividing by it gives back what it was made of. -/
theorem ratio_divides {v f : Nat} (hf : f ≠ 0) (hmod : v % f = 0) (hle : f ≤ v) (hfit : v / f < 2 ^ 32) :
    BitVec.ofNat 32 (v / f) ≠ 0 ∧ v / (BitVec.ofNat 32 (v / f)).toNat = f := by
  have htoNat : (BitVec.ofNat 32 (v / f)).toNat = v / f := Nat.mod_eq_of_lt hfit
  have hpos : 0 < v / f := Nat.div_pos hle (Nat.pos_of_ne_zero hf)
  refine ⟨fun h => ?_, ?_⟩
  · rw [h] at htoNat
    exact hpos.ne htoNat
  · rw [htoNat, Nat.div_div_self (Nat.dvd_of_mod_eq_zero hmod) (by omega)]

section
variable {b b' : OutBank} {f sf : Nat} (hf : f ≠ 0)
include hf

theorem pinFreq_setDivider (h : b.setDivider f sf = .ok b') :
    b'.synthSel = b.synthSel ∧ b'.pinFreq false sf = .ok f := by
  unfold OutBank.setDivider at h
  split_ifs at h with hdivides hfit
  cases h
  obtain ⟨hmod, hle⟩ := not_or.mp hdivides
  obtain ⟨hne, hdiv⟩ := ratio_divides hf (not_not.mp hmod) (not_lt.mp hle) (not_le.mp hfit)
  exact ⟨rfl, (if_neg hne).trans (congrArg Except.ok hdiv)⟩

theorem pinFreq_setNSide (h : b.setNSide f sf = .ok b') :
    b'.synthSel = b.synthSel ∧ b'.pinFreq true sf = .ok f := by
  unfold OutBank.setNSide at h
  split_ifs at h with hzero hle hmod hfit
  cases h
  obtain ⟨hne, hdiv⟩ := ratio_divides hf (not_not.mp hmod) (not_le.mp hle).le (not_le.mp hfit)
  exact ⟨rfl, (if_neg hzero).trans ((if_neg hne).trans (congrArg Except.ok hdiv))⟩

/-- With the entry OUT_FREQ_SET makes, the pin has the frequency set. -/
theorem pinFreq_of_setFreq {p : Params} {a a' : Asic} {pin : Fin 20} (h : a.setFreq p pin f = .ok b)
    (hout : a'.bankOut = upd a.bankOut (pairOf pin) b) (hsynth : a'.bankSynth = a.bankSynth) :
    a'.pinFreq p pin = .ok f := by
  have hget : a'.bankOut.get (pairOf pin) = b := by rw [hout, upd_get_same]
  unfold Asic.setFreq at h
  cases hsf : a.pairFreq (pairOf pin) with
  | error err =>
    rw [hsf] at h
    cases h
  | ok sf =>
    rw [hsf] at h
    have hset : b.synthSel = (a.bankOut.get (pairOf pin)).synthSel ∧ b.pinFreq (isNSide p pin) sf = .ok f := by
      cases hside : isNSide p pin with
      | true => exact pinFreq_setNSide hf (by simpa [Except.bind, hside] using h)
      | false => exact pinFreq_setDivider hf (by simpa [Except.bind, hside] using h)
    obtain ⟨hsel, hpin⟩ := hset
    have hpair : a'.pairFreq (pairOf pin) = .ok sf := by
      rw [← hsf, Asic.pairFreq, Asic.pairFreq, hget, hsel, hsynth]
    rw [Asic.pinFreq, hpair, hget]
    exact hpin

end

theorem code_ne_zero (e : ErrKind) : e.code ≠ 0 := by cases e <;> decide

theorem ok_of_status {α : Type} {e : Except ErrKind α} (h : statusOf e = 0) : ∃ v, e = .ok v := by
  cases e with
  | ok v => exact ⟨v, rfl⟩
  | error err => exact absurd h (code_ne_zero err)

/-- An operation turned away ends with an error. -/
theorem status_of_rejects {i : Instr} {s t : State} {e : ErrKind} (h : Rejects i s e) (ht : exec i s = .next t) :
    t.res.status ≠ 0 := by
  obtain ⟨u, hu, ⟨⟨hres, _⟩, _⟩, _⟩ := h
  cases ht.symm.trans hu
  rw [hres]
  exact code_ne_zero e

/-- What OUT_FREQ_SET checks before it reads a register (R113, R203). -/
theorem outFreqSet_accepted {s t : State} {a : Byte} {x : BitVec 64} (ht : exec (.outFreqSet a x) s = .next t)
    (hok : t.res.status = 0) : ∃ pin : Fin 20, a.toNat = pin.1 ∧ s.par.pinFixedRatio pin = false ∧ x ≠ 0 := by
  have hnot : ∀ e, ¬Rejects (.outFreqSet a x) s e := fun e h => status_of_rejects h ht hok
  by_cases ha : a.toNat < 20
  · refine ⟨⟨a.toNat, ha⟩, rfl, ?_⟩
    cases hfix : s.par.pinFixedRatio ⟨a.toNat, ha⟩ with
    | true =>
      refine absurd (rejects_of_run_here rfl fun o => ?_) (hnot .unsupported)
      exact outFreqSet_fixed (pin := ⟨a.toNat, ha⟩) rfl hfix
    | false =>
      refine ⟨rfl, fun hx => hnot .invalidArgument (rejects_of_run_here rfl fun o => ?_)⟩
      exact outFreqSet_zero (pin := ⟨a.toNat, ha⟩) rfl hfix (congrArg BitVec.toNat hx)
  · have hbad : (Instr.outFreqSet a x).indexOk = false := decide_eq_false ha
    exact absurd (rejects_of_run rfl (program_bad_index rfl hbad) s) (hnot _)

theorem outFreqSet_finished {s : State} (hs : s.Prompt) {a : Byte} {pin : Fin 20} {x : BitVec 64}
    (hpin : a.toNat = pin.1) (hfix : s.par.pinFixedRatio pin = false) (hx : x ≠ 0) :
    ∃ t, exec (.outFreqSet a x) s = .next t ∧ s.Finished t (statusOf (s.asic.setFreq s.par pin x.toNat)) 0 0 ∧
      t.asic.Quiet ∧ Asic.SameButOut (pairArea s.par)
        (s.asic.outBanks (pairOf pin) (s.asic.setFreq s.par pin x.toNat)) s.asic t.asic :=
  finished_of_sets rfl fun o => outFreqSet_sets (s := beginOp o s) hs hpin hfix hx

end Sys2Proof.Machine

namespace Sys2Proof.Proofs

open Sys2Proof.Machine

/-- Settles O42: each row of the table is a key's only one. -/
theorem referenceTableIsExact : Obligations.ReferenceTableIsExact := by
  refine ⟨rfl, rfl, by decide, fun f => ⟨fun hf => ?_, fun hf => ?_⟩⟩
  · obtain ⟨q, hq⟩ := exists_row_of_nine hf
    exact ⟨q, refEncode_row _ hq, hq, (refDecode_eq f).trans (if_pos hf)⟩
  · exact ⟨refEncode_of_not_nine hf, (refDecode_eq f).trans (if_neg hf)⟩

/-- Settles O43: the Synth window answers with the bank's product. -/
theorem synthFreqGetReturnsProduct : Obligations.SynthFreqGetReturnsProduct := fun s _ k hs hk =>
  finished_of_nat rfl (loaded_sameBut s.par s.asic .synth k) fun o => synthFreqGet_answers (s := beginOp o s) hs hk

/-- Settles O44: the Ref window answers with the bank's product, decoded by the table. -/
theorem refFreqGetDecodes : Obligations.RefFreqGetDecodes := fun s _ r hs hr =>
  finished_of_nat rfl (loaded_sameBut s.par s.asic .ref r) fun o => refFreqGet_answers (s := beginOp o s) hs hr

/-- Settles O45: the bank takes the Ref window, of which the quadruple alone was written. -/
theorem refFreqSetWritesQuadruple : Obligations.RefFreqSetWritesQuadruple := by
  intro s a r x q hs hr hq
  obtain ⟨t, ht, hfin, hasic⟩ := finished_of_ok (i := .refFreqSet a x) rfl (s := s)
    (a := s.asic.written s.par .ref r q.fields) fun o => refFreqSet_answers (s := beginOp o s) hs hr hq
  refine ⟨t, ht, hfin, ?_⟩
  rw [hasic, ← ofImage_quad s.par s.asic r hq]
  exact ⟨written_eq s.par s.asic .ref r _, fun _ hx => written_get s.par s.asic .ref r _ q.fields_window hx⟩

/-- Settles O46: the pair's synthesizer is read, and the pair's dividers from the window it leaves loaded. -/
theorem outFreqGetReturnsPinFrequency : Obligations.OutFreqGetReturnsPinFrequency := fun s _ pin hs hpin hfix =>
  finished_of_nat rfl (pairRead_sameBut s.par (pairOf pin)) fun o =>
    outFreqGet_answers (s := beginOp o s) hs hpin hfix

/-- Settles O47: the checks of either side come before its one mailbox write. -/
theorem outFreqSetWritesDivider : Obligations.OutFreqSetWritesDivider := by
  intro s a pin x hs hpin hfix hx
  obtain ⟨t, ht, hfin, _, hsame⟩ := outFreqSet_finished hs hpin hfix hx
  exact ⟨t, ht, hfin, hsame⟩

/-- Settles O48: the pair's new entry gives the pin the frequency set, and the set leaves nothing pending
for the get. -/
theorem outFreqRoundTrip : Obligations.OutFreqRoundTrip := by
  intro s t a x hs ht hok
  obtain ⟨pin, hpin, hfix, hx⟩ := outFreqSet_accepted ht hok
  obtain ⟨t', ht', ⟨⟨hres, _, _, _, hpar, _, _, _, _, henv⟩, _⟩, hquiet, hset, _⟩ :=
    outFreqSet_finished hs hpin hfix hx
  cases ht.symm.trans ht'
  rw [hres] at hok
  obtain ⟨b, hb⟩ := ok_of_status hok
  rw [hb] at hset
  have hfreq : t.asic.pinFreq t.par pin = .ok x.toNat :=
    hpar ▸ pinFreq_of_setFreq (fun h => hx (BitVec.eq_of_toNat_eq h)) hb (congrArg Asic.bankOut hset :)
      (congrArg Asic.bankSynth hset :)
  have hprompt : t.Prompt := ⟨hpar ▸ hs.wf, hquiet, henv.trans hs.schedule⟩
  obtain ⟨u, hu, ⟨⟨hget, _⟩, _⟩, _⟩ := outFreqGetReturnsPinFrequency t a pin hprompt hpin (hpar ▸ hfix)
  refine ⟨u, hu, ?_⟩
  rw [hget, hfreq, natOf, BitVec.ofNat_toNat, BitVec.setWidth_eq]
  rfl

end Sys2Proof.Proofs
end

section
/-! SUPPORT. The clock-math formulas of the adjust operations as integers: two's complement fields, the DCO offset, the
TIE value, and the split of a delta. -/

namespace Sys2Proof.Machine

/-! ### Two's complement (R10) -/

theorem sval_toNat {w : Nat} (b : BitVec w) : sval w b.toNat = b.toInt := by
  rw [BitVec.toInt_eq_msb_cond, BitVec.msb_eq_getLsbD_last, ← BitVec.testBit_toNat]
  push_cast
  rfl

theorem toNat_ofInt_eq_twos (w : Nat) (v : Int) : (BitVec.ofInt w v).toNat = twos w v := by
  rw [← ofNat_twos, BitVec.toNat_ofNat, Nat.mod_eq_of_lt (twos_lt w v)]

/-- A field holds what fits it. -/
theorem sval_twos {w : Nat} {v : Int} (hw : 0 < w) (hlo : -2 ^ (w - 1) ≤ v) (hhi : v < 2 ^ (w - 1)) :
    sval w (twos w v) = v := by
  rw [← toNat_ofInt_eq_twos, sval_toNat, BitVec.toInt_ofInt_eq_self hw hlo hhi]

/-! ### DCO offset (R220) -/

theorem twos_mod (v : Int) : ((twos 32 v % 2 ^ 16 : Nat) : Int) = v % 2 ^ 16 := by
  have h0 : 0 ≤ v % 2 ^ 32 := Int.emod_nonneg v (by decide)
  unfold twos
  omega

/-- The offset's integer and fractional parts of `ppm` are those of the floor-rounded quotient by 2^16. -/
theorem dcoOffset_eq (ppm : Int) :
    dcoOffset ppm = 281474976 * (ppm / 65536) + 281474976 * (ppm % 65536) / 65536 := by
  have hasr : asr ppm 16 = ppm / 65536 := Int.fdiv_eq_ediv_of_nonneg ppm (by decide)
  rw [dcoOffset, twos_mod, hasr]
  rfl

/-! ### TIE value and split of a delta (R224, R227) -/

theorem abs_tmod_second_lt (v : Int) : |v.tmod 1000000000| < 1000000000 :=
  abs_lt.mpr ⟨Int.lt_tmod_of_pos v (by decide), Int.tmod_lt_of_pos v (by decide)⟩

/-- A delta of less than a second is its own remainder. -/
theorem tmod_second_of_lt {v : Int} (h : |v| < 1000000000) : v.tmod 1000000000 = v := by
  have hsum := Int.tdiv_mul_add_tmod v 1000000000
  have hwhole : v.tdiv 1000000000 = 0 := (split_whole_eq_zero_iff v).mpr h
  omega

theorem abs_tieUnits_le (delta : Int) : |tieUnits delta| ≤ 99999999900000 := by
  have h := abs_lt.mp (abs_tmod_second_lt delta)
  have hunits : tieUnits delta = delta.tmod 1000000000 * 100000 := rfl
  rw [hunits, abs_le]
  omega

theorem sval_tieImage (delta : Int) : sval 48 (tieImage delta) = tieUnits delta := by
  have h := abs_le.mp (abs_tieUnits_le delta)
  exact sval_twos (by decide) (by omega) (by omega)

end Sys2Proof.Machine

namespace Sys2Proof.Proofs

open Sys2Proof.Machine

/-- Settles O35: the offset is a sum of an exact product and a floor, and its bounds fit 48 bits. -/
theorem dcoOffsetEncoding : Obligations.DcoOffsetEncoding := by
  intro ppm hlo hhi
  have heq := dcoOffset_eq ppm
  have hmin : -9223372013568 ≤ dcoOffset ppm := by omega
  have hmax : dcoOffset ppm ≤ 9223372009273 := by omega
  exact ⟨hmin, hmax, by omega, by omega, sval_twos (by decide) (by omega) (by omega), twos_lt 48 _⟩

/-- Settles O37: a remainder of a second in hundredths of a picosecond fits 48 bits. -/
theorem tieUnitsEncoding : Obligations.TieUnitsEncoding :=
  fun delta => ⟨rfl, abs_tieUnits_le delta, sval_tieImage delta, twos_lt 48 _⟩

/-- Settles O39: the quotient and the remainder of a division rounded toward zero. -/
theorem splitDelta : Obligations.SplitDelta := by
  intro delta
  have hsum : delta = (split delta).1 * 1000000000 + (split delta).2 := (Int.tdiv_mul_add_tmod delta 1000000000).symm
  have hneg : (-delta).tmod 1000000000 = -(split delta).2 := Int.neg_tmod ..
  refine ⟨hsum, abs_tmod_second_lt delta, fun h => Int.tmod_nonneg _ h, fun h => ?_, ?_⟩
  · have := Int.tmod_nonneg 1000000000 (neg_nonneg.mpr h)
    omega
  · rw [Ne, split_whole_eq_zero_iff, not_lt]

end Sys2Proof.Proofs
end

section
/-! SUPPORT. What the acknowledges of a TIE write and of a phase step leave (43_adjust.md R240, R241). -/

namespace Sys2Proof.Machine

/-! ### A counter stepped -/

theorem addNs_movedBy (t : Tod) (k : Int) (draws : Nat) : t.MovedBy k (addNs t k draws) := by
  have hsum : addNsTotal t k = t.sec.toNat * 1000000000 + t.ns.toNat + k := rfl
  have hdiv : fdiv (addNsTotal t k) nsPerS = addNsTotal t k / 1000000000 := Int.fdiv_eq_ediv_of_nonneg _ (by decide)
  unfold Tod.MovedBy
  rw [← hsum]
  refine ⟨?_, fun h0 h48 => ?_⟩
  · show ((BitVec.ofInt 32 (addNsTotal t k % 1000000000)).toNat : Int) = _
    rw [BitVec.toNat_ofInt]
    omega
  · have hfits : addNsFits t k = true := by
      rw [addNsFits, fitsU48_iff, hdiv]
      omega
    rw [addNs, if_pos hfits, hdiv, BitVec.toNat_ofInt]
    omega

section
variable (a : Asic) (i : Fin 2) (k : Int)

/-- A step of a counter changes nothing but it and the draws. -/
theorem stepTod_eq : a.stepTod i k = { a with tod := (a.stepTod i k).tod, draws := (a.stepTod i k).draws } := rfl

theorem stepTod_movedBy : (a.tod.get i).MovedBy k ((a.stepTod i k).tod.get i) := by
  have hget : (a.stepTod i k).tod.get i = addNs (a.tod.get i) k a.draws := upd_get_same ..
  exact hget ▸ addNs_movedBy ..

theorem stepTod_tod_ne {d : Fin 2} (h : d ≠ i) : (a.stepTod i k).tod.get d = a.tod.get d := upd_get_ne _ _ h.symm

end

/-! ### A flag cleared after a change of other fields -/

section
variable {a b : Asic} (hregs : b.regs = a.regs) (r : Reg) (m : Byte)
include hregs

theorem ctrlByte_cleared : (b.clearFlag r m).ctrlByte r = clearBits (a.ctrlByte r) m := by
  rw [Asic.ctrlByte, Asic.clearFlag_regs, get_set_same, Asic.ctrlByte, hregs, Asic.ctrlByte]

theorem get_cleared {addr : Nat} (h : addr ≠ r.addr) : (b.clearFlag r m).regs.get addr = a.regs.get addr := by
  rw [Asic.clearFlag_regs, get_set_ne _ _ h.symm, hregs]

end

/-! ### TIE write -/

section
variable {l : TieLatch} (a : Asic) {d : Fin 2}

theorem tieStep_selected {v : BitVec 48} (h : l.v.get d = some v) :
    tieStep l a d = a.stepTod d (Config.tieTodStep v.toInt) := by
  rw [tieStep, h]
  exact congrArg (fun u => a.stepTod d (Config.tieTodStep u)) (sval_toNat v)

theorem tieStep_unselected (h : l.v.get d = none) : tieStep l a d = a := by
  rw [tieStep, h]

theorem tieStep_eq : tieStep l a d = { a with tod := (tieStep l a d).tod, draws := (tieStep l a d).draws } := by
  cases h : l.v.get d with
  | some v => rw [tieStep_selected a h, ← stepTod_eq]
  | none => rw [tieStep_unselected a h]

theorem tieStep_tod_ne {e : Fin 2} (h : e ≠ d) : (tieStep l a d).tod.get e = a.tod.get e := by
  cases hv : l.v.get d with
  | some v => rw [tieStep_selected a hv, stepTod_tod_ne a d _ h]
  | none => rw [tieStep_unselected a hv]

end

/-- The ASIC side with every selected counter stepped. -/
def Asic.tieStepped (a : Asic) (l : TieLatch) : Asic := (List.finRange 2).foldl (tieStep l) a

theorem tieStepped_steps (a : Asic) (l : TieLatch) : a.tieStepped l = tieStep l (tieStep l a 0) 1 := rfl

theorem tieStepped_eq (a : Asic) (l : TieLatch) :
    a.tieStepped l = { a with tod := (a.tieStepped l).tod, draws := (a.tieStepped l).draws } := by
  rw [tieStepped_steps, tieStep_eq (tieStep l a 0), tieStep_eq a]

/-- A counter is what its own step makes of it: the other DPLL's step leaves it alone. -/
theorem tieStepped_tod (a : Asic) (l : TieLatch) (d : Fin 2) :
    ∃ b : Asic, b.tod.get d = a.tod.get d ∧ (a.tieStepped l).tod.get d = (tieStep l b d).tod.get d := by
  rcases dpll_cases d with rfl | rfl
  · exact ⟨a, rfl, tieStep_tod_ne (tieStep l a 0) (by decide)⟩
  · exact ⟨tieStep l a 0, tieStep_tod_ne a (by decide), rfl⟩

theorem tieStepped_unselected (a : Asic) {l : TieLatch} {d : Fin 2} (h : l.v.get d = none) :
    (a.tieStepped l).tod.get d = a.tod.get d := by
  obtain ⟨b, hb, htod⟩ := tieStepped_tod a l d
  rw [htod, tieStep_unselected b h, hb]

theorem tieStepped_movedBy (a : Asic) {l : TieLatch} {d : Fin 2} {v : BitVec 48} (h : l.v.get d = some v) :
    (a.tod.get d).MovedBy (Config.tieTodStep v.toInt) ((a.tieStepped l).tod.get d) := by
  obtain ⟨b, hb, htod⟩ := tieStepped_tod a l d
  rw [htod, tieStep_selected b h, ← hb]
  exact stepTod_movedBy ..

theorem tieAck_pending {a : Asic} {l : TieLatch} (h : a.tiePend = some l) :
    tieAck a = Asic.clearFlag { a.tieStepped l with tiePend := none } .tieCtrl tieOp := by
  rw [tieAck, h]
  rfl

theorem tieStepped_regs (a : Asic) (l : TieLatch) : (a.tieStepped l).regs = a.regs := tieFold_regs ..

/-! ### Phase step -/

theorem units_eq (l : PsLatch) : l.units = l.c.toNat * l.u.toInt := by
  rw [PsLatch.units, sval_toNat]

section
variable {l : PsLatch} (a : Asic)

theorem psStep_unflagged (h : l.t = false) : psStep l a = a := by
  rw [psStep, h]
  rfl

/-- A flagged phase step moves the counter of the DPLL it is drawn or named to move, by an amount of the parameter. -/
theorem psStep_flagged (ht : l.t = true) {i : Fin 2} (h : l.dpll a.draws = some i) :
    psStep l a = (a.drawIf (a.psOpen l)).stepTod i (Config.psTodStep (l.c.toNat * l.u.toInt) (a.creditFreq l.m)) := by
  rw [psStep, if_pos ht, h, units_eq]

theorem psStep_no_dpll (ht : l.t = true) (h : l.dpll a.draws = none) : psStep l a = a.drawIf true := by
  rw [psStep, if_pos ht, h]

theorem psStep_eq : psStep l a = { a with tod := (psStep l a).tod, draws := (psStep l a).draws } := by
  cases ht : l.t with
  | false => rw [psStep_unflagged a ht]
  | true =>
    cases h : l.dpll a.draws with
    | none =>
      rw [psStep_no_dpll a ht h]
      rfl
    | some i =>
      rw [psStep_flagged a ht h]
      rfl

theorem dpll_named {i : Fin 2} (h : l.d.toNat = i.1) (draws : Nat) : l.dpll draws = some i := by
  have hlt : l.d.toNat < 2 := h ▸ i.2
  exact (dif_pos hlt).trans (congrArg some (Fin.ext h))

end

/-- A phase step moves no counter, or one by an amount of the parameter. -/
theorem psStep_cases (l : PsLatch) (a : Asic) :
    (psStep l a).tod = a.tod ∨ ∃ i, l.dpll a.draws = some i ∧ (∀ d, d ≠ i → (psStep l a).tod.get d = a.tod.get d) ∧
      (a.tod.get i).MovedBy (Config.psTodStep (l.c.toNat * l.u.toInt) (a.creditFreq l.m)) ((psStep l a).tod.get i) := by
  cases ht : l.t with
  | false => exact .inl (by rw [psStep_unflagged a ht])
  | true =>
    cases h : l.dpll a.draws with
    | none => exact .inl (by rw [psStep_no_dpll a ht h, Asic.drawIf_tod])
    | some i =>
      rw [psStep_flagged a ht h]
      exact .inr ⟨i, rfl, fun d hd => stepTod_tod_ne _ i _ hd, stepTod_movedBy ..⟩

theorem drivenFreq_of_pairFreq {a : Asic} {q : Fin 10} {f : Nat} (h : a.pairFreq q = .ok f) :
    a.drivenFreq q = some f := by
  unfold Asic.pairFreq at h
  unfold Asic.drivenFreq
  cases hk : synthIndex (a.bankOut.get q).synthSel.toNat with
  | some k =>
    rw [hk] at h
    exact product_of_answer h
  | none =>
    rw [hk] at h
    cases h

/-- The one frequency of the selected pairs' synthesizers is credited (R241). -/
theorem creditFreq_eq {a : Asic} {m : BitVec 16} {f : Nat} (hne : ∃ q : Fin 10, m.getLsbD q.1 = true)
    (h : ∀ q : Fin 10, m.getLsbD q.1 = true → a.pairFreq q = .ok f) : a.creditFreq m = f := by
  rw [Asic.creditFreq, steppedFreq_of_all hne fun q hq => drivenFreq_of_pairFreq (h q hq)]
  rfl

theorem psAck_pending {a : Asic} {l : PsLatch} (h : a.psPend = some l) :
    psAck a = Asic.clearFlag { psStep l a with psPend := none } .psCtrl psOp := by
  rw [psAck, h]

end Sys2Proof.Machine

namespace Sys2Proof.Proofs

open Sys2Proof.Machine

/-- Settles O34: either acknowledge is its counters' steps, then one flag cleared. -/
theorem phaseAcknowledges : Obligations.PhaseAcknowledges := by
  refine fun a => ⟨fun l hl => ?_, fun l hl => ?_⟩
  · have htod : (tieAck a).tod = (a.tieStepped l).tod := by rw [tieAck_pending hl]; rfl
    rw [htod]
    refine ⟨?_, ?_, fun addr h => ?_, fun d => tieStepped_unselected a, fun d v => tieStepped_movedBy a⟩
    · rw [tieAck_pending hl, tieStepped_eq]
      rfl
    · rw [tieAck_pending hl]
      exact ctrlByte_cleared (tieStepped_regs a l) ..
    · rw [tieAck_pending hl]
      exact get_cleared (tieStepped_regs a l) _ _ h
  · have htod : (psAck a).tod = (psStep l a).tod := by rw [psAck_pending hl]; rfl
    rw [htod]
    refine ⟨?_, ?_, fun addr h => ?_, fun ht => by rw [psStep_unflagged a ht], fun i d hi hd => ?_,
      fun i f hi ht hne hf => ?_, fun _ => ?_⟩
    · rw [psAck_pending hl, psStep_eq]
      rfl
    · rw [psAck_pending hl]
      exact ctrlByte_cleared (psStep_regs l a) ..
    · rw [psAck_pending hl]
      exact get_cleared (psStep_regs l a) _ _ h
    · rcases psStep_cases l a with hsame | ⟨j, hj, hne, _⟩
      · rw [hsame]
      · cases (dpll_named hi a.draws).symm.trans hj
        exact hne d hd
    · rw [psStep_flagged a ht (dpll_named hi _), creditFreq_eq hne hf]
      exact stepTod_movedBy ..
    · rcases psStep_cases l a with hsame | ⟨j, _, hne, hmoved⟩
      · exact ⟨0, fun d _ => by rw [hsame], .inl (by rw [hsame])⟩
      · exact ⟨j, hne, .inr ⟨_, hmoved⟩⟩

end Sys2Proof.Proofs
end

section
/-! SUPPORT. ADJPHASE and STEPTIME's phase step under the prompt responder (43_adjust.md R226, R231, R233). -/

namespace Sys2Proof.Machine

/-! ### Accesses under the prompt responder -/

section
variable {s : State} (hs : s.Prompt)
include hs

theorem State.Prompt.store {r : Reg} (v : Nat) (hc : isControl r = false) (ha : r.access ≠ .ro) :
    (store r v).run s = .ok () (s.after (s.asic.setReg r v)) := prompt_write hs.schedule hs.quiet v hc ha

theorem State.Prompt.setReg {r : Reg} (v : Nat) (hc : isControl r = false) : (s.after (s.asic.setReg r v)).Prompt :=
  hs.after (hs.quiet.setReg v hc)

theorem State.Prompt.latch {r : Reg} {b : Byte} {a : Asic} (hw : r.width = 1)
    (h : storeByte s.par s.asic r.addr b = .ok a) : (Machine.store r b.toNat).run s = .ok () (s.after a) :=
  prompt_latch hs.schedule hs.quiet b hw h

theorem State.Prompt.pollQuiet {r : Reg} {mask : Byte} (hr : isControl r = true) (ha : r.access = .rw)
    (hc : s.asic.ctrlByte r &&& mask = 0) : (poll r mask).run s = .ok () s :=
  prompt_poll_quiet hs.wf hs.schedule hs.quiet hr ha hc

end

/-- As `finished_of_nat`, of an operation whose result is a status alone and whose ASIC side is known. -/
theorem finished_of_answered {α : Type} {i : Instr} {q : Prog Reply} (hq : programOf i = some q) {s : State} {a : Asic}
    {e : Except ErrKind α} (h : ∀ o, q.run (beginOp o s) = answered (e.map fun _ => {}) ((beginOp o s).after a)) :
    ∃ t, exec i s = .next t ∧ s.Finished t (statusOf e) 0 0 ∧ t.asic = a := by
  cases e with
  | ok v => exact finished_of_ok hq h
  | error k => exact finished_of_raise hq h

/-! ### TIE write (R226, R240) -/

/-- A TIE write of one DPLL steps its counter alone. -/
theorem tieStepped_one (a : Asic) {l : TieLatch} {i : Fin 2} {v : BitVec 48}
    (h : ∀ d, l.v.get d = if d = i then some v else none) :
    a.tieStepped l = a.stepTod i (Config.tieTodStep v.toInt) := by
  have hi : l.v.get i = some v := (h i).trans (if_pos rfl)
  have hother : ∀ d, d ≠ i → l.v.get d = none := fun d hd => (h d).trans (if_neg hd)
  rw [tieStepped_steps]
  rcases dpll_cases i with rfl | rfl
  · rw [tieStep_selected a hi, tieStep_unselected _ (hother 1 (by decide))]
  · rw [tieStep_unselected a (hother 0 (by decide)), tieStep_selected a hi]

section
variable (a : Asic) (i : Fin 2) (delta : Int)

theorem toInt_tieUnits : (BitVec.ofInt 48 (tieUnits delta)).toInt = tieUnits delta := by
  rw [← sval_toNat, toNat_ofInt_eq_twos]
  exact sval_tieImage delta

/-- The ASIC side after a TIE write of one DPLL is requested and performed. -/
def Asic.tieDone : Asic :=
  { a.stepTod i (Config.tieTodStep (tieUnits delta)) with
    regs := (a.tieRequested i delta).regs.set Reg.tieCtrl.addr 0 }

theorem tieDone_regs :
    (a.tieDone i delta).regs = (a.tieRequested i delta).regs.set Reg.tieCtrl.addr 0 := rfl

theorem tieAck_requested (h : a.tiePend = none) : tieAck (a.tieRequested i delta) = a.tieDone i delta := by
  have hstep := tieStepped_one (a.tieRequested i delta) (tieLoaded_latch a i delta)
  rw [toInt_tieUnits] at hstep
  have hbyte : clearBits ((a.tieRequested i delta).ctrlByte .tieCtrl) tieOp = 0 := by
    rw [tieRequested_ctrl]
    decide
  rw [tieAck_pending (l := (a.tieLoaded i delta).tieImage) rfl, hstep, Asic.tieDone, ← hbyte, ← h]
  rfl

theorem tieDone_sameBut : Asic.SameBut (inRegs [.tieCtrl, .tieMask, .tieData i])
    (a.stepTod i (Config.tieTodStep (tieUnits delta))) (a.tieDone i delta) := by
  refine ⟨rfl, fun x hx => ?_⟩
  rw [tieDone_regs, get_set_ne _ _ (addr_ne_of_not_covers (not_covers_of_mem (r := .tieCtrl) (by simp) hx))]
  exact (tieRequested_sameBut a i delta).2 x hx

theorem tieDone_ctrl : (a.tieDone i delta).ctrlByte .tieCtrl = 0 := by
  rw [Asic.ctrlByte, tieDone_regs, get_set_same]

theorem tieDone_regVal {r : Reg} (hr : r ≠ .tieCtrl) :
    (a.tieDone i delta).regVal r = (a.tieLoaded i delta).regVal r := by
  rw [Asic.regVal, tieDone_regs, value_set_ne _ rfl hr, tieRequested_regs, value_set_ne _ rfl hr, Asic.regVal]

theorem tieDone_mask : (a.tieDone i delta).regVal .tieMask = 2 ^ i.1 := by
  have hlt : ∀ i : Fin 2, 2 ^ i.1 < 256 ^ Reg.tieMask.width := by decide
  rw [tieDone_regVal a i delta (by simp), Asic.tieLoaded, regVal_setReg_ne _ _ (by simp), regVal_setReg_same _ (hlt i)]

theorem tieDone_data : (a.tieDone i delta).regVal (.tieData i) = Machine.tieImage delta := by
  rw [tieDone_regVal a i delta (by simp), Asic.tieLoaded, regVal_setReg_same _ (twos_lt 48 _)]

end

/-- Only the TIE write is pending: the prompt responder performs it and nothing else. -/
theorem runMoves_tieRequested {a : Asic} (hq : a.Quiet) (p : Params) (i : Fin 2) (delta : Int) :
    runMoves p Slot.prompt.moves (a.tieRequested i delta) = a.tieDone i delta := by
  have hreq : ∀ d, (a.tieRequested i delta).req d = .none := hq.req
  obtain ⟨_, htod, ⟨_, htie⟩, _, hps⟩ := hq
  have hout : ∀ i j : Fin 2, inRegs [.tieCtrl, .tieMask, .tieData i] (Reg.todCtrl j).addr = false := by decide
  have hctrl : ∀ j, (a.tieRequested i delta).ctrlByte (.todCtrl j) &&& todSem = 0 := fun j => by
    rw [Asic.ctrlByte, (tieRequested_sameBut a i delta).2 _ (hout i j)]
    exact (htod j).1
  rw [runMoves_prompt, mbAck_none p (hreq .ref), mbAck_none p (hreq .dpll), mbAck_none p (hreq .synth),
    mbAck_none p (hreq .out), todAck_clear (hctrl 0), todAck_clear (hctrl 1), tieAck_requested a i delta htie]
  exact psAck_none hps

/-- ADJPHASE under the prompt responder (R226). -/
theorem adjphase_prompt {s : State} (hs : s.Prompt) {a : Byte} {i : Fin 2} {x : BitVec 64} (hi : a.toNat = i.1)
    (hlo : -2 ^ 31 ≤ x.toInt) (hhi : x.toInt < 2 ^ 31) :
    (adjphase a x).run s = .ok {} (s.after (s.asic.tieDone i x.toInt)) := by
  obtain ⟨_, _, ⟨htie, _⟩, _⟩ := hs.quiet
  have hmask := hs.setReg (r := .tieMask) (2 ^ i.1) rfl
  have hdata : (s.after (s.asic.tieLoaded i x.toInt)).Prompt := hmask.setReg (r := .tieData i) (tieImage x.toInt) rfl
  have hclear : (s.asic.tieDone i x.toInt).ctrlByte .tieCtrl &&& tieOp = 0 := by
    rw [tieDone_ctrl]
    decide
  have hpoll := prompt_poll (s := s.after (s.asic.tieRequested i x.toInt)) hs.wf hs.schedule (r := .tieCtrl) rfl rfl
    (runMoves_tieRequested hs.quiet s.par i x.toInt) hclear
  rw [State.after_after] at hpoll
  unfold adjphase
  rw [run_on_ok (checkIndex_eq (n := nDpll) i hi s), run_on_ok (checkS32_ok (fitsS32_of_bounds hlo hhi) s), run_mark,
    run_on_ok (hs.pollQuiet (r := .tieCtrl) rfl rfl htie), run_on_ok (hs.store _ rfl (by decide)),
    run_on_ok (hmask.store _ rfl (by simp [Reg.access])), State.after_after, State.after_asic, ← Asic.tieLoaded,
    run_on_ok (hdata.latch (r := .tieCtrl) rfl (storeByte_tieRequested s.asic i x.toInt s.par))]
  exact run_on_ok hpoll

/-! ### Phase step (R229, R231) -/

/-- The units of a phase step of `rem`, from the frequency of the pair's synthesizer (R229). -/
def Asic.phaseUnits (a : Asic) (q : Fin 10) (rem : Int) : Except ErrKind Int :=
  (a.pairFreq q).bind fun f => if fitsS32 (stepQuotient rem f) then .ok (stepQuotient rem f) else .error .range

section
variable {a : Asic} {q : Fin 10} {f : Nat} {rem : Int}

theorem phaseUnits_ok (hf : a.pairFreq q = .ok f) (h : fitsS32 (stepQuotient rem f) = true) :
    a.phaseUnits q rem = .ok (stepQuotient rem f) := by
  rw [Asic.phaseUnits, hf, Except.bind, if_pos h]

theorem phaseUnits_range (hf : a.pairFreq q = .ok f) (h : fitsS32 (stepQuotient rem f) = false) :
    a.phaseUnits q rem = .error .range := by
  rw [Asic.phaseUnits, hf, Except.bind, h, if_neg Bool.false_ne_true]

theorem phaseUnits_error {e : ErrKind} (he : a.pairFreq q = .error e) : a.phaseUnits q rem = .error e := by
  rw [Asic.phaseUnits, he, Except.bind]

end

/-- The ASIC side with the step count written and the pair's synthesizer read. -/
def Asic.phaseRead (p : Params) (a : Asic) (q : Fin 10) : Asic := (a.setReg .psCount 1).pairRead p q

/-- The ASIC side after a phase step's units are written and its command latched, where it has units. -/
def Asic.phaseEnd (a : Asic) (i : Fin 2) (m : BitVec 16) : Except ErrKind Int → Asic
  | .ok u => a.phaseRequested i u m
  | .error _ => a

section
variable (p : Params) (a : Asic) (q : Fin 10)

theorem phaseRead_sameBut : Asic.SameBut (phaseArea p) a (a.phaseRead p q) := by
  have hcount : Asic.SameBut (phaseArea p) a (a.setReg .psCount 1) :=
    sameBut_setReg _ _ _ _ fun x hx => not_covers_of_mem (by simp) (phaseArea_eq_false hx).1
  exact hcount.trans ((pairRead_sameBut p q).mono fun x hx => (Bool.or_eq_false_iff.mp hx).2)

theorem phaseRead_count : (a.phaseRead p q).regVal .psCount = 1 := by
  have hkeep : (a.phaseRead p q).regVal .psCount = (a.setReg .psCount 1).regVal .psCount :=
    regVal_congr fun n hn => (pairRead_sameBut p q).2 _ (Bool.or_eq_false_iff.mpr
      ⟨mailboxArea_reg p (by simp) (by simp) (by decide) hn, mailboxArea_reg p (by simp) (by simp) (by decide) hn⟩)
  exact hkeep.trans (value_setValue _ _ _ (by decide))

/-- A phase step with units changes nothing but its latch and the registers it touches. -/
theorem phaseRequested_read_sameBut (i : Fin 2) (u : Int) (m : BitVec 16) : Asic.SameBut (phaseArea p)
    { a with psPend := some (stepLatch i m u) } ((a.phaseRead p q).phaseRequested i u m) :=
  ((phaseRead_sameBut p a q).through (F := fun a => { a with psPend := some (stepLatch i m u) }) fun _ _ => rfl).trans
    ((phaseRequested_sameBut (phaseRead_count p a q) i u m).mono fun _ hx => (phaseArea_eq_false hx).1)

theorem phaseStepByte_eq : ∀ i : Fin 2, phaseStepByte i = BitVec.ofNat 8 (16 * i.1 + 9) := by decide

theorem phaseRequested_ctrl (i : Fin 2) (u : Int) (m : BitVec 16) :
    (a.phaseRequested i u m).ctrlByte .psCtrl = phaseStepByte i := get_set_same ..

/-- A phase step changes no register beside those it touches, whether it has units or not. -/
theorem phaseEnd_get (i : Fin 2) (m : BitVec 16) (e : Except ErrKind Int) {x : Nat} (hx : phaseArea p x = false) :
    ((a.phaseRead p q).phaseEnd i m e).regs.get x = a.regs.get x := by
  cases e with
  | ok u => exact (phaseRequested_read_sameBut p a q i u m).2 x hx
  | error k => exact (phaseRead_sameBut p a q).2 x hx

end

/-- `PhaseStep` under the prompt responder: the command is latched, or the error left the step unmade (R229, R231). -/
theorem phaseStep_answers {s : State} (hs : s.Prompt) {i : Fin 2} {q : Fin 10}
    (hq : lowestPair (s.ctl.perout.get i) = some q) (rem : Int) :
    (phaseStep i rem).run s = answered ((s.asic.phaseUnits q rem).map fun _ => ())
      (s.after ((s.asic.phaseRead s.par q).phaseEnd i (s.ctl.perout.get i) (s.asic.phaseUnits q rem))) := by
  have hcount := hs.setReg (r := .psCount) 1 rfl
  have hread : (s.after (s.asic.phaseRead s.par q)).Prompt := hs.after (pairRead_quiet s.par q hcount.quiet)
  have hfreq : (outSynthFreq q).run (s.after (s.asic.setReg .psCount 1)) =
    answered (s.asic.pairFreq q) (s.after (s.asic.phaseRead s.par q)) := outSynthFreq_answers hcount q
  obtain ⟨_, _, _, hidle, _⟩ := hs.quiet
  unfold phaseStep
  rw [run_on_ok (hs.pollQuiet (r := .psCtrl) rfl rfl hidle), run_on_ok (hs.store 1 rfl (by decide)),
    run_on_ok (perout_run i _), State.after_ctl, hq, run_bind_ok (orRaise_some ..)]
  cases hf : s.asic.pairFreq q with
  | error k =>
    rw [phaseUnits_error hf]
    rw [hf] at hfreq
    exact run_on_error hfreq
  | ok f =>
    rw [hf] at hfreq
    rw [run_on_ok hfreq, stepUnits]
    cases hu : fitsS32 (stepQuotient rem f) with
    | true =>
      have hdata := hread.setReg (r := .psData) (twos 32 (stepQuotient rem f)) rfl
      have hmask := hdata.setReg (r := .psMask) (s.ctl.perout.get i).toNat rfl
      rw [phaseUnits_ok hf hu, if_pos rfl, run_on_ok (orRaise_some ..), run_on_ok (hread.store _ rfl (by decide)),
        run_on_ok (hdata.store _ rfl (by decide)), run_on_ok (hmask.latch (r := .psCtrl) rfl
          (storeByte_phaseRequested s.par (s.asic.phaseRead s.par q) i (stepQuotient rem f) (s.ctl.perout.get i)))]
      rfl
    | false =>
      rw [phaseUnits_range hf hu, if_neg Bool.false_ne_true]
      exact run_on_error rfl

/-- STEPTIME of less than a second is its phase step (R233). -/
theorem steptime_phase_answers {s : State} (hs : s.Prompt) {a : Byte} {i : Fin 2} {x : BitVec 64} {q : Fin 10}
    (hi : a.toNat = i.1) (hm : s.ctl.perout.get i ≠ 0) (hx : (split x.toInt).1 = 0)
    (hq : lowestPair (s.ctl.perout.get i) = some q) :
    (steptime a x).run s = answered ((s.asic.phaseUnits q (split x.toInt).2).map fun _ => {})
      (s.after ((s.asic.phaseRead s.par q).phaseEnd i (s.ctl.perout.get i)
        (s.asic.phaseUnits q (split x.toInt).2))) := by
  rw [steptime_run hi hm, stepSeconds, if_pos hx, run_bind_ok (run_ret () s)]
  have hstep := phaseStep_answers hs hq (split x.toInt).2
  cases hu : s.asic.phaseUnits q (split x.toInt).2 with
  | ok u =>
    rw [hu] at hstep
    exact run_on_ok hstep
  | error k =>
    rw [hu] at hstep
    exact run_on_error hstep

end Sys2Proof.Machine

namespace Sys2Proof.Proofs

open Sys2Proof.Machine

/-- Settles O38: the TIE write is latched, and performed before the last poll's first sample. -/
theorem adjphaseInjectsTie : Obligations.AdjphaseInjectsTie := by
  intro s a i x hs hi hlo hhi
  obtain ⟨t, ht, hfin, hasic⟩ := finished_of_ok (i := .adjphase a x) rfl (s := s) (a := s.asic.tieDone i x.toInt)
    fun o => adjphase_prompt (s := beginOp o s) hs hi hlo hhi
  refine ⟨t, ht, hfin, ?_⟩
  rw [hasic, tieDone_data]
  obtain ⟨heq, hget⟩ := tieDone_sameBut s.asic i x.toInt
  exact ⟨heq, tieDone_mask .., sval_tieImage _, tieDone_ctrl .., hget⟩

/-- Settles O40: the phase step's answer decides the status, and whether its command is latched. -/
theorem steptimeSubSecond : Obligations.SteptimeSubSecond := by
  intro s a i x q hs hi habs hbit hlow
  have hm : s.ctl.perout.get i ≠ 0 := fun h0 => by simp [h0] at hbit
  have hrem : (split x.toInt).2 = x.toInt := tmod_second_of_lt habs
  obtain ⟨t, ht, hfin, hasic⟩ := finished_of_answered (i := .steptime a x) rfl (s := s)
    (e := s.asic.phaseUnits q (split x.toInt).2)
    (a := (s.asic.phaseRead s.par q).phaseEnd i (s.ctl.perout.get i) (s.asic.phaseUnits q (split x.toInt).2)) fun o =>
    steptime_phase_answers (s := beginOp o s) hs hi hm ((split_whole_eq_zero_iff _).mpr habs) (lowestPair_eq hbit hlow)
  rw [hrem] at hfin hasic
  have hsame := (phaseRead_sameBut s.par s.asic q).1
  refine ⟨t, ht, fun x hx => hasic ▸ phaseEnd_get s.par s.asic q i _ _ hx, ?_, ?_, ?_⟩
  · rintro f u hf rfl ⟨hlo, hhi⟩
    have hunits := phaseUnits_ok hf (fitsS32_of_bounds hlo hhi)
    rw [hunits] at hfin hasic
    rw [hasic]
    exact ⟨hfin, (phaseRequested_ctrl ..).trans (phaseStepByte_eq i),
      (phaseRequested_read_sameBut s.par s.asic q i _ _).1⟩
  · rintro f u hf rfl hfit
    have hunits := phaseUnits_range hf (fitsS32_eq_false hfit)
    rw [hunits] at hfin hasic
    exact ⟨hfin, hasic ▸ hsame⟩
  · intro e he
    rw [phaseUnits_error he] at hfin hasic
    exact ⟨hfin, hasic ▸ hsame⟩

end Sys2Proof.Proofs
end

section
/-! SUPPORT. The phase-compensation operations (44_phase_comp.md) under the prompt responder: what their formulas answer,
what each operation returns and leaves, and which value the next get returns. -/

namespace Sys2Proof.Machine

/-! ### Formulas (R251, R254, R256) -/

theorem fitsS32_iff (v : Int) : fitsS32 v = true ↔ -2 ^ 31 ≤ v ∧ v < 2 ^ 31 := by
  rw [fitsS32, Bool.and_eq_true, decide_eq_true_iff, decide_eq_true_iff]

/-- A reference's compensation decoded from its register (R251). -/
theorem orRaise_refPhaseDecode (b : RefBank) (s : State) :
    (orRaise (refPhaseDecode b.phaseComp.toNat) .range).run s = answered b.comp s := by
  have hfit := fitsS32_iff b.phaseComp.toInt
  unfold refPhaseDecode RefBank.comp
  rw [sval_toNat]
  by_cases h : -2 ^ 31 < b.phaseComp.toInt ∧ b.phaseComp.toInt < 2 ^ 31
  · rw [hfit.mpr (by omega), if_neg (by decide), if_neg (by omega), if_pos h]
    rfl
  · rw [if_neg h]
    split
    · rfl
    · next hs32 =>
      have hbounds := hfit.mp (by simpa using hs32)
      rw [if_pos (by omega)]
      rfl

/-- The half cycle of a frequency, which must not be 0 (R254). -/
def halfAnswer (f : Nat) : Except ErrKind Nat :=
  if f = 0 ∨ 1000000000000 / (2 * f) = 0 then .error .malformed else .ok (1000000000000 / (2 * f))

theorem pairHalf_eq (a : Asic) (p : Fin 10) : a.pairHalf p = (a.pairFreq p).bind halfAnswer := rfl

theorem orRaise_halfCycle (f : Nat) (s : State) :
    (orRaise (halfCycle f) .malformed).run s = answered (halfAnswer f) s := by
  have hquot : halfCycleQuotient f = 1000000000000 / (2 * f) := rfl
  unfold halfCycle halfAnswer
  rw [hquot]
  by_cases hf : f = 0
  · rw [if_pos hf, if_pos (.inl hf)]
    rfl
  · rw [if_neg hf]
    by_cases hh : 1000000000000 / (2 * f) = 0
    · rw [if_pos hh, if_pos (.inr hh)]
      rfl
    · rw [if_neg hh, if_neg (not_or.mpr ⟨hf, hh⟩)]
      rfl

/-- A pair's compensation in picoseconds, from its half cycle (R256). -/
def OutBank.compOf (b : OutBank) (h : Nat) : Except ErrKind Int :=
  if -2 ^ 31 ≤ -b.phaseComp.toInt * h ∧ -b.phaseComp.toInt * h < 2 ^ 31 then .ok (-b.phaseComp.toInt * h)
  else .error .range

theorem pinComp_eq (a : Asic) (pin : Fin 20) :
    a.pinComp pin = (a.pairHalf (pairOf pin)).bind (a.bankOut.get (pairOf pin)).compOf := rfl

theorem orRaise_outPhaseDecode (b : OutBank) (h : Nat) (s : State) :
    (orRaise (outPhaseDecode b.phaseComp.toNat h) .range).run s = answered (b.compOf h) s := by
  unfold outPhaseDecode OutBank.compOf
  rw [sval_toNat]
  simp only [fitsS32_iff]
  split <;> rfl

/-- A pair's entry set to a compensation of `v` picoseconds, from its half cycle (R255, R258). -/
def OutBank.withComp (b : OutBank) (v : Int) (h : Nat) : Except ErrKind OutBank :=
  if ¬(h : Int) ∣ v then .error .range
  else if 2 ^ 31 ≤ -(v / h) then .error .range
  else .ok { b with phaseComp := BitVec.ofInt 32 (-(v / h)) }

theorem setComp_eq (a : Asic) (pin : Fin 20) (v : Int) :
    a.setComp pin v = (a.pairHalf (pairOf pin)).bind ((a.bankOut.get (pairOf pin)).withComp v) := rfl

/-- What is made of a pair's half cycle is made of its frequency. -/
theorem pairHalf_bind {α : Type} (a : Asic) (p : Fin 10) (g : Nat → Except ErrKind α) :
    (a.pairHalf p).bind g = (a.pairFreq p).bind fun f => (halfAnswer f).bind g := by
  rw [pairHalf_eq]
  cases a.pairFreq p <;> rfl

/-! ### Answers and checks -/

/-- A result of one signed value (R26). -/
def intReply (v : Int) : Reply := { x := BitVec.ofInt 64 v }

/-- As `finished_of_nat`, of an operation that answers a signed value. -/
theorem finished_of_int {i : Instr} {q : Prog Reply} (hq : programOf i = some q) {s : State} {area : Nat → Bool}
    {a : Asic} (ha : Asic.SameBut area s.asic a) {e : Except ErrKind Int}
    (h : ∀ o, q.run (beginOp o s) = answered (e.map intReply) ((beginOp o s).after a)) :
    ∃ t, exec i s = .next t ∧ s.Finished t (statusOf e) (intOf e) 0 ∧ Asic.SameBut area s.asic t.asic := by
  cases e with
  | ok v => exact reached_of_ok hq (e := s.env) (r := intReply v) fun o => ⟨a, h o, ha⟩
  | error k => exact reached_of_raise hq (e := s.env) fun o => ⟨a, h o, ha⟩

/-- A formula evaluated before what it gives a value to. -/
theorem State.Sets.answer {α β : Type} {s : State} (hs : s.Prompt) {area : Nat → Bool} {k : Fin 10} {m : Prog α}
    {e : Except ErrKind α} {f : α → Prog β} {g : α → Except ErrKind OutBank} {r : β} {proc : Proc} {n : Nat}
    (hm : m.run s = answered e s) (h : ∀ v, s.Sets area k (f v) (g v) r) :
    s.Sets area k (letI := Prog.monad; m.on proc n >>= f) (e.bind g) r := by
  cases e with
  | ok v => exact .line hm (h v)
  | error err => exact .raise hs hm

/-- An operation that succeeded was given operands in range (R113). -/
theorem operands_of_status {i : Instr} {q : Prog Reply} (hq : programOf i = some q) {s t : State}
    (ht : exec i s = .next t) (hok : t.res.status = 0) :
    i.indexOk = true ∧ ∀ x, i.s32Operand = some x → -2 ^ 31 ≤ x.toInt ∧ x.toInt < 2 ^ 31 := by
  have hnot : ∀ e, ¬Rejects i s e := fun e h => status_of_rejects h ht hok
  refine ⟨Bool.of_not_eq_false fun hindex => ?_, fun x hx => by_contra fun hrange => ?_⟩
  · exact hnot _ (rejects_of_run hq (program_bad_index hq hindex) s)
  · exact hnot _ (rejects_of_run hq (program_bad_s32 hq hx (fitsS32_eq_false hrange)) s)

/-- An operation that leaves nothing pending leaves a state the next can be run in. -/
theorem State.Prompt.finished {s t : State} (hs : s.Prompt) {status : Byte} {x y : BitVec 64}
    (hfin : s.Finished t status x y) (hq : t.asic.Quiet) : t.Prompt := by
  obtain ⟨⟨_, _, _, _, hpar, _, _, _, _, henv⟩, _⟩ := hfin
  exact ⟨hpar ▸ hs.wf, hq, henv.trans hs.schedule⟩

/-- A signed value returned as it was given. -/
theorem intOf_toInt (x : BitVec 64) : intOf (.ok x.toInt) = x := BitVec.ofInt_toInt

/-! ### References (R252, R253) -/

/-- The Ref window after the compensation is written beside a reference's quadruple. -/
theorem ofImage_refComp (p : Params) (a : Asic) (r : Fin 10) (v : Int) :
    RefBank.ofImage (((a.loaded p .ref r).setReg .refPhaseComp (refCompImage v)).window p .ref) =
      { a.bankRef.get r with phaseComp := BitVec.ofInt 48 (-v) } := by
  have hv : refCompImage v < 256 ^ Reg.refPhaseComp.width := twos_lt 48 (-v)
  obtain ⟨hbase, hmult, hm, hn, _⟩ := window_ref (loaded_window p a .ref r)
  have himage : BitVec.ofNat 48 (refCompImage v) = BitVec.ofInt 48 (-v) := ofNat_twos 48 (-v)
  simp [ofImage_ref, regVal_setReg_same _ hv, regVal_setReg_ne, hbase, hmult, hm, hn, himage]

section
variable {s : State} (hs : s.Prompt) {a : Byte} {r : Fin 10} (hr : a.toNat = r.1)
include hs hr

theorem refPhaseCompGet_answers :
    (refPhaseCompGet a).run s =
      answered ((s.asic.bankRef.get r).comp.map intReply) (s.after (s.asic.loaded s.par .ref r)) := by
  have hs1 : (s.after (s.asic.loaded s.par .ref r)).Prompt := hs.after (loaded_quiet s.par hs.quiet .ref r)
  obtain ⟨_, _, _, _, hcomp⟩ := window_ref (loaded_window s.par s.asic .ref r)
  unfold refPhaseCompGet
  rw [run_on_ok (checkIndex_eq (n := nRef) r hr s), run_on_ok (hs.mbRead .ref r), run_on_ok (hs1.load rfl),
    State.after_asic, hcomp]
  exact run_on_answered (g := fun v => .ok (intReply v)) (orRaise_refPhaseDecode _ _) fun _ => rfl

theorem refPhaseCompGet_finished :
    ∃ t, exec (.refPhaseCompGet a) s = .next t ∧
      s.Finished t (statusOf (s.asic.bankRef.get r).comp) (intOf (s.asic.bankRef.get r).comp) 0 ∧
      Asic.SameBut (mailboxArea s.par .ref) s.asic t.asic :=
  finished_of_int rfl (loaded_sameBut s.par s.asic .ref r) fun o => refPhaseCompGet_answers (s := beginOp o s) hs hr

variable {x : BitVec 64} (hlo : -2 ^ 31 < x.toInt) (hhi : x.toInt < 2 ^ 31)
include hlo hhi

theorem refPhaseCompSet_answers :
    (refPhaseCompSet a x).run s =
      .ok {} (s.after (s.asic.written s.par .ref r [(.refPhaseComp, refCompImage x.toInt)])) := by
  have hlowest : (x.toInt == -2 ^ 31) = false := beq_eq_false_iff_ne.mpr hlo.ne'
  unfold refPhaseCompSet
  rw [run_on_ok (checkIndex_eq (n := nRef) r hr s), run_on_ok (checkS32_ok (fitsS32_of_bounds hlo.le hhi) s),
    run_on_ok (raiseIf_of_false hlowest _ s), run_on_ok (hs.mbWrite (d := .ref) r (by simp [windowOf]))]
  rfl

theorem refPhaseCompSet_finished :
    ∃ t, exec (.refPhaseCompSet a x) s = .next t ∧ s.Finished t 0 0 0 ∧ t.asic.Quiet ∧
      Asic.SameButRef (mailboxArea s.par .ref)
        (upd s.asic.bankRef r { s.asic.bankRef.get r with phaseComp := BitVec.ofInt 48 (-x.toInt) }) s.asic t.asic := by
  have hf : ∀ f ∈ [(Reg.refPhaseComp, refCompImage x.toInt)], windowOf f.1 = some .ref := by simp [windowOf]
  obtain ⟨t, ht, hfin, hasic⟩ := finished_of_ok (i := .refPhaseCompSet a x) rfl (s := s)
    (a := s.asic.written s.par .ref r [(.refPhaseComp, refCompImage x.toInt)]) fun o =>
    refPhaseCompSet_answers (s := beginOp o s) hs hr hlo hhi
  refine ⟨t, ht, hfin, hasic ▸ written_quiet s.par hs.quiet .ref r _ hf, ?_⟩
  rw [hasic, ← ofImage_refComp s.par s.asic r]
  exact ⟨written_eq s.par s.asic .ref r _, fun _ hx => written_get s.par s.asic .ref r _ hf hx⟩

end

/-- A compensation held negated is decoded to what it was (R250, R251). -/
theorem comp_of_negated (b : RefBank) {v : Int} (hlo : -2 ^ 31 < v) (hhi : v < 2 ^ 31) :
    ({ b with phaseComp := BitVec.ofInt 48 (-v) } : RefBank).comp = .ok v := by
  have hheld : (BitVec.ofInt 48 (-v)).toInt = -v := BitVec.toInt_ofInt_eq_self (by decide) (by omega) (by omega)
  unfold RefBank.comp
  rw [hheld, if_pos (by omega), neg_neg]

/-- What REF_PHASE_COMP_SET checks before it reads a register (R113, R253). -/
theorem refPhaseCompSet_accepted {s t : State} {a : Byte} {x : BitVec 64}
    (ht : exec (.refPhaseCompSet a x) s = .next t) (hok : t.res.status = 0) :
    ∃ r : Fin 10, a.toNat = r.1 ∧ -2 ^ 31 < x.toInt ∧ x.toInt < 2 ^ 31 := by
  obtain ⟨hindex, hs32⟩ := operands_of_status rfl ht hok
  obtain ⟨hlo, hhi⟩ := hs32 x rfl
  have ha : a.toNat < 10 := of_decide_eq_true hindex
  refine ⟨⟨a.toNat, ha⟩, rfl, lt_of_le_of_ne hlo fun hlowest => ?_, hhi⟩
  exact status_of_rejects (rejects_of_run_here rfl fun o => refPhaseCompSet_lowest ha hlowest.symm) ht hok

/-! ### Output pairs (R257, R258) -/

/-- The Output window after the compensation is written beside a pair's other fields. -/
theorem ofImage_outComp (p : Params) (a : Asic) (k : Fin 10) (q : Int) :
    OutBank.ofImage (((a.loaded p .out k).setReg .outPhaseComp (outCompImage q)).window p .out) =
      { a.bankOut.get k with phaseComp := BitVec.ofInt 32 (-q) } := by
  have hq : outCompImage q < 256 ^ Reg.outPhaseComp.width := twos_lt 32 (-q)
  obtain ⟨hsel, hfmt, hdiv, hndiv, _⟩ := window_out (loaded_window p a .out k)
  have himage : BitVec.ofNat 32 (outCompImage q) = BitVec.ofInt 32 (-q) := ofNat_twos 32 (-q)
  simp [ofImage_out, regVal_setReg_same _ hq, regVal_setReg_ne, hsel, hfmt, hdiv, hndiv, himage]

section
variable {s : State} (hs : s.Prompt) {a : Byte} {pin : Fin 20} (hpin : a.toNat = pin.1)
include hs hpin

theorem outPhaseCompGet_answers :
    (outPhaseCompGet a).run s =
      answered ((s.asic.pinComp pin).map intReply) (s.after (s.asic.pairRead s.par (pairOf pin))) := by
  have hs1 := hs.after (pairRead_quiet s.par (pairOf pin) hs.quiet)
  obtain ⟨_, _, _, _, hcomp⟩ := window_out (pairRead_window s.par (a := s.asic) (pairOf pin))
  have hbind : (s.asic.pinComp pin).map intReply = (s.asic.pairFreq (pairOf pin)).bind fun f =>
      (halfAnswer f).bind fun h => ((s.asic.bankOut.get (pairOf pin)).compOf h).bind fun v => .ok (intReply v) := by
    rw [pinComp_eq, ← pairHalf_bind]
    cases s.asic.pairHalf (pairOf pin) <;> rfl
  unfold outPhaseCompGet
  rw [run_on_ok (checkIndex_eq (n := nOut) pin hpin s), run_mark, hbind]
  refine run_on_answered (outSynthFreq_answers hs (pairOf pin)) fun f =>
    run_on_answered (orRaise_halfCycle f _) fun h => ?_
  rw [run_on_ok (hs1.load rfl), State.after_asic, hcomp]
  exact run_on_answered (orRaise_outPhaseDecode _ h _) fun _ => rfl

theorem outPhaseCompGet_finished :
    ∃ t, exec (.outPhaseCompGet a) s = .next t ∧
      s.Finished t (statusOf (s.asic.pinComp pin)) (intOf (s.asic.pinComp pin)) 0 ∧
      Asic.SameBut (pairArea s.par) s.asic t.asic :=
  finished_of_int rfl (pairRead_sameBut s.par (pairOf pin)) fun o =>
    outPhaseCompGet_answers (s := beginOp o s) hs hpin

variable {x : BitVec 64} (hlo : -2 ^ 31 ≤ x.toInt) (hhi : x.toInt < 2 ^ 31)
include hlo hhi

theorem outPhaseCompSet_sets :
    s.Sets (pairArea s.par) (pairOf pin) (outPhaseCompSet a x) (s.asic.setComp pin x.toInt) {} := by
  have hs1 := hs.after (pairRead_quiet s.par (pairOf pin) hs.quiet)
  have hbank := pairRead_bankOut s.par (a := s.asic) (pairOf pin)
  have hexact (h : Nat) : (trem x.toInt h != 0) = true ↔ ¬(h : Int) ∣ x.toInt :=
    bne_iff_ne.trans (Int.dvd_iff_tmod_eq_zero ..).not.symm
  rw [setComp_eq, pairHalf_bind]
  unfold outPhaseCompSet
  refine .line (checkIndex_eq (n := nOut) pin hpin s) ?_
  refine .line (checkS32_ok (fitsS32_of_bounds hlo hhi) s) ?_
  refine .afterRead hs fun f => .answer hs1 (orRaise_halfCycle f _) fun h => ?_
  unfold OutBank.withComp
  refine .check hs1 (hexact h) fun hdvd => ?_
  have hquot : tdiv x.toInt h = x.toInt / h := Int.tdiv_eq_ediv_of_dvd (not_not.mp hdvd)
  rw [hquot]
  refine .check hs1 decide_eq_true_iff fun _ => .done (.write hs1 (fun _ hx => (pairArea_eq_false hx).1) rfl ?_)
  rw [ofImage_outComp, State.after_asic, hbank]

theorem outPhaseCompSet_finished :
    ∃ t, exec (.outPhaseCompSet a x) s = .next t ∧ s.Finished t (statusOf (s.asic.setComp pin x.toInt)) 0 0 ∧
      t.asic.Quiet ∧ Asic.SameButOut (pairArea s.par) (s.asic.outBanks (pairOf pin) (s.asic.setComp pin x.toInt))
        s.asic t.asic :=
  finished_of_sets rfl fun o => outPhaseCompSet_sets (s := beginOp o s) hs hpin hlo hhi

end

/-! ### The compensation set is the compensation read (R259) -/

section
variable {b b' : OutBank} {v : Int} (hlo : -2 ^ 31 ≤ v) (hhi : v < 2 ^ 31)
include hlo hhi

/-- The entry made for `v` has the pair's synthesizer as before, and holds `v`. -/
theorem compOf_withComp {h : Nat} (hset : b.withComp v h = .ok b') :
    b'.synthSel = b.synthSel ∧ b'.compOf h = .ok v := by
  unfold OutBank.withComp at hset
  split_ifs at hset with hdvd hbig
  cases hset
  have hheld : (BitVec.ofInt 32 (-(v / h))).toInt = -(v / h) := by
    have hle := Int.natAbs_ediv_le_natAbs v h
    exact BitVec.toInt_ofInt_eq_self (by decide) (by omega) (by omega)
  have hscaled : -(BitVec.ofInt 32 (-(v / h))).toInt * h = v := by rw [hheld, neg_neg, Int.ediv_mul_cancel hdvd]
  refine ⟨rfl, ?_⟩
  unfold OutBank.compOf
  rw [hscaled, if_pos ⟨hlo, hhi⟩]

/-- With the entry OUT_PHASE_COMP_SET makes, either pin of the pair has the compensation set. -/
theorem pinComp_of_setComp {a a' : Asic} {pin pin' : Fin 20} (h : a.setComp pin v = .ok b)
    (hpair : pairOf pin' = pairOf pin) (hout : a'.bankOut = upd a.bankOut (pairOf pin) b)
    (hsynth : a'.bankSynth = a.bankSynth) : a'.pinComp pin' = .ok v := by
  have hget : a'.bankOut.get (pairOf pin) = b := by rw [hout, upd_get_same]
  rw [setComp_eq] at h
  cases hhalf : a.pairHalf (pairOf pin) with
  | error err =>
    rw [hhalf] at h
    cases h
  | ok u =>
    rw [hhalf] at h
    obtain ⟨hsel, hcomp⟩ := compOf_withComp hlo hhi h
    have hhalf' : a'.pairHalf (pairOf pin) = .ok u := by
      rw [← hhalf, Asic.pairHalf, Asic.pairHalf, Asic.pairFreq, Asic.pairFreq, hget, hsel, hsynth]
    rw [pinComp_eq, hpair, hhalf', hget]
    exact hcomp

end

end Sys2Proof.Machine

namespace Sys2Proof.Proofs

open Sys2Proof.Machine

/-- Settles O49: the get decodes the Ref window's compensation, and the set writes that field of the window alone. -/
theorem refPhaseCompNegates : Obligations.RefPhaseCompNegates := by
  intro s a r hs hr
  refine ⟨refPhaseCompGet_finished hs hr, fun x hlo hhi => ?_⟩
  obtain ⟨t, ht, hfin, _, hsame⟩ := refPhaseCompSet_finished hs hr hlo hhi
  exact ⟨t, ht, hfin, hsame⟩

/-- Settles O50: the pair's synthesizer is read and gives the half cycle, by which the get scales the pair's window and
the set divides before its one mailbox write. -/
theorem outPhaseCompScales : Obligations.OutPhaseCompScales := by
  intro s a pin hs hpin
  refine ⟨outPhaseCompGet_finished hs hpin, fun x hlo hhi => ?_⟩
  obtain ⟨t, ht, hfin, _, hsame⟩ := outPhaseCompSet_finished hs hpin hlo hhi
  exact ⟨t, ht, hfin, hsame⟩

/-- Settles O51: a set that succeeds passed its checks, its new entry decodes to the value set, and it leaves nothing
pending for the get. -/
theorem phaseCompRoundTrip : Obligations.PhaseCompRoundTrip := by
  refine fun s t a b x hs => ⟨fun ht hok => ?_, fun ht hok hab => ?_⟩
  · obtain ⟨r, hr, hlo, hhi⟩ := refPhaseCompSet_accepted ht hok
    obtain ⟨t', ht', hfin, hquiet, hset, _⟩ := refPhaseCompSet_finished hs hr hlo hhi
    cases ht.symm.trans ht'
    have hcomp : (t.asic.bankRef.get r).comp = .ok x.toInt := by
      rw [(congrArg Asic.bankRef hset :), upd_get_same]
      exact comp_of_negated _ hlo hhi
    obtain ⟨u, hu, ⟨⟨hres, _⟩, _⟩, _⟩ := refPhaseCompGet_finished (hs.finished hfin hquiet) hr
    refine ⟨u, hu, ?_⟩
    rw [hres, hcomp, intOf_toInt]
    rfl
  · obtain ⟨hindex, hs32⟩ := operands_of_status rfl ht hok
    obtain ⟨hlo, hhi⟩ := hs32 x rfl
    have ha : a.toNat < 20 := of_decide_eq_true hindex
    obtain ⟨t', ht', hfin, hquiet, hset, _⟩ := outPhaseCompSet_finished (pin := ⟨a.toNat, ha⟩) hs rfl hlo hhi
    cases ht.symm.trans ht'
    have hprompt := hs.finished hfin hquiet
    obtain ⟨⟨hstatus, _⟩, _⟩ := hfin
    rw [hstatus] at hok
    obtain ⟨e, he⟩ := ok_of_status hok
    rw [he] at hset
    have hcomp : t.asic.pinComp ⟨b.toNat, by omega⟩ = .ok x.toInt :=
      pinComp_of_setComp hlo hhi he (Fin.ext hab) (congrArg Asic.bankOut hset :) (congrArg Asic.bankSynth hset :)
    obtain ⟨u, hu, ⟨⟨hres, _⟩, _⟩, _⟩ := outPhaseCompGet_finished (pin := ⟨b.toNat, by omega⟩) hprompt rfl
    refine ⟨u, hu, ?_⟩
    rw [hres, hcomp, intOf_toInt]
    rfl

end Sys2Proof.Proofs
end

section
/-! SUPPORT. The pin and periodic-output operations (45_pin_enable.md): what each does to a pair's enable state and to
the perout masks, and which programs leave a mask alone. -/

namespace Sys2Proof.Machine

/-! ### Pins (R273, R274) -/

/-- The Output window after the signal format is written beside a pair's other fields. -/
theorem ofImage_fmt (p : Params) (a : Asic) (k : Fin 10) {v : Nat} (hv : v < 256 ^ Reg.outSignalFmt.width) :
    OutBank.ofImage (((a.loaded p .out k).setReg .outSignalFmt v).window p .out) =
      { a.bankOut.get k with signalFmt := BitVec.ofNat 8 v } := by
  obtain ⟨hsel, _, hdiv, hndiv, hcomp⟩ := window_out (loaded_window p a .out k)
  simp [ofImage_out, regVal_setReg_same _ hv, regVal_setReg_ne, hsel, hdiv, hndiv, hcomp]

theorem EnableState.code_lt (st : EnableState) : st.code < 256 := by cases st <;> decide

section
variable {s : State} (hs : s.Prompt)
include hs

/-- A pair's entry set after the pair is read (R273). -/
theorem State.Sets.afterLoad {β : Type} {k : Fin 10} {f : Unit → Prog β} {e : Except ErrKind OutBank} {r : β}
    {proc : Proc} {n : Nat}
    (h : (s.after (s.asic.loaded s.par .out k)).Sets (mailboxArea s.par .out) k (f ()) e r) :
    s.Sets (mailboxArea s.par .out) k (letI := Prog.monad; (mbRead .out k.1).on proc n >>= f) e r := by
  obtain ⟨a, hrun, hq, hset⟩ := h
  exact ⟨a, (run_on_ok (hs.mbRead .out k)).trans hrun, hq, (loaded_sameBut s.par s.asic .out k).trans_out hset⟩

theorem pinMove_sets {a : Byte} {pin : Fin 20} (hpin : a.toNat = pin.1) (proc : Proc)
    (next : EnableState → Half → EnableState) :
    s.Sets (mailboxArea s.par .out) (pairOf pin) (pinMove proc next a) (s.asic.pinMoved next pin) {} := by
  have hs1 := hs.after (loaded_quiet s.par hs.quiet .out (pairOf pin))
  obtain ⟨_, hfmt, _⟩ := window_out (loaded_window s.par s.asic .out (pairOf pin))
  unfold pinMove Asic.pinMoved
  refine .line (checkIndex_eq (n := nOut) pin hpin s) <| .line (run_ret () s) <| .afterLoad hs <|
    .line (hs1.load rfl) ?_
  rw [State.after_asic, hfmt]
  cases enableStateOf (s.asic.bankOut.get (pairOf pin)).signalFmt.toNat with
  | none => exact ⟨_, rfl, hs1.quiet, .refl ..⟩
  | some st => exact .done (.write hs1 (fun _ hx => hx) rfl (ofImage_fmt _ _ _ (EnableState.code_lt _)))

theorem pinMove_finished {i : Instr} {a : Byte} {pin : Fin 20} (hpin : a.toNat = pin.1) {proc : Proc}
    {next : EnableState → Half → EnableState} (hi : programOf i = some (pinMove proc next a)) :
    ∃ t, exec i s = .next t ∧ s.Finished t (statusOf (s.asic.pinMoved next pin)) 0 0 ∧
      Asic.SameButOut (mailboxArea s.par .out) (s.asic.outBanks (pairOf pin) (s.asic.pinMoved next pin))
        s.asic t.asic := by
  have hsets : ∀ o, (beginOp o s).Sets (mailboxArea s.par .out) (pairOf pin) (pinMove proc next a)
      (s.asic.pinMoved next pin) {} := fun o => pinMove_sets (s := beginOp o s) hs hpin proc next
  obtain ⟨t, ht, hfin, _, hsame⟩ := finished_of_sets hi hsets
  exact ⟨t, ht, hfin, hsame⟩

end

/-! ### Periodic outputs (R280, R281) -/

theorem pairBit_eq (p : Fin 10) : pairBit p = BitVec.ofNat 16 (2 ^ p.1) := by
  revert p
  decide

/-- The mask with a pair's bit cleared. -/
theorem getLsbD_clearPair (m : BitVec 16) (p : Fin 10) (q : Nat) :
    (m &&& ~~~pairBit p).getLsbD q = (m.getLsbD q && decide (q ≠ p.1)) := by
  have hbit : pairBit p = BitVec.twoPow 16 p.1 := rfl
  by_cases hq : q < 16
  · simp [hbit, hq]
  · simp [BitVec.getLsbD_of_ge m q (by omega)]

/-- An operation whose program puts a pair into a mask or takes it out, its accesses having changed the ASIC side
alone. -/
theorem returned_of_markPair {i : Instr} {q : Prog Reply} (hq : programOf i = some q) {s : State} {a : Asic}
    {d : Fin 2} {p : Fin 10} {on : Bool}
    (h : ∀ o, q.run (beginOp o s) = .ok {} (((beginOp o s).after a).markPair d p on)) :
    ∃ t, exec i s = .next t ∧ s.Returned t 0 0 0 ∧ t.ctl.perout = (s.markPair d p on).ctl.perout ∧
      t.asic = a := by
  obtain ⟨o, _, he⟩ := exec_program hq
  refine ⟨endOp 0 {} (((beginOp o s).after a).markPair d p on), ?_,
    ⟨rfl, rfl, rfl, rfl, rfl, rfl, rfl, rfl, rfl, rfl⟩, rfl, rfl⟩
  rw [he, runOperation, h]
  rfl

section
variable {s : State} {a : Byte} {i : Fin 2} {p : Fin 10} (ha : a.toNat = 16 * i.1 + p.1)
include ha

theorem peroutDisable_run : (peroutDisable a).run s = .ok {} (s.markPair i p false) := by
  unfold peroutDisable
  rw [run_mark, run_on_ok (checkDpllPair_ok ha s)]
  rfl

variable (hs : s.Prompt) {x y : BitVec 64} (hx : x.toInt = 1000000000) (hy : (1000000000 : Int) ∣ y.toInt)
include hs hx hy

/-- PEROUT_ENABLE up to its synthesizer read, and after it where that read answers (R280). -/
theorem peroutEnable_run : (peroutEnable a x y).run s = match s.asic.pairFreq p with
    | .ok _ => .ok {} ((s.after (s.asic.pairRead s.par p)).markPair i p true)
    | .error k => .error (.raise k) (s.after (s.asic.pairRead s.par p)) := by
  have hx0 : (x.toInt != nsPerS) = false := bne_eq_false_iff_eq.mpr hx
  have hy0 : (trem y.toInt nsPerS != 0) = false := bne_eq_false_iff_eq.mpr (Int.tmod_eq_zero_of_dvd hy)
  have hread := outSynthFreq_answers hs p
  unfold peroutEnable
  rw [run_mark, run_on_ok (checkDpllPair_ok ha s), run_on_ok (raiseIf_of_false hx0 _ s),
    run_on_ok (raiseIf_of_false hy0 _ s)]
  cases hf : s.asic.pairFreq p with
  | ok f =>
    rw [hf] at hread
    exact run_on_ok hread
  | error k =>
    rw [hf] at hread
    exact run_on_error hread

end

/-! ### Which programs leave a mask alone (R282) -/

/-- The program leaves `ctl.perout[d]` as it was, however it ends. -/
def KeepsMask {α : Type} (d : Fin 2) (m : Prog α) : Prop :=
  ∀ s, (left (m.run s)).ctl.perout.get d = s.ctl.perout.get d

section
variable {α β : Type} {d : Fin 2}

theorem Uses.keepsMask {W : List Reg} {E : List ErrKind} {m : Prog α} (h : Uses W E m) : KeepsMask d m := by
  intro s
  have hs := h s trivial
  suffices hk : Kept W s (left (m.run s)) by rw [hk.perout]
  cases hm : m.run s with
  | ok v t => rw [hm] at hs; exact hs.1
  | error e t =>
    rw [hm] at hs
    cases e with
    | raise e => exact hs.1
    | fault f => exact hs.elim

theorem KeepsMask.bind {m : Prog α} {f : α → Prog β} (hm : KeepsMask d m)
    (hf : ∀ v s t, m.run s = .ok v t → KeepsMask d (f v)) : KeepsMask d (letI := Prog.monad; m >>= f) := by
  intro s
  have hs := hm s
  rw [run_bind]
  cases h : m.run s with
  | ok v t => rw [h] at hs; exact (hf v s t h t).trans hs
  | error e t => rw [h] at hs; exact hs

theorem KeepsMask.on {m : Prog α} {proc : Proc} {n : Nat} (h : KeepsMask d m) : KeepsMask d (m.on proc n) := by
  intro s
  rw [run_on]
  exact h s

theorem KeepsMask.markPair {i : Fin 2} (h : i ≠ d) (p : Fin 10) (on : Bool) : KeepsMask d (markPair i p on) :=
  fun _ => upd_get_ne _ _ h

/-- The DPLL a checked `{dpll, pair}` names is its high nibble (R110). -/
theorem checkDpllPair_names {a : Byte} {ip : Fin 2 × Fin 10} {s t : State} (h : (checkDpllPair a).run s = .ok ip t) :
    ip.1.1 = a.toNat / 16 := by
  by_cases hok : a.toNat / 16 < 2 ∧ a.toNat % 16 < 10
  · have hpair : (checkDpllPair a).run s = .ok (⟨a.toNat / 16, hok.1⟩, ⟨a.toNat % 16, hok.2⟩) s :=
      checkDpllPair_ok (by simp only; omega) s
    cases hpair.symm.trans h
    rfl
  · cases (checkDpllPair_bad hok s).symm.trans h

/-- The perout operations that name DPLL `d` (R282). -/
def NamesMask (d : Fin 2) (i : Instr) : Prop :=
  (∃ a x y, i = .peroutEnable a x y ∧ a.toNat / 16 = d.1) ∨ ∃ a, i = .peroutDisable a ∧ a.toNat / 16 = d.1

theorem KeepsMask.ret (v : α) : KeepsMask d (Prog.ret v) := fun _ => rfl

theorem KeepsMask.raiseIf (c : Bool) (e : ErrKind) : KeepsMask d (raiseIf c e) :=
  (Uses.raiseIf (W := []) (List.mem_singleton_self e)).keepsMask

theorem keepsMask_checkDpllPair (a : Byte) : KeepsMask d (checkDpllPair a) :=
  (checkDpllPair_uses (W := []) a (List.mem_singleton_self _)).keepsMask

/-- A mask marked at the pair checked, of a DPLL other than `d`. -/
theorem keepsMask_markChecked {a : Byte} (ha : a.toNat / 16 ≠ d.1) {ip : Fin 2 × Fin 10} {s t : State}
    (h : (checkDpllPair a).run s = .ok ip t) (on : Bool) : KeepsMask d (markPair ip.1 ip.2 on) :=
  .markPair (fun he => ha ((checkDpllPair_names h).symm.trans (congrArg Fin.val he))) _ _

theorem peroutEnable_keepsMask {a : Byte} (ha : a.toNat / 16 ≠ d.1) (x y : BitVec 64) :
    KeepsMask d (peroutEnable a x y) := by
  unfold peroutEnable
  refine .bind (KeepsMask.ret ()).on fun _ _ _ _ => (keepsMask_checkDpllPair a).on.bind fun ip s t hip => ?_
  rw [run_on] at hip
  refine (KeepsMask.raiseIf _ _).on.bind fun _ _ _ _ => (KeepsMask.raiseIf _ _).on.bind fun _ _ _ _ => ?_
  refine (Uses.keepsMask (outSynthFreq_runs ip.2)).on.bind fun _ _ _ _ => ?_
  exact (keepsMask_markChecked ha hip true).on.bind fun _ _ _ _ => (KeepsMask.ret _).on

theorem peroutDisable_keepsMask {a : Byte} (ha : a.toNat / 16 ≠ d.1) : KeepsMask d (peroutDisable a) := by
  unfold peroutDisable
  refine .bind (KeepsMask.ret ()).on fun _ _ _ _ => (keepsMask_checkDpllPair a).on.bind fun ip s t hip => ?_
  rw [run_on] at hip
  exact (keepsMask_markChecked ha hip false).on.bind fun _ _ _ _ => (KeepsMask.ret _).on

end

/-- An operation that does not name DPLL `d` leaves its mask alone. -/
theorem program_keepsMask {i : Instr} {q : Prog Reply} {d : Fin 2} (h : programOf i = some q) (hd : ¬NamesMask d i) :
    KeepsMask d q := by
  cases i <;> simp only [programOf, Option.some.injEq, reduceCtorEq] at h <;> subst h
  case todGet a => exact (todGet_uses a).keepsMask
  case todSet a x y => exact (todSet_uses a x y).keepsMask
  case steptime a x => exact (steptime_uses a x).keepsMask
  case adjfine a x => exact (adjfine_uses a x).keepsMask
  case adjphase a x => exact (adjphase_uses a x).keepsMask
  case synthFreqGet a => exact (synthFreqGet_uses a).keepsMask
  case refFreqGet a => exact (refFreqGet_uses a).keepsMask
  case refFreqSet a x => exact (refFreqSet_uses a x).keepsMask
  case outFreqGet a => exact (outFreqGet_uses a).keepsMask
  case outFreqSet a x => exact (outFreqSet_uses a x).keepsMask
  case refPhaseCompGet a => exact (refPhaseCompGet_uses a).keepsMask
  case refPhaseCompSet a x => exact (refPhaseCompSet_uses a x).keepsMask
  case outPhaseCompGet a => exact (outPhaseCompGet_uses a).keepsMask
  case outPhaseCompSet a x => exact (outPhaseCompSet_uses a x).keepsMask
  case pinEnable a => exact (pinMove_uses .pinEnable enableNext a).keepsMask
  case pinDisable a => exact (pinMove_uses .pinDisable disableNext a).keepsMask
  case peroutEnable a x y => exact peroutEnable_keepsMask (fun ha => hd (.inl ⟨a, x, y, rfl, ha⟩)) x y
  case peroutDisable a => exact peroutDisable_keepsMask fun ha => hd (.inr ⟨a, rfl, ha⟩)

/-- A register-level command, ending as it may, leaves both masks alone. -/
theorem runCommand_perout {r : Reg} {b : Byte} {s t : State} (h : runCommand r b s = .next t) :
    t.ctl.perout = s.ctl.perout := by
  have hk := (writeReg_kept (List.mem_singleton_self r) b.toNat s).perout
  rcases runCommand_next h with hw | ⟨e, u, hw, rfl⟩ <;> rw [hw] at hk
  · exact hk
  · split <;> exact hk

end Sys2Proof.Machine

namespace Sys2Proof.Proofs

open Sys2Proof.Machine

/-- Settles O17: an operation is a program, of which only PEROUT_ENABLE and PEROUT_DISABLE have a step that changes a
mask, the one they name, by one of the ten pairs' bits; a command changes none. -/
theorem peroutMaskOwnership : Obligations.PeroutMaskOwnership := by
  intro i s t h
  cases hi : i.isOperation with
  | true =>
    obtain ⟨q, hq⟩ := isOperation_program hi
    obtain ⟨o, _, he⟩ := exec_program hq
    rw [he] at h
    refine ⟨fun d hne => by_contra fun hd => hne ?_, (runOperation_ran h).perout⟩
    obtain ⟨c, x, rfl⟩ := finish_next h
    exact program_keepsMask hq hd (beginOp o s)
  | false =>
    obtain ⟨r, b, _, _, he, _⟩ := command_write hi
    rw [runCommand_perout ((he s).symm.trans h)]
    exact ⟨fun _ hne => absurd rfl hne, id⟩

/-- Settles O53: the pair is read, its state decoded, and the next state's code written back beside the pair's other
fields. -/
theorem pinOperationsMoveLattice : Obligations.PinOperationsMoveLattice := fun _ _ _ hs hpin =>
  ⟨pinMove_finished hs hpin rfl, pinMove_finished hs hpin rfl⟩

/-- Settles O54: the checks pass, the pair's synthesizer is read, and the bit is set only after that read answers. -/
theorem peroutEnableAddsPair : Obligations.PeroutEnableAddsPair := by
  intro s a i p x y hs ha hx hy
  have hrun := fun o => peroutEnable_run (s := beginOp o s) ha hs hx hy
  have hsame : Asic.SameBut (pairArea s.par) s.asic (s.asic.pairRead s.par p) := pairRead_sameBut s.par p
  simp only [beginOp_asic, beginOp_par] at hrun
  cases hf : s.asic.pairFreq p with
  | ok f =>
    rw [hf] at hrun
    obtain ⟨t, ht, hret, hmask, hasic⟩ := returned_of_markPair (i := .peroutEnable a x y) rfl hrun
    refine ⟨t, ht, hret, hmask.trans ?_, hasic ▸ hsame⟩
    rw [← pairBit_eq]
    rfl
  | error k =>
    rw [hf] at hrun
    obtain ⟨t, ht, ⟨hret, hmask⟩, hasic⟩ := finished_of_raise (i := .peroutEnable a x y) rfl hrun
    exact ⟨t, ht, hret, hmask.trans (if_neg (code_ne_zero k)).symm, hasic ▸ hsame⟩

/-- Settles O55: the one step after the checks clears the pair's bit, and none is an access. -/
theorem peroutDisableRemovesPair : Obligations.PeroutDisableRemovesPair := by
  intro s a i p ha
  obtain ⟨t, ht, hret, hmask, hasic⟩ := returned_of_markPair (i := .peroutDisable a) rfl (s := s) (a := s.asic)
    fun o => peroutDisable_run (s := beginOp o s) ha
  refine ⟨t, ht, hret, hasic, fun j hj => ?_, fun q => ?_⟩
  · rw [hmask]
    exact upd_get_ne _ _ hj.symm
  · rw [hmask, ← getLsbD_clearPair]
    exact congrArg (BitVec.getLsbD · q) (upd_get_same ..)

/-- Settles O52: state by state, and code by code. -/
theorem enableLattice : Obligations.EnableLattice := by
  refine ⟨fun s h => ?_, fun s h => ?_, rfl, rfl, rfl, rfl, fun s => ?_, fun c hc => ?_⟩
  · cases s <;> cases h <;> rfl
  · cases s <;> cases h <;> rfl
  · cases s <;> rfl
  · unfold enableStateOf
    rw [if_neg (by omega), if_neg (by omega), if_neg (by omega), if_neg (by omega)]

end Sys2Proof.Proofs
end

section
/-! SUPPORT. What an operation reports: the settled statement of 60_exceptions.md. -/

namespace Sys2Proof.Machine

/-- The status is that of the return or of the error return, and the error return leaves both results 0 (R301, R302). -/
theorem runOperation_res {E : List ErrKind} {q : Prog Reply} (hq : Ends E q) {op : Byte} {s t : State}
    (h : runOperation op q s = .next t) : t.res.status = 0 ∨ ∃ e ∈ E, t.res = ⟨e.code, 0, 0⟩ := by
  have hs := hq (beginOp op s)
  unfold runOperation at h
  cases hr : q.run (beginOp op s) with
  | ok x u =>
    rw [hr] at h
    cases h
    exact .inl rfl
  | error e u =>
    rw [hr] at h hs
    cases e with
    | raise e =>
      cases h
      exact .inr ⟨e, hs, rfl⟩
    | fault f => exact hs.elim

end Sys2Proof.Machine

namespace Sys2Proof.Proofs

open Sys2Proof.Machine

/-- Settles O15: an operation is its program run under its opcode, and that program raises only errors of its row. -/
theorem errorsAreThoseOfTheTable : Obligations.ErrorsAreThoseOfTheTable := by
  intro i s t hi h
  obtain ⟨q, hq⟩ := isOperation_program hi
  obtain ⟨o, _, he⟩ := exec_program hq
  exact runOperation_res (program_ends hq) ((he s).symm.trans h)

end Sys2Proof.Proofs
end
